-- ==== Sys2Proof/Word.lean ====
section
/-! DEFINITION. The two machine words of the block: a byte of buffer memory and a 32-bit host register (10_state R21, 20_memory R60). -/

namespace Sys2Proof

/-- One byte of buffer memory or of the BitMask store. -/
abbrev Byte := BitVec 8

/-- One host register, XLEN = 32 (00_scope R7). -/
abbrev Word := BitVec 32

end Sys2Proof
end

