-- ==== Sys2Proof/Config.lean ====
section
/-! DEFINITION. The constants of 00_scope R6 and R7, the open parameters, and the free values: what the spec leaves unspecified. -/

namespace Sys2Proof.Config

/-! Constants the source fixes (00_scope R6). -/

/-- MIN_NUM_EVEN is 5: the lookahead of 41_rle R151 spells it out as five equal bytes. -/
def minNumEven : Nat := 5
/-- RLE_CNT_MAX: the largest run count, at which a counter is flushed. -/
def rleCntMax : Nat := 32767
/-- RLE_EOS: the end-of-stream count. -/
def rleEos : Int := -32768
/-- BS_WORD: width in bits of a stuffed word. -/
def bsWord : Nat := 32
/-- BS_NUMBITS_MAX: largest element width. -/
def bsNumBitsMax : Nat := 31
/-- HUF_MAX_BINS: largest histogram and code-table size. -/
def hufMaxBins : Nat := 32768
/-- HUF_MAX_LEN: longest code in bits. -/
def hufMaxLen : Nat := 32
/-- HUF_LUT_BITS: largest index width of the decode lookup table. -/
def hufLutBits : Nat := 12

/-! Parameters a decision fixes (00_scope R7). -/

/-- LUT_MAX_STORED: largest number of stored entries of a LUT block. -/
def lutMaxStored : Nat := 254
/-- HBRM_ID: what the register ID reads (10_state R26). -/
def hbrmId : Word := 0x53303533#32
/-- Largest value of either mask dimension, 2^31 - 1 (10_state R31). -/
def dimMax : Nat := 2147483647

/-- The two OPEN parameters of 00_scope R7, fixed for one block. They stand in State so that every statement over states
holds for every value of them. -/
structure Params where
  /-- MEM_SIZE: how many bytes of buffer memory exist. -/
  memSize : Nat
  /-- MASK_MAX_PIXELS: the largest number of pixels the mask store accepts. -/
  maskMaxPixels : Nat
deriving DecidableEq, Repr

/-- DESIGN CHOICE (log 1, unsafe for statements about reset only): the values 95_test_vectors.md uses for both parameters. -/
def params : Params := { memSize := 0x80000, maskMaxPixels := 16777216 }

/-- DESIGN CHOICE (log 2, unsafe): what a byte of buffer memory that nothing has written reads as. The spec leaves the contents
after power-up unspecified (10_state R42); 95_test_vectors.md starts every group with zeros. -/
def unwritten : Byte := 0#8

/-! Free values (log 5): constants without a body, so that nothing can be proved of what they are. The first argument is the
tag the step draws from the counter `fresh` of State, the second tells apart the values drawn under one tag. -/

/-- A byte the spec leaves unspecified (60_exceptions R287, R289; 70_reset R311, R321). -/
opaque freeByte (tag index : Nat) : Byte

/-- A word the spec leaves unspecified (70_reset R320). -/
opaque freeWord (tag index : Nat) : Word

/-- A number the spec leaves unspecified (70_reset R321). -/
opaque freeNat (tag index : Nat) : Nat

end Sys2Proof.Config
end

