-- ==== Sys2Proof/Syntax.lean ====
section
/-! DEFINITION. The commands (30_encoding R91), the host registers (10_state R21) and the actions of the host (44_system R272, 70_reset R310). -/

namespace Sys2Proof

/-- The 32 commands of 30_encoding R91, one constructor per row of the opcode table. A command word carries no operands and no
immediates (R90): all operands are in `ARG0`..`ARG4` (R92). -/
inductive Instr where
  | sysNop
  | sysReset
  | bmSetSize
  | bmIsValid
  | bmSetValid
  | bmSetInvalid
  | bmSetAllValid
  | bmSetAllInvalid
  | bmCount
  | bmLoad
  | bmStore
  | rleSize
  | rleCompress
  | rleDecompress
  | mskEncode
  | mskDecode
  | bsStuff
  | bsUnstuff
  | bsSizeSimple
  | bsSizeLut
  | bsEncSimple
  | bsEncLut
  | bsDecode
  | hufCompute
  | hufSize
  | hufWrTable
  | hufRdTable
  | hufBuild
  | hufEncode
  | hufDecode
  | hufClear
  | hufGetCode
deriving DecidableEq, Repr

/-- The registers of the 64-byte register space, in the order of their offsets (10_state R21); the last two are the reserved
offsets 0x38 and 0x3C. -/
inductive Reg where
  | cmd
  | status
  | arg0
  | arg1
  | arg2
  | arg3
  | arg4
  | res0
  | res1
  | id
  | bmCols
  | bmRows
  | hufStat
  | hufSize
  | reserved38
  | reserved3C
deriving DecidableEq, Repr

/-- One action of the host, the block's environment. The host's pending actions stand in State, oldest first. -/
inductive HostAct where
  /-- Write a 32-bit word to the register at a byte offset (44_system R272). -/
  | writeReg (offset : Nat) (value : Word)
  /-- Read the register at a byte offset (44_system R272). -/
  | readReg (offset : Nat)
  /-- Store bytes into buffer memory (20_memory R60, R71). -/
  | writeMem (addr : Nat) (bytes : List Byte)
  /-- Read `n` bytes of buffer memory (20_memory R60, R71). -/
  | readMem (addr n : Nat)
  /-- Read `STATUS` until `BUSY = 0` (30_encoding R109, R110 `WAIT`): the block runs until it is idle. -/
  | wait
  /-- Drive the reset input `rst`: `true` asserts it, `false` releases it (70_reset R310, R311). -/
  | rst (asserted : Bool)
  /-- Drop the next `n` actions unless `STATUS.ERR` is `OK` (30_encoding R110: a sequence stops at the first command that does
  not end in `OK`). -/
  | skipUnlessOk (n : Nat)
deriving DecidableEq, Repr

end Sys2Proof
end

