-- ==== Sys2Proof/Machine/State.lean ====
section
/-! DEFINITION. The state of the block, of its buffer memory and of the host that drives it, as plain data, and its value after reset (10_state R20, R42). -/

namespace Sys2Proof.Machine

/-- The status codes of 60_exceptions R281. -/
inductive StatusCode where
  | ok
  | failed
  | wrongParam
  | bufferTooSmall
  /-- Reserved, never produced (60_exceptions R282). -/
  | nan
  | illegalCommand
deriving DecidableEq, Repr

/-- What a command raises (00_scope R13); `bufferTooSmall` carries the needed size. -/
inductive Raise where
  | failed
  | wrongParam
  | bufferTooSmall (need : Nat)
  | illegalCommand
deriving DecidableEq, Repr

/-- The buffer-memory addresses `lo .. hi-1`, whose bytes are unspecified: the byte at address `a` is the free value
`Config.freeByte tag a`. -/
structure Span where
  lo : Nat
  hi : Nat
  tag : Nat
deriving DecidableEq, Repr

/-- Buffer memory (20_memory R60): the bytes written, in one canonical form, and the spans whose bytes are unspecified. An
address in neither reads as `Config.unwritten`. -/
structure Memory where
  /-- Addresses strictly rising, no byte equal to `Config.unwritten`, no address inside a span. -/
  cells : List Host.Cell
  /-- Rising, disjoint, none empty. -/
  spans : List Span
deriving DecidableEq, Repr

/-- The BitMask store (10_state R31 to R33). -/
structure Mask where
  cols : Nat
  rows : Nat
  /-- `Size()` bytes, tail bits included. -/
  bits : List Byte
deriving DecidableEq, Repr

/-- The Huffman code table (10_state R35). -/
structure HufTable where
  valid : Bool
  size : Nat
  /-- Length of the code of each symbol, 0 for an unused one. -/
  len : List Nat
  /-- The code of each symbol, 0 for an unused one. -/
  code : List Nat
deriving DecidableEq, Repr

/-- The long-code tree (10_state R38); `empty` is a place no code reaches. -/
inductive CodeTree where
  | empty
  | leaf (symbol : Nat)
  | node (zero one : CodeTree)
deriving DecidableEq, Repr

/-- The Huffman decoder structures (10_state R37 to R39). -/
structure HufDecoder where
  valid : Bool
  numBitsLUT : Nat
  skip : Nat
  /-- Entry `e` is `(len, symbol)`, or `none` for "no short code". -/
  lut : List (Option (Nat × Nat))
  tree : CodeTree
deriving DecidableEq, Repr

/-- Everything the spec gives the block (10_state R20), its buffer memory, its two open parameters, and the host's side. -/
structure State where
  /-- `CMD` (10_state R22). -/
  cmd : Word
  /-- `STATUS.BUSY` (10_state R23). -/
  busy : Bool
  /-- `STATUS.DONE` (10_state R23). -/
  done : Bool
  /-- `STATUS.ERR` (10_state R23). -/
  err : StatusCode
  /-- `ARG0` (10_state R24). -/
  arg0 : Word
  /-- `ARG1` (10_state R24). -/
  arg1 : Word
  /-- `ARG2` (10_state R24). -/
  arg2 : Word
  /-- `ARG3` (10_state R24). -/
  arg3 : Word
  /-- `ARG4` (10_state R24). -/
  arg4 : Word
  /-- `RES0` (10_state R25). -/
  res0 : Word
  /-- `RES1` (10_state R25). -/
  res1 : Word
  /-- The BitMask store. -/
  bm : Mask
  /-- The Huffman code table. -/
  ht : HufTable
  /-- The Huffman decoder structures. -/
  hd : HufDecoder
  /-- Buffer memory, the platform's (20_memory R60). -/
  mem : Memory
  /-- `MEM_SIZE` and `MASK_MAX_PIXELS` (00_scope R7); no step changes them. -/
  params : Config.Params
  /-- The level of the reset input `rst`, driven by the host: while it is asserted the block stands at its reset values (70_reset
  R310). -/
  rst : Bool
  /-- The MODEL's own: the host's pending actions, oldest first (log 3, 4). -/
  host : List HostAct
  /-- The MODEL's own: the host broke the ownership rule on the running command (70_reset R321, log 10). -/
  raced : Bool
  /-- The MODEL's own: the word the host's last register read returned (log 17). -/
  rdata : Word
  /-- The MODEL's own: the bytes the host's last buffer-memory read returned (log 17). -/
  mdata : List Byte
  /-- The MODEL's own: the tag of the next free value (log 5). -/
  fresh : Nat
deriving DecidableEq, Repr

/-- Why the machine stops. No command raises one: every command ends with a status code (60_exceptions R280). -/
inductive Fault where
  /-- Raised by an action of the host that touches buffer memory at or beyond `MEM_SIZE`, where no memory exists (20_memory R60,
  R69). Safe: the model stops. -/
  | hostAddress
deriving DecidableEq, Repr

/-- What the model gives no meaning to. -/
inductive Refusal where
  /-- Raised by an arm of exec whose command has no meaning yet: none is left. Safe: the model stops. -/
  | notModelled (mnemonic : String)
  /-- Raised by a register access of the host at an offset that is no multiple of 4 below 64: outside the interface
  (44_system R272). Safe: the model stops. -/
  | outsideInterface
deriving DecidableEq, Repr

/-- The store 0 by 0 (10_state R42). -/
def Mask.empty : Mask := { cols := 0, rows := 0, bits := [] }

/-- No valid table (10_state R42). -/
def HufTable.cleared : HufTable := { valid := false, size := 0, len := [], code := [] }

/-- No decoder structures (10_state R42). -/
def HufDecoder.cleared : HufDecoder :=
  { valid := false, numBitsLUT := 0, skip := 0, lut := [], tree := .empty }

/-- Buffer memory in which nothing is listed. -/
def Memory.empty : Memory := { cells := [], spans := [] }

/-- The state right after reset (10_state R42, 70_reset R310). Buffer memory is not the block's: nothing is listed in it
(log 2). The parameters have the values of log 1; the reset input has been released (log 13); the model's own fields those of logs 4, 5, 10 and 17. -/
def State.reset : State :=
  { cmd := 0#32, busy := false, done := false, err := .ok
    arg0 := 0#32, arg1 := 0#32, arg2 := 0#32, arg3 := 0#32, arg4 := 0#32
    res0 := 0#32, res1 := 0#32
    bm := Mask.empty, ht := HufTable.cleared, hd := HufDecoder.cleared
    mem := Memory.empty, params := Config.params, rst := false
    host := [], raced := false, rdata := 0#32, mdata := [], fresh := 0 }

end Sys2Proof.Machine
end

