-- ==== Sys2Proof/Machine/Bits.lean ====
section
/-! DEFINITION. Numbers, little-endian bytes, bit strings and read cursors: the notation of 00_scope R8 to R15. -/

namespace Sys2Proof.Machine

/-- `ceil(a / b)` (00_scope R8). -/
def ceilDiv (a b : Nat) : Nat := (a + b - 1) / b

/-- `bitlen(v)` (00_scope R9): 0 for 0, else the `b` with `2^(b-1) ≤ v < 2^b`. -/
def bitlen (v : Nat) : Nat := if v = 0 then 0 else Nat.log2 v + 1

/-- `n` bytes of a number, least significant first (00_scope R11, 20_memory R64). -/
def leBytes : (n v : Nat) → List Byte
  | 0, _ => []
  | n + 1, v => BitVec.ofNat 8 v :: leBytes n (v / 256)

/-- The unsigned little-endian number of a byte sequence (00_scope R11). -/
def leNat : List Byte → Nat
  | [] => 0
  | b :: t => b.toNat + 256 * leNat t

/-- `I16(c)`: two little-endian bytes of two's complement (41_rle R150). -/
def i16Bytes (c : Int) : List Byte := leBytes 2 (BitVec.ofInt 16 c).toNat

/-- `I32(x)`: four little-endian bytes of two's complement (41_rle R157). -/
def i32Bytes (x : Int) : List Byte := leBytes 4 (BitVec.ofInt 32 x).toNat

/-- A byte sequence read as a signed little-endian number of `n` bits (00_scope R9, R12). -/
def leInt (n : Nat) (bs : List Byte) : Int := (BitVec.ofNat n (leNat bs)).toInt

/-! Bit strings (00_scope R14), the leftmost bit first. -/

/-- `bits_n(v)`: the `n`-bit string of `v`, most significant bit first. -/
def bitsOf : (n v : Nat) → List Bool
  | 0, _ => []
  | n + 1, v => v.testBit n :: bitsOf n v

/-- The number a bit string writes, its first bit the most significant. -/
def natOfBits (bs : List Bool) : Nat := bs.foldl (fun acc b => 2 * acc + b.toNat) 0

/-- The next 32-bit word of a bit string, zero bits appended if it is shorter. -/
def wordOfBits (bs : List Bool) : Nat :=
  natOfBits (bs.take Config.bsWord) * 2 ^ (Config.bsWord - (bs.take Config.bsWord).length)

/-- The first `w` words of `words(S)`. -/
def wordsOf : (w : Nat) → List Bool → List Nat
  | 0, _ => []
  | w + 1, bs => wordOfBits bs :: wordsOf w (bs.drop Config.bsWord)

/-- `bytesLE(words(S))` (00_scope R14). -/
def stuffedBytes (bs : List Bool) : List Byte :=
  (wordsOf (ceilDiv bs.length Config.bsWord) bs).flatMap (leBytes 4)

/-- The bits of the whole words a byte sequence holds: bit `q` is `word(q div 32)[31 - (q mod 32)]` (42_bitstuffer R182,
43_huffman R238). Bytes after the last whole word hold none. -/
def streamBits : List Byte → List Bool
  | b0 :: b1 :: b2 :: b3 :: t => bitsOf Config.bsWord (leNat [b0, b1, b2, b3]) ++ streamBits t
  | _ => []

/-! Read cursors (00_scope R12). -/

/-- A read cursor: the bytes of the budget not yet read, and how many were read. -/
structure Cursor where
  left : List Byte
  used : Nat
deriving DecidableEq, Repr

/-- A cursor at the start of a byte sequence whose length is the budget. -/
def Cursor.start (bs : List Byte) : Cursor := { left := bs, used := 0 }

/-- The first `n` bytes of a sequence and the rest, if it has so many. -/
def takeExact : (n : Nat) → List Byte → Option (List Byte × List Byte)
  | 0, bs => some ([], bs)
  | _ + 1, [] => none
  | n + 1, b :: bs =>
    match takeExact n bs with
    | none => none
    | some (h, t) => some (b :: h, t)

/-- `rdBytes(rc, n)`: `Failed` if fewer than `n` bytes of budget are left (00_scope R12). -/
def rdBytes (n : Nat) (rc : Cursor) : Except Raise (List Byte × Cursor) :=
  match takeExact n rc.left with
  | none => .error .failed
  | some (h, t) => .ok (h, { left := t, used := rc.used + n })

/-- The unsigned little-endian number of `n` bytes: `rdU8`, `rdU16`, `rdU32` (00_scope R12). -/
def rdUnsigned (n : Nat) (rc : Cursor) : Except Raise (Nat × Cursor) :=
  match rdBytes n rc with
  | .error e => .error e
  | .ok (bs, rc') => .ok (leNat bs, rc')

/-- The signed little-endian number of `n` bytes: `rdI16`, `rdI32` (00_scope R12). -/
def rdSigned (n : Nat) (rc : Cursor) : Except Raise (Int × Cursor) :=
  match rdBytes n rc with
  | .error e => .error e
  | .ok (bs, rc') => .ok (leInt (8 * n) bs, rc')

end Sys2Proof.Machine
end

