-- ==== Sys2Proof/Machine/Ops.lean ====
section
/-! DEFINITION. The named operations over buffer memory, windows and registers, and the end of a command, which is what the block has in the place of taking an exception (60_exceptions R280, R292). -/

namespace Sys2Proof.Machine

/-! Buffer memory, one byte at a time (20_memory R60). -/

/-- The byte listed at an address. -/
def cellAt : List Host.Cell → Nat → Byte
  | [], _ => Config.unwritten
  | (k, b) :: t, a => if k = a then b else cellAt t a

/-- Takes every entry of an address out of a list of cells. -/
def cellDrop (cells : List Host.Cell) (a : Nat) : List Host.Cell := cells.filter (fun c => !decide (c.1 = a))

/-- Puts an entry in its place by rising address. -/
def cellInsert : List Host.Cell → Nat → Byte → List Host.Cell
  | [], a, v => [(a, v)]
  | (k, b) :: t, a, v => if a < k then (a, v) :: (k, b) :: t else (k, b) :: cellInsert t a v

/-- Lists a byte at an address in the place of what stood there, or nothing when the byte is what an unlisted address reads as. -/
def cellPut (cells : List Host.Cell) (a : Nat) (v : Byte) : List Host.Cell :=
  if v = Config.unwritten then cellDrop cells a else cellInsert (cellDrop cells a) a v

/-- An address lies inside a span. -/
def Span.covers (sp : Span) (a : Nat) : Bool := decide (sp.lo ≤ a) && decide (a < sp.hi)

/-- The span, if any, that an address lies in. -/
def spanAt (sps : List Span) (a : Nat) : Option Span := sps.find? (fun sp => sp.covers a)

/-- What is left of a span when the addresses `lo .. hi-1` are taken out of it. -/
def Span.punch (lo hi : Nat) (sp : Span) : List Span :=
  (if sp.lo < min sp.hi lo then [{ sp with hi := min sp.hi lo }] else []) ++
  (if max sp.lo hi < sp.hi then [{ sp with lo := max sp.lo hi }] else [])

/-- Takes the addresses `lo .. hi-1` out of every span. -/
def punchSpans (lo hi : Nat) (sps : List Span) : List Span :=
  if lo < hi then sps.flatMap (Span.punch lo hi) else sps

/-- Puts a span in its place by rising address. -/
def insertSpan (sp : Span) : List Span → List Span
  | [] => [sp]
  | q :: t => if sp.lo < q.lo then sp :: q :: t else q :: insertSpan sp t

/-- The byte at an address: the last value written, an unspecified value inside a span, or what an unlisted address reads as
(20_memory R60). -/
def Memory.read (m : Memory) (a : Nat) : Byte :=
  match spanAt m.spans a with
  | some sp => Config.freeByte sp.tag a
  | none => cellAt m.cells a

/-- Stores one byte. -/
def Memory.write (m : Memory) (a : Nat) (v : Byte) : Memory :=
  { cells := cellPut m.cells a v, spans := punchSpans a (a + 1) m.spans }

/-- `MemRead(addr, n)` (00_scope R11). -/
def Memory.readBytes (m : Memory) : (a n : Nat) → List Byte
  | _, 0 => []
  | a, n + 1 => m.read a :: m.readBytes (a + 1) n

/-- `MemWrite(addr, n, v)`, lowest address first (00_scope R11). -/
def Memory.writeBytes (m : Memory) (a : Nat) : List Byte → Memory
  | [] => m
  | v :: t => (m.write a v).writeBytes (a + 1) t

/-- Leaves the `n` bytes from `a` on unspecified: each reads as a free value of the tag (60_exceptions R289). -/
def Memory.scramble (m : Memory) (a n tag : Nat) : Memory :=
  if n = 0 then m
  else
    { cells := m.cells.filter (fun c => !(decide (a ≤ c.1) && decide (c.1 < a + n)))
      spans := insertSpan { lo := a, hi := a + n, tag := tag } (punchSpans a (a + n) m.spans) }

/-- The one canonical form of a buffer memory. -/
abbrev Memory.wf (m : Memory) : Prop :=
  m.cells.Pairwise (fun c d => c.1 < d.1) ∧
  (∀ c ∈ m.cells, c.2 ≠ Config.unwritten) ∧
  (∀ sp ∈ m.spans, sp.lo < sp.hi) ∧
  m.spans.Pairwise (fun p q => p.hi ≤ q.lo) ∧
  (∀ c ∈ m.cells, spanAt m.spans c.1 = none)

/-! Windows (20_memory R66, R67). -/

/-- A window of a command: written or only read, start address, length in bytes. -/
structure Window where
  write : Bool
  start : Nat
  len : Nat
deriving DecidableEq, Repr

/-- The bounds check: without wrap-around, and never for a window of length 0 (20_memory R66). -/
def Window.inMem (memSize : Nat) (w : Window) : Bool := decide (w.len = 0) || decide (w.start + w.len ≤ memSize)

/-- An address lies inside a window. -/
def Window.covers (w : Window) (a : Nat) : Bool := decide (w.start ≤ a) && decide (a < w.start + w.len)

/-- The first `n` bytes of a window, or all of it. -/
def Window.cut (w : Window) (n : Nat) : Window := { w with len := min w.len n }

/-- Two windows of positive length share an address. -/
def Window.overlaps (w v : Window) : Bool :=
  decide (0 < w.len) && decide (0 < v.len) && decide (w.start < v.start + v.len) && decide (v.start < w.start + w.len)

/-- Two windows may stand together: two read windows may overlap, a write window overlaps no other (20_memory R67). -/
def Window.compatible (w v : Window) : Bool := !((w.write || v.write) && w.overlaps v)

/-- Every pair of a list of windows may stand together. -/
def windowsDisjoint : List Window → Bool
  | [] => true
  | w :: t => t.all (fun v => w.compatible v) && windowsDisjoint t

/-- Both window tests (20_memory R66, R67). -/
def windowsOk (memSize : Nat) (ws : List Window) : Bool := ws.all (Window.inMem memSize) && windowsDisjoint ws

/-- Leaves every byte of the write windows unspecified (60_exceptions R289, 70_reset R311, R321). -/
def Memory.scrambleWrites (m : Memory) (tag : Nat) : List Window → Memory
  | [] => m
  | w :: t => (if w.write then m.scramble w.start w.len tag else m).scrambleWrites tag t

/-- Leaves every byte of the read windows unspecified: what a command reads when the host writes there while it runs (70_reset
R321). -/
def Memory.scrambleReads (m : Memory) (tag : Nat) : List Window → Memory
  | [] => m
  | w :: t => (if w.write then m else m.scramble w.start w.len tag).scrambleReads tag t

/-! Starting and ending a command (10_state R22, 60_exceptions R280 to R292). -/

/-- The start of a command: the word is stored in `CMD`, `BUSY` set, `DONE` cleared (10_state R22). -/
def State.latchCommand (s : State) (w : Word) : State := { s with cmd := w, busy := true, done := false, raced := false }

/-- The end of a command, the analogue of taking an exception: `RES0`, `RES1`, `STATUS.ERR` written, `BUSY` cleared, `DONE` set
(10_state R22, R25; 60_exceptions R280, R292). Results are narrowed to 32 bits (00_scope R10). Nothing is saved and nothing
returns from it: the block waits for the next write to `CMD`. -/
def State.finish (s : State) (code : StatusCode) (r0 r1 : Nat) : State :=
  { s with res0 := BitVec.ofNat 32 r0, res1 := BitVec.ofNat 32 r1, err := code, busy := false, done := true, raced := false }

/-- What a command's body answers: the state it leaves and its two results, or what it raises (00_scope R13). -/
abbrev Body := Except Raise (State × Nat × Nat)

/-- How a command ends. `onFailed` is what it has done to the state by the time it raises `Failed` (60_exceptions R287, R289);
every other raise leaves the state as it was (R286, R288) and reports the results of R25 and R290. -/
def concluded (s : State) (onFailed : State → State) : Body → State
  | .ok (t, r0, r1) => t.finish .ok r0 r1
  | .error .failed => (onFailed s).finish .failed 0 0
  | .error .wrongParam => s.finish .wrongParam 0 0
  | .error (.bufferTooSmall need) => s.finish .bufferTooSmall need 0
  | .error .illegalCommand => s.finish .illegalCommand 0 0

end Sys2Proof.Machine
end

