-- ==== Sys2Proof/Machine/Operands.lean ====
section
/-! DEFINITION. The operand registers as numbers, element arrays, and the windows each command names (00_scope R10, R15; 30_encoding R92, R93). -/

namespace Sys2Proof.Machine

/-! `ARG[i]` as an unsigned number (00_scope R10). -/

/-- `ARG[0]`. -/
def State.a0 (s : State) : Nat := s.arg0.toNat
/-- `ARG[1]`. -/
def State.a1 (s : State) : Nat := s.arg1.toNat
/-- `ARG[2]`. -/
def State.a2 (s : State) : Nat := s.arg2.toNat
/-- `ARG[3]`. -/
def State.a3 (s : State) : Nat := s.arg3.toNat
/-- `ARG[4]`. -/
def State.a4 (s : State) : Nat := s.arg4.toNat

/-! Element arrays: unsigned 32-bit little-endian words (20_memory R62). -/

/-- `U32Array(addr, n)` (00_scope R15). -/
def u32Array (m : Memory) : (a n : Nat) → List Nat
  | _, 0 => []
  | a, n + 1 => leNat (m.readBytes a 4) :: u32Array m (a + 4) n

/-- The bytes of an element array. -/
def u32Bytes (vs : List Nat) : List Byte := vs.flatMap (leBytes 4)

/-! Windows (30_encoding R93). -/

/-- The mask's byte count, `Size() = ceil(N / 8)` (10_state R31). -/
def Mask.size (b : Mask) : Nat := ceilDiv (b.cols * b.rows) 8

/-- A read window. -/
def rwin (a n : Nat) : Window := { write := false, start := a, len := n }
/-- A write window. -/
def wwin (a n : Nat) : Window := { write := true, start := a, len := n }

/-- The windows of a command, from the operand registers as they stand (30_encoding R93). -/
def windows (i : Instr) (s : State) : List Window :=
  match i with
  | .bmLoad => [rwin s.a0 s.bm.size]
  | .bmStore => [wwin s.a2 s.a3]
  | .rleSize => [rwin s.a0 s.a1]
  | .rleCompress => [rwin s.a0 s.a1, wwin s.a2 s.a3]
  | .rleDecompress => [rwin s.a0 s.a1, wwin s.a2 s.a3]
  | .mskEncode => [wwin s.a2 s.a3]
  | .mskDecode => [rwin s.a0 s.a1]
  | .bsStuff => [rwin s.a0 (4 * s.a1), wwin s.a2 s.a3]
  | .bsUnstuff => [rwin s.a0 s.a1, wwin s.a2 (4 * s.a3)]
  | .bsSizeLut => [rwin s.a0 (4 * s.a1)]
  | .bsEncSimple => [rwin s.a0 (4 * s.a1), wwin s.a2 s.a3]
  | .bsEncLut => [rwin s.a0 (4 * s.a1), wwin s.a2 s.a3]
  | .bsDecode => [rwin s.a0 s.a1, wwin s.a2 (4 * s.a3)]
  | .hufCompute => [rwin s.a0 (4 * s.a1)]
  | .hufSize => [rwin s.a0 (4 * s.a1)]
  | .hufWrTable => [wwin s.a2 s.a3]
  | .hufRdTable => [rwin s.a0 s.a1]
  | .hufEncode => [rwin s.a0 (4 * s.a1), wwin s.a2 s.a3]
  | .hufDecode => [rwin s.a0 s.a1, wwin s.a2 (4 * s.a3)]
  | .sysNop => []
  | .sysReset => []
  | .bmSetSize => []
  | .bmIsValid => []
  | .bmSetValid => []
  | .bmSetInvalid => []
  | .bmSetAllValid => []
  | .bmSetAllInvalid => []
  | .bmCount => []
  | .bsSizeSimple => []
  | .hufBuild => []
  | .hufClear => []
  | .hufGetCode => []

/-- A command: its window tests first, then its body (60_exceptions R284), then its end. The body is asked only when the tests
pass: nothing is read before them (20_memory R66). -/
def perform (i : Instr) (s : State) (onFailed : State → State) (body : Unit → Body) : Host.Outcome State Fault Refusal :=
  .next (concluded s onFailed (if windowsOk s.params.memSize (windows i s) then body () else .error .wrongParam))

/-- What a stream decoder that writes buffer memory leaves when it ends in `Failed`: every byte of its write window
unspecified (60_exceptions R289, log 6). -/
def scrambleOutput (i : Instr) (s : State) : State :=
  { s with mem := s.mem.scrambleWrites s.fresh (windows i s), fresh := s.fresh + 1 }

/-- Stores bytes at an address of buffer memory. -/
def State.store (s : State) (a : Nat) (bs : List Byte) : State := { s with mem := s.mem.writeBytes a bs }

/-- The end of every encoder: the exact output against the capacity, then the write (60_exceptions R288). `out` is the whole
output, `r1` the second result. -/
def storeOutput (s : State) (out : List Byte) (r1 : Nat) : Body :=
  if s.a3 < out.length then .error (.bufferTooSmall out.length)
  else .ok (s.store s.a2 out, out.length, r1)

end Sys2Proof.Machine
end

