-- ==== Sys2Proof/Machine/StuffCodec.lean ====
section
/-! DEFINITION. The BitStuffer: sizes, stuffing and unstuffing, simple and LUT blocks, the block decoder (30_encoding R98 to R103; 42_bitstuffer R180 to R191). -/

namespace Sys2Proof.Machine

/-! Sizes (42_bitstuffer R180). -/

/-- `StuffWords(n, b)`. -/
def stuffWords (n b : Nat) : Nat := ceilDiv (n * b) Config.bsWord
/-- `StuffBytes(n, b)`. -/
def stuffBytes (n b : Nat) : Nat := 4 * stuffWords n b
/-- `NBytes(n)`: the smallest width that holds an element count (30_encoding R100). -/
def nBytes (n : Nat) : Nat := if n ≤ 255 then 1 else if n ≤ 65535 then 2 else 4
/-- `NwCode(k)` (30_encoding R99). -/
def nwCode (k : Nat) : Nat := if k = 1 then 2 else if k = 2 then 1 else 0

/-! The two primitives. -/

/-- `Stuff(v, b)` (42_bitstuffer R181). -/
def stuff (vs : List Nat) (b : Nat) : List Byte := stuffedBytes (vs.flatMap (bitsOf b))

/-- The first `n` elements of `b` bits of a bit string. -/
def chunks : (n b : Nat) → List Bool → List Nat
  | 0, _, _ => []
  | n + 1, b, bs => natOfBits (bs.take b) :: chunks n b (bs.drop b)

/-- `Unstuff(B, n, b)` (42_bitstuffer R182). -/
def unstuff (bytes : List Byte) (n b : Nat) : List Nat := chunks n b (streamBits bytes)

/-! Blocks. -/

/-- The largest element, 0 for none. -/
def maxElem (vs : List Nat) : Nat := vs.foldl max 0

/-- The header byte: `numBits` in bits 4:0, `lut` in bit 5, `nw` in bits 7:6 (30_encoding R99). -/
def headerByte (numBits : Nat) (lut : Bool) (nw : Nat) : Byte := BitVec.ofNat 8 (numBits + 32 * lut.toNat + 64 * nw)

/-- A simple block of elements below 2^31 (30_encoding R101, 42_bitstuffer R187). -/
def simpleBlock (vs : List Nat) : List Byte :=
  [headerByte (bitlen (maxElem vs)) false (nwCode (nBytes vs.length))] ++ leBytes (nBytes vs.length) vs.length
    ++ stuff vs (bitlen (maxElem vs))

/-- Puts a value in its place in a rising sequence of distinct values. -/
def insertDistinct (x : Nat) : List Nat → List Nat
  | [] => [x]
  | y :: t => if x < y then x :: y :: t else if x = y then y :: t else y :: insertDistinct x t

/-- The distinct values of an array in ascending order (42_bitstuffer R188). -/
def distinctSorted (vs : List Nat) : List Nat := vs.foldr insertDistinct []

/-- What `LutOf(v)` answers: the table `d[0] .. d[m]`, the number `m` of stored entries, the width `b` of an entry, and the
indices `r` (42_bitstuffer R188). -/
structure Lut where
  table : List Nat
  stored : Nat
  width : Nat
  indices : List Nat
deriving DecidableEq, Repr

/-- `LutOf(v)` (42_bitstuffer R188). -/
def lutOf (vs : List Nat) : Except Raise Lut :=
  let d := distinctSorted vs
  let m := d.length - 1
  let b := bitlen (maxElem d)
  if vs.isEmpty || d.headD 1 != 0 then .error .failed
  else if m < 1 ∨ Config.lutMaxStored < m then .error .failed
  else if Config.bsNumBitsMax < b then .error .failed
  else .ok { table := d, stored := m, width := b, indices := vs.map (fun v => d.idxOf v) }

/-- A LUT block (30_encoding R102, 42_bitstuffer R190). -/
def lutBlock (vs : List Nat) (l : Lut) : List Byte :=
  [headerByte l.width true (nwCode (nBytes vs.length))] ++ leBytes (nBytes vs.length) vs.length
    ++ [BitVec.ofNat 8 (l.stored + 1)] ++ stuff (l.table.drop 1) l.width ++ stuff l.indices (bitlen l.stored)

/-- How many bytes a LUT block has (42_bitstuffer R189). -/
def lutBlockSize (n : Nat) (l : Lut) : Nat :=
  1 + nBytes n + 1 + stuffBytes l.stored l.width + stuffBytes n (bitlen l.stored)

/-- How many bytes encode the element count, from the header's `nw`; 3 is reserved (30_encoding R99). -/
def countBytes (nw : Nat) : Except Raise Nat :=
  match nw with
  | 0 => .ok 4
  | 1 => .ok 2
  | 2 => .ok 1
  | _ => .error .failed

/-- The body of a simple block: `n` elements of `b` bits (42_bitstuffer R191). -/
def decodeSimple (n b : Nat) (rc : Cursor) : Except Raise (List Nat × Cursor) :=
  match rdBytes (stuffBytes n b) rc with
  | .error e => .error e
  | .ok (body, rc1) => .ok (unstuff body n b, rc1)

/-- The body of a LUT block: the table size byte, the table, the indices (42_bitstuffer R191). -/
def decodeLut (n b : Nat) (rc : Cursor) : Except Raise (List Nat × Cursor) :=
  if b = 0 then .error .failed
  else
    match rdUnsigned 1 rc with
    | .error e => .error e
    | .ok (t, rc1) =>
      if t < 2 then .error .failed
      else
        match decodeSimple (t - 1) b rc1 with
        | .error e => .error e
        | .ok (d, rc2) =>
          match decodeSimple n (bitlen (t - 1)) rc2 with
          | .error e => .error e
          | .ok (r, rc3) =>
            if r.any (fun j => decide (t - 1 < j)) then .error .failed
            else .ok (r.map (fun j => (0 :: d).getD j 0), rc3)

/-- The BitStuffer decoder (42_bitstuffer R191): the elements of the block at the cursor, at most `cap` of them, and the cursor
after it. The tests come in stream order. -/
def decodeBlock (cap : Nat) (rc : Cursor) : Except Raise (List Nat × Cursor) :=
  match rdUnsigned 1 rc with
  | .error e => .error e
  | .ok (h, rc1) =>
    match countBytes (h / 64) with
    | .error e => .error e
    | .ok k =>
      match rdUnsigned k rc1 with
      | .error e => .error e
      | .ok (n, rc2) =>
        if cap < n then .error .failed
        else if h / 32 % 2 = 0 then decodeSimple n (h % 32) rc2
        else decodeLut n (h % 32) rc2

end Sys2Proof.Machine
end

