-- ==== Sys2Proof/Machine/BitStuffer.lean ====
section
/-! DEFINITION. The BS commands (42_bitstuffer R183 to R191). -/

namespace Sys2Proof.Machine

/-- The element array a command's read window holds (20_memory R62). -/
def sourceArray (s : State) : List Nat := u32Array s.mem s.a0 s.a1

/-- `BS.STUFF` (42_bitstuffer R183). -/
def execBsStuff (s : State) : Host.Outcome State Fault Refusal :=
  perform .bsStuff s id
    (fun _ =>
     if Config.bsNumBitsMax < s.a4 then .error .wrongParam
     else if (sourceArray s).any (fun v => decide (2 ^ s.a4 ≤ v)) then .error .failed
     else storeOutput s (stuff (sourceArray s) s.a4) 0)

/-- `BS.UNSTUFF` (42_bitstuffer R184); its only test comes before the first write. -/
def execBsUnstuff (s : State) : Host.Outcome State Fault Refusal :=
  perform .bsUnstuff s id
    (fun _ =>
     if Config.bsNumBitsMax < s.a4 then .error .wrongParam
     else if s.a1 < stuffBytes s.a3 s.a4 then .error .failed
     else
      .ok (s.store s.a2 (u32Bytes (unstuff (s.mem.readBytes s.a0 (stuffBytes s.a3 s.a4)) s.a3 s.a4)), s.a3,
        stuffBytes s.a3 s.a4))

/-- `BS.SIZE.SIMPLE` (42_bitstuffer R186). -/
def execBsSizeSimple (s : State) : Host.Outcome State Fault Refusal :=
  perform .bsSizeSimple s id
    (fun _ =>
     if Config.bsNumBitsMax < bitlen s.a4 then .error .wrongParam
     else if 4294967296 ≤ 1 + nBytes s.a1 + stuffBytes s.a1 (bitlen s.a4) then .error .wrongParam
     else .ok (s, 1 + nBytes s.a1 + stuffBytes s.a1 (bitlen s.a4), bitlen s.a4))

/-- `BS.SIZE.LUT` (42_bitstuffer R189). -/
def execBsSizeLut (s : State) : Host.Outcome State Fault Refusal :=
  perform .bsSizeLut s id
    (fun _ =>
     match lutOf (sourceArray s) with
     | .error e => .error e
     | .ok l => .ok (s, lutBlockSize s.a1 l, l.stored))

/-- `BS.ENC.SIMPLE` (42_bitstuffer R187). -/
def execBsEncSimple (s : State) : Host.Outcome State Fault Refusal :=
  perform .bsEncSimple s id
    (fun _ =>
     if Config.bsNumBitsMax < bitlen (maxElem (sourceArray s)) then .error .failed
     else storeOutput s (simpleBlock (sourceArray s)) (bitlen (maxElem (sourceArray s))))

/-- `BS.ENC.LUT` (42_bitstuffer R190). -/
def execBsEncLut (s : State) : Host.Outcome State Fault Refusal :=
  perform .bsEncLut s id
    (fun _ =>
     match lutOf (sourceArray s) with
     | .error e => .error e
     | .ok l => storeOutput s (lutBlock (sourceArray s) l) l.stored)

/-- `BS.DECODE` (42_bitstuffer R191); after `Failed` the write window is unspecified (60_exceptions R289). -/
def execBsDecode (s : State) : Host.Outcome State Fault Refusal :=
  perform .bsDecode s (scrambleOutput .bsDecode)
    (fun _ =>
     match decodeBlock s.a3 (Cursor.start (s.mem.readBytes s.a0 s.a1)) with
     | .error e => .error e
     | .ok (vs, rc) => .ok (s.store s.a2 (u32Bytes vs), vs.length, rc.used))

end Sys2Proof.Machine
end

