-- ==== Sys2Proof/Machine/Flags.lean ====
section
/-! DEFINITION. The words the host reads from STATUS and HUFSTAT, field by field (10_state R23, R28; 60_exceptions R281). -/

namespace Sys2Proof.Machine

/-- The number of a status code (60_exceptions R281). -/
def StatusCode.number : StatusCode → Nat
  | .ok => 0
  | .failed => 1
  | .wrongParam => 2
  | .bufferTooSmall => 3
  | .nan => 4
  | .illegalCommand => 15

/-- `STATUS`: `BUSY` in bit 0, `DONE` in bit 1, `ERR` in bits 7:4, every other bit 0 (10_state R23). -/
def statusWord (s : State) : Word :=
  BitVec.ofNat 32 (s.busy.toNat + 2 * s.done.toNat + 16 * s.err.number)

/-- The longest code length of a table, `L`; 0 when it has none (10_state R36). -/
def maxLen (len : List Nat) : Nat := len.foldl max 0

/-- `HUFSTAT`: `TV` in bit 0, `DV` in bit 1, `MAXLEN` in bits 13:8, `NBLUT` in bits 19:16, `SKIP` in bits 29:24, every other
bit 0 (10_state R28). -/
def hufStatWord (s : State) : Word :=
  BitVec.ofNat 32
    (s.ht.valid.toNat + 2 * s.hd.valid.toNat + 256 * (maxLen s.ht.len % 64) + 65536 * (s.hd.numBitsLUT % 16)
      + 16777216 * (s.hd.skip % 64))

end Sys2Proof.Machine
end

