-- ==== Sys2Proof/Machine/HufCode.lean ====
section
/-! DEFINITION. The Huffman unit's algorithms: lengths from a histogram, canonical codes, the serialized table, the decoder structures, the code string and the decode step (43_huffman R221 to R241). -/

namespace Sys2Proof.Machine

/-! Code lengths from a histogram (43_huffman R221, R222). -/

/-- A Huffman tree under construction. -/
inductive HTree where
  | leaf (symbol : Nat)
  | node (a b : HTree)
deriving DecidableEq, Repr

/-- A node of the pool: its weight, its key, its tree (43_huffman R221). -/
structure PoolNode where
  weight : Nat
  key : Nat
  tree : HTree
deriving DecidableEq, Repr

/-- Node `x` is before node `y` (43_huffman R222). -/
def PoolNode.before (x y : PoolNode) : Bool :=
  decide (x.weight < y.weight) || (decide (x.weight = y.weight) && decide (x.key < y.key))

/-- Puts a node in its place in a pool kept in the order of 43_huffman R222, least first. -/
def poolInsert (x : PoolNode) : List PoolNode → List PoolNode
  | [] => [x]
  | y :: t => if x.before y then x :: y :: t else y :: poolInsert x t

/-- The leaves of the bins in use, bin `k` first, least node first. -/
def poolOf : (k : Nat) → List Nat → List PoolNode
  | _, [] => []
  | k, w :: t =>
    if w = 0 then poolOf (k + 1) t else poolInsert { weight := w, key := k, tree := .leaf k } (poolOf (k + 1) t)

/-- The merges (43_huffman R221): the two least nodes become one whose key is the next number. Each turn leaves one node fewer,
so a `fuel` of the number of nodes suffices. -/
def mergePool : (fuel key : Nat) → List PoolNode → Option HTree
  | _, _, [] => none
  | _, _, [x] => some x.tree
  | 0, _, _ => none
  | fuel + 1, key, x :: y :: t =>
    mergePool fuel (key + 1) (poolInsert { weight := x.weight + y.weight, key := key, tree := .node x.tree y.tree } t)

/-- Every symbol of a tree with the number of edges from the root to its leaf. -/
def HTree.depths : HTree → Nat → List (Nat × Nat)
  | .leaf k, d => [(k, d)]
  | .node a b, d => a.depths (d + 1) ++ b.depths (d + 1)

/-- The value a list of pairs gives a key, 0 for none. -/
def assocD (k : Nat) : List (Nat × Nat) → Nat
  | [] => 0
  | (j, v) :: t => if j = k then v else assocD k t

/-- `HufLengths(hist, size)` (43_huffman R221). -/
def hufLengths (hist : List Nat) : Except Raise (List Nat) :=
  let pool := poolOf 0 hist
  if pool.length < 2 then .error .failed
  else
    match mergePool pool.length hist.length pool with
    | none => .error .failed
    | some root =>
      let ds := root.depths 0
      if ds.any (fun p => decide (Config.hufMaxLen < p.2)) then .error .failed
      else .ok ((List.range hist.length).map (fun k => assocD k ds))

/-! Canonical codes (43_huffman R223). -/

/-- The symbols in use, in the order of the code assignment: by `len*size - k`, largest first. -/
def orderInsert (size : Nat) (x : Nat × Nat) : List (Nat × Nat) → List (Nat × Nat)
  | [] => [x]
  | y :: t =>
    if y.2 * size - y.1 < x.2 * size - x.1 then x :: y :: t else y :: orderInsert size x t

/-- The pairs (symbol, length) of the symbols in use, symbol `k` first, sorted. -/
def codeOrder (size : Nat) : (k : Nat) → List Nat → List (Nat × Nat)
  | _, [] => []
  | k, l :: t => if l = 0 then codeOrder size (k + 1) t else orderInsert size (k, l) (codeOrder size (k + 1) t)

/-- The walk down the order: `cur` is the length last used, `c` the running value. Answers pairs (symbol, code). -/
def assignCodes : (cur c : Nat) → List (Nat × Nat) → List (Nat × Nat)
  | _, _, [] => []
  | cur, c, (k, l) :: t => (k, c / 2 ^ (cur - l)) :: assignCodes l (c / 2 ^ (cur - l) + 1) t

/-- `Canonical(len, size)` (43_huffman R223), with `size` the number of lengths. -/
def canonical (len : List Nat) : List Nat :=
  let order := codeOrder len.length 0 len
  let codes := assignCodes ((order.headD (0, 0)).2) 0 order
  (List.range len.length).map (fun k => assocD k codes)

/-- How many symbols have a code. -/
def usedSymbols (len : List Nat) : Nat := (len.filter (fun l => decide (0 < l))).length

/-- The sum of `2^(L - len)` over the symbols in use (10_state R36 (c)). -/
def kraftSum (bigL : Nat) (len : List Nat) : Nat :=
  (len.map (fun l => if l = 0 then 0 else 2 ^ (bigL - l))).sum

/-- `Complete(len)` (43_huffman R228). -/
def complete (len : List Nat) : Bool := decide (1 ≤ maxLen len) && decide (kraftSum (maxLen len) len = 2 ^ maxLen len)

/-- The table of some lengths. -/
def tableOf (len : List Nat) : HufTable := { valid := true, size := len.length, len := len, code := canonical len }

/-- Number `k` of the table's lengths, 0 beyond its end. -/
def HufTable.lenOf (t : HufTable) (k : Nat) : Nat := t.len.getD k 0
/-- Number `k` of the table's codes, 0 beyond its end. -/
def HufTable.codeOf (t : HufTable) (k : Nat) : Nat := t.code.getD k 0

/-- The Huffman unit left cleared (43_huffman R224, R243). -/
def State.clearHuf (s : State) : State := { s with ht := HufTable.cleared, hd := HufDecoder.cleared }

/-! The serialized table (30_encoding R104; 43_huffman R225, R226). -/

/-- Least `k` with a non-zero length, counting from `k`. -/
def firstUsed : (k : Nat) → List Nat → Nat
  | k, [] => k
  | k, l :: t => if l = 0 then firstUsed (k + 1) t else k

/-- One past the greatest `k` with a non-zero length, counting from `k`; `last` is the answer so far. -/
def pastLastUsed : (k last : Nat) → List Nat → Nat
  | _, last, [] => last
  | k, last, l :: t => pastLastUsed (k + 1) (if l = 0 then last else k + 1) t

/-- The longest maximal run of zero lengths as (start, length), the first of the longest: `k` the present index, `start` and `n`
the run being counted, `best` the longest so far (43_huffman R225). -/
def longestZeroRun : (k start n : Nat) → (best : Nat × Nat) → List Nat → Nat × Nat
  | _, start, n, best, [] => if best.2 < n then (start, n) else best
  | k, start, n, best, l :: t =>
    if l = 0 then longestZeroRun (k + 1) (if n = 0 then k else start) (n + 1) best t
    else longestZeroRun (k + 1) start 0 (if best.2 < n then (start, n) else best) t

/-- `HufRange(len, size)` (43_huffman R225). -/
def hufRange (len : List Nat) : Nat × Nat :=
  let i0 := firstUsed 0 len
  let i1 := pastLastUsed 0 0 len
  let zr := longestZeroRun 0 0 0 (0, 0) len
  if len.length - zr.2 < i1 - i0 then (zr.1 + zr.2, zr.1 + len.length) else (i0, i1)

/-- `wrap(i)` (30_encoding R104). -/
def wrapIndex (size i : Nat) : Nat := if i < size then i else i - size

/-- `HufTableBytes()` (43_huffman R226). -/
def hufTableBytes (t : HufTable) : List Byte :=
  let r := hufRange t.len
  i32Bytes t.size ++ i32Bytes r.1 ++ i32Bytes r.2
    ++ simpleBlock ((List.range (r.2 - r.1)).map (fun j => t.lenOf (wrapIndex t.size (r.1 + j))))

/-- The lengths of all symbols from those of the range `i0 .. i1-1` (43_huffman R228). -/
def spreadLengths (size i0 i1 : Nat) (lens : List Nat) : List Nat :=
  (List.range size).map (fun k =>
    if i0 ≤ k ∧ k < i1 then lens.getD (k - i0) 0
    else if k + size < i1 then lens.getD (k + size - i0) 0
    else 0)

/-- The table `HUF.RDTABLE` reads and the bytes it consumes (43_huffman R228). -/
def readTable (src : List Byte) : Except Raise (HufTable × Nat) :=
  match rdSigned 4 (Cursor.start src) with
  | .error e => .error e
  | .ok (size, rc1) =>
    match rdSigned 4 rc1 with
    | .error e => .error e
    | .ok (i0, rc2) =>
      match rdSigned 4 rc2 with
      | .error e => .error e
      | .ok (i1, rc3) =>
        if size < 1 ∨ (Config.hufMaxBins : Int) < size then .error .failed
        else if i0 < 0 ∨ i1 ≤ i0 ∨ size ≤ i0 ∨ size < i1 - i0 then .error .failed
        else
          match decodeBlock (i1 - i0).toNat rc3 with
          | .error e => .error e
          | .ok (lens, rc4) =>
            if lens.length ≠ (i1 - i0).toNat then .error .failed
            else if lens.any (fun l => decide (Config.hufMaxLen < l)) then .error .failed
            else if !complete (spreadLengths size.toNat i0.toNat i1.toNat lens) then .error .failed
            else .ok (tableOf (spreadLengths size.toNat i0.toNat i1.toNat lens), rc4.used)

/-! The decoder structures (43_huffman R231 to R234). -/

/-- Sets `n` entries from index `lo` on. -/
def fillEntries (lut : List (Option (Nat × Nat))) (lo n : Nat) (v : Nat × Nat) : List (Option (Nat × Nat)) :=
  lut.take lo ++ List.replicate n (some v) ++ lut.drop (lo + n)

/-- Enters the codes of symbols `k ..` of length 1 .. `b` into the decode LUT (43_huffman R232). -/
def fillLut (b : Nat) : (k : Nat) → List (Nat × Nat) → List (Option (Nat × Nat)) → List (Option (Nat × Nat))
  | _, [], lut => lut
  | k, (l, c) :: t, lut =>
    if 1 ≤ l ∧ l ≤ b then fillLut b (k + 1) t (fillEntries lut (c * 2 ^ (b - l)) (2 ^ (b - l)) (l, k))
    else fillLut b (k + 1) t lut

/-- The decode LUT of a table (43_huffman R232). -/
def lutOfTable (t : HufTable) : List (Option (Nat × Nat)) :=
  let b := min (maxLen t.len) Config.hufLutBits
  fillLut b 0 (t.len.zip t.code) (List.replicate (2 ^ b) none)

/-- The leading zero bits of the long codes, all-zero codes counting one fewer (43_huffman R233). -/
def longCodeZeros : List (Nat × Nat) → List Nat
  | [] => []
  | (l, c) :: t => if Config.hufLutBits < l then (l - max 1 (bitlen c)) :: longCodeZeros t else longCodeZeros t

/-- The skip count: 0 when no code is long (43_huffman R233). -/
def skipOfTable (t : HufTable) : Nat := (longCodeZeros (t.len.zip t.code)).min?.getD 0

/-- Enters a path into the long-code tree, bit 0 to the left child, bit 1 to the right (43_huffman R233). -/
def CodeTree.enter (symbol : Nat) : List Bool → CodeTree → CodeTree
  | [], _ => .leaf symbol
  | false :: bs, .node z o => .node (CodeTree.enter symbol bs z) o
  | true :: bs, .node z o => .node z (CodeTree.enter symbol bs o)
  | false :: bs, _ => .node (CodeTree.enter symbol bs .empty) .empty
  | true :: bs, _ => .node .empty (CodeTree.enter symbol bs .empty)

/-- Enters the long codes of symbols `k ..` without their first `skip` bits (43_huffman R233). -/
def fillTree (skip : Nat) : (k : Nat) → List (Nat × Nat) → CodeTree → CodeTree
  | _, [], tree => tree
  | k, (l, c) :: t, tree =>
    if Config.hufLutBits < l then fillTree skip (k + 1) t (CodeTree.enter k ((bitsOf l c).drop skip) tree)
    else fillTree skip (k + 1) t tree

/-- The long-code tree of a table (43_huffman R233). -/
def treeOfTable (t : HufTable) : CodeTree := fillTree (skipOfTable t) 0 (t.len.zip t.code) .empty

/-- The decoder structures of a table (43_huffman R231 to R234). -/
def buildDecoder (t : HufTable) : HufDecoder :=
  { valid := true, numBitsLUT := min (maxLen t.len) Config.hufLutBits, skip := skipOfTable t, lut := lutOfTable t
    tree := treeOfTable t }

/-! Encoding (43_huffman R235). -/

/-- A symbol has a code. -/
def HufTable.hasCode (t : HufTable) (k : Nat) : Bool := decide (k < t.size) && decide (t.lenOf k ≠ 0)

/-- The code string of a symbol sequence (43_huffman R235). -/
def codeString (t : HufTable) (syms : List Nat) : List Bool := syms.flatMap (fun k => bitsOf (t.lenOf k) (t.codeOf k))

/-- The Huffman bit stream: the code words and one more word of zeros (30_encoding R106). -/
def hufStream (t : HufTable) (syms : List Nat) : List Byte := stuffedBytes (codeString t syms) ++ leBytes 4 0

/-! Decoding (43_huffman R238 to R242). -/

/-- Bit `q` is inside the budget: the whole word that holds it is (43_huffman R238). -/
def bitInside (budget q : Nat) : Bool := decide (4 * (q / 32 + 1) ≤ budget)

/-- Tests (a) and (b) of a decode step at `pos`, with a look-ahead of `b` bits (43_huffman R239). -/
def lookaheadInside (budget b pos : Nat) : Bool :=
  bitInside budget pos && (decide (pos % 32 + b ≤ 32) || decide (4 * (pos / 32 + 2) ≤ budget))

/-- The walk of the long-code tree from bit `q` on, each bit inside the budget (43_huffman R241). A place no code reaches ends in
`Failed`: for a valid table there is none (log 15). -/
def walkTree (budget : Nat) : CodeTree → (q : Nat) → List Bool → Except Raise (Nat × Nat × List Bool)
  | .empty, _, _ => .error .failed
  | .leaf k, q, bs => .ok (k, q, bs)
  | .node z o, q, bs =>
    if bitInside budget q then
      match bs with
      | [] => .error .failed
      | false :: t => walkTree budget z (q + 1) t
      | true :: t => walkTree budget o (q + 1) t
    else .error .failed

/-- One decode step through the structures (43_huffman R239, R241): `bs` are the stream's bits from `pos` on. Answers the symbol,
the next position and the bits from there on. -/
def decodeOne (d : HufDecoder) (budget pos : Nat) (bs : List Bool) : Except Raise (Nat × Nat × List Bool) :=
  if lookaheadInside budget d.numBitsLUT pos then
    match d.lut.getD (natOfBits (bs.take d.numBitsLUT)) none with
    | some (l, k) => .ok (k, pos + l, bs.drop l)
    | none => walkTree budget d.tree (pos + d.skip) (bs.drop d.skip)
  else .error .failed

/-- The symbol that has exactly this length and code, if any. -/
def symbolWith (l c : Nat) : (k : Nat) → List (Nat × Nat) → Option Nat
  | _, [] => none
  | k, (l', c') :: t => if l' = l ∧ c' = c then some k else symbolWith l c (k + 1) t

/-- Prefix matching from a candidate of `l` bits and value `c` on: a bit beyond the first `b` is tested against the budget before
it is read (43_huffman R239 (c), R240). -/
def matchFrom (t : HufTable) (b budget : Nat) : (fuel l c q : Nat) → List Bool → Except Raise (Nat × Nat × List Bool)
  | 0, _, _, _, _ => .error .failed
  | _ + 1, _, _, _, [] => .error .failed
  | fuel + 1, l, c, q, x :: bs =>
    if b ≤ l ∧ bitInside budget q = false then .error .failed
    else
      match symbolWith (l + 1) (2 * c + x.toNat) 0 (t.len.zip t.code) with
      | some k => .ok (k, q + 1, bs)
      | none => matchFrom t b budget fuel (l + 1) (2 * c + x.toNat) (q + 1) bs

/-- One decode step by prefix matching (43_huffman R240), the form the structures must agree with (R241). -/
def decodeOnePrefix (t : HufTable) (budget pos : Nat) (bs : List Bool) : Except Raise (Nat × Nat × List Bool) :=
  if lookaheadInside budget (min (maxLen t.len) Config.hufLutBits) pos then
    matchFrom t (min (maxLen t.len) Config.hufLutBits) budget (maxLen t.len) 0 0 pos bs
  else .error .failed

/-- `n` decode steps: the symbols and the position after them (43_huffman R242). -/
def decodeSymbols (d : HufDecoder) (budget : Nat) : (n pos : Nat) → List Bool → Except Raise (List Nat × Nat)
  | 0, pos, _ => .ok ([], pos)
  | n + 1, pos, bs =>
    match decodeOne d budget pos bs with
    | .error e => .error e
    | .ok (k, pos', bs') =>
      match decodeSymbols d budget n pos' bs' with
      | .error e => .error e
      | .ok (ks, last) => .ok (k :: ks, last)

/-- How many bytes of a Huffman stream hold `bits` code bits and the extra word (30_encoding R106). -/
def hufStreamBytes (bits : Nat) : Nat := 4 * (ceilDiv bits Config.bsWord + 1)

end Sys2Proof.Machine
end

