-- ==== Sys2Proof/Machine/Huffman.lean ====
section
/-! DEFINITION. The HUF commands (43_huffman R224 to R244). -/

namespace Sys2Proof.Machine

/-- A new code table; the decoder structures no longer match (10_state R39). -/
def State.setTable (s : State) (t : HufTable) : State := { s with ht := t, hd := HufDecoder.cleared }

/-- `HUF.COMPUTE` (43_huffman R224); `Failed` leaves the unit cleared (60_exceptions R287). -/
def execHufCompute (s : State) : Host.Outcome State Fault Refusal :=
  perform .hufCompute s State.clearHuf
    (fun _ =>
     if s.a1 < 1 ∨ Config.hufMaxBins < s.a1 then .error .wrongParam
     else
      match hufLengths (sourceArray s) with
      | .error e => .error e
      | .ok len => .ok (s.setTable (tableOf len), maxLen len, usedSymbols len))

/-- `T`: the code bits of a message with a histogram (43_huffman R229). -/
def messageBits (hist len : List Nat) : Nat := ((hist.zip len).map (fun p => p.1 * p.2)).sum

/-- `HUF.SIZE` (43_huffman R229). -/
def execHufSize (s : State) : Host.Outcome State Fault Refusal :=
  perform .hufSize s id
    (fun _ =>
     if !s.ht.valid then .error .failed
     else if s.a1 ≠ s.ht.size then .error .wrongParam
     else if ((sourceArray s).zip s.ht.len).any (fun p => decide (0 < p.1) && decide (p.2 = 0)) then .error .failed
     else if 4294967296 ≤ (hufTableBytes s.ht).length + hufStreamBytes (messageBits (sourceArray s) s.ht.len) then
      .error .failed
     else
      .ok (s, (hufTableBytes s.ht).length + hufStreamBytes (messageBits (sourceArray s) s.ht.len),
        (hufTableBytes s.ht).length))

/-- `HUF.WRTABLE` (43_huffman R227). -/
def execHufWrTable (s : State) : Host.Outcome State Fault Refusal :=
  perform .hufWrTable s id (fun _ =>
     if !s.ht.valid then .error .failed else storeOutput s (hufTableBytes s.ht) 0)

/-- `HUF.RDTABLE` (43_huffman R228); `Failed` leaves the unit cleared (60_exceptions R287). -/
def execHufRdTable (s : State) : Host.Outcome State Fault Refusal :=
  perform .hufRdTable s State.clearHuf
    (fun _ =>
     match readTable (s.mem.readBytes s.a0 s.a1) with
     | .error e => .error e
     | .ok (t, used) => .ok (s.setTable t, t.size, used))

/-- `HUF.BUILD` (43_huffman R234). -/
def execHufBuild (s : State) : Host.Outcome State Fault Refusal :=
  perform .hufBuild s id
    (fun _ =>
     if !s.ht.valid then .error .failed
     else .ok ({ s with hd := buildDecoder s.ht }, (buildDecoder s.ht).numBitsLUT, (buildDecoder s.ht).skip))

/-- `HUF.ENCODE` (43_huffman R237). -/
def execHufEncode (s : State) : Host.Outcome State Fault Refusal :=
  perform .hufEncode s id
    (fun _ =>
     if !s.ht.valid then .error .failed
     else if (sourceArray s).any (fun k => !s.ht.hasCode k) then .error .failed
     else storeOutput s (hufStream s.ht (sourceArray s)) 0)

/-- `HUF.DECODE` (43_huffman R242), through the structures `HUF.BUILD` made (R241); after `Failed` the write window is
unspecified (60_exceptions R289). -/
def execHufDecode (s : State) : Host.Outcome State Fault Refusal :=
  perform .hufDecode s (scrambleOutput .hufDecode)
    (fun _ =>
     if !s.hd.valid then .error .failed
     else
      match decodeSymbols s.hd s.a1 s.a3 0 (streamBits (s.mem.readBytes s.a0 s.a1)) with
      | .error e => .error e
      | .ok (syms, pos) =>
        if s.a1 < hufStreamBytes pos then .error .failed
        else .ok (s.store s.a2 (u32Bytes syms), s.a3, hufStreamBytes pos))

/-- `HUF.CLEAR` (43_huffman R243). -/
def execHufClear (s : State) : Host.Outcome State Fault Refusal := perform .hufClear s id (fun _ => .ok (s.clearHuf, 0, 0))

/-- `HUF.GETCODE` (43_huffman R244); the test on the table comes before the test of the index (60_exceptions R284). -/
def execHufGetCode (s : State) : Host.Outcome State Fault Refusal :=
  perform .hufGetCode s id
    (fun _ =>
     if !s.ht.valid then .error .failed
     else if s.ht.size ≤ s.a0 then .error .wrongParam
     else .ok (s, s.ht.lenOf s.a0, s.ht.codeOf s.a0))

end Sys2Proof.Machine
end

