-- ==== Sys2Proof/Machine/BitMask.lean ====
section
/-! DEFINITION. The BitMask store's operations and the BM commands (10_state R31 to R33; 40_bitmask R130 to R138). -/

namespace Sys2Proof.Machine

/-- The pixel count, `N = bm.cols * bm.rows` (10_state R31). -/
def Mask.pixels (b : Mask) : Nat := b.cols * b.rows

/-- `maskbit(k) = 0x80 >> (k mod 8)` (40_bitmask). -/
def maskbit (k : Nat) : Byte := 0x80#8 >>> (k % 8)

/-- Bit `k` of the store, 1 for valid (10_state R32). -/
def Mask.bit (b : Mask) (k : Nat) : Bool := (b.bits.getD (k / 8) 0#8 &&& maskbit k) != 0#8

/-- Sets bit `k` (40_bitmask R132). -/
def Mask.setBit (b : Mask) (k : Nat) : Mask :=
  { b with bits := b.bits.set (k / 8) (b.bits.getD (k / 8) 0#8 ||| maskbit k) }

/-- Clears bit `k` (40_bitmask R133). -/
def Mask.clearBit (b : Mask) (k : Nat) : Mask :=
  { b with bits := b.bits.set (k / 8) (b.bits.getD (k / 8) 0#8 &&& (0xFF#8 - maskbit k)) }

/-- Every byte of the store at one value (40_bitmask R134, R135). -/
def Mask.fill (b : Mask) (v : Byte) : Mask := { b with bits := List.replicate b.size v }

/-- `popcount8(b)`: the number of 1 bits of a byte (40_bitmask R136). -/
def popcount8 (b : Byte) : Nat := ((List.range 8).filter (fun i => b.getLsbD i)).length

/-- The value `BM.COUNT` returns: the byte-wise population count less the tail bits that are 1 (40_bitmask R136). -/
def Mask.count (b : Mask) : Nat :=
  ((b.bits.take b.size).map popcount8).sum
    - ((List.range (8 * b.size - b.pixels)).filter (fun j => b.bit (b.pixels + j))).length

/-- `BM.SETSIZE` (40_bitmask R130). -/
def execBmSetSize (s : State) : Host.Outcome State Fault Refusal :=
  perform .bmSetSize s id
    (fun _ =>
     if Config.dimMax < s.a0 ∨ Config.dimMax < s.a1 then .error .wrongParam
     else if s.params.maskMaxPixels < s.a0 * s.a1 then .error .wrongParam
     else
      .ok ({ s with bm := { cols := s.a0, rows := s.a1, bits := List.replicate (ceilDiv (s.a0 * s.a1) 8) 0#8 } },
        ceilDiv (s.a0 * s.a1) 8, 0))

/-- `BM.ISVALID` (40_bitmask R131). -/
def execBmIsValid (s : State) : Host.Outcome State Fault Refusal :=
  perform .bmIsValid s id
    (fun _ =>
     if s.bm.pixels ≤ s.a0 then .error .wrongParam else .ok (s, (s.bm.bit s.a0).toNat, 0))

/-- `BM.SETVALID` (40_bitmask R132). -/
def execBmSetValid (s : State) : Host.Outcome State Fault Refusal :=
  perform .bmSetValid s id
    (fun _ =>
     if s.bm.pixels ≤ s.a0 then .error .wrongParam else .ok ({ s with bm := s.bm.setBit s.a0 }, 0, 0))

/-- `BM.SETINVALID` (40_bitmask R133). -/
def execBmSetInvalid (s : State) : Host.Outcome State Fault Refusal :=
  perform .bmSetInvalid s id
    (fun _ =>
     if s.bm.pixels ≤ s.a0 then .error .wrongParam else .ok ({ s with bm := s.bm.clearBit s.a0 }, 0, 0))

/-- `BM.SETALLVALID` (40_bitmask R134): whole bytes, tail bits included. -/
def execBmSetAllValid (s : State) : Host.Outcome State Fault Refusal :=
  perform .bmSetAllValid s id (fun _ => .ok ({ s with bm := s.bm.fill 0xFF#8 }, 0, 0))

/-- `BM.SETALLINVALID` (40_bitmask R135). -/
def execBmSetAllInvalid (s : State) : Host.Outcome State Fault Refusal :=
  perform .bmSetAllInvalid s id (fun _ => .ok ({ s with bm := s.bm.fill 0x00#8 }, 0, 0))

/-- `BM.COUNT` (40_bitmask R136). -/
def execBmCount (s : State) : Host.Outcome State Fault Refusal := perform .bmCount s id (fun _ => .ok (s, s.bm.count, 0))

/-- `BM.LOAD` (40_bitmask R137): the bytes as they are, the dimensions unchanged. -/
def execBmLoad (s : State) : Host.Outcome State Fault Refusal :=
  perform .bmLoad s id (fun _ => .ok ({ s with bm := { s.bm with bits := s.mem.readBytes s.a0 s.bm.size } }, s.bm.size, 0))

/-- `BM.STORE` (40_bitmask R138). -/
def execBmStore (s : State) : Host.Outcome State Fault Refusal :=
  perform .bmStore s id
    (fun _ =>
     if s.a3 < s.bm.size then .error (.bufferTooSmall s.bm.size)
     else .ok (s.store s.a2 (s.bm.bits.take s.bm.size), s.bm.size, 0))

end Sys2Proof.Machine
end

