-- ==== Sys2Proof/Machine/RleCodec.lean ====
section
/-! DEFINITION. The RLE byte codec: the encoder's state machine and the stream decoder (30_encoding R95, R96; 41_rle R150 to R155). -/

namespace Sys2Proof.Machine

/-- The variables of the encoder (41_rle R150). -/
structure RleState where
  odd : Bool
  cntOdd : Nat
  cntEven : Nat
  /-- The pending literal bytes, newest first. -/
  litRev : List Byte
deriving DecidableEq, Repr

/-- The encoder at the start of the input (41_rle R150). -/
def RleState.init : RleState := { odd := true, cntOdd := 0, cntEven := 0, litRev := [] }

/-- `enough(t)` of 41_rle R151, for the byte `x = a[t]` and the bytes `rest = a[t+1..n-1]` after it: the next four equal `x` and
a fifth follows. -/
def enough (x : Byte) (rest : List Byte) : Bool :=
  !(rest.drop (Config.minNumEven - 1)).isEmpty && (rest.take (Config.minNumEven - 1)).all (fun b => b == x)

/-- A byte joins the pending literal run. -/
def RleState.literal (m : RleState) (x : Byte) : RleState := { m with litRev := x :: m.litRev, cntOdd := m.cntOdd + 1 }

/-- One byte `x` that is not the last, `y :: rest` after it, before the cap is looked at: the next variables and what is emitted
(41_rle R152). -/
def rleByte (m : RleState) (x y : Byte) (rest : List Byte) : RleState × List Byte :=
  if x ≠ y then
    if m.odd then (m.literal x, [])
    else ({ m with odd := true, cntOdd := 0, cntEven := 0 }, i16Bytes (-(m.cntEven + 1 : Nat)) ++ [x])
  else if !m.odd then ({ m with cntEven := m.cntEven + 1 }, [])
  else if !enough x (y :: rest) then (m.literal x, [])
  else if 0 < m.cntOdd then
    ({ odd := false, cntOdd := 0, cntEven := 1, litRev := [] }, i16Bytes m.cntOdd ++ m.litRev.reverse)
  else ({ m with odd := false, cntOdd := 0, cntEven := 1 }, [])

/-- The flush of a literal run at the cap (41_rle R152). -/
def rleFlushOdd (m : RleState) : RleState × List Byte :=
  if m.cntOdd = Config.rleCntMax then
    ({ m with cntOdd := 0, litRev := [] }, i16Bytes Config.rleCntMax ++ m.litRev.reverse)
  else (m, [])

/-- The flush of a repeat run of `x` at the cap; the machine stays in even mode (41_rle R152). -/
def rleFlushEven (m : RleState) (x : Byte) : RleState × List Byte :=
  if m.cntEven = Config.rleCntMax then ({ m with cntEven := 0 }, i16Bytes (-(Config.rleCntMax : Int)) ++ [x])
  else (m, [])

/-- The last byte `x` and the end mark (41_rle R152). -/
def rleLast (m : RleState) (x : Byte) : List Byte :=
  (if m.odd then i16Bytes (m.cntOdd + 1 : Nat) ++ (x :: m.litRev).reverse
   else i16Bytes (-(m.cntEven + 1 : Nat)) ++ [x]) ++ i16Bytes Config.rleEos

/-- The encoder from some variables on: what it still emits for the bytes left (41_rle R152). The empty input emits the end mark
alone. -/
def rleScan : RleState → List Byte → List Byte
  | _, [] => i16Bytes Config.rleEos
  | m, [x] => rleLast m x
  | m, x :: y :: rest =>
    (rleByte m x y rest).2 ++ (rleFlushOdd (rleByte m x y rest).1).2
      ++ (rleFlushEven (rleFlushOdd (rleByte m x y rest).1).1 x).2
      ++ rleScan (rleFlushEven (rleFlushOdd (rleByte m x y rest).1).1 x).1 (y :: rest)

/-- `RleEncode(a)` (41_rle R152). -/
def rleEncode (a : List Byte) : List Byte := rleScan RleState.init a

/-- The decoder's loop (41_rle R155): the bytes produced from here on and the cursor after the end mark. `cap` is what is left of
the capacity. Every turn reads two bytes at least, so that a `fuel` of the budget never runs out before the budget does. -/
def rleDecode : (fuel : Nat) → (cap : Nat) → Cursor → Except Raise (List Byte × Cursor)
  | 0, _, _ => .error .failed
  | fuel + 1, cap, rc =>
    match rdSigned 2 rc with
    | .error e => .error e
    | .ok (c, rc1) =>
      if c = Config.rleEos then .ok ([], rc1)
      else if 0 < c then
        match rdBytes c.toNat rc1 with
        | .error e => .error e
        | .ok (lit, rc2) =>
          if cap < c.toNat then .error .failed
          else
            match rleDecode fuel (cap - c.toNat) rc2 with
            | .error e => .error e
            | .ok (out, rc3) => .ok (lit ++ out, rc3)
      else if c < 0 then
        match rdBytes 1 rc1 with
        | .error e => .error e
        | .ok (b, rc2) =>
          if cap < (-c).toNat then .error .failed
          else
            match rleDecode fuel (cap - (-c).toNat) rc2 with
            | .error e => .error e
            | .ok (out, rc3) => .ok (List.replicate (-c).toNat (b.headD 0#8) ++ out, rc3)
      else .error .failed

end Sys2Proof.Machine
end

