-- ==== Sys2Proof/Machine/Rle.lean ====
section
/-! DEFINITION. The RLE and MSK commands (41_rle R153 to R158). -/

namespace Sys2Proof.Machine

/-- `RLE.SIZE` (41_rle R153). -/
def execRleSize (s : State) : Host.Outcome State Fault Refusal :=
  perform .rleSize s id (fun _ => .ok (s, (rleEncode (s.mem.readBytes s.a0 s.a1)).length, 0))

/-- `RLE.COMPRESS` (41_rle R154). -/
def execRleCompress (s : State) : Host.Outcome State Fault Refusal :=
  perform .rleCompress s id (fun _ => storeOutput s (rleEncode (s.mem.readBytes s.a0 s.a1)) 0)

/-- `RLE.DECOMPRESS` (41_rle R155); after `Failed` the write window is unspecified (60_exceptions R289). -/
def execRleDecompress (s : State) : Host.Outcome State Fault Refusal :=
  perform .rleDecompress s (scrambleOutput .rleDecompress)
    (fun _ =>
     match rleDecode s.a1 s.a3 (Cursor.start (s.mem.readBytes s.a0 s.a1)) with
     | .error e => .error e
     | .ok (out, rc) => .ok (s.store s.a2 out, out.length, rc.used))

/-- The mask segment of a mask (30_encoding R97, 41_rle R157): a count of 0 when no pixel or every pixel is valid, else the count
and the RLE stream of the store's bytes, tail bits included. -/
def maskSegment (b : Mask) : List Byte :=
  if b.count = 0 ∨ b.count = b.pixels then i32Bytes 0
  else i32Bytes (rleEncode (b.bits.take b.size)).length ++ rleEncode (b.bits.take b.size)

/-- `MSK.ENCODE` (41_rle R157). -/
def execMskEncode (s : State) : Host.Outcome State Fault Refusal :=
  perform .mskEncode s id (fun _ => storeOutput s (maskSegment s.bm) s.bm.count)

/-- The mask a segment decodes to and the bytes consumed (41_rle R158): `nv` is the number of valid pixels the header gives. -/
def readSegment (b : Mask) (nv : Nat) (src : List Byte) : Except Raise (Mask × Nat) :=
  match rdSigned 4 (Cursor.start src) with
  | .error e => .error e
  | .ok (cnt, rc) =>
    if cnt < 0 then .error .failed
    else if nv = 0 ∨ nv = b.pixels then
      if cnt ≠ 0 then .error .failed
      else if nv = 0 then .ok (b.fill 0x00#8, 4)
      else .ok (b.fill 0xFF#8, 4)
    else if cnt = 0 then .error .failed
    else
      match rdBytes cnt.toNat rc with
      | .error e => .error e
      | .ok (stream, _) =>
        match rleDecode cnt.toNat b.size (Cursor.start stream) with
        | .error e => .error e
        | .ok (out, _) =>
          if out.length ≠ b.size then .error .failed
          else if ({ b with bits := out } : Mask).count ≠ nv then .error .failed
          else .ok ({ b with bits := out }, 4 + cnt.toNat)

/-- What `MSK.DECODE` leaves when it ends in `Failed`: every byte of the store unspecified, the dimensions as they were
(60_exceptions R287, log 7). -/
def scrambleMask (s : State) : State :=
  { s with
    bm := { s.bm with bits := (List.range s.bm.size).map (fun j => Config.freeByte s.fresh j) }
    fresh := s.fresh + 1 }

/-- `MSK.DECODE` (41_rle R158). -/
def execMskDecode (s : State) : Host.Outcome State Fault Refusal :=
  perform .mskDecode s scrambleMask
    (fun _ =>
     if s.bm.pixels < s.a4 then .error .wrongParam
     else
      match readSegment s.bm s.a4 (s.mem.readBytes s.a0 s.a1) with
      | .error e => .error e
      | .ok (b, used) => .ok ({ s with bm := b }, s.a4, used))

end Sys2Proof.Machine
end

