-- ==== Sys2Proof/Machine/Sys.lean ====
section
/-! DEFINITION. The SYS commands (44_system R270, R271). -/

namespace Sys2Proof.Machine

/-- `SYS.NOP` (44_system R270). -/
def execSysNop (s : State) : Host.Outcome State Fault Refusal := perform .sysNop s id (fun _ => .ok (s, 0, 0))

/-- `SYS.RESET` (44_system R271): both internal stores into their reset state. -/
def execSysReset (s : State) : Host.Outcome State Fault Refusal :=
  perform .sysReset s id (fun _ => .ok ({ s.clearHuf with bm := Mask.empty }, 0, 0))

end Sys2Proof.Machine
end

