-- ==== Sys2Proof/Machine/Dispatch.lean ====
section
/-! DEFINITION. One arm per command of the opcode map (30_encoding R91). -/

namespace Sys2Proof.Machine

/-- What a command does to the state in which it runs. -/
def exec (i : Instr) (s : State) : Host.Outcome State Fault Refusal :=
  match i with
  | .sysNop => Sys2Proof.Machine.execSysNop s
  | .sysReset => Sys2Proof.Machine.execSysReset s
  | .bmSetSize => Sys2Proof.Machine.execBmSetSize s
  | .bmIsValid => Sys2Proof.Machine.execBmIsValid s
  | .bmSetValid => Sys2Proof.Machine.execBmSetValid s
  | .bmSetInvalid => Sys2Proof.Machine.execBmSetInvalid s
  | .bmSetAllValid => Sys2Proof.Machine.execBmSetAllValid s
  | .bmSetAllInvalid => Sys2Proof.Machine.execBmSetAllInvalid s
  | .bmCount => Sys2Proof.Machine.execBmCount s
  | .bmLoad => Sys2Proof.Machine.execBmLoad s
  | .bmStore => Sys2Proof.Machine.execBmStore s
  | .rleSize => Sys2Proof.Machine.execRleSize s
  | .rleCompress => Sys2Proof.Machine.execRleCompress s
  | .rleDecompress => Sys2Proof.Machine.execRleDecompress s
  | .mskEncode => Sys2Proof.Machine.execMskEncode s
  | .mskDecode => Sys2Proof.Machine.execMskDecode s
  | .bsStuff => Sys2Proof.Machine.execBsStuff s
  | .bsUnstuff => Sys2Proof.Machine.execBsUnstuff s
  | .bsSizeSimple => Sys2Proof.Machine.execBsSizeSimple s
  | .bsSizeLut => Sys2Proof.Machine.execBsSizeLut s
  | .bsEncSimple => Sys2Proof.Machine.execBsEncSimple s
  | .bsEncLut => Sys2Proof.Machine.execBsEncLut s
  | .bsDecode => Sys2Proof.Machine.execBsDecode s
  | .hufCompute => Sys2Proof.Machine.execHufCompute s
  | .hufSize => Sys2Proof.Machine.execHufSize s
  | .hufWrTable => Sys2Proof.Machine.execHufWrTable s
  | .hufRdTable => Sys2Proof.Machine.execHufRdTable s
  | .hufBuild => Sys2Proof.Machine.execHufBuild s
  | .hufEncode => Sys2Proof.Machine.execHufEncode s
  | .hufDecode => Sys2Proof.Machine.execHufDecode s
  | .hufClear => Sys2Proof.Machine.execHufClear s
  | .hufGetCode => Sys2Proof.Machine.execHufGetCode s

end Sys2Proof.Machine
end

