-- ==== Sys2Proof/Decode.lean ====
section
/-! DEFINITION. The command word: its decoder, total and rejecting by name, and its encoder (30_encoding R90, R91, R94). -/

namespace Sys2Proof

/-- Why a word is no command (30_encoding R94). -/
inductive DecodeError where
  /-- Bits 31:8 are not 0. -/
  | reservedHighBits
  /-- Family 5 to 15. -/
  | reservedFamily
  /-- A function its family does not use. -/
  | reservedFunction
deriving DecidableEq, Repr

/-- Field `zero`, bits 31:8 (30_encoding R90). -/
def Word.zeroField (w : Word) : Nat := w.toNat / 256
/-- Field `fam`, bits 7:4 (30_encoding R90). -/
def Word.famField (w : Word) : Nat := w.toNat / 16 % 16
/-- Field `fn`, bits 3:0 (30_encoding R90). -/
def Word.fnField (w : Word) : Nat := w.toNat % 16

/-- Family 0, `SYS` (30_encoding R91). -/
def decodeSys : Nat → Except DecodeError Instr
  | 0 => .ok .sysNop
  | 1 => .ok .sysReset
  | _ => .error .reservedFunction

/-- Family 1, `BM` (30_encoding R91). -/
def decodeBm : Nat → Except DecodeError Instr
  | 0 => .ok .bmSetSize
  | 1 => .ok .bmIsValid
  | 2 => .ok .bmSetValid
  | 3 => .ok .bmSetInvalid
  | 4 => .ok .bmSetAllValid
  | 5 => .ok .bmSetAllInvalid
  | 6 => .ok .bmCount
  | 7 => .ok .bmLoad
  | 8 => .ok .bmStore
  | _ => .error .reservedFunction

/-- Family 2, `RLE` and `MSK` (30_encoding R91). -/
def decodeRle : Nat → Except DecodeError Instr
  | 0 => .ok .rleSize
  | 1 => .ok .rleCompress
  | 2 => .ok .rleDecompress
  | 8 => .ok .mskEncode
  | 9 => .ok .mskDecode
  | _ => .error .reservedFunction

/-- Family 3, `BS` (30_encoding R91). -/
def decodeBs : Nat → Except DecodeError Instr
  | 0 => .ok .bsStuff
  | 1 => .ok .bsUnstuff
  | 2 => .ok .bsSizeSimple
  | 3 => .ok .bsSizeLut
  | 4 => .ok .bsEncSimple
  | 5 => .ok .bsEncLut
  | 6 => .ok .bsDecode
  | _ => .error .reservedFunction

/-- Family 4, `HUF` (30_encoding R91). -/
def decodeHuf : Nat → Except DecodeError Instr
  | 0 => .ok .hufCompute
  | 1 => .ok .hufSize
  | 2 => .ok .hufWrTable
  | 3 => .ok .hufRdTable
  | 4 => .ok .hufBuild
  | 5 => .ok .hufEncode
  | 6 => .ok .hufDecode
  | 7 => .ok .hufClear
  | 8 => .ok .hufGetCode
  | _ => .error .reservedFunction

/-- The command a word encodes, or why it encodes none (30_encoding R90, R91, R94). -/
def decode (w : Word) : Except DecodeError Instr :=
  if w.zeroField ≠ 0 then .error .reservedHighBits
  else
    match w.famField with
    | 0 => decodeSys w.fnField
    | 1 => decodeBm w.fnField
    | 2 => decodeRle w.fnField
    | 3 => decodeBs w.fnField
    | 4 => decodeHuf w.fnField
    | _ => .error .reservedFamily

/-- The family and function of a command, the map of 30_encoding R91 read the other way. -/
def Instr.famFn : Instr → Nat × Nat
  | .sysNop => (0, 0)
  | .sysReset => (0, 1)
  | .bmSetSize => (1, 0)
  | .bmIsValid => (1, 1)
  | .bmSetValid => (1, 2)
  | .bmSetInvalid => (1, 3)
  | .bmSetAllValid => (1, 4)
  | .bmSetAllInvalid => (1, 5)
  | .bmCount => (1, 6)
  | .bmLoad => (1, 7)
  | .bmStore => (1, 8)
  | .rleSize => (2, 0)
  | .rleCompress => (2, 1)
  | .rleDecompress => (2, 2)
  | .mskEncode => (2, 8)
  | .mskDecode => (2, 9)
  | .bsStuff => (3, 0)
  | .bsUnstuff => (3, 1)
  | .bsSizeSimple => (3, 2)
  | .bsSizeLut => (3, 3)
  | .bsEncSimple => (3, 4)
  | .bsEncLut => (3, 5)
  | .bsDecode => (3, 6)
  | .hufCompute => (4, 0)
  | .hufSize => (4, 1)
  | .hufWrTable => (4, 2)
  | .hufRdTable => (4, 3)
  | .hufBuild => (4, 4)
  | .hufEncode => (4, 5)
  | .hufDecode => (4, 6)
  | .hufClear => (4, 7)
  | .hufGetCode => (4, 8)

/-- The word of a command: `zero` = 0, `fam` in bits 7:4, `fn` in bits 3:0 (30_encoding R90). -/
def encode (i : Instr) : Word := BitVec.ofNat 32 (16 * i.famFn.1 + i.famFn.2)

/-- The host's question on a row of the opcode table: the bits above `nbits` are 0 and a command word has 32 of them. A command
is one word long (30_encoding R90), so an instruction with a bit above bit 31 is none. -/
def decodeTableWord (nbits w : Nat) : Option Instr :=
  if w % 2 ^ nbits < 4294967296 then
    match decode (BitVec.ofNat 32 (w % 2 ^ nbits)) with
    | .ok i => some i
    | .error _ => none
  else none

end Sys2Proof
end

