-- ==== Sys2Proof/Machine/Regs.lean ====
section
/-! DEFINITION. The register space as the host sees it (10_state R21 to R29; 44_system R272; 70_reset R320). -/

namespace Sys2Proof.Machine

/-- The registers in the order of their offsets 0x00, 0x04, .., 0x3C (10_state R21). -/
def regMap : List Reg :=
  [.cmd, .status, .arg0, .arg1, .arg2, .arg3, .arg4, .res0, .res1, .id, .bmCols, .bmRows, .hufStat, .hufSize,
    .reserved38, .reserved3C]

/-- The register at a byte offset; none where the interface has none (44_system R272). -/
def regAt (offset : Nat) : Option Reg := if offset % 4 = 0 then regMap[offset / 4]? else none

/-- What a register holds (10_state R21): `ID` is hard-wired (R26), the reserved offsets read 0, and four registers mirror the
internal stores (R27 to R29). -/
def regWord (s : State) : Reg → Word
  | .cmd => s.cmd
  | .status => statusWord s
  | .arg0 => s.arg0
  | .arg1 => s.arg1
  | .arg2 => s.arg2
  | .arg3 => s.arg3
  | .arg4 => s.arg4
  | .res0 => s.res0
  | .res1 => s.res1
  | .id => Config.hbrmId
  | .bmCols => BitVec.ofNat 32 s.bm.cols
  | .bmRows => BitVec.ofNat 32 s.bm.rows
  | .hufStat => hufStatWord s
  | .hufSize => BitVec.ofNat 32 s.ht.size
  | .reserved38 => 0#32
  | .reserved3C => 0#32

/-- The registers that mirror state a running command may be changing (70_reset R320). -/
def isMirror : Reg → Bool
  | .bmCols => true
  | .bmRows => true
  | .hufStat => true
  | .hufSize => true
  | _ => false

/-- The host reads a register. A read has no side effect on any register (44_system R272); a mirror read while `BUSY = 1` gives an
unspecified word (70_reset R320, log 9). -/
def readReg (s : State) (r : Reg) : State :=
  if s.busy && isMirror r then { s with rdata := Config.freeWord s.fresh 0, fresh := s.fresh + 1 }
  else { s with rdata := regWord s r }

/-- The host writes a register. Writes count only on `CMD` and `ARG0`..`ARG4`, only while `BUSY = 0` (44_system R272, 70_reset
R320), and only while `rst` is not asserted, for until then every register has its reset value (70_reset R310); a write to `CMD`
starts the command (10_state R22). -/
def writeReg (s : State) (r : Reg) (v : Word) : State :=
  if s.busy || s.rst then s
  else
    match r with
    | .cmd => s.latchCommand v
    | .arg0 => { s with arg0 := v }
    | .arg1 => { s with arg1 := v }
    | .arg2 => { s with arg2 := v }
    | .arg3 => { s with arg3 := v }
    | .arg4 => { s with arg4 := v }
    | _ => s

end Sys2Proof.Machine
end

