-- ==== Sys2Proof/Machine/HostPort.lean ====
section
/-! DEFINITION. The host's side: who owns which window, accesses to buffer memory and the reset input (20_memory R71; 70_reset R310, R311, R321). -/

namespace Sys2Proof.Machine

/-- The windows of the running command, which belong to the block while `BUSY = 1` (20_memory R71). A word that is no command has
none, and a command whose window tests fail touches none (20_memory R66, log 18). -/
def ownedWindows (s : State) : List Window :=
  if s.busy then
    match decode s.cmd with
    | .ok i => if windowsOk s.params.memSize (windows i s) then windows i s else []
    | .error _ => []
  else []

/-- The host stores bytes into buffer memory. A store into a window of the running command breaks the ownership rule
(70_reset R321, log 10). -/
def hostWrite (s : State) (a : Nat) (bs : List Byte) : State :=
  { s with
    mem := s.mem.writeBytes a bs
    raced := s.raced || (ownedWindows s).any (fun w => w.overlaps (wwin a bs.length)) }

/-- One byte the host reads: inside a write window of the running command it is unspecified, a mixture of old and new bytes
(70_reset R321). -/
def hostByte (s : State) (a : Nat) : Byte :=
  if (ownedWindows s).any (fun w => w.write && w.covers a) then Config.freeByte s.fresh a else s.mem.read a

/-- The host reads `n` bytes of buffer memory. -/
def hostRead (s : State) (a n : Nat) : State :=
  { s with
    mdata := (List.range n).map (fun j => hostByte s (a + j))
    fresh := if (ownedWindows s).any (fun w => w.write && w.overlaps (rwin a n)) then s.fresh + 1 else s.fresh }

/-- The reset input is asserted (70_reset R310): every piece of the block's state takes its reset value and keeps it until the
release. Buffer memory is not changed, but for the write windows of a command that was running, whose bytes are unspecified (R311,
log 8). The parameters and the host's side are not the block's. -/
def resetPin (s : State) : State :=
  { State.reset with
    mem := s.mem.scrambleWrites s.fresh (ownedWindows s)
    params := s.params
    rst := true
    host := s.host
    rdata := s.rdata
    mdata := s.mdata
    fresh := if s.busy then s.fresh + 1 else s.fresh }

/-- The reset input is released (70_reset R310): the block has stood at its reset values while it was asserted. -/
def releasePin (s : State) : State := { s with rst := false }

/-- A host script drops its next `n` actions unless the last command ended in `OK` (30_encoding R110). -/
def skipUnlessOk (s : State) (n : Nat) : State :=
  if s.err = .ok then s else { s with host := s.host.drop n }

end Sys2Proof.Machine
end

