-- ==== Sys2Proof/Machine/Raced.lean ====
section
/-! DEFINITION. What a command leaves when the host broke the ownership rule while it ran (70_reset R321, log 10). -/

namespace Sys2Proof.Machine

/-! The command ends as it would on some contents of its read windows; the bytes it has written and the internal state are free,
within the bounds the rule gives. -/

/-- Some mask the store can hold (10_state R31). -/
def freeMask (tag maxPixels : Nat) : Mask :=
  if Config.freeNat tag 3 ≤ Config.dimMax ∧ Config.freeNat tag 4 ≤ Config.dimMax ∧
      Config.freeNat tag 3 * Config.freeNat tag 4 ≤ maxPixels then
    { cols := Config.freeNat tag 3, rows := Config.freeNat tag 4
      bits := (List.range (ceilDiv (Config.freeNat tag 3 * Config.freeNat tag 4) 8)).map (fun j => Config.freeByte tag j) }
  else Mask.empty

/-- Some code table: one that 10_state R36 accepts, or none. -/
def freeTable (tag : Nat) : HufTable :=
  let len := (List.range (Config.freeNat tag 5)).map (fun k => Config.freeNat tag (k + 8))
  if len.length ≤ Config.hufMaxBins ∧ maxLen len ≤ Config.hufMaxLen ∧ complete len = true then tableOf len
  else HufTable.cleared

/-- The decoder structures of a table, built or not. -/
def freeDecoder (tag : Nat) (t : HufTable) : HufDecoder :=
  if t.valid && decide (Config.freeNat tag 6 % 2 = 1) then buildDecoder t else HufDecoder.cleared

/-- What the command finds when the host touched its windows: each byte of its read windows is whatever the interleaving of the
foreign accesses with the command's own gave, a free value. -/
def foreignReads (i : Instr) (s : State) : State :=
  { s with mem := s.mem.scrambleReads s.fresh (windows i s), fresh := s.fresh + 1 }

/-- How many bytes a command that ends with `OK` and this `RES0` has written to its write window: the result counts bytes, or
elements of four bytes for the three commands that write element arrays (30_encoding R92, 20_memory R62). -/
def bytesWritten (i : Instr) (res0 : Nat) : Nat :=
  if i = .bsUnstuff ∨ i = .bsDecode ∨ i = .hufDecode then 4 * res0 else res0

/-- The stream decoders that write buffer memory: the only commands that may have written when they end with `Failed` (60_exceptions
R289). -/
def writesBeforeFailing (i : Instr) : Bool := decide (i = .rleDecompress) || decide (i = .bsDecode) || decide (i = .hufDecode)

/-- Buffer memory after such a command, from how it ended on the bytes it found, `t`. Every byte the command has written, and no
other, is unspecified: its output after `OK`, its write window after `Failed` of a stream decoder (60_exceptions R289). Any other end
has written nothing (R286, R288, R289). -/
def racedMem (i : Instr) (s t : State) : Memory :=
  match t.err with
  | .ok => s.mem.scrambleWrites t.fresh ((windows i s).map (fun w => w.cut (bytesWritten i t.res0.toNat)))
  | .failed => if writesBeforeFailing i then s.mem.scrambleWrites t.fresh (windows i s) else s.mem
  | _ => s.mem

/-- The end of such a command, from how it ended on the bytes it found, `t`. The status code and the results are those of `t`, so
that 10_state R25 and 60_exceptions R290 hold of them. `WrongParam` has changed nothing (R286). The bytes written and those of the
mask have tags of their own. -/
def racedFrom (i : Instr) (s t : State) : State :=
  if t.err = .wrongParam then s.finish .wrongParam 0 0
  else
    ({ s with
        mem := racedMem i s t
        bm := freeMask (t.fresh + 1) s.params.maskMaxPixels
        ht := freeTable t.fresh
        hd := freeDecoder t.fresh (freeTable t.fresh)
        fresh := t.fresh + 2 } : State).finish t.err t.res0.toNat t.res1.toNat

/-- The end of a command whose windows the host touched while it ran (70_reset R321). -/
def racedEnd (i : Instr) (s : State) : Host.Outcome State Fault Refusal :=
  match exec i (foreignReads i s) with
  | .next t => .next (racedFrom i s t)
  | .fault r => .fault r
  | .refused r => .refused r

end Sys2Proof.Machine
end

