-- ==== Sys2Proof/Machine/Run.lean ====
section
/-! DEFINITION. One step of the whole machine: the running command, or the host's next action (00_scope R16; 20_memory R70, R71). -/

namespace Sys2Proof.Machine

/-- The end of a word that is no command: `IllegalCommand`, results 0, no other effect (30_encoding R94, 60_exceptions R286). -/
def illegalCommand (s : State) : State := s.finish .illegalCommand 0 0

/-- The block runs the command in `CMD` to its end, in one step (20_memory R70, R73). -/
def runCommand (s : State) : Host.Outcome State Fault Refusal :=
  match decode s.cmd with
  | .error _ => .next (illegalCommand s)
  | .ok i => if s.raced then racedEnd i s else exec i s

/-- The block moves, if it has a command to run; idle, it holds its state (60_exceptions R294). -/
def blockStep (s : State) : Host.Outcome State Fault Refusal := if s.busy then runCommand s else .next s

/-- One action of the host on a state from whose script it has been taken. -/
def hostStep (a : HostAct) (s : State) : Host.Outcome State Fault Refusal :=
  match a with
  | .writeReg offset v =>
    match regAt offset with
    | some r => .next (writeReg s r v)
    | none => .refused .outsideInterface
  | .readReg offset =>
    match regAt offset with
    | some r => .next (readReg s r)
    | none => .refused .outsideInterface
  | .writeMem addr bytes =>
    if addr + bytes.length ≤ s.params.memSize then .next (hostWrite s addr bytes) else .fault .hostAddress
  | .readMem addr n => if addr + n ≤ s.params.memSize then .next (hostRead s addr n) else .fault .hostAddress
  | .wait => blockStep s
  | .rst true => .next (resetPin s)
  | .rst false => .next (releasePin s)
  | .skipUnlessOk n => .next (skipUnlessOk s n)

/-- One step: the host's oldest pending action; with none pending, the block's (log 3). -/
def machineStep (s : State) : Host.Outcome State Fault Refusal :=
  match s.host with
  | [] => blockStep s
  | a :: rest => hostStep a { s with host := rest }

/-- The state in which the block is about to run the command a word encodes: what a host's write of the word to `CMD` leaves
(10_state R22), the reset input released, no action of the host pending. -/
def State.withCommand (s : State) (w : Word) : State := { s.latchCommand w with host := [], rst := false }

end Sys2Proof.Machine
end

