-- ==== Sys2Proof/Machine/Script.lean ====
section
/-! DEFINITION. The command script notation and its pseudo-commands as lists of host actions (30_encoding R92, R109, R110). -/

namespace Sys2Proof.Machine

/-- The byte offsets of the operand registers a command uses, in the order `ARG0` to `ARG4` (30_encoding R92). -/
def operandOffsets : Instr → List Nat
  | .sysNop => []
  | .sysReset => []
  | .bmSetSize => [0x08, 0x0C]
  | .bmIsValid => [0x08]
  | .bmSetValid => [0x08]
  | .bmSetInvalid => [0x08]
  | .bmSetAllValid => []
  | .bmSetAllInvalid => []
  | .bmCount => []
  | .bmLoad => [0x08]
  | .bmStore => [0x10, 0x14]
  | .rleSize => [0x08, 0x0C]
  | .rleCompress => [0x08, 0x0C, 0x10, 0x14]
  | .rleDecompress => [0x08, 0x0C, 0x10, 0x14]
  | .mskEncode => [0x10, 0x14]
  | .mskDecode => [0x08, 0x0C, 0x18]
  | .bsStuff => [0x08, 0x0C, 0x10, 0x14, 0x18]
  | .bsUnstuff => [0x08, 0x0C, 0x10, 0x14, 0x18]
  | .bsSizeSimple => [0x0C, 0x18]
  | .bsSizeLut => [0x08, 0x0C]
  | .bsEncSimple => [0x08, 0x0C, 0x10, 0x14]
  | .bsEncLut => [0x08, 0x0C, 0x10, 0x14]
  | .bsDecode => [0x08, 0x0C, 0x10, 0x14]
  | .hufCompute => [0x08, 0x0C]
  | .hufSize => [0x08, 0x0C]
  | .hufWrTable => [0x10, 0x14]
  | .hufRdTable => [0x08, 0x0C]
  | .hufBuild => []
  | .hufEncode => [0x08, 0x0C, 0x10, 0x14]
  | .hufDecode => [0x08, 0x0C, 0x10, 0x14]
  | .hufClear => []
  | .hufGetCode => [0x08]

/-- One command line: write the operands to the registers the command uses, write `CMD`, wait (30_encoding R109). -/
def commandLine (i : Instr) (ops : List Nat) : List HostAct :=
  ((operandOffsets i).zip ops).map (fun p => HostAct.writeReg p.1 (BitVec.ofNat 32 p.2))
    ++ [.writeReg 0x00 (encode i), .wait]

/-- A pseudo-command of two commands: the second runs only if the first ends in `OK` (30_encoding R110). -/
def thenIfOk (first second : List HostAct) : List HostAct := first ++ [.skipUnlessOk second.length] ++ second

/-- `BM.INIT.VALID c, r` (30_encoding R110). -/
def bmInitValid (c r : Nat) : List HostAct := thenIfOk (commandLine .bmSetSize [c, r]) (commandLine .bmSetAllValid [])

/-- `BM.INIT.INVALID c, r` (30_encoding R110). -/
def bmInitInvalid (c r : Nat) : List HostAct := thenIfOk (commandLine .bmSetSize [c, r]) (commandLine .bmSetAllInvalid [])

/-- `HUF.LOAD src, budget` (30_encoding R110). -/
def hufLoad (src budget : Nat) : List HostAct := thenIfOk (commandLine .hufRdTable [src, budget]) (commandLine .hufBuild [])

/-- `HUF.NEW hist, size` (30_encoding R110). -/
def hufNew (hist size : Nat) : List HostAct := thenIfOk (commandLine .hufClear []) (commandLine .hufCompute [hist, size])

end Sys2Proof.Machine
end

