-- ==== Sys2Proof/WellFormed.lean ====
section
/-! DEFINITION. Which terms the interface admits: command words (30_encoding R90, R91, R94), register offsets (44_system R272) and parameters (00_scope R7). -/

namespace Sys2Proof

/-- Every command is well formed: its word has no operand field (30_encoding R90). -/
def Instr.wellFormed (_ : Instr) : Bool := true

/-- Which functions of which family are assigned, as the ranges that the map of 30_encoding R91 leaves: two `SYS`, nine `BM`,
three `RLE` and two `MSK`, seven `BS`, nine `HUF`. -/
def assignedOpcode (fam fn : Nat) : Bool :=
  match fam with
  | 0 => decide (fn < 2)
  | 1 => decide (fn < 9)
  | 2 => decide (fn < 3) || (decide (8 ≤ fn) && decide (fn < 10))
  | 3 => decide (fn < 7)
  | 4 => decide (fn < 9)
  | _ => false

/-- A word that encodes a command: bits 31:8 are 0 and the opcode is in the map (30_encoding R90, R94). -/
def commandWordWellFormed (w : Word) : Bool :=
  decide (w.toNat / 256 = 0) && assignedOpcode (w.toNat / 16 % 16) (w.toNat % 16)

/-- A register offset of the interface: a multiple of 4 below 64 (44_system R272). -/
def regOffsetWellFormed (offset : Nat) : Bool :=
  decide (offset % 4 = 0) && decide (offset < 64)

/-- An action a conforming host may take: its register offset is one of the interface, and the addresses it touches exist
(20_memory R60, R69). -/
def HostAct.wellFormed (p : Config.Params) : HostAct → Bool
  | .writeReg offset _ => regOffsetWellFormed offset
  | .readReg offset => regOffsetWellFormed offset
  | .writeMem addr bytes => decide (addr + bytes.length ≤ p.memSize)
  | .readMem addr n => decide (addr + n ≤ p.memSize)
  | .wait => true
  | .rst _ => true
  | .skipUnlessOk _ => true

/-- The ranges of the two open parameters (00_scope R7). -/
def Config.Params.wellFormed (p : Config.Params) : Bool :=
  decide (1 ≤ p.memSize) && decide (p.memSize ≤ 4294967296) && decide (64 ≤ p.maskMaxPixels)

end Sys2Proof
end

