-- ==== Sys2Proof/Safety.lean ====
section
/-! DEFINITION. What a sound state is, what a command leaves alone, and the reference notions the statements use: legal RLE streams, blocks and serialized tables, the Huffman construction, prefix-free codes. -/

namespace Sys2Proof.Machine

/-! The invariant: the states the block can be in. -/

/-- Buffer memory is in its canonical form and lists nothing at or beyond `MEM_SIZE` (20_memory R60). -/
abbrev Memory.sound (m : Memory) (memSize : Nat) : Prop :=
  m.wf ∧ (∀ c ∈ m.cells, c.1 < memSize) ∧ (∀ sp ∈ m.spans, sp.hi ≤ memSize)

/-- The BitMask store within its limits (10_state R31). -/
abbrev Mask.sound (b : Mask) (maxPixels : Nat) : Prop :=
  b.cols ≤ Config.dimMax ∧ b.rows ≤ Config.dimMax ∧ b.pixels ≤ maxPixels ∧ b.bits.length = b.size

/-- What a valid code table satisfies (10_state R35, R36): at least two symbols in use, no length above 32, lengths complete, codes
canonical. -/
abbrev HufTable.legal (t : HufTable) : Prop :=
  t.valid = true ∧ 1 ≤ t.size ∧ t.size ≤ Config.hufMaxBins ∧ t.len.length = t.size ∧ 2 ≤ usedSymbols t.len ∧
    maxLen t.len ≤ Config.hufMaxLen ∧ complete t.len = true ∧ t.code = canonical t.len

/-- A code table: a legal one, or the other fields 0 and empty (10_state R35). -/
abbrev HufTable.sound (t : HufTable) : Prop := t.legal ∨ t = HufTable.cleared

/-- The decoder structures: those of the present table, or none (10_state R39). -/
abbrev HufDecoder.sound (d : HufDecoder) (t : HufTable) : Prop :=
  (t.valid = true ∧ d = buildDecoder t) ∨ d = HufDecoder.cleared

/-- Every piece of the block's state has its reset value (10_state R42): the state is the one right after reset but for buffer
memory, the parameters, the level of the reset input and the host's side, which are not the block's. -/
abbrev State.AtReset (s : State) : Prop :=
  s = { State.reset with
    mem := s.mem, params := s.params, rst := s.rst, host := s.host, rdata := s.rdata, mdata := s.mdata, fresh := s.fresh }

/-- A state the machine can be in. -/
abbrev State.Inv (s : State) : Prop :=
  s.params.wellFormed = true ∧ s.mem.sound s.params.memSize ∧ s.bm.sound s.params.maskMaxPixels ∧ s.ht.sound ∧
    s.hd.sound s.ht ∧ s.err ≠ .nan ∧ (s.busy = true → s.done = false) ∧ (s.raced = true → s.busy = true) ∧
    (s.rst = true → s.AtReset)

/-- Every pending action is one the interface has, at addresses that exist: what a conforming host does (44_system R272,
20_memory R60). -/
abbrev State.conforming (s : State) : Prop := ∀ a ∈ s.host, a.wellFormed s.params = true

/-- A step that does not stop the machine. -/
def State.safe (s : State) : Prop := ∃ t, step s = .next t

/-! Frames. -/

/-- What no command writes: `CMD`, the operand registers (10_state R24), the parameters, the reset input and the host's side. -/
def KeepsOperands (s t : State) : Prop :=
  t.cmd = s.cmd ∧ t.arg0 = s.arg0 ∧ t.arg1 = s.arg1 ∧ t.arg2 = s.arg2 ∧ t.arg3 = s.arg3 ∧ t.arg4 = s.arg4 ∧
    t.params = s.params ∧ t.rst = s.rst ∧ t.host = s.host ∧ t.rdata = s.rdata ∧ t.mdata = s.mdata

/-- The internal stores are unchanged. -/
def KeepsStores (s t : State) : Prop := t.bm = s.bm ∧ t.ht = s.ht ∧ t.hd = s.hd

/-- Every byte of buffer memory is unchanged but those at the addresses `a .. a+n-1`. -/
def KeepsMemoryBut (s t : State) (a n : Nat) : Prop :=
  ∀ x, ¬ (a ≤ x ∧ x < a + n) → t.mem.read x = s.mem.read x

/-- Every byte of buffer memory is unchanged. -/
def KeepsMemory (s t : State) : Prop := ∀ x, t.mem.read x = s.mem.read x

/-- Buffer memory holds a byte sequence from address `a` on. -/
def Holds (s : State) (a : Nat) (bs : List Byte) : Prop := ∀ j, j < bs.length → s.mem.read (a + j) = bs.getD j 0#8

/-- The number of pixels whose bit is 1, the meaning of the count (40_bitmask R136). -/
def Mask.validPixels (b : Mask) : Nat := ((List.range b.pixels).filter (fun k => b.bit k)).length

/-- A command has ended with a code and two results (10_state R22, R25): `BUSY` is 0 and `DONE` is 1. -/
def EndedWith (t : State) (code : StatusCode) (r0 r1 : Nat) : Prop :=
  t.err = code ∧ t.res0 = BitVec.ofNat 32 r0 ∧ t.res1 = BitVec.ofNat 32 r1 ∧ t.busy = false ∧ t.done = true

/-- A command has ended with `OK` having stored `out` at address `a` and changed nothing else: the bytes there, every other byte of
buffer memory as before, internal stores, operands and the host's side unchanged. -/
def Stored (s t : State) (a : Nat) (out : List Byte) (r0 r1 : Nat) : Prop :=
  EndedWith t .ok r0 r1 ∧ Holds t a out ∧ KeepsMemoryBut s t a out.length ∧ KeepsStores s t ∧ KeepsOperands s t

/-- What an encoder does with its exact output: `BufferTooSmall` with the needed size and nothing written, or the output at the
destination (60_exceptions R288). -/
def EncodesTo (i : Instr) (s : State) (out : List Byte) (r1 : Nat) : Prop :=
  (s.a3 < out.length → exec i s = .next (s.finish .bufferTooSmall out.length 0)) ∧
  (out.length ≤ s.a3 → ∃ t, exec i s = .next t ∧ Stored s t s.a2 out out.length r1)

/-- A stream decoder has ended with `Failed`: results 0, internal stores and operands unchanged, no byte outside its write window
changed (60_exceptions R289, R290). -/
def DecoderFailed (i : Instr) (s : State) (a n : Nat) : Prop :=
  ∃ t, exec i s = .next t ∧ EndedWith t .failed 0 0 ∧ KeepsMemoryBut s t a n ∧ KeepsStores s t ∧ KeepsOperands s t

/-- The window tests of a command pass (20_memory R66, R67). -/
abbrev WindowsPass (i : Instr) (s : State) : Prop := windowsOk s.params.memSize (windows i s) = true

/-- Two buffer memories hold the same bytes inside the read windows of a command. -/
def AgreeOnReads (m n : Memory) (ws : List Window) : Prop :=
  ∀ w ∈ ws, w.write = false → ∀ a, w.covers a = true → m.read a = n.read a

/-! Reference notions. -/

/-- The legal RLE streams and what they decode to (30_encoding R95, R96). -/
inductive RleStream : List Byte → List Byte → Prop where
  | endMark : RleStream [0x00#8, 0x80#8] []
  | literal (lit rest out : List Byte) (h : 1 ≤ lit.length ∧ lit.length ≤ 32767) (t : RleStream rest out) :
      RleStream (i16Bytes lit.length ++ lit ++ rest) (lit ++ out)
  | repeated (m : Nat) (b : Byte) (rest out : List Byte) (h : 1 ≤ m ∧ m ≤ 32767) (t : RleStream rest out) :
      RleStream (i16Bytes (-(m : Int)) ++ [b] ++ rest) (List.replicate m b ++ out)

/-- The lookahead at the head of a sequence: its first five bytes are equal and a sixth follows (41_rle R151). -/
def StartsRun (a : List Byte) : Prop := 6 ≤ a.length ∧ ∀ j, j < 5 → a.getD j 0#8 = a.getD 0 0#8

/-- Literal bytes as literal runs, each but the last of 32767 bytes (41_rle R152). -/
def literalRuns (lit : List Byte) : List Byte :=
  (List.range ((lit.length + 32766) / 32767)).flatMap (fun j =>
    i16Bytes (min 32767 (lit.length - 32767 * j) : Nat) ++ (lit.drop (32767 * j)).take 32767)

/-- `m` copies of a byte as repeat runs, each but the last of 32767 copies (41_rle R152). -/
def repeatRuns (m : Nat) (x : Byte) : List Byte :=
  (List.range ((m + 32766) / 32767)).flatMap (fun j => i16Bytes (-((min 32767 (m - 32767 * j) : Nat) : Int)) ++ [x])

/-- The mask segments `MSK.DECODE` accepts for a mask's dimensions and a number of valid pixels, the store they give and the bytes
consumed (30_encoding R97, 41_rle R158): a zero count for an all-invalid or all-valid mask, else a positive count of bytes that begin
with an RLE stream of exactly `Size()` bytes with that number of valid pixels. -/
def SegmentDecodes (b : Mask) (nv : Nat) (src : List Byte) (b' : Mask) (used : Nat) : Prop :=
  ∃ (cnt : Nat) (tail : List Byte), cnt < 2147483648 ∧ src = leBytes 4 cnt ++ tail ∧
    ((cnt = 0 ∧ nv = 0 ∧ b' = { b with bits := List.replicate b.size 0x00#8 } ∧ used = 4) ∨
     (cnt = 0 ∧ nv ≠ 0 ∧ nv = b.pixels ∧ b' = { b with bits := List.replicate b.size 0xFF#8 } ∧ used = 4) ∨
     (0 < cnt ∧ nv ≠ 0 ∧ nv ≠ b.pixels ∧ cnt ≤ tail.length ∧ used = 4 + cnt ∧
      ∃ st pad out, tail.take cnt = st ++ pad ∧ RleStream st out ∧ out.length = b.size ∧
        b' = { b with bits := out } ∧ b'.validPixels = nv))

/-- `body` is stuffed words of `n` elements of `b` bits, the values `vs`: bit `j` from the top of element `i` is bit `i*b + j` of the
words; the bits after the last element are any (30_encoding R98, R103; 42_bitstuffer R182). -/
def StuffedAs (body : List Byte) (n b : Nat) (vs : List Nat) : Prop :=
  body.length = 4 * ((n * b + 31) / 32) ∧ vs.length = n ∧
    ∀ i, i < n → vs.getD i 0 = natOfBits ((List.range b).map (fun j => (streamBits body).getD (i * b + j) false))

/-- The legal BitStuffer blocks and the elements they hold (30_encoding R99 to R103): a header with a width code other than 3, the
element count in as many bytes, and the words of a simple block, or, for a width of 1 or more, the table size byte, the words of the
stored entries `d` and those of the indices `r`, none above the number `m` of entries; index 0 names the value 0. -/
def BlockOf (bytes : List Byte) (vs : List Nat) : Prop :=
  ∃ b nw k : Nat, b ≤ 31 ∧ ((nw = 0 ∧ k = 4) ∨ (nw = 1 ∧ k = 2) ∨ (nw = 2 ∧ k = 1)) ∧ vs.length < 256 ^ k ∧
    ((∃ body, bytes = [BitVec.ofNat 8 (b + 64 * nw)] ++ leBytes k vs.length ++ body ∧ StuffedAs body vs.length b vs) ∨
     (∃ (m : Nat) (table idx : List Byte) (d r : List Nat), 1 ≤ b ∧ 1 ≤ m ∧ m ≤ 254 ∧
       bytes = [BitVec.ofNat 8 (b + 32 + 64 * nw)] ++ leBytes k vs.length ++ [BitVec.ofNat 8 (m + 1)] ++ table ++ idx ∧
       StuffedAs table m b d ∧ StuffedAs idx vs.length (bitlen m) r ∧ (∀ j ∈ r, j ≤ m) ∧
       ∀ i, i < vs.length → vs.getD i 0 = (0 :: d).getD (r.getD i 0) 0))

/-- The legal serialized code tables and the lengths they hold (30_encoding R104, R105): the size, a range of at most that many
indices that starts below it, a legal block of as many lengths, those of the symbols of the range with every other length 0, none
above 32, all together complete (10_state R36 (c)). -/
def SerializedTable (bytes : List Byte) (len : List Nat) : Prop :=
  ∃ (i0 i1 : Nat) (block : List Byte) (lens : List Nat),
    bytes = leBytes 4 len.length ++ leBytes 4 i0 ++ leBytes 4 i1 ++ block ∧
    1 ≤ len.length ∧ len.length ≤ 32768 ∧ i0 < len.length ∧ i0 < i1 ∧ i1 ≤ i0 + len.length ∧
    BlockOf block lens ∧ lens.length = i1 - i0 ∧
    (∀ i, i0 ≤ i → i < i1 → len.getD (wrapIndex len.length i) 0 = lens.getD (i - i0) 0) ∧
    (∀ k, k < len.length → (∀ i, i0 ≤ i → i < i1 → wrapIndex len.length i ≠ k) → len.getD k 0 = 0) ∧
    (∀ l ∈ len, l ≤ 32) ∧ 1 ≤ maxLen len ∧
    (len.map (fun l => if l = 0 then 0 else 2 ^ (maxLen len - l))).sum = 2 ^ maxLen len

/-- The leaves the Huffman construction starts from: one for every bin in use (43_huffman R221). -/
def leafPool (hist : List Nat) : List PoolNode :=
  ((List.range hist.length).filter (fun k => decide (hist.getD k 0 ≠ 0))).map (fun k =>
    { weight := hist.getD k 0, key := k, tree := .leaf k })

/-- The Huffman construction on a pool in any order (43_huffman R221): the node that is least by weight, then key (R222), and the next
least become the children of a node with the sum of their weights and the next key, until one node is left. -/
inductive Merges : Nat → List PoolNode → HTree → Prop where
  | root (next : Nat) (x : PoolNode) : Merges next [x] x.tree
  | merge (next : Nat) (pool rest : List PoolNode) (x y : PoolNode) (root : HTree)
      (split : pool.Perm (x :: y :: rest))
      (least : ∀ z ∈ y :: rest, x.weight < z.weight ∨ (x.weight = z.weight ∧ x.key < z.key))
      (second : ∀ z ∈ rest, y.weight < z.weight ∨ (y.weight = z.weight ∧ y.key < z.key))
      (go : Merges (next + 1) ({ weight := x.weight + y.weight, key := next, tree := .node x.tree y.tree } :: rest) root) :
      Merges next pool root

/-- The leaf of a symbol stands so many edges below the root of a tree (43_huffman R221). -/
inductive AtDepth : HTree → (symbol depth : Nat) → Prop where
  | leaf (k : Nat) : AtDepth (.leaf k) k 0
  | left (a b : HTree) (k d : Nat) (h : AtDepth a k d) : AtDepth (.node a b) k (d + 1)
  | right (a b : HTree) (k d : Nat) (h : AtDepth b k d) : AtDepth (.node a b) k (d + 1)

/-- The `n` entries from `k` on are the first longest run of zeros of a sequence, or `n` is 0 and there is none (43_huffman R225). -/
def FirstLongestZeroRun (len : List Nat) (k n : Nat) : Prop :=
  k + n ≤ len.length ∧ (∀ i, k ≤ i → i < k + n → len.getD i 0 = 0) ∧
    ∀ j m, j + m ≤ len.length → (∀ i, j ≤ i → i < j + m → len.getD i 0 = 0) → m ≤ n ∧ (m = n → k ≤ j)

/-- No code of a table is a prefix of another (10_state R36). -/
def PrefixFree (len code : List Nat) : Prop :=
  ∀ j k, j < len.length → k < len.length → j ≠ k → 0 < len.getD j 0 → 0 < len.getD k 0 →
    ¬ (bitsOf (len.getD j 0) (code.getD j 0) <+: bitsOf (len.getD k 0) (code.getD k 0))

/-- The histogram of a message over `size` bins. -/
def histogramOf (size : Nat) (syms : List Nat) : List Nat := (List.range size).map (fun k => syms.count k)

end Sys2Proof.Machine
end

