-- ==== Sys2Proof/Certificates/Slice0/Obligations.lean ====
section
/-! DEFINITION. The statements for the provers, from the numbered rules of the spec. -/

open Sys2Proof Sys2Proof.Machine

/-! ## Command words -/

/-- A word decodes to a command exactly when it is that command's encoding, and decodes to some command exactly when
bits 31:8 are 0 and the opcode is in the map. (30_encoding R90, R91, R94.) -/
def Obligations.DecodeInvertsEncode : Prop :=
  (∀ (w : Word) (i : Instr), decode w = .ok i ↔ w = encode i) ∧
  (∀ w : Word, (∃ i, decode w = .ok i) ↔ commandWordWellFormed w = true)

/-- The words of one command of every family, as the opcode map writes them. (30_encoding R90, R91.) -/
def Obligations.OpcodeMapWordsDecode : Prop :=
  decode 0x00000000#32 = .ok .sysNop ∧ decode 0x00000010#32 = .ok .bmSetSize ∧ decode 0x00000022#32 = .ok .rleDecompress ∧
  decode 0x00000029#32 = .ok .mskDecode ∧ decode 0x00000036#32 = .ok .bsDecode ∧ decode 0x00000048#32 = .ok .hufGetCode ∧
  decode 0x00000110#32 = .error .reservedHighBits ∧ decode 0x00000050#32 = .error .reservedFamily ∧
  decode 0x00000019#32 = .error .reservedFunction

/-! ## The step, the host's registers, reset -/

/-- With no action of the host pending, or with the host waiting, the step of a busy block is exec of the command in
`CMD`, and an idle block holds its state; a command word placed for the next step is run by it. The host's list of
actions and the placing of a word are the model's (logs 3 and 4). (20_memory R70, R73; 10_state R22.) -/
def Obligations.StepRunsTheCommandInCmd : Prop :=
  (∀ (s : State) (i : Instr), s.host = [] → s.busy = true → s.raced = false → decode s.cmd = .ok i → i.wellFormed = true →
    step s = exec i s) ∧
  (∀ (s : State) (i : Instr) (rest : List HostAct), s.host = .wait :: rest → s.busy = true → s.raced = false →
    decode s.cmd = .ok i → i.wellFormed = true → step s = exec i { s with host := rest }) ∧
  (∀ s : State, s.host = [] → s.busy = false → step s = .next s) ∧
  (∀ (s : State) (rest : List HostAct), s.host = .wait :: rest → s.busy = false → step s = .next { s with host := rest }) ∧
  (∀ (s : State) (i : Instr) (w : Nat), decodeTableWord 32 w = some i →
    step (s.withFetchWord 32 w) = exec i (s.withFetchWord 32 w))

/-- A reserved command word ends at once with `IllegalCommand`, results 0, and changes nothing else. (30_encoding
R94.) -/
def Obligations.ReservedWordEndsIllegal : Prop :=
  ∀ s : State, s.host = [] → s.busy = true → commandWordWellFormed s.cmd = false →
    step s = .next (s.finish .illegalCommand 0 0)

/-- A write to `CMD` while the block is idle and the reset input released stores the word, sets `BUSY`, clears `DONE`
and changes nothing else; a read of `CMD` then returns the word; and a write while busy is ignored. (10_state R22;
70_reset_and_hazards R320.) -/
def Obligations.CmdWriteStartsACommand : Prop :=
  (∀ (s : State) (w : Word) (rest : List HostAct), s.host = .writeReg 0x00 w :: rest → s.busy = false → s.rst = false →
    ∃ t, step s = .next t ∧ t = { s with host := rest, cmd := w, busy := true, done := false, raced := false } ∧
      regWord t .cmd = w) ∧
  (∀ (s : State) (w : Word) (rest : List HostAct), s.host = .writeReg 0x00 w :: rest → s.busy = true →
    step s = .next { s with host := rest })

/-- Register accesses of an idle block, the reset input released: the sixteen registers stand at their offsets and hold what they show, `ID` its
constant and the reserved offsets 0; a read at every offset of the interface returns what the register holds and has no
side effect; a write has an effect only on `CMD` and the operand registers. That an offset outside the interface is
refused is the model's choice (log 11). (44_system R272; 10_state R21, R24, R26, R27.) -/
def Obligations.RegisterAccessOfAnIdleBlock : Prop :=
  (∀ s : State, (List.range 16).map (fun k => (regAt (4 * k)).map (regWord s)) =
    [s.cmd, regWord s .status, s.arg0, s.arg1, s.arg2, s.arg3, s.arg4, s.res0, s.res1, 0x53303533#32, BitVec.ofNat 32 s.bm.cols,
      BitVec.ofNat 32 s.bm.rows, regWord s .hufStat, BitVec.ofNat 32 s.ht.size, 0#32, 0#32].map some) ∧
  (∀ (s : State) (offset : Nat) (rest : List HostAct), s.host = .readReg offset :: rest → s.busy = false →
    regOffsetWellFormed offset = true →
    ∃ r, regAt offset = some r ∧ step s = .next { s with host := rest, rdata := regWord s r }) ∧
  (∀ (s : State) (v : Word) (rest : List HostAct), s.busy = false → s.rst = false →
    (s.host = .writeReg 0x08 v :: rest → step s = .next { s with host := rest, arg0 := v }) ∧
    (s.host = .writeReg 0x0C v :: rest → step s = .next { s with host := rest, arg1 := v }) ∧
    (s.host = .writeReg 0x10 v :: rest → step s = .next { s with host := rest, arg2 := v }) ∧
    (s.host = .writeReg 0x14 v :: rest → step s = .next { s with host := rest, arg3 := v }) ∧
    (s.host = .writeReg 0x18 v :: rest → step s = .next { s with host := rest, arg4 := v })) ∧
  (∀ (s : State) (offset : Nat) (v : Word) (rest : List HostAct), s.host = .writeReg offset v :: rest → s.busy = false →
    offset ∈ [0x04, 0x1C, 0x20, 0x24, 0x28, 0x2C, 0x30, 0x34, 0x38, 0x3C] → step s = .next { s with host := rest }) ∧
  (∀ (s : State) (offset : Nat) (v : Word) (rest : List HostAct),
    (s.host = .writeReg offset v :: rest ∨ s.host = .readReg offset :: rest) → regOffsetWellFormed offset = false →
    step s = .refused .outsideInterface)

/-- Register accesses of a busy block: every write is ignored; a read of any register but the four mirrors returns its
value, with `STATUS` reading `BUSY = 1`, `DONE = 0` and the `ERR` of the previous command; a read of a mirror returns
some word and changes nothing else of the block. That the host acts between two steps is the model's (log 3), the word
a mirror gives a free value (log 9). (70_reset_and_hazards R320.) -/
def Obligations.RegisterAccessOfABusyBlock : Prop :=
  (∀ (s : State) (offset : Nat) (v : Word) (rest : List HostAct), s.host = .writeReg offset v :: rest → s.busy = true →
    regOffsetWellFormed offset = true → step s = .next { s with host := rest }) ∧
  (∀ (s : State) (offset : Nat) (r : Reg) (rest : List HostAct), s.host = .readReg offset :: rest → s.busy = true →
    regAt offset = some r → r ∉ [Reg.bmCols, Reg.bmRows, Reg.hufStat, Reg.hufSize] →
    step s = .next { s with host := rest, rdata := regWord s r }) ∧
  (∀ s : State, s.busy = true → s.done = false → regWord s .status = BitVec.ofNat 32 (1 + 16 * s.err.number)) ∧
  (∀ (s : State) (offset : Nat) (r : Reg) (rest : List HostAct), s.host = .readReg offset :: rest → s.busy = true →
    regAt offset = some r → r ∈ [Reg.bmCols, Reg.bmRows, Reg.hufStat, Reg.hufSize] →
    ∃ v, step s = .next { s with host := rest, rdata := v, fresh := s.fresh + 1 })

/-- The fields of `STATUS` in every state, and those of `HUFSTAT` and `HUFSIZE` in every sound state, with the range
of each field and every reserved bit 0. (10_state R23, R28,
R29.) -/
def Obligations.StatusAndHufstatFieldsReadBack : Prop :=
  (∀ s : State,
    (regWord s .status).getLsbD 0 = s.busy ∧ (regWord s .status).getLsbD 1 = s.done ∧
    (regWord s .status).toNat / 4 % 4 = 0 ∧ (regWord s .status).toNat / 16 = s.err.number ∧ s.err.number < 16) ∧
  (∀ s : State, s.Inv →
    (regWord s .hufStat).getLsbD 0 = s.ht.valid ∧ (regWord s .hufStat).getLsbD 1 = s.hd.valid ∧
    (regWord s .hufStat).toNat / 4 % 64 = 0 ∧ (regWord s .hufStat).toNat / 256 % 64 = maxLen s.ht.len ∧
    (regWord s .hufStat).toNat / 16384 % 4 = 0 ∧ (regWord s .hufStat).toNat / 65536 % 16 = s.hd.numBitsLUT ∧
    (regWord s .hufStat).toNat / 1048576 % 16 = 0 ∧ (regWord s .hufStat).toNat / 16777216 % 64 = s.hd.skip ∧
    (regWord s .hufStat).toNat / 1073741824 = 0 ∧
    (s.ht.valid = true → 1 ≤ maxLen s.ht.len ∧ maxLen s.ht.len ≤ 32) ∧ (s.ht.valid = false → maxLen s.ht.len = 0) ∧
    (s.hd.valid = true → 1 ≤ s.hd.numBitsLUT ∧ s.hd.numBitsLUT ≤ 12 ∧ s.hd.skip ≤ 31) ∧
    (s.hd.valid = false → s.hd.numBitsLUT = 0 ∧ s.hd.skip = 0) ∧
    (regWord s .hufSize).toNat = s.ht.size ∧ (s.ht.valid = true → 1 ≤ s.ht.size ∧ s.ht.size ≤ 32768) ∧
    (s.ht.valid = false → s.ht.size = 0))

/-- In the state right after reset, and when the reset input is asserted, whatever the block was doing, every register
reads 0 but `ID`, the block is idle, and the internal stores are empty and not valid. A reset of an idle block leaves
buffer memory as it was; a reset while a command runs changes no byte outside the write windows of the command. While
the input is held asserted a write to any register has no effect, no command starts, and from a sound state every
register still reads its reset value whatever the host does; its release changes nothing else. That the input changes
between two steps is the model's (log 13). (70_reset_and_hazards R310, R311; 10_state R42, R26.) -/
def Obligations.ResetInputResetsTheBlock : Prop :=
  (∀ r : Reg, regWord State.reset r = if r = .id then 0x53303533#32 else 0#32) ∧
  (∀ (s : State) (rest : List HostAct), s.host = .rst true :: rest →
    ∃ t, step s = .next t ∧ t.rst = true ∧ (∀ r : Reg, regWord t r = if r = .id then 0x53303533#32 else 0#32) ∧
      t.busy = false ∧ t.done = false ∧ t.err = .ok ∧
      t.bm.cols = 0 ∧ t.bm.rows = 0 ∧ t.bm.bits = [] ∧ t.ht.valid = false ∧ t.ht.size = 0 ∧ t.ht.len = [] ∧ t.ht.code = [] ∧
      t.hd.valid = false ∧ t.hd.numBitsLUT = 0 ∧ t.hd.skip = 0 ∧ t.hd.lut = [] ∧ t.hd.tree = .empty ∧
      t.host = rest ∧ t.params = s.params ∧ (s.busy = false → t.mem = s.mem) ∧
      (∀ i, s.busy = true → decode s.cmd = .ok i →
        ∀ a, (∀ w ∈ windows i s, w.write = true → w.covers a = false) → t.mem.read a = s.mem.read a)) ∧
  (∀ (s : State) (offset : Nat) (v : Word) (rest : List HostAct), s.rst = true → s.host = .writeReg offset v :: rest →
    regOffsetWellFormed offset = true → step s = .next { s with host := rest }) ∧
  (∀ s : State, s.Inv → s.rst = true → s.host = [] → step s = .next s) ∧
  (∀ (s t : State) (a : HostAct) (rest : List HostAct), s.Inv → s.rst = true → s.host = a :: rest → step s = .next t →
    t.AtReset ∧ (t.rst = true ↔ a ≠ .rst false) ∧ (∀ r : Reg, regWord t r = if r = .id then 0x53303533#32 else 0#32)) ∧
  (∀ (s : State) (rest : List HostAct), s.host = .rst false :: rest → step s = .next { s with host := rest, rst := false })

/-- One line of a command script, on an idle block whose reset input is released: after the writes of the operands to the
registers the command uses, the write of `CMD` and the wait, the machine is where exec of the command leaves it.
(30_encoding R109, R92.) -/
def Obligations.ScriptLineRunsItsCommand : Prop :=
  (∀ (s : State) (i : Instr) (ops : List Nat) (rest : List HostAct),
    s.host = commandLine i ops ++ rest → ops.length = (operandOffsets i).length → s.busy = false → s.rst = false →
    ∃ u, Sys2Proof.core.run ((operandOffsets i).length + 2) s = exec i u ∧ u.cmd = encode i ∧ u.busy = true ∧ u.done = false ∧
      u.host = rest ∧ u.mem = s.mem ∧ u.params = s.params ∧ KeepsStores s u ∧
      ∀ j, j < ops.length → ∃ r, regAt ((operandOffsets i).getD j 0) = some r ∧ regWord u r = BitVec.ofNat 32 (ops.getD j 0)) ∧
  (∀ i : Instr,
    (i ∈ [Instr.sysNop, .sysReset, .bmSetAllValid, .bmSetAllInvalid, .bmCount, .hufBuild, .hufClear] → operandOffsets i = []) ∧
    (i ∈ [Instr.bmIsValid, .bmSetValid, .bmSetInvalid, .bmLoad, .hufGetCode] → operandOffsets i = [0x08]) ∧
    (i ∈ [Instr.bmSetSize, .rleSize, .bsSizeLut, .hufCompute, .hufSize, .hufRdTable] → operandOffsets i = [0x08, 0x0C]) ∧
    (i ∈ [Instr.bmStore, .mskEncode, .hufWrTable] → operandOffsets i = [0x10, 0x14]) ∧
    (i ∈ [Instr.rleCompress, .rleDecompress, .bsEncSimple, .bsEncLut, .bsDecode, .hufEncode, .hufDecode] →
      operandOffsets i = [0x08, 0x0C, 0x10, 0x14]) ∧
    (i ∈ [Instr.bsStuff, .bsUnstuff] → operandOffsets i = [0x08, 0x0C, 0x10, 0x14, 0x18]) ∧
    (i = .mskDecode → operandOffsets i = [0x08, 0x0C, 0x18]) ∧ (i = .bsSizeSimple → operandOffsets i = [0x0C, 0x18]))

/-- What the host stores into buffer memory stands there afterwards, no other byte changes, and nothing else of the block
changes but, while a command runs, the model's mark of log 10. A host's read of buffer memory answers the bytes memory
holds and changes nothing, if the block is idle or no write window of the running command holds a byte of them; so an
idle block's host reads back what it stored. (20_memory R60, R71.) -/
def Obligations.HostStoresOrdinaryBytes : Prop :=
  (∀ (s : State) (a : Nat) (bs : List Byte) (rest : List HostAct), s.host = .writeMem a bs :: rest →
    a + bs.length ≤ s.params.memSize →
    ∃ t, step s = .next t ∧ Holds t a bs ∧ KeepsMemoryBut s t a bs.length ∧ t.mem.readBytes a bs.length = bs ∧
      t = { s with host := rest, mem := t.mem, raced := t.raced } ∧ (s.busy = false → t.raced = s.raced)) ∧
  (∀ (s : State) (a n : Nat) (rest : List HostAct), s.host = .readMem a n :: rest → a + n ≤ s.params.memSize →
    (s.busy = false ∨ ∃ i, decode s.cmd = .ok i ∧
      ∀ w ∈ windows i s, w.write = true → ∀ x, a ≤ x → x < a + n → w.covers x = false) →
    step s = .next { s with host := rest, mdata := (List.range n).map (fun j => s.mem.read (a + j)) }) ∧
  (∀ (s : State) (a : Nat) (bs : List Byte) (rest : List HostAct),
    s.host = .writeMem a bs :: .readMem a bs.length :: rest → a + bs.length ≤ s.params.memSize → s.busy = false →
    ∃ u, Sys2Proof.core.run 2 s = .next u ∧ u.mdata = bs ∧ u = { s with host := rest, mem := u.mem, mdata := bs })

/-! ## Rules over all commands -/

/-- Every command ends, with `OK`, `Failed`, `WrongParam` or `BufferTooSmall`; `BUSY` falls and `DONE` rises; `CMD`
and the operand registers keep their values. (60_exceptions R280; 10_state R22, R24.) -/
def Obligations.EveryCommandEnds : Prop :=
  ∀ (i : Instr) (s : State), ∃ t, exec i s = .next t ∧ t.busy = false ∧ t.done = true ∧
    t.err ∈ [StatusCode.ok, .failed, .wrongParam, .bufferTooSmall] ∧ KeepsOperands s t

/-- A command reads only inside its read windows and writes only inside its write windows, whatever its operands, the
memory and the internal state: it ends with a status code, no byte outside its write windows changes, and on a memory
that differs only outside its read windows it leaves the same registers and internal state and the same bytes wherever
it changed one. (70_reset_and_hazards R322; 20_memory R66.) -/
def Obligations.CommandsAreMemorySafe : Prop :=
  ∀ (i : Instr) (s : State),
    (∃ t, exec i s = .next t ∧ t.err ∈ [StatusCode.ok, .failed, .wrongParam, .bufferTooSmall] ∧
      ∀ a, (∀ w ∈ windows i s, w.write = true → w.covers a = false) → t.mem.read a = s.mem.read a) ∧
    (∀ (m : Memory) (t u : State), AgreeOnReads s.mem m (windows i s) → exec i s = .next t →
      exec i { s with mem := m } = .next u →
      u = { t with mem := u.mem } ∧
      ∀ a, u.mem.read a = t.mem.read a ∨ (t.mem.read a = s.mem.read a ∧ u.mem.read a = m.read a))

/-- A command that ends with `WrongParam` has changed nothing but `STATUS` and the results, which are 0. Only the
eight commands that write a stream end with `BufferTooSmall`; they then report a needed size above their capacity and
have changed nothing else. (60_exceptions R286, R288, R290.) -/
def Obligations.TurnedAwayCommandsChangeNothing : Prop :=
  (∀ (i : Instr) (s t : State), exec i s = .next t → t.err = .wrongParam → t = s.finish .wrongParam 0 0) ∧
  (∀ (i : Instr) (s t : State), exec i s = .next t → t.err = .bufferTooSmall →
    i ∈ [Instr.bmStore, .rleCompress, .mskEncode, .bsStuff, .bsEncSimple, .bsEncLut, .hufWrTable, .hufEncode] ∧
    ∃ need, s.a3 < need ∧ t = s.finish .bufferTooSmall need 0)

/-- What `Failed` leaves: `HUF.COMPUTE` and `HUF.RDTABLE` the Huffman unit cleared, `MSK.DECODE` the dimensions and
any bytes, the three stream decoders their write window unspecified, every other command nothing changed; the results
are 0. (60_exceptions R287, R289.) -/
def Obligations.FailedLeavesWhatTheRulesSay : Prop :=
  ∀ (i : Instr) (s t : State), exec i s = .next t → t.err = .failed →
    t.res0 = 0#32 ∧ t.res1 = 0#32 ∧
    (i = .hufCompute ∨ i = .hufRdTable → t = s.clearHuf.finish .failed 0 0) ∧
    (i = .mskDecode → t.bm.cols = s.bm.cols ∧ t.bm.rows = s.bm.rows ∧ t.bm.bits.length = s.bm.size ∧
      t = ({ s with bm := t.bm, fresh := s.fresh + 1 } : State).finish .failed 0 0) ∧
    (i = .rleDecompress → KeepsStores s t ∧ KeepsMemoryBut s t s.a2 s.a3) ∧
    (i = .bsDecode ∨ i = .hufDecode → KeepsStores s t ∧ KeepsMemoryBut s t s.a2 (4 * s.a3)) ∧
    (i ∉ [Instr.hufCompute, .hufRdTable, .mskDecode, .rleDecompress, .bsDecode, .hufDecode] →
      t = s.finish .failed 0 0)

/-- A window of positive length that leaves buffer memory, or a write window that shares an address with another
window, ends the command with `WrongParam` and nothing touched. A window of length 0 is never checked and two read
windows may overlap. The windows of every command. (20_memory R66, R67; 30_encoding
R93.) -/
def Obligations.WindowTestsComeFirst : Prop :=
  (∀ (i : Instr) (s : State) (w : Window), w ∈ windows i s → 0 < w.len → s.params.memSize < w.start + w.len →
    exec i s = .next (s.finish .wrongParam 0 0)) ∧
  (∀ (i : Instr) (s : State) (v w : Window) (x : Nat), windows i s = [v, w] → w.write = true → v.covers x = true →
    w.covers x = true → exec i s = .next (s.finish .wrongParam 0 0)) ∧
  (∀ (memSize : Nat) (ws : List Window),
    (∀ w ∈ ws, w.len = 0 ∨ w.start + w.len ≤ memSize) →
    ws.Pairwise (fun v w => (v.write = false ∧ w.write = false) ∨ ∀ x, ¬ (v.covers x = true ∧ w.covers x = true)) →
    windowsOk memSize ws = true) ∧
  (∀ (s : State) (i : Instr),
    (i = .bmLoad → windows i s = [{ write := false, start := s.arg0.toNat, len := (s.bm.cols * s.bm.rows + 7) / 8 }]) ∧
    (i ∈ [Instr.bmStore, .mskEncode, .hufWrTable] →
      windows i s = [{ write := true, start := s.arg2.toNat, len := s.arg3.toNat }]) ∧
    (i ∈ [Instr.rleSize, .mskDecode, .hufRdTable] →
      windows i s = [{ write := false, start := s.arg0.toNat, len := s.arg1.toNat }]) ∧
    (i ∈ [Instr.bsSizeLut, .hufCompute, .hufSize] →
      windows i s = [{ write := false, start := s.arg0.toNat, len := 4 * s.arg1.toNat }]) ∧
    (i ∈ [Instr.rleCompress, .rleDecompress] → windows i s =
      [{ write := false, start := s.arg0.toNat, len := s.arg1.toNat }, { write := true, start := s.arg2.toNat, len := s.arg3.toNat }]) ∧
    (i ∈ [Instr.bsStuff, .bsEncSimple, .bsEncLut, .hufEncode] → windows i s =
      [{ write := false, start := s.arg0.toNat, len := 4 * s.arg1.toNat }, { write := true, start := s.arg2.toNat, len := s.arg3.toNat }]) ∧
    (i ∈ [Instr.bsUnstuff, .bsDecode, .hufDecode] → windows i s =
      [{ write := false, start := s.arg0.toNat, len := s.arg1.toNat }, { write := true, start := s.arg2.toNat, len := 4 * s.arg3.toNat }]) ∧
    (i ∈ [Instr.sysNop, .sysReset, .bmSetSize, .bmIsValid, .bmSetValid, .bmSetInvalid, .bmSetAllValid, .bmSetAllInvalid, .bmCount,
      .bsSizeSimple, .hufBuild, .hufClear, .hufGetCode] → windows i s = []))

/-- Which commands change the internal stores: the BitMask store only the `BM` commands that write it, `MSK.DECODE`
and `SYS.RESET`; the code table only `HUF.COMPUTE`, `HUF.RDTABLE`, `HUF.CLEAR` and `SYS.RESET`; the decoder structures
those four and `HUF.BUILD`. (10_state R34, R39.) -/
def Obligations.OnlyTheirCommandsChangeTheStores : Prop :=
  ∀ (i : Instr) (s t : State), exec i s = .next t →
    (i ∉ [Instr.sysReset, .bmSetSize, .bmSetValid, .bmSetInvalid, .bmSetAllValid, .bmSetAllInvalid, .bmLoad, .mskDecode] →
      t.bm = s.bm) ∧
    (i ∉ [Instr.sysReset, .hufCompute, .hufRdTable, .hufClear] → t.ht = s.ht) ∧
    (i ∉ [Instr.sysReset, .hufCompute, .hufRdTable, .hufClear, .hufBuild] → t.hd = s.hd)

/-! ## SYS -/

/-- `SYS.NOP` ends with `OK`, results 0, and changes nothing else. `SYS.RESET` puts the internal stores into their
reset state and changes nothing else but `STATUS` and the results; it leaves what `BM.SETSIZE 0, 0` followed by
`HUF.CLEAR` leave. (44_system R270, R271.) -/
def Obligations.SysCommandsOutcome : Prop :=
  (∀ s : State, exec .sysNop s = .next (s.finish .ok 0 0)) ∧
  (∀ s : State, exec .sysReset s =
    .next (({ s with bm := State.reset.bm, ht := State.reset.ht, hd := State.reset.hd } : State).finish .ok 0 0)) ∧
  (∀ s t u : State, s.arg0 = 0#32 → s.arg1 = 0#32 → exec .bmSetSize s = .next t → exec .hufClear t = .next u →
    exec .sysReset s = .next u)

/-! ## BM -/

/-- `BM.SETSIZE`: out-of-range dimensions end with `WrongParam`; else the store has the new dimensions and every bit
0. (40_bitmask R130.) -/
def Obligations.BmSetSizeOutcome : Prop :=
  ∀ s : State, exec .bmSetSize s =
    .next (if 2147483647 < s.a0 ∨ 2147483647 < s.a1 ∨ s.params.maskMaxPixels < s.a0 * s.a1 then s.finish .wrongParam 0 0
      else ({ s with
        bm := { cols := s.a0, rows := s.a1, bits := List.replicate ((s.a0 * s.a1 + 7) / 8) 0x00#8 } } : State).finish .ok
          ((s.a0 * s.a1 + 7) / 8) 0)

/-- `BM.ISVALID` answers bit `7 - (k mod 8)` of byte `k div 8`; `BM.SETVALID` and `BM.SETINVALID` change that bit and
no other bit of the store; each ends with `WrongParam` for an index at or beyond the pixel count. (40_bitmask R131,
R132, R133.) -/
def Obligations.BmPixelOutcome : Prop :=
  (∀ s : State, s.bm.pixels ≤ s.a0 →
    exec .bmIsValid s = .next (s.finish .wrongParam 0 0) ∧ exec .bmSetValid s = .next (s.finish .wrongParam 0 0) ∧
    exec .bmSetInvalid s = .next (s.finish .wrongParam 0 0)) ∧
  (∀ s : State, s.a0 < s.bm.pixels → exec .bmIsValid s =
    .next (s.finish .ok (if (s.bm.bits.getD (s.a0 / 8) 0#8).getLsbD (7 - s.a0 % 8) then 1 else 0) 0)) ∧
  (∀ s : State, s.bm.bits.length = s.bm.size → s.a0 < s.bm.pixels →
    (∃ bits, exec .bmSetValid s = .next (({ s with bm := { s.bm with bits := bits } } : State).finish .ok 0 0) ∧
      bits.length = s.bm.bits.length ∧ (bits.getD (s.a0 / 8) 0#8).getLsbD (7 - s.a0 % 8) = true ∧
      ∀ j b, b < 8 → ¬ (j = s.a0 / 8 ∧ b = 7 - s.a0 % 8) → (bits.getD j 0#8).getLsbD b = (s.bm.bits.getD j 0#8).getLsbD b) ∧
    (∃ bits, exec .bmSetInvalid s = .next (({ s with bm := { s.bm with bits := bits } } : State).finish .ok 0 0) ∧
      bits.length = s.bm.bits.length ∧ (bits.getD (s.a0 / 8) 0#8).getLsbD (7 - s.a0 % 8) = false ∧
      ∀ j b, b < 8 → ¬ (j = s.a0 / 8 ∧ b = 7 - s.a0 % 8) → (bits.getD j 0#8).getLsbD b = (s.bm.bits.getD j 0#8).getLsbD b))

/-- `BM.SETALLVALID` and `BM.SETALLINVALID` set every byte of the store. That the fill with 1 takes in the tail bits
rests on the sentence of R134 "That whole bytes are filled, tail bits included, is taken from the source's remark",
which the spec marks as its own decision D12, from general knowledge. (40_bitmask R134, R135.) -/
def Obligations.BmFillOutcome : Prop :=
  ∀ s : State,
    exec .bmSetAllValid s =
      .next (({ s with bm := { s.bm with bits := List.replicate ((s.bm.cols * s.bm.rows + 7) / 8) 0xFF#8 } } : State).finish .ok 0 0) ∧
    exec .bmSetAllInvalid s =
      .next (({ s with bm := { s.bm with bits := List.replicate ((s.bm.cols * s.bm.rows + 7) / 8) 0x00#8 } } : State).finish .ok 0 0)

/-- `BM.COUNT` answers the number of pixels whose bit is 1 and changes no state. (40_bitmask R136.) -/
def Obligations.BmCountCountsValidPixels : Prop :=
  ∀ s : State, s.bm.bits.length = s.bm.size → exec .bmCount s = .next (s.finish .ok s.bm.validPixels 0)

/-- `BM.LOAD` copies `Size()` bytes of buffer memory into the store; `BM.STORE` copies the store's bytes out, or
reports the size it needs. (40_bitmask R137, R138.) -/
def Obligations.BmLoadStoreOutcome : Prop :=
  (∀ s : State, WindowsPass .bmLoad s → exec .bmLoad s =
    .next (({ s with bm := { s.bm with bits := (List.range s.bm.size).map (fun j => s.mem.read (s.a0 + j)) } } : State).finish .ok
      s.bm.size 0)) ∧
  (∀ s : State, s.bm.bits.length = s.bm.size → WindowsPass .bmStore s → EncodesTo .bmStore s s.bm.bits 0)

/-- The laws of the mask commands: the count after `BM.SETSIZE`, after a fill and after setting one pixel,
`BM.ISVALID` after `BM.SETVALID` and `BM.SETINVALID`, `BM.STORE` followed by `BM.LOAD`, and the bound on the count.
(40_bitmask R140.) -/
def Obligations.BitMaskLaws : Prop :=
  (∀ s t : State, exec .bmSetSize s = .next t → t.err = .ok → exec .bmCount t = .next (t.finish .ok 0 0)) ∧
  (∀ s t : State, exec .bmSetAllValid s = .next t → exec .bmCount t = .next (t.finish .ok s.bm.pixels 0)) ∧
  (∀ s t : State, s.bm.bits.length = s.bm.size → s.a0 < s.bm.pixels → exec .bmSetValid s = .next t →
    exec .bmIsValid t = .next (t.finish .ok 1 0) ∧
    exec .bmCount t = .next (t.finish .ok (if s.bm.bit s.a0 then s.bm.count else s.bm.count + 1) 0)) ∧
  (∀ s t : State, s.bm.bits.length = s.bm.size → s.a0 < s.bm.pixels → exec .bmSetInvalid s = .next t →
    exec .bmIsValid t = .next (t.finish .ok 0 0) ∧
    exec .bmCount t = .next (t.finish .ok (if s.bm.bit s.a0 then s.bm.count - 1 else s.bm.count) 0)) ∧
  (∀ s t u : State, s.bm.bits.length = s.bm.size → exec .bmStore s = .next t → t.err = .ok →
    exec .bmLoad { t with arg0 := t.arg2 } = .next u → u.bm = s.bm) ∧
  (∀ b : Mask, b.bits.length = b.size → b.count ≤ b.pixels)

/-! ## RLE and MSK -/

/-- `RLE.SIZE` answers the length of the stream that `RLE.COMPRESS` writes, or whose size it reports, and writes
nothing; the length is between 5 and `n + 2*ceil(n/32767) + 2` for `n ≥ 1` bytes, and 2 for none. The stream: counts
are two little-endian bytes; bytes at which no lookahead holds are literal runs of at most 32767; at the first byte
where five equal bytes with a sixth after them begin, all copies of that byte from there on are repeat runs of at most
32767, and the rest is encoded anew. (41_rle R150, R151, R152, R153, R154.) -/
def Obligations.RleSizeAndCompressOutcome : Prop :=
  (∀ s : State, WindowsPass .rleSize s →
    exec .rleSize s = .next (s.finish .ok (rleEncode (s.mem.readBytes s.a0 s.a1)).length 0)) ∧
  (∀ s : State, WindowsPass .rleCompress s → EncodesTo .rleCompress s (rleEncode (s.mem.readBytes s.a0 s.a1)) 0) ∧
  (rleEncode []).length = 2 ∧
  (∀ a : List Byte, 1 ≤ a.length →
    5 ≤ (rleEncode a).length ∧ (rleEncode a).length ≤ a.length + 2 * ((a.length + 32766) / 32767) + 2) ∧
  (∀ c : Int, i16Bytes c = [BitVec.ofInt 8 c, BitVec.ofInt 8 (c / 256)]) ∧
  (∀ lit : List Byte, (∀ t, t < lit.length → ¬ StartsRun (lit.drop t)) →
    rleEncode lit = literalRuns lit ++ [0x00#8, 0x80#8]) ∧
  (∀ (lit rest : List Byte) (m : Nat) (x : Byte), 5 ≤ m → 6 ≤ m + rest.length → rest.head? ≠ some x →
    (∀ t, t < lit.length → ¬ StartsRun ((lit ++ List.replicate m x ++ rest).drop t)) →
    rleEncode (lit ++ List.replicate m x ++ rest) = literalRuns lit ++ repeatRuns m x ++ rleEncode rest)

/-- `RLE.DECOMPRESS` succeeds exactly when its source begins with a legal stream whose data fit the capacity; it then
stores the data and consumes the stream, and otherwise ends with `Failed`. (41_rle R155; 30_encoding R95, R96.) -/
def Obligations.RleDecompressOutcome : Prop :=
  ∀ s : State, WindowsPass .rleDecompress s →
    (∀ st out tail, s.mem.readBytes s.a0 s.a1 = st ++ tail → RleStream st out → out.length ≤ s.a3 →
      ∃ t, exec .rleDecompress s = .next t ∧ Stored s t s.a2 out out.length st.length) ∧
    ((¬ ∃ st out tail, s.mem.readBytes s.a0 s.a1 = st ++ tail ∧ RleStream st out ∧ out.length ≤ s.a3) →
      DecoderFailed .rleDecompress s s.a2 s.a3)

/-- The encoder writes a legal stream of its input, and decoding that stream gives the input back and consumes it
whole, for every byte sequence and every capacity that holds it. (41_rle R156.) -/
def Obligations.RleRoundTrip : Prop :=
  ∀ a : List Byte, RleStream (rleEncode a) a ∧
    ∀ (cap : Nat) (tail : List Byte), a.length ≤ cap →
      rleDecode (rleEncode a ++ tail).length cap (Cursor.start (rleEncode a ++ tail)) =
        .ok (a, { left := tail, used := (rleEncode a).length })

/-- `MSK.ENCODE` writes four zero bytes for a mask with no pixel or every pixel valid, else the length of the RLE
stream of the store's bytes and the stream; its second result is the number of valid pixels. (41_rle R157.) -/
def Obligations.MskEncodeOutcome : Prop :=
  ∀ s : State, s.bm.bits.length = s.bm.size → WindowsPass .mskEncode s →
    (s.bm.validPixels = 0 ∨ s.bm.validPixels = s.bm.pixels →
      EncodesTo .mskEncode s [0x00#8, 0x00#8, 0x00#8, 0x00#8] s.bm.validPixels) ∧
    (s.bm.validPixels ≠ 0 → s.bm.validPixels ≠ s.bm.pixels →
      EncodesTo .mskEncode s (leBytes 4 (rleEncode s.bm.bits).length ++ rleEncode s.bm.bits) s.bm.validPixels)

/-- `MSK.DECODE`: too many valid pixels end with `WrongParam`; a legal segment gives the store it describes; anything
else ends with `Failed`, the dimensions unchanged and the bytes of the store any. (41_rle R158; 30_encoding R97.) -/
def Obligations.MskDecodeOutcome : Prop :=
  ∀ s : State, WindowsPass .mskDecode s →
    (s.bm.pixels < s.a4 → exec .mskDecode s = .next (s.finish .wrongParam 0 0)) ∧
    (s.a4 ≤ s.bm.pixels →
      (∀ b used, SegmentDecodes s.bm s.a4 (s.mem.readBytes s.a0 s.a1) b used →
        exec .mskDecode s = .next (({ s with bm := b } : State).finish .ok s.a4 used)) ∧
      ((¬ ∃ b used, SegmentDecodes s.bm s.a4 (s.mem.readBytes s.a0 s.a1) b used) →
        ∃ bits, bits.length = s.bm.size ∧ exec .mskDecode s =
          .next (({ s with bm := { s.bm with bits := bits }, fresh := s.fresh + 1 } : State).finish .failed 0 0)))

/-- Reading back the segment of a mask, on a store of the same dimensions, restores every pixel, and every bit when
the segment is not a zero-length one. The stream must be shorter than 2^31 bytes, which the segment's count can write.
(41_rle R159.) -/
def Obligations.MaskSegmentsAreFaithful : Prop :=
  ∀ (b : Mask) (old tail : List Byte), b.bits.length = b.size → (rleEncode b.bits).length < 2147483648 →
    ∃ b', readSegment { b with bits := old } b.count (maskSegment b ++ tail) = .ok (b', (maskSegment b).length) ∧
      b'.cols = b.cols ∧ b'.rows = b.rows ∧ (∀ k, k < b.pixels → b'.bit k = b.bit k) ∧
      (b.count ≠ 0 → b.count ≠ b.pixels → b' = b)

/-! ## BS -/

/-- Stuffing puts bit `j` from the top of element `i` at position `i*b + j` of the bit string, the rest of the last
word 0, in `4*ceil(n*b/32)` bytes; position `p` of a bit string is bit `31 - p mod 32` of little-endian word
`p div 32`. (42_bitstuffer R181.) -/
def Obligations.StuffPlacesEveryBit : Prop :=
  (∀ (vs : List Nat) (b : Nat), b ≤ 31 → (∀ v ∈ vs, v < 2 ^ b) →
    (stuff vs b).length = 4 * ((vs.length * b + 31) / 32) ∧
    (∀ i j, i < vs.length → j < b →
      (streamBits (stuff vs b)).getD (i * b + j) false = (vs.getD i 0).testBit (b - 1 - j)) ∧
    (∀ p, vs.length * b ≤ p → (streamBits (stuff vs b)).getD p false = false)) ∧
  (∀ (bytes : List Byte) (p : Nat), bytes.length % 4 = 0 → p < 8 * bytes.length →
    (streamBits bytes).getD p false =
      (bytes.getD (4 * (p / 32) + (31 - p % 32) / 8) 0#8).getLsbD ((31 - p % 32) % 8))

/-- `BS.STUFF`: a width above 31 ends with `WrongParam`, an element that does not fit with `Failed`; else the stuffed
words are written or the size needed is reported. The elements are the little-endian 32-bit words of the source.
(42_bitstuffer R183; 20_memory R62, R64.) -/
def Obligations.BsStuffOutcome : Prop :=
  (∀ s : State,
    (31 < s.a4 → exec .bsStuff s = .next (s.finish .wrongParam 0 0)) ∧
    (s.a4 ≤ 31 → WindowsPass .bsStuff s →
      ((∃ v ∈ u32Array s.mem s.a0 s.a1, 2 ^ s.a4 ≤ v) → exec .bsStuff s = .next (s.finish .failed 0 0)) ∧
      ((∀ v ∈ u32Array s.mem s.a0 s.a1, v < 2 ^ s.a4) →
        EncodesTo .bsStuff s (stuff (u32Array s.mem s.a0 s.a1) s.a4) 0))) ∧
  (∀ (m : Memory) (a n : Nat), (u32Array m a n).length = n ∧
    ∀ i, i < n → (u32Array m a n).getD i 0 =
      (m.read (a + 4 * i)).toNat + 256 * (m.read (a + 4 * i + 1)).toNat + 65536 * (m.read (a + 4 * i + 2)).toNat +
        16777216 * (m.read (a + 4 * i + 3)).toNat)

/-- `BS.UNSTUFF`: a width above 31 ends with `WrongParam`, a budget short of the words with `Failed` and nothing
written; else the elements are stored and the words consumed. (42_bitstuffer R182, R184.) -/
def Obligations.BsUnstuffOutcome : Prop :=
  ∀ s : State,
    (31 < s.a4 → exec .bsUnstuff s = .next (s.finish .wrongParam 0 0)) ∧
    (s.a4 ≤ 31 → WindowsPass .bsUnstuff s →
      (s.a1 < 4 * ((s.a3 * s.a4 + 31) / 32) → exec .bsUnstuff s = .next (s.finish .failed 0 0)) ∧
      (4 * ((s.a3 * s.a4 + 31) / 32) ≤ s.a1 →
        ∃ t vs, exec .bsUnstuff s = .next t ∧ vs.length = s.a3 ∧
          (∀ i, i < s.a3 → vs.getD i 0 =
            natOfBits ((List.range s.a4).map (fun j =>
              (streamBits (s.mem.readBytes s.a0 (4 * ((s.a3 * s.a4 + 31) / 32)))).getD (i * s.a4 + j) false))) ∧
          Stored s t s.a2 (u32Bytes vs) s.a3 (4 * ((s.a3 * s.a4 + 31) / 32))))

/-- `BS.UNSTUFF` of the bytes `BS.STUFF` writes for `n` values of at most `numBits` bits returns the values and
consumes exactly those bytes. (42_bitstuffer R185.) -/
def Obligations.UnstuffInvertsStuff : Prop :=
  ∀ (s : State) (vs : List Nat), s.a4 ≤ 31 → (∀ v ∈ vs, v < 2 ^ s.a4) → vs.length = s.a3 → WindowsPass .bsUnstuff s →
    s.a1 = (stuff vs s.a4).length → Holds s s.a0 (stuff vs s.a4) →
    ∃ t, exec .bsUnstuff s = .next t ∧ Stored s t s.a2 (u32Bytes vs) vs.length (stuff vs s.a4).length

/-- `BS.SIZE.SIMPLE` answers the size of a simple block from the element count and the largest element; the bit length
of a number is the `b` with `2^(b-1) ≤ v < 2^b`, and 0 for 0. (42_bitstuffer R186; 00_scope R9.) -/
def Obligations.BsSizeSimpleOutcome : Prop :=
  (∀ s : State, exec .bsSizeSimple s =
    .next (if 2147483648 ≤ s.a4 ∨ 4294967296 ≤ 1 + nBytes s.a1 + 4 * ((s.a1 * bitlen s.a4 + 31) / 32) then s.finish .wrongParam 0 0
      else s.finish .ok (1 + nBytes s.a1 + 4 * ((s.a1 * bitlen s.a4 + 31) / 32)) (bitlen s.a4))) ∧
  (∀ v : Nat, v < 2 ^ bitlen v ∧ (v ≠ 0 → 1 ≤ bitlen v ∧ 2 ^ (bitlen v - 1) ≤ v) ∧ (v = 0 → bitlen v = 0))

/-- `BS.ENC.SIMPLE`: an element of 2^31 or more ends with `Failed`; else the simple block, whose width is the smallest
that holds the largest element, is written or its size reported. The element count stands in 1 byte up to 255, in 2 up
to 65535, else in 4, with the width codes 2, 1 and 0; numbers are written lowest byte first. (42_bitstuffer R187;
30_encoding R99, R100, R101; 20_memory R64.) -/
def Obligations.BsEncSimpleOutcome : Prop :=
  (∀ s : State, WindowsPass .bsEncSimple s →
    ((∃ v ∈ u32Array s.mem s.a0 s.a1, 2147483648 ≤ v) → exec .bsEncSimple s = .next (s.finish .failed 0 0)) ∧
    ((∀ v ∈ u32Array s.mem s.a0 s.a1, v < 2147483648) →
      ∃ b, b ≤ 31 ∧ (∀ v ∈ u32Array s.mem s.a0 s.a1, v < 2 ^ b) ∧
        (∀ c, c < b → ∃ v ∈ u32Array s.mem s.a0 s.a1, 2 ^ c ≤ v) ∧
        EncodesTo .bsEncSimple s
          ([BitVec.ofNat 8 (b + 64 * nwCode (nBytes s.a1))] ++ leBytes (nBytes s.a1) s.a1
            ++ stuff (u32Array s.mem s.a0 s.a1) b) b)) ∧
  (∀ n : Nat, (n ≤ 255 → nBytes n = 1) ∧ (256 ≤ n → n ≤ 65535 → nBytes n = 2) ∧ (65536 ≤ n → nBytes n = 4)) ∧
  nwCode 1 = 2 ∧ nwCode 2 = 1 ∧ nwCode 4 = 0 ∧
  (∀ n v : Nat, (leBytes n v).length = n ∧ ∀ j, j < n → (leBytes n v).getD j 0#8 = BitVec.ofNat 8 (v / 256 ^ j))

/-- The lookup table of an array: it exists exactly when a 0 occurs, a non-zero value occurs, at most 254 distinct
non-zero values occur and every value is below 2^31; it is the distinct values in ascending order, and the indices
name the values. (42_bitstuffer R188.) -/
def Obligations.LutOfFindsTheTable : Prop :=
  ∀ vs : List Nat,
    ((0 ∈ vs ∧ (∃ v ∈ vs, v ≠ 0) ∧ (vs.toFinset.erase 0).card ≤ 254 ∧ ∀ v ∈ vs, v < 2147483648) → ∃ l, lutOf vs = .ok l) ∧
    (¬ (0 ∈ vs ∧ (∃ v ∈ vs, v ≠ 0) ∧ (vs.toFinset.erase 0).card ≤ 254 ∧ ∀ v ∈ vs, v < 2147483648) →
      lutOf vs = .error .failed) ∧
    (∀ l, lutOf vs = .ok l →
      l.table.Pairwise (· < ·) ∧ (∀ v, v ∈ l.table ↔ v ∈ vs) ∧ l.table.head? = some 0 ∧ l.stored + 1 = l.table.length ∧
      (∀ v ∈ l.table, v < 2 ^ l.width) ∧ (∃ v ∈ l.table, 2 ^ l.width ≤ 2 * v) ∧
      l.indices.length = vs.length ∧ ∀ i, i < vs.length → l.table[l.indices.getD i 0]? = vs[i]?)

/-- `BS.SIZE.LUT` and `BS.ENC.LUT`: an array without a table ends with `Failed`; else the size is the length of the
LUT block, the second result the number of stored entries, and the block is written or its size reported.
(42_bitstuffer R189, R190; 30_encoding R102.) -/
def Obligations.BsLutOutcome : Prop :=
  ∀ s : State,
    (WindowsPass .bsSizeLut s →
      ((∀ l, lutOf (u32Array s.mem s.a0 s.a1) ≠ .ok l) → exec .bsSizeLut s = .next (s.finish .failed 0 0)) ∧
      (∀ l, lutOf (u32Array s.mem s.a0 s.a1) = .ok l →
        exec .bsSizeLut s = .next (s.finish .ok (lutBlock (u32Array s.mem s.a0 s.a1) l).length l.stored))) ∧
    (WindowsPass .bsEncLut s →
      ((∀ l, lutOf (u32Array s.mem s.a0 s.a1) ≠ .ok l) → exec .bsEncLut s = .next (s.finish .failed 0 0)) ∧
      (∀ l, lutOf (u32Array s.mem s.a0 s.a1) = .ok l →
        EncodesTo .bsEncLut s
          ([BitVec.ofNat 8 (l.width + 32 + 64 * nwCode (nBytes s.a1))] ++ leBytes (nBytes s.a1) s.a1
            ++ [BitVec.ofNat 8 (l.stored + 1)] ++ stuff (l.table.drop 1) l.width ++ stuff l.indices (bitlen l.stored)) l.stored))

/-- `BS.DECODE` succeeds exactly when its source begins with a legal block of no more elements than it accepts; it then
stores the elements and consumes the block, and otherwise, on a reserved width code, a table of width 0, a table size
byte of 0 or 1, an index above the number of entries, too many elements or a block cut short, ends with `Failed`. The
block decoder of the two statements after this one accepts the same blocks. (42_bitstuffer R191; 30_encoding R103.) -/
def Obligations.BsDecodeOutcome : Prop :=
  (∀ s : State, WindowsPass .bsDecode s →
    (∀ bytes tail vs, s.mem.readBytes s.a0 s.a1 = bytes ++ tail → BlockOf bytes vs → vs.length ≤ s.a3 →
      ∃ t, exec .bsDecode s = .next t ∧ Stored s t s.a2 (u32Bytes vs) vs.length bytes.length) ∧
    ((¬ ∃ bytes tail vs, s.mem.readBytes s.a0 s.a1 = bytes ++ tail ∧ BlockOf bytes vs ∧ vs.length ≤ s.a3) →
      DecoderFailed .bsDecode s s.a2 (4 * s.a3))) ∧
  (∀ (cap : Nat) (src : List Byte),
    (∀ bytes tail vs, src = bytes ++ tail → BlockOf bytes vs → vs.length ≤ cap →
      decodeBlock cap (Cursor.start src) = .ok (vs, { left := tail, used := bytes.length })) ∧
    ((¬ ∃ bytes tail vs, src = bytes ++ tail ∧ BlockOf bytes vs ∧ vs.length ≤ cap) →
      decodeBlock cap (Cursor.start src) = .error .failed))

/-- The laws of the blocks: a simple block and a LUT block decode to their elements and are consumed whole, by any
capacity that holds them and whatever follows; their sizes are what the size functions say; a block cut short does not
decode. (42_bitstuffer R192.) -/
def Obligations.BlockRoundTrip : Prop :=
  (∀ (vs : List Nat) (cap : Nat) (tail : List Byte), vs.length < 4294967296 → (∀ v ∈ vs, v < 2147483648) → vs.length ≤ cap →
    (simpleBlock vs).length = 1 + nBytes vs.length + stuffBytes vs.length (bitlen (maxElem vs)) ∧
    decodeBlock cap (Cursor.start (simpleBlock vs ++ tail)) = .ok (vs, { left := tail, used := (simpleBlock vs).length })) ∧
  (∀ (vs : List Nat) (l : Lut) (cap : Nat) (tail : List Byte), vs.length < 4294967296 → lutOf vs = .ok l → vs.length ≤ cap →
    (lutBlock vs l).length = lutBlockSize vs.length l ∧
    decodeBlock cap (Cursor.start (lutBlock vs l ++ tail)) = .ok (vs, { left := tail, used := (lutBlock vs l).length })) ∧
  (∀ (vs : List Nat) (cap k : Nat), vs.length < 4294967296 → (∀ v ∈ vs, v < 2147483648) → k < (simpleBlock vs).length →
    decodeBlock cap (Cursor.start ((simpleBlock vs).take k)) = .error .failed) ∧
  (∀ (vs : List Nat) (l : Lut) (cap k : Nat), vs.length < 4294967296 → lutOf vs = .ok l → k < (lutBlock vs l).length →
    decodeBlock cap (Cursor.start ((lutBlock vs l).take k)) = .error .failed)

/-- A simple block with any legal count width and any width up to 31 that holds its elements decodes to them: the
decoder does not ask for the smallest. (42_bitstuffer R191; 30_encoding R100.) -/
def Obligations.DecoderAcceptsAnyLegalWidth : Prop :=
  ∀ (vs : List Nat) (b k cap : Nat) (tail : List Byte), k = 1 ∨ k = 2 ∨ k = 4 → vs.length < 256 ^ k → b ≤ 31 →
    (∀ v ∈ vs, v < 2 ^ b) → vs.length ≤ cap →
    decodeBlock cap (Cursor.start ([headerByte b false (nwCode k)] ++ leBytes k vs.length ++ stuff vs b ++ tail)) =
      .ok (vs, { left := tail, used := 1 + k + stuffBytes vs.length b })

/-! ## HUF -/

/-- Code lengths from a histogram: fewer than two bins in use end with `Failed`; else the lengths are the depths of the
leaves under the construction that merges the two least nodes by weight, then key, and a depth above 32 ends with
`Failed`. Every bin in use, and no other, gets a length between 1 and one less than the number of bins in use, and the
lengths are complete; up to 33 bins in use always have lengths. (43_huffman R221, R222.) -/
def Obligations.HufLengthsAreComplete : Prop :=
  (∀ hist : List Nat, usedSymbols hist < 2 → hufLengths hist = .error .failed) ∧
  (∀ hist len : List Nat, 2 ≤ usedSymbols hist →
    (hufLengths hist = .ok len ↔ len.length = hist.length ∧ (∀ l ∈ len, l ≤ 32) ∧
      ∃ root, Merges hist.length (leafPool hist) root ∧
        ∀ k, k < hist.length → (hist.getD k 0 = 0 → len.getD k 0 = 0) ∧
          (hist.getD k 0 ≠ 0 → AtDepth root k (len.getD k 0)))) ∧
  (∀ hist : List Nat, (∀ len, hufLengths hist ≠ .ok len) → hufLengths hist = .error .failed) ∧
  (∀ hist len : List Nat, hufLengths hist = .ok len →
    len.length = hist.length ∧ complete len = true ∧ maxLen len ≤ 32 ∧
    ∀ k, k < hist.length → (hist.getD k 0 = 0 → len.getD k 0 = 0) ∧
      (hist.getD k 0 ≠ 0 → 1 ≤ len.getD k 0 ∧ len.getD k 0 ≤ usedSymbols hist - 1)) ∧
  (∀ hist : List Nat, 2 ≤ usedSymbols hist → usedSymbols hist ≤ 33 → ∃ len, hufLengths hist = .ok len)

/-- The canonical codes of complete lengths: every code fits its length, no code is a prefix of another, an unused
symbol's code is 0, codes of one length are consecutive by symbol, the first longest code is 0, and a longer code,
shifted right by the difference of the lengths, is below every shorter code. (43_huffman R223; 10_state R36.) -/
def Obligations.CanonicalCodesArePrefixFree : Prop :=
  ∀ len : List Nat, complete len = true →
    (canonical len).length = len.length ∧ PrefixFree len (canonical len) ∧
    (∀ k, k < len.length → (canonical len).getD k 0 < 2 ^ len.getD k 0) ∧
    (∀ k, k < len.length → len.getD k 0 = 0 → (canonical len).getD k 0 = 0) ∧
    (∀ j k, j < k → k < len.length → 0 < len.getD j 0 → len.getD j 0 = len.getD k 0 →
      (∀ i, j < i → i < k → len.getD i 0 ≠ len.getD j 0) → (canonical len).getD k 0 = (canonical len).getD j 0 + 1) ∧
    (∀ k, k < len.length → len.getD k 0 = maxLen len → (∀ i, i < k → len.getD i 0 ≠ maxLen len) →
      (canonical len).getD k 0 = 0) ∧
    (∀ j k, j < len.length → k < len.length → 0 < len.getD k 0 → len.getD k 0 < len.getD j 0 →
      (canonical len).getD j 0 / 2 ^ (len.getD j 0 - len.getD k 0) < (canonical len).getD k 0)

/-- `HUF.COMPUTE`: a bin count outside 1..32768 ends with `WrongParam`; an ineligible histogram with `Failed`, the
unit cleared; else the table holds the lengths and their canonical codes, the decoder structures are cleared, and the
results are the longest length and the number of symbols in use. (43_huffman R224.) -/
def Obligations.HufComputeOutcome : Prop :=
  ∀ s : State,
    (s.a1 < 1 ∨ 32768 < s.a1 → exec .hufCompute s = .next (s.finish .wrongParam 0 0)) ∧
    (1 ≤ s.a1 → s.a1 ≤ 32768 → WindowsPass .hufCompute s →
      ((∀ len, hufLengths (u32Array s.mem s.a0 s.a1) ≠ .ok len) →
        exec .hufCompute s = .next (s.clearHuf.finish .failed 0 0)) ∧
      (∀ len t, hufLengths (u32Array s.mem s.a0 s.a1) = .ok len →
        t = ({ valid := true, size := s.a1, len := len, code := canonical len } : HufTable) →
        exec .hufCompute s =
          .next (({ s with ht := t, hd := HufDecoder.cleared } : State).finish .ok (maxLen len) (usedSymbols len))))

/-- The range of written lengths: from the first symbol in use to the last, or, exactly when the longest run of unused
symbols (the first of the longest) leaves fewer indices, from after that run around the end to before it. It starts
and ends at symbols in use, has at most `size` indices, and every symbol outside it is unused. (43_huffman R225.) -/
def Obligations.HufRangeCoversTheCodes : Prop :=
  (∀ (len : List Nat) (i0 i1 k n : Nat), i0 < i1 → i1 ≤ len.length → len.getD i0 0 ≠ 0 → (∀ i, i < i0 → len.getD i 0 = 0) →
    len.getD (i1 - 1) 0 ≠ 0 → (∀ i, i1 ≤ i → len.getD i 0 = 0) → FirstLongestZeroRun len k n →
    hufRange len = if len.length - n < i1 - i0 then (k + n, k + len.length) else (i0, i1)) ∧
  (∀ len : List Nat, 1 ≤ usedSymbols len →
    (hufRange len).1 < len.length ∧ (hufRange len).1 < (hufRange len).2 ∧
    (hufRange len).2 ≤ (hufRange len).1 + len.length ∧
    len.getD (wrapIndex len.length (hufRange len).1) 0 ≠ 0 ∧ len.getD (wrapIndex len.length ((hufRange len).2 - 1)) 0 ≠ 0 ∧
    ∀ k, k < len.length → len.getD k 0 ≠ 0 →
      ∃ i, (hufRange len).1 ≤ i ∧ i < (hufRange len).2 ∧ wrapIndex len.length i = k)

/-- The bytes of a table are its size and the ends of the written range, four little-endian bytes each, and the simple
block of the lengths of the range, of the smallest width that holds them. `HUF.WRTABLE` and `HUF.SIZE`: without a
valid table `Failed`; `HUF.WRTABLE` writes the table's bytes or reports their number; `HUF.SIZE` of a histogram of `ht.size` bins that uses no symbol without a code answers table plus stream
and table bytes. (43_huffman R226, R227, R229;
30_encoding R104.) -/
def Obligations.HufWrTableAndSizeOutcome : Prop :=
  (∀ (t : HufTable) (lens : List Nat),
    lens = (List.range ((hufRange t.len).2 - (hufRange t.len).1)).map (fun j =>
      t.len.getD (if (hufRange t.len).1 + j < t.size then (hufRange t.len).1 + j else (hufRange t.len).1 + j - t.size) 0) →
    ∃ b, (∀ v ∈ lens, v < 2 ^ b) ∧ (∀ c, c < b → ∃ v ∈ lens, 2 ^ c ≤ v) ∧
      hufTableBytes t = leBytes 4 t.size ++ leBytes 4 (hufRange t.len).1 ++ leBytes 4 (hufRange t.len).2
        ++ [BitVec.ofNat 8 (b + 64 * nwCode (nBytes lens.length))] ++ leBytes (nBytes lens.length) lens.length ++ stuff lens b) ∧
  (∀ s : State,
    (WindowsPass .hufWrTable s →
      (s.ht.valid = false → exec .hufWrTable s = .next (s.finish .failed 0 0)) ∧
      (s.ht.valid = true → EncodesTo .hufWrTable s (hufTableBytes s.ht) 0)) ∧
    (WindowsPass .hufSize s →
      (s.ht.valid = false → exec .hufSize s = .next (s.finish .failed 0 0)) ∧
      (s.ht.valid = true → s.a1 ≠ s.ht.size → exec .hufSize s = .next (s.finish .wrongParam 0 0)) ∧
      (s.ht.valid = true → s.a1 = s.ht.size → s.ht.len.length = s.ht.size →
        ((∃ k, k < s.ht.size ∧ 0 < (u32Array s.mem s.a0 s.a1).getD k 0 ∧ s.ht.len.getD k 0 = 0) →
          exec .hufSize s = .next (s.finish .failed 0 0)) ∧
        ((∀ k, k < s.ht.size → 0 < (u32Array s.mem s.a0 s.a1).getD k 0 → s.ht.len.getD k 0 ≠ 0) →
          ∀ total, total = (hufTableBytes s.ht).length + 4 * ((((List.range s.ht.size).map (fun k =>
              (u32Array s.mem s.a0 s.a1).getD k 0 * s.ht.len.getD k 0)).sum + 31) / 32 + 1) →
          exec .hufSize s = .next (if 4294967296 ≤ total then s.finish .failed 0 0
            else s.finish .ok total (hufTableBytes s.ht).length)))))

/-- `HUF.RDTABLE` of the bytes `HUF.WRTABLE` writes for a legal table gives that table back, whatever follows them,
and consumes exactly those bytes; every proper prefix of them ends with `Failed` and the unit cleared. (43_huffman
R245, R226, R228.) -/
def Obligations.TableRoundTrip : Prop :=
  ∀ (s : State) (t : HufTable) (tail : List Byte), t.legal → WindowsPass .hufRdTable s →
    (s.mem.readBytes s.a0 s.a1 = hufTableBytes t ++ tail →
      exec .hufRdTable s =
        .next (({ s with ht := t, hd := HufDecoder.cleared } : State).finish .ok t.size (hufTableBytes t).length)) ∧
    (∀ k, k < (hufTableBytes t).length → s.mem.readBytes s.a0 s.a1 = (hufTableBytes t).take k →
      exec .hufRdTable s = .next (s.clearHuf.finish .failed 0 0))

/-- `HUF.RDTABLE` succeeds exactly when its source begins with a legal serialized table: a size within 1..32768, a
range that starts below it and has 1 to `size` indices, a legal block, simple or LUT, of exactly as many lengths, zeros
at the ends of the range allowed, no length above 32, all together complete. It then holds a legal table with these
lengths and their canonical codes, not yet built, and consumes those bytes; otherwise it ends with `Failed` and the
unit cleared. (43_huffman R228; 30_encoding R104, R105; 10_state R36.) -/
def Obligations.HufRdTableOutcome : Prop :=
  ∀ s : State, WindowsPass .hufRdTable s →
    (∀ bytes tail len t, s.mem.readBytes s.a0 s.a1 = bytes ++ tail → SerializedTable bytes len →
      t = ({ valid := true, size := len.length, len := len, code := canonical len } : HufTable) →
      t.legal ∧ bytes.length ≤ s.a1 ∧
      exec .hufRdTable s = .next (({ s with ht := t, hd := HufDecoder.cleared } : State).finish .ok len.length bytes.length)) ∧
    ((¬ ∃ bytes tail len, s.mem.readBytes s.a0 s.a1 = bytes ++ tail ∧ SerializedTable bytes len) →
      exec .hufRdTable s = .next (s.clearHuf.finish .failed 0 0))

/-- `HUF.BUILD`: without a valid table `Failed` and nothing changed; for a legal table it builds the structures,
answers `min(L, 12)` and the skip count, and running it again changes nothing. With codes longer than 12 bits the skip
count is the least number of leading zero bits of such a code, an all-zero code counting one fewer; else it is 0 and
the tree empty. That it is at most 12 is the sentence of R233 "For a valid table `0 ≤ hd.skip ≤ 12`", which the spec
marks as derived from R36; that an all-zero code counts one fewer it marks as from general knowledge, D30. (43_huffman R231, R233, R234.) -/
def Obligations.HufBuildOutcome : Prop :=
  (∀ s : State, s.ht.valid = false → exec .hufBuild s = .next (s.finish .failed 0 0)) ∧
  (∀ s : State, s.ht.legal → ∃ t, exec .hufBuild s = .next t ∧
    t = ({ s with hd := buildDecoder s.ht } : State).finish .ok (min (maxLen s.ht.len) 12) (buildDecoder s.ht).skip ∧
    t.hd.valid = true ∧ t.hd.numBitsLUT = min (maxLen s.ht.len) 12 ∧ t.hd.skip ≤ 12 ∧
    (maxLen s.ht.len ≤ 12 → t.hd.skip = 0 ∧ t.hd.tree = .empty) ∧
    (∀ k, k < s.ht.size → 12 < s.ht.len.getD k 0 →
      t.hd.skip < s.ht.len.getD k 0 ∧ s.ht.code.getD k 0 < 2 ^ (s.ht.len.getD k 0 - t.hd.skip)) ∧
    (12 < maxLen s.ht.len → ∃ k, k < s.ht.size ∧ 12 < s.ht.len.getD k 0 ∧
      (s.ht.len.getD k 0 = t.hd.skip + 1 ∨ 2 ^ (s.ht.len.getD k 0 - t.hd.skip - 1) ≤ s.ht.code.getD k 0)) ∧
    exec .hufBuild t = .next t)

/-- The decode LUT of a legal table has `2^B` entries; entry `e` is `(l, k)` exactly when symbol `k` has a code of
length `l ≤ B` that the `B` bits of `e` begin with. (43_huffman R232.) -/
def Obligations.DecodeLutHoldsTheShortCodes : Prop :=
  ∀ t : HufTable, t.legal →
    (buildDecoder t).lut.length = 2 ^ (buildDecoder t).numBitsLUT ∧
    ∀ e l k, e < 2 ^ (buildDecoder t).numBitsLUT →
      ((buildDecoder t).lut.getD e none = some (l, k) ↔
        (k < t.size ∧ t.lenOf k = l ∧ 1 ≤ l ∧ l ≤ (buildDecoder t).numBitsLUT ∧
          e / 2 ^ ((buildDecoder t).numBitsLUT - l) = t.codeOf k))

/-- The decode step through the LUT and the tree agrees with prefix matching, at every position of every stream, in
the symbol, the next position and the failures. (43_huffman R239, R240, R241.) -/
def Obligations.DecodeStepsAgree : Prop :=
  ∀ (t : HufTable) (bytes : List Byte) (pos : Nat), t.legal →
    decodeOne (buildDecoder t) bytes.length pos ((streamBits bytes).drop pos) =
      decodeOnePrefix t bytes.length pos ((streamBits bytes).drop pos)

/-- `HUF.ENCODE`: without a valid table, or for a symbol without a code, `Failed`; else the code words and one zero
word are written or their size reported; the words hold the bits of the codes in the order of the message, each most
significant first, then zeros. (43_huffman R235, R237; 30_encoding R106.) -/
def Obligations.HufEncodeOutcome : Prop :=
  (∀ s : State, WindowsPass .hufEncode s →
    (s.ht.valid = false → exec .hufEncode s = .next (s.finish .failed 0 0)) ∧
    (s.ht.valid = true → (∃ k ∈ u32Array s.mem s.a0 s.a1, s.ht.size ≤ k ∨ s.ht.len.getD k 0 = 0) →
      exec .hufEncode s = .next (s.finish .failed 0 0)) ∧
    (s.ht.valid = true → (∀ k ∈ u32Array s.mem s.a0 s.a1, k < s.ht.size ∧ s.ht.len.getD k 0 ≠ 0) →
      EncodesTo .hufEncode s (stuffedBytes (codeString s.ht (u32Array s.mem s.a0 s.a1)) ++ [0x00#8, 0x00#8, 0x00#8, 0x00#8]) 0 ∧
      (stuffedBytes (codeString s.ht (u32Array s.mem s.a0 s.a1))).length =
        4 * (((((u32Array s.mem s.a0 s.a1).map (fun k => s.ht.len.getD k 0)).sum) + 31) / 32))) ∧
  (∀ (t : HufTable) (syms : List Nat) (p : Nat),
    (streamBits (stuffedBytes (codeString t syms))).getD p false = (codeString t syms).getD p false) ∧
  (∀ (t : HufTable) (k : Nat) (syms : List Nat),
    codeString t [] = [] ∧
    codeString t (k :: syms) =
      (List.range (t.len.getD k 0)).map (fun j => (t.code.getD k 0).testBit (t.len.getD k 0 - 1 - j)) ++ codeString t syms)

/-- `HUF.DECODE`, with a legal table built, ends with `OK` exactly when `n` symbols can be decoded from the bits of
its source and the budget holds the words used and one more; it then stores those symbols. A budget that holds `n`
codes of the longest length always suffices. Without decoder structures it ends with `Failed`. (43_huffman R242.) -/
def Obligations.HufDecodeOutcome : Prop :=
  ∀ s : State, WindowsPass .hufDecode s →
    (s.hd.valid = false → DecoderFailed .hufDecode s s.a2 (4 * s.a3)) ∧
    (s.ht.legal → s.hd = buildDecoder s.ht →
      (∀ syms : List Nat, syms.length = s.a3 → (∀ k ∈ syms, s.ht.hasCode k = true) →
        codeString s.ht syms <+: streamBits (s.mem.readBytes s.a0 s.a1) →
        hufStreamBytes (codeString s.ht syms).length ≤ s.a1 →
        ∃ t, exec .hufDecode s = .next t ∧
          Stored s t s.a2 (u32Bytes syms) s.a3 (hufStreamBytes (codeString s.ht syms).length)) ∧
      ((¬ ∃ syms : List Nat, syms.length = s.a3 ∧ (∀ k ∈ syms, s.ht.hasCode k = true) ∧
          codeString s.ht syms <+: streamBits (s.mem.readBytes s.a0 s.a1) ∧
          hufStreamBytes (codeString s.ht syms).length ≤ s.a1) →
        DecoderFailed .hufDecode s s.a2 (4 * s.a3)) ∧
      (hufStreamBytes (s.a3 * maxLen s.ht.len) ≤ s.a1 → ∃ t, exec .hufDecode s = .next t ∧ t.err = .ok))

/-- `HUF.DECODE` of the bytes `HUF.ENCODE` writes for a message, with the same table built and the same count, returns
the message and consumes all of them; with any smaller budget it ends with `Failed`. (43_huffman R245.) -/
def Obligations.HuffmanRoundTrip : Prop :=
  ∀ (s : State) (syms : List Nat), s.ht.legal → s.hd = buildDecoder s.ht → syms.length = s.a3 →
    (∀ k ∈ syms, s.ht.hasCode k = true) → Holds s s.a0 (hufStream s.ht syms) → WindowsPass .hufDecode s →
    ((hufStream s.ht syms).length ≤ s.a1 →
      ∃ t, exec .hufDecode s = .next t ∧ Stored s t s.a2 (u32Bytes syms) syms.length (hufStream s.ht syms).length) ∧
    (s.a1 < (hufStream s.ht syms).length → DecoderFailed .hufDecode s s.a2 (4 * s.a3))

/-- `HUF.SIZE` of the histogram of a message answers the bytes of the table plus the bytes of the message's stream, if
they fit 32 bits. (43_huffman R245, R229.) -/
def Obligations.HufSizePredictsTheBytes : Prop :=
  ∀ (s : State) (syms : List Nat), s.ht.legal → WindowsPass .hufSize s → s.a1 = s.ht.size →
    (∀ k ∈ syms, s.ht.hasCode k = true) → u32Array s.mem s.a0 s.a1 = histogramOf s.ht.size syms →
    (hufTableBytes s.ht).length + (hufStream s.ht syms).length < 4294967296 →
    exec .hufSize s =
      .next (s.finish .ok ((hufTableBytes s.ht).length + (hufStream s.ht syms).length) (hufTableBytes s.ht).length)

/-- `HUF.CLEAR` empties the Huffman unit; `HUF.GETCODE` answers a symbol's length and code, `Failed` without a valid
table and `WrongParam` beyond its size, the test on the table first. (43_huffman R243, R244.) -/
def Obligations.HufClearAndGetCodeOutcome : Prop :=
  ∀ s : State,
    (∃ t : State, exec .hufClear s = .next (({ s with ht := t.ht, hd := t.hd } : State).finish .ok 0 0) ∧
      t.ht.valid = false ∧ t.ht.size = 0 ∧ t.ht.len = [] ∧ t.ht.code = [] ∧
      t.hd.valid = false ∧ t.hd.numBitsLUT = 0 ∧ t.hd.skip = 0 ∧ t.hd.lut = [] ∧ t.hd.tree = .empty) ∧
    (s.ht.valid = false → exec .hufGetCode s = .next (s.finish .failed 0 0)) ∧
    (s.ht.valid = true → s.ht.size ≤ s.a0 → exec .hufGetCode s = .next (s.finish .wrongParam 0 0)) ∧
    (s.ht.valid = true → s.a0 < s.ht.size →
      exec .hufGetCode s = .next (s.finish .ok (s.ht.len.getD s.a0 0) (s.ht.code.getD s.a0 0)))

/-! ## Invariants and safety -/

/-- The state right after reset is sound. Its parameters are the model's choice (log 1). (10_state R42; 00_scope R7.) -/
def Obligations.ResetStateIsSound : Prop := State.reset.Inv

/-- Every step from a sound state leads to a sound state: canonical memory, a mask within its limits, a code table
that is legal or empty, decoder structures that match it or are empty, a status code that is never the reserved one,
and, while the reset input is asserted, every piece of the block's state at its reset value. (70_reset_and_hazards
R310; 10_state R31, R35, R36, R39; 20_memory R60; 60_exceptions R282.) -/
def Obligations.StepKeepsTheInvariant : Prop :=
  ∀ s t : State, s.Inv → step s = .next t → t.Inv

/-- A step never stops the machine while the host keeps to the interface, and the host then still does; it stops with
a name of its own when the host touches an address at or beyond `MEM_SIZE`, which is the model's choice (log 12).
(60_exceptions R280; 44_system R272; 20_memory R60, R69.) -/
def Obligations.ConformingHostIsNeverStopped : Prop :=
  (∀ s : State, s.conforming → s.safe) ∧
  (∀ s t : State, s.conforming → step s = .next t → t.conforming) ∧
  (∀ (s : State) (a : Nat) (bs : List Byte) (rest : List HostAct), s.host = .writeMem a bs :: rest →
    s.params.memSize < a + bs.length → step s = .fault .hostAddress) ∧
  (∀ (s : State) (a n : Nat) (rest : List HostAct), s.host = .readMem a n :: rest →
    s.params.memSize < a + n → step s = .fault .hostAddress)

/-- Breaking the ownership rule: a host store into a window of the running command is marked. The command still ends,
when the host lets it run or waits for it, with the status code and the results that it has on a memory that differs in
its read windows alone, so 0 and 0 after a failure and the needed size and 0 after `BufferTooSmall`; it writes only
inside its write windows, after `OK` only its output, and nothing at any other end but `Failed` of a stream decoder; it
keeps `CMD` and the operands, and from a sound state leaves a code table that is legal or empty, decoder structures that
match it or are empty, and a mask within its limits. A host read, inside a write window too, marks nothing and changes
nothing of the block or of memory; the bytes outside the write windows are those of memory. The mark and the free
outcome are the model's (log 10). (70_reset_and_hazards R321; 10_state R25, R36, R39; 60_exceptions R286, R288, R289,
R290.) -/
def Obligations.OwnershipBreachStaysInBounds : Prop :=
  (∀ (s : State) (i : Instr) (w : Window) (a x : Nat) (bs : List Byte) (rest : List HostAct),
    s.host = .writeMem a bs :: rest → a + bs.length ≤ s.params.memSize → s.busy = true → decode s.cmd = .ok i →
    WindowsPass i s → w ∈ windows i s → w.covers x = true → a ≤ x → x < a + bs.length →
    ∃ t, step s = .next t ∧ t.raced = true) ∧
  (∀ (s : State) (i : Instr) (rest : List HostAct), (s.host = [] ∧ rest = [] ∨ s.host = .wait :: rest) →
    s.busy = true → s.raced = true → decode s.cmd = .ok i →
    ∃ t, step s = .next t ∧ t.busy = false ∧ t.done = true ∧ t.err ∈ [StatusCode.ok, .failed, .wrongParam, .bufferTooSmall] ∧
      (∃ (m : Memory) (u : State),
        (∀ a, (∀ w ∈ windows i s, w.write = false → w.covers a = false) → m.read a = s.mem.read a) ∧
        exec i { s with host := rest, mem := m, fresh := s.fresh + 1 } = .next u ∧ t.err = u.err ∧ t.res0 = u.res0 ∧
          t.res1 = u.res1) ∧
      (t.err = .failed ∨ t.err = .wrongParam → t.res0 = 0#32 ∧ t.res1 = 0#32) ∧
      (t.err = .bufferTooSmall → t.res1 = 0#32 ∧ ∃ need, s.a3 < need ∧ t.res0 = BitVec.ofNat 32 need) ∧
      (∀ a, (∀ v ∈ windows i s, v.write = true → v.covers a = false) → t.mem.read a = s.mem.read a) ∧
      (t.err = .ok → KeepsMemoryBut s t s.a2
        (if i ∈ [Instr.bsUnstuff, .bsDecode, .hufDecode] then 4 * t.res0.toNat else t.res0.toNat)) ∧
      (t.err = .wrongParam ∨ t.err = .bufferTooSmall ∨
        (t.err = .failed ∧ i ∉ [Instr.rleDecompress, .bsDecode, .hufDecode]) → t.mem = s.mem) ∧
      KeepsOperands { s with host := rest } t ∧
      (s.Inv → t.ht.sound ∧ t.hd.sound t.ht ∧ t.bm.sound s.params.maskMaxPixels)) ∧
  (∀ (s : State) (a n : Nat) (rest : List HostAct), s.host = .readMem a n :: rest → a + n ≤ s.params.memSize →
    ∃ t, step s = .next t ∧ t = { s with host := rest, mdata := t.mdata, fresh := t.fresh } ∧ t.mdata.length = n ∧
      ∀ j, j < n → (∀ i, decode s.cmd = .ok i → ∀ w ∈ windows i s, w.write = true → w.covers (a + j) = false) →
        t.mdata.getD j 0#8 = s.mem.read (a + j))
end

