-- ==== Sys2Proof/Laws/Memory.lean ====
section
/-! SUPPORT. What the operations over buffer memory do: reads after writes, and the canonical form they keep (20_memory R60). -/

namespace Sys2Proof.Machine

/-! Cells. -/

theorem cellAt_cellDrop_same (cells : List Host.Cell) (a : Nat) : cellAt (cellDrop cells a) a = Config.unwritten := by
  induction cells with
  | nil => rfl
  | cons c t ih =>
    obtain ⟨k, b⟩ := c
    by_cases h : k = a
    · simpa [cellDrop, h] using ih
    · simpa [cellDrop, h, cellAt] using ih

theorem cellAt_filter (cells : List Host.Cell) (p : Nat → Bool) (x : Nat) (hp : p x = true) :
    cellAt (cells.filter (fun c => p c.1)) x = cellAt cells x := by
  induction cells with
  | nil => rfl
  | cons c t ih =>
    obtain ⟨k, b⟩ := c
    by_cases h : p k = true
    · simp [h, cellAt, ih]
    · have hk : ¬ k = x := fun e => h (e ▸ hp)
      simp [h, cellAt, hk, ih]

theorem cellAt_cellDrop_other (cells : List Host.Cell) (a x : Nat) (h : x ≠ a) :
    cellAt (cellDrop cells a) x = cellAt cells x :=
  cellAt_filter cells (fun k => !decide (k = a)) x (by simp [h])

theorem cellAt_cellInsert_same (cells : List Host.Cell) (a : Nat) (v : Byte) (h : ∀ c ∈ cells, c.1 ≠ a) :
    cellAt (cellInsert cells a v) a = v := by
  induction cells with
  | nil => simp [cellInsert, cellAt]
  | cons c t ih =>
    obtain ⟨k, b⟩ := c
    have hk : ¬ k = a := h (k, b) (by simp)
    by_cases hlt : a < k
    · simp [cellInsert, hlt, cellAt]
    · simp [cellInsert, hlt, cellAt, hk, ih (fun c hc => h c (by simp [hc]))]

theorem cellAt_cellInsert_other (cells : List Host.Cell) (a x : Nat) (v : Byte) (h : x ≠ a) :
    cellAt (cellInsert cells a v) x = cellAt cells x := by
  induction cells with
  | nil => simp [cellInsert, cellAt, Ne.symm h]
  | cons c t ih =>
    obtain ⟨k, b⟩ := c
    by_cases hlt : a < k
    · simp [cellInsert, hlt, cellAt, Ne.symm h]
    · simp [cellInsert, hlt, cellAt, ih]

theorem cellDrop_ne (cells : List Host.Cell) (a : Nat) : ∀ c ∈ cellDrop cells a, c.1 ≠ a := by
  intro c hc
  simpa using (List.mem_filter.mp hc).2

/-- The byte at the address of a store. -/
theorem cellAt_cellPut_same (cells : List Host.Cell) (a : Nat) (v : Byte) : cellAt (cellPut cells a v) a = v := by
  unfold cellPut
  split
  · rename_i h; rw [cellAt_cellDrop_same, h]
  · exact cellAt_cellInsert_same _ a v (cellDrop_ne cells a)

/-- The bytes at all other addresses. -/
theorem cellAt_cellPut_other (cells : List Host.Cell) (a x : Nat) (v : Byte) (h : x ≠ a) :
    cellAt (cellPut cells a v) x = cellAt cells x := by
  unfold cellPut
  split
  · exact cellAt_cellDrop_other cells a x h
  · rw [cellAt_cellInsert_other _ a x v h, cellAt_cellDrop_other cells a x h]

theorem mem_cellInsert {cells : List Host.Cell} {a : Nat} {v : Byte} {c : Host.Cell} (h : c ∈ cellInsert cells a v) :
    c = (a, v) ∨ c ∈ cells := by
  induction cells with
  | nil => simpa [cellInsert] using h
  | cons d t ih =>
    obtain ⟨k, b⟩ := d
    by_cases hlt : a < k
    · simpa [cellInsert, hlt] using h
    · simp only [cellInsert, hlt, if_false, List.mem_cons] at h ⊢
      rcases h with h | h
      · exact .inr (.inl h)
      · rcases ih h with h | h
        · exact .inl h
        · exact .inr (.inr h)

theorem mem_cellPut {cells : List Host.Cell} {a : Nat} {v : Byte} {c : Host.Cell} (h : c ∈ cellPut cells a v) :
    (c = (a, v) ∧ v ≠ Config.unwritten) ∨ (c ∈ cells ∧ c.1 ≠ a) := by
  unfold cellPut at h
  split at h
  · exact .inr ⟨List.mem_of_mem_filter h, cellDrop_ne cells a c h⟩
  · rename_i hv
    rcases mem_cellInsert h with h | h
    · exact .inl ⟨h, hv⟩
    · exact .inr ⟨List.mem_of_mem_filter h, cellDrop_ne cells a c h⟩

theorem cellInsert_sorted (cells : List Host.Cell) (a : Nat) (v : Byte) (hs : cells.Pairwise (fun c d => c.1 < d.1))
    (hne : ∀ c ∈ cells, c.1 ≠ a) : (cellInsert cells a v).Pairwise (fun c d => c.1 < d.1) := by
  induction cells with
  | nil => simp [cellInsert]
  | cons c t ih =>
    obtain ⟨k, b⟩ := c
    have hk : k ≠ a := hne (k, b) (by simp)
    rw [List.pairwise_cons] at hs
    by_cases hlt : a < k
    · simp only [cellInsert, hlt, if_true, List.pairwise_cons, List.mem_cons, forall_eq_or_imp]
      exact ⟨⟨trivial, fun d hd => lt_trans hlt (hs.1 d hd)⟩, hs.1, hs.2⟩
    · simp only [cellInsert, hlt, if_false, List.pairwise_cons]
      refine ⟨fun d hd => ?_, ih hs.2 (fun c hc => hne c (by simp [hc]))⟩
      rcases mem_cellInsert hd with rfl | hd
      · exact lt_of_le_of_ne (not_lt.mp hlt) hk
      · exact hs.1 d hd

theorem cellPut_sorted (cells : List Host.Cell) (a : Nat) (v : Byte) (hs : cells.Pairwise (fun c d => c.1 < d.1)) :
    (cellPut cells a v).Pairwise (fun c d => c.1 < d.1) := by
  unfold cellPut
  split
  · exact hs.filter _
  · exact cellInsert_sorted _ a v (hs.filter _) (cellDrop_ne cells a)

/-! Spans. -/

theorem Span.covers_iff (sp : Span) (a : Nat) : sp.covers a = true ↔ sp.lo ≤ a ∧ a < sp.hi := by simp [Span.covers]

/-- What is left of a span covers exactly the addresses of the span outside the hole. -/
theorem Span.punch_covers (lo hi : Nat) (sp : Span) (a : Nat) :
    (sp.punch lo hi).any (fun q => q.covers a) = (sp.covers a && !(decide (lo ≤ a) && decide (a < hi))) := by
  by_cases h1 : sp.lo < min sp.hi lo <;> by_cases h2 : max sp.lo hi < sp.hi <;>
    simp [Span.punch, h1, h2, Span.covers] <;> grind

theorem Span.mem_punch {lo hi : Nat} {sp q : Span} (h : q ∈ sp.punch lo hi) :
    q.tag = sp.tag ∧ sp.lo ≤ q.lo ∧ q.lo < q.hi ∧ q.hi ≤ sp.hi ∧ (q.hi ≤ lo ∨ hi ≤ q.lo) := by
  unfold Span.punch at h
  rw [List.mem_append] at h
  rcases h with h | h
  · by_cases h1 : sp.lo < min sp.hi lo
    · rw [if_pos h1, List.mem_singleton] at h
      subst h
      refine ⟨rfl, le_refl _, h1, ?_, .inl ?_⟩ <;> simp
    · rw [if_neg h1] at h
      exact absurd h (by simp)
  · by_cases h2 : max sp.lo hi < sp.hi
    · rw [if_pos h2, List.mem_singleton] at h
      subst h
      refine ⟨rfl, ?_, h2, le_refl _, .inr ?_⟩ <;> simp
    · rw [if_neg h2] at h
      exact absurd h (by simp)

/-- The tag of the span, if any, that an address lies in: what a read depends on. -/
def tagAt (sps : List Span) (a : Nat) : Option Nat := (spanAt sps a).map Span.tag

theorem Memory.read_eq (m : Memory) (a : Nat) :
    m.read a = match tagAt m.spans a with
      | some tag => Config.freeByte tag a
      | none => cellAt m.cells a := by
  unfold Memory.read tagAt
  cases spanAt m.spans a <;> rfl

theorem spanAt_eq_none (sps : List Span) (a : Nat) : spanAt sps a = none ↔ ∀ sp ∈ sps, sp.covers a = false := by
  simp [spanAt, List.find?_eq_none]

theorem tagAt_cons (sp : Span) (sps : List Span) (a : Nat) :
    tagAt (sp :: sps) a = if sp.covers a then some sp.tag else tagAt sps a := by
  unfold tagAt spanAt
  by_cases h : sp.covers a = true <;> simp [h]

theorem tagAt_append (p q : List Span) (a : Nat) : tagAt (p ++ q) a = (tagAt p a).or (tagAt q a) := by
  induction p with
  | nil => simp [tagAt, spanAt]
  | cons sp t ih => rw [List.cons_append, tagAt_cons, tagAt_cons]; split <;> simp [ih]

theorem tagAt_punch (lo hi : Nat) (sp : Span) (a : Nat) :
    tagAt (sp.punch lo hi) a = if sp.covers a && !(decide (lo ≤ a) && decide (a < hi)) then some sp.tag else none := by
  rw [← Span.punch_covers]
  by_cases h : (sp.punch lo hi).any (fun q => q.covers a) = true
  · rw [if_pos h]
    unfold tagAt spanAt
    cases hf : (sp.punch lo hi).find? (fun q => q.covers a) with
    | none =>
      rw [List.find?_eq_none] at hf
      obtain ⟨q, hq, hc⟩ := List.any_eq_true.mp h
      exact absurd hc (hf q hq)
    | some q => exact congrArg some (Span.mem_punch (List.mem_of_find?_eq_some hf)).1
  · rw [if_neg h]
    have hn : spanAt (sp.punch lo hi) a = none := by
      rw [spanAt_eq_none]
      intro q hq
      by_contra hc
      exact h (List.any_eq_true.mpr ⟨q, hq, by simpa using hc⟩)
    simp [tagAt, hn]

theorem tagAt_punchSpans (lo hi : Nat) (sps : List Span) (a : Nat) :
    tagAt (punchSpans lo hi sps) a = if lo ≤ a ∧ a < hi then none else tagAt sps a := by
  unfold punchSpans
  by_cases hlt : lo < hi
  · rw [if_pos hlt]
    induction sps with
    | nil => simp [tagAt, spanAt]
    | cons sp t ih =>
      rw [List.flatMap_cons, tagAt_append, tagAt_punch, ih, tagAt_cons]
      by_cases hin : lo ≤ a ∧ a < hi
      · simp [hin]
      · have hb : (decide (lo ≤ a) && decide (a < hi)) = false := by simpa using hin
        rw [if_neg hin, if_neg hin, hb]
        by_cases hc : sp.covers a = true <;> simp [hc]
  · rw [if_neg hlt, if_neg (by omega)]

theorem tagAt_insertSpan_other (sp : Span) (sps : List Span) (a : Nat) (h : sp.covers a = false) :
    tagAt (insertSpan sp sps) a = tagAt sps a := by
  induction sps with
  | nil => simp [insertSpan, h, tagAt, spanAt]
  | cons q t ih =>
    unfold insertSpan
    split
    · rw [tagAt_cons, h]; rfl
    · rw [tagAt_cons, tagAt_cons, ih]

theorem tagAt_insertSpan_same (sp : Span) (sps : List Span) (a : Nat) (h : sp.covers a = true) (hn : tagAt sps a = none) :
    tagAt (insertSpan sp sps) a = some sp.tag := by
  induction sps with
  | nil => simp [insertSpan, tagAt_cons, h]
  | cons q t ih =>
    rw [tagAt_cons] at hn
    unfold insertSpan
    split
    · rw [tagAt_cons, h]; rfl
    · rw [tagAt_cons]
      split at hn
      · cases hn
      · rename_i hq; rw [if_neg hq, ih hn]

/-! Reads after writes. -/

/-- A read of the byte just stored. -/
@[simp] theorem Memory.read_write_same (m : Memory) (a : Nat) (v : Byte) : (m.write a v).read a = v := by
  simp [Memory.read_eq, Memory.write, tagAt_punchSpans, cellAt_cellPut_same]

/-- A read of any other byte. -/
theorem Memory.read_write_other (m : Memory) (a x : Nat) (v : Byte) (h : x ≠ a) : (m.write a v).read x = m.read x := by
  have hx : ¬ (a ≤ x ∧ x < a + 1) := by omega
  simp only [Memory.read_eq, Memory.write, tagAt_punchSpans, cellAt_cellPut_other _ a x v h, if_neg hx]

/-- A read outside the bytes just stored. -/
theorem Memory.read_writeBytes_other (m : Memory) (a x : Nat) (bs : List Byte) (h : ¬ (a ≤ x ∧ x < a + bs.length)) :
    (m.writeBytes a bs).read x = m.read x := by
  induction bs generalizing m a with
  | nil => rfl
  | cons v t ih =>
    rw [List.length_cons] at h
    rw [Memory.writeBytes, ih _ _ (by omega), Memory.read_write_other _ _ _ _ (by omega)]

/-- A read of a byte of the sequence just stored. -/
theorem Memory.read_writeBytes_same (m : Memory) (a j : Nat) (bs : List Byte) (h : j < bs.length) :
    (m.writeBytes a bs).read (a + j) = bs.getD j 0#8 := by
  induction bs generalizing m a j with
  | nil => simp at h
  | cons v t ih =>
    rw [Memory.writeBytes]
    cases j with
    | zero => rw [Memory.read_writeBytes_other _ _ _ _ (by omega)]; simp
    | succ j =>
      have := ih (m.write a v) (a + 1) j (by simpa using h)
      rw [show a + (j + 1) = a + 1 + j by omega, this]
      simp

/-- A sequence of bytes read is the bytes at its addresses. -/
theorem Memory.readBytes_eq (m : Memory) (a n : Nat) : m.readBytes a n = (List.range n).map (fun j => m.read (a + j)) := by
  induction n generalizing a with
  | zero => rfl
  | succ n ih =>
    rw [Memory.readBytes, ih, List.range_succ_eq_map]
    simp [Function.comp_def, Nat.add_assoc, Nat.add_comm 1]

@[simp] theorem Memory.readBytes_length (m : Memory) (a n : Nat) : (m.readBytes a n).length = n := by
  simp [Memory.readBytes_eq]

/-- A read outside the bytes left unspecified. -/
theorem Memory.read_scramble_other (m : Memory) (a n tag x : Nat) (h : ¬ (a ≤ x ∧ x < a + n)) :
    (m.scramble a n tag).read x = m.read x := by
  unfold Memory.scramble
  split
  · rfl
  · have hc : ({ lo := a, hi := a + n, tag := tag } : Span).covers x = false := by
      rw [Bool.eq_false_iff, ne_eq, Span.covers_iff]; exact h
    have hp : (!(decide (a ≤ x) && decide (x < a + n))) = true := by simp; omega
    simp only [Memory.read_eq]
    rw [tagAt_insertSpan_other _ _ _ hc, tagAt_punchSpans, if_neg h,
      cellAt_filter m.cells (fun k => !(decide (a ≤ k) && decide (k < a + n))) x hp]

/-- A read of a byte left unspecified: a free value, whatever the memory was. -/
theorem Memory.read_scramble_same (m : Memory) (a n tag x : Nat) (h : a ≤ x ∧ x < a + n) :
    (m.scramble a n tag).read x = Config.freeByte tag x := by
  unfold Memory.scramble
  rw [if_neg (by omega)]
  simp only [Memory.read_eq]
  rw [tagAt_insertSpan_same _ _ _ ((Span.covers_iff _ _).mpr h) (by rw [tagAt_punchSpans, if_pos h])]

/-- A read outside every write window of a list of windows. -/
theorem Memory.read_scrambleWrites_other (m : Memory) (tag x : Nat) (ws : List Window)
    (h : ∀ w ∈ ws, w.write = true → w.covers x = false) : (m.scrambleWrites tag ws).read x = m.read x := by
  induction ws generalizing m with
  | nil => rfl
  | cons w t ih =>
    rw [Memory.scrambleWrites, ih _ (fun v hv => h v (by simp [hv]))]
    split
    · rename_i hw
      have hc := h w (by simp) hw
      apply Memory.read_scramble_other
      simpa [Window.covers] using hc
    · rfl

/-- A read outside every read window of a list of windows. -/
theorem Memory.read_scrambleReads_other (m : Memory) (tag x : Nat) (ws : List Window)
    (h : ∀ w ∈ ws, w.write = false → w.covers x = false) : (m.scrambleReads tag ws).read x = m.read x := by
  induction ws generalizing m with
  | nil => rfl
  | cons w t ih =>
    rw [Memory.scrambleReads, ih _ (fun v hv => h v (by simp [hv]))]
    split
    · rfl
    · rename_i hw
      have hc := h w (by simp) (by simpa using hw)
      apply Memory.read_scramble_other
      simpa [Window.covers] using hc

/-! The canonical form. -/

theorem Span.covers_of_mem_punch {lo hi a : Nat} {sp q : Span} (h : q ∈ sp.punch lo hi) (hc : q.covers a = true) :
    sp.covers a = true ∧ ¬ (lo ≤ a ∧ a < hi) := by
  have := Span.mem_punch h
  rw [Span.covers_iff] at *
  omega

theorem mem_punchSpans {lo hi : Nat} {sps : List Span} {q : Span} (h : q ∈ punchSpans lo hi sps) :
    ∃ sp ∈ sps, sp.lo ≤ q.lo ∧ q.hi ≤ sp.hi ∧ (sp.lo < sp.hi → q.lo < q.hi) := by
  unfold punchSpans at h
  split at h
  · obtain ⟨sp, hsp, hq⟩ := List.mem_flatMap.mp h
    have := Span.mem_punch hq
    exact ⟨sp, hsp, this.2.1, this.2.2.2.1, fun _ => this.2.2.1⟩
  · exact ⟨q, h, le_refl _, le_refl _, id⟩

theorem punch_sorted (lo hi : Nat) (h : lo < hi) (sp : Span) : (sp.punch lo hi).Pairwise (fun p q => p.hi ≤ q.lo) := by
  unfold Span.punch
  split <;> split <;> simp
  omega

theorem punchSpans_sorted (lo hi : Nat) (sps : List Span) (hs : sps.Pairwise (fun p q => p.hi ≤ q.lo)) :
    (punchSpans lo hi sps).Pairwise (fun p q => p.hi ≤ q.lo) := by
  unfold punchSpans
  split
  · rename_i hlt
    rw [List.pairwise_flatMap]
    refine ⟨fun sp _ => punch_sorted lo hi hlt sp, hs.imp ?_⟩
    intro p q hpq x hx y hy
    have hx := Span.mem_punch hx
    have hy := Span.mem_punch hy
    omega
  · exact hs

theorem mem_insertSpan {sp q : Span} {sps : List Span} : q ∈ insertSpan sp sps ↔ q = sp ∨ q ∈ sps := by
  induction sps with
  | nil => simp [insertSpan]
  | cons r t ih =>
    unfold insertSpan
    split
    · simp
    · simp only [List.mem_cons, ih]; tauto

theorem insertSpan_sorted (sp : Span) (sps : List Span) (hs : sps.Pairwise (fun p q => p.hi ≤ q.lo))
    (hne : sp.lo < sp.hi ∧ ∀ q ∈ sps, q.lo < q.hi) (hd : ∀ q ∈ sps, q.hi ≤ sp.lo ∨ sp.hi ≤ q.lo) :
    (insertSpan sp sps).Pairwise (fun p q => p.hi ≤ q.lo) := by
  induction sps with
  | nil => simp [insertSpan]
  | cons r t ih =>
    rw [List.pairwise_cons] at hs
    have hr := hd r (by simp)
    have hrne := hne.2 r (by simp)
    have hsp := hne.1
    unfold insertSpan
    split
    · rename_i hlt
      rw [List.pairwise_cons, List.pairwise_cons]
      refine ⟨fun q hq => ?_, hs.1, hs.2⟩
      rcases List.mem_cons.mp hq with rfl | hq
      · omega
      · have := hs.1 q hq; omega
    · rename_i hlt
      rw [List.pairwise_cons]
      refine ⟨fun q hq => ?_, ih hs.2 ⟨hne.1, fun q hq => hne.2 q (by simp [hq])⟩ (fun q hq => hd q (by simp [hq]))⟩
      rcases mem_insertSpan.mp hq with rfl | hq
      · omega
      · exact hs.1 q hq

/-- Storing a byte keeps the canonical form. -/
theorem Memory.write_wf (m : Memory) (a : Nat) (v : Byte) (h : m.wf) : (m.write a v).wf := by
  obtain ⟨hs, hu, hn, hd, hc⟩ := h
  refine ⟨cellPut_sorted _ _ _ hs, ?_, ?_, punchSpans_sorted _ _ _ hd, ?_⟩
  · intro c hm
    rcases mem_cellPut hm with ⟨rfl, hv⟩ | ⟨hm, -⟩
    · exact hv
    · exact hu c hm
  · intro q hq
    obtain ⟨sp, hsp, -, -, hlt⟩ := mem_punchSpans hq
    exact hlt (hn sp hsp)
  · intro c hm
    have key : tagAt (m.write a v).spans c.1 = none := by
      simp only [Memory.write]
      rw [tagAt_punchSpans]
      rcases mem_cellPut hm with ⟨rfl, -⟩ | ⟨hm, hne⟩
      · simp
      · rw [if_neg (by omega)]; simp [tagAt, hc c hm]
    simpa [tagAt] using key

/-- Storing bytes keeps the canonical form. -/
theorem Memory.writeBytes_wf (m : Memory) (a : Nat) (bs : List Byte) (h : m.wf) : (m.writeBytes a bs).wf := by
  induction bs generalizing m a with
  | nil => exact h
  | cons v t ih => exact ih _ _ (Memory.write_wf m a v h)

/-- Leaving bytes unspecified keeps the canonical form. -/
theorem Memory.scramble_wf (m : Memory) (a n tag : Nat) (h : m.wf) : (m.scramble a n tag).wf := by
  unfold Memory.scramble
  split
  · exact h
  · rename_i hn0
    obtain ⟨hs, hu, hn, hd, hc⟩ := h
    refine ⟨hs.filter _, fun c hm => hu c (List.mem_of_mem_filter hm), ?_, ?_, ?_⟩
    · intro q hq
      rcases mem_insertSpan.mp hq with rfl | hq
      · show a < a + n
        omega
      · obtain ⟨sp, hsp, -, -, hlt⟩ := mem_punchSpans hq
        exact hlt (hn sp hsp)
    · apply insertSpan_sorted _ _ (punchSpans_sorted _ _ _ hd)
      · refine ⟨show a < a + n by omega, fun q hq => ?_⟩
        obtain ⟨sp, hsp, -, -, hlt⟩ := mem_punchSpans hq
        exact hlt (hn sp hsp)
      · intro q hq
        unfold punchSpans at hq
        rw [if_pos (by omega)] at hq
        obtain ⟨sp, -, hq⟩ := List.mem_flatMap.mp hq
        exact (Span.mem_punch hq).2.2.2.2
    · intro c hm
      obtain ⟨hm, hout⟩ := List.mem_filter.mp hm
      have hout : ¬ (a ≤ c.1 ∧ c.1 < a + n) := by simp at hout; omega
      have key : tagAt (insertSpan { lo := a, hi := a + n, tag := tag } (punchSpans a (a + n) m.spans)) c.1 = none := by
        rw [tagAt_insertSpan_other _ _ _ (by rw [Bool.eq_false_iff, ne_eq, Span.covers_iff]; exact hout), tagAt_punchSpans,
          if_neg hout]
        simp [tagAt, hc c hm]
      simpa [tagAt] using key

/-- Leaving the write windows unspecified keeps the canonical form. -/
theorem Memory.scrambleWrites_wf (m : Memory) (tag : Nat) (ws : List Window) (h : m.wf) : (m.scrambleWrites tag ws).wf := by
  induction ws generalizing m with
  | nil => exact h
  | cons w t ih =>
    rw [Memory.scrambleWrites]
    apply ih
    split
    · exact Memory.scramble_wf _ _ _ _ h
    · exact h

/-- Leaving the read windows unspecified keeps the canonical form. -/
theorem Memory.scrambleReads_wf (m : Memory) (tag : Nat) (ws : List Window) (h : m.wf) : (m.scrambleReads tag ws).wf := by
  induction ws generalizing m with
  | nil => exact h
  | cons w t ih =>
    rw [Memory.scrambleReads]
    apply ih
    split
    · exact h
    · exact Memory.scramble_wf _ _ _ _ h

/-- Nothing listed is the canonical form, and so is the memory right after reset. -/
theorem Memory.empty_wf : Memory.empty.wf := by simp [Memory.wf, Memory.empty]

theorem State.reset_mem_wf : State.reset.mem.wf := Memory.empty_wf

/-- A listed byte is what its address reads as in a sorted list of cells. -/
theorem cellAt_of_mem {cells : List Host.Cell} (hs : cells.Pairwise (fun c d => c.1 < d.1)) {c : Host.Cell} (h : c ∈ cells) :
    cellAt cells c.1 = c.2 := by
  induction cells with
  | nil => simp at h
  | cons d t ih =>
    obtain ⟨k, b⟩ := d
    rw [List.pairwise_cons] at hs
    rcases List.mem_cons.mp h with rfl | h
    · simp [cellAt]
    · have := hs.1 c h
      rw [cellAt, if_neg (by simp at this; omega), ih hs.2 h]

end Sys2Proof.Machine
end

