-- ==== Sys2Proof/Laws/State.lean ====
section
/-! SUPPORT. What each update of the state does to each field, so that no proof unfolds a record update. -/

namespace Sys2Proof.Machine

/-! The end of a command. -/

@[simp] theorem State.finish_cmd (s : State) (code : StatusCode) (r0 r1 : Nat) : (s.finish code r0 r1).cmd = s.cmd := rfl
@[simp] theorem State.finish_busy (s : State) (code : StatusCode) (r0 r1 : Nat) : (s.finish code r0 r1).busy = false := rfl
@[simp] theorem State.finish_done (s : State) (code : StatusCode) (r0 r1 : Nat) : (s.finish code r0 r1).done = true := rfl
@[simp] theorem State.finish_err (s : State) (code : StatusCode) (r0 r1 : Nat) : (s.finish code r0 r1).err = code := rfl
@[simp] theorem State.finish_arg0 (s : State) (code : StatusCode) (r0 r1 : Nat) : (s.finish code r0 r1).arg0 = s.arg0 := rfl
@[simp] theorem State.finish_arg1 (s : State) (code : StatusCode) (r0 r1 : Nat) : (s.finish code r0 r1).arg1 = s.arg1 := rfl
@[simp] theorem State.finish_arg2 (s : State) (code : StatusCode) (r0 r1 : Nat) : (s.finish code r0 r1).arg2 = s.arg2 := rfl
@[simp] theorem State.finish_arg3 (s : State) (code : StatusCode) (r0 r1 : Nat) : (s.finish code r0 r1).arg3 = s.arg3 := rfl
@[simp] theorem State.finish_arg4 (s : State) (code : StatusCode) (r0 r1 : Nat) : (s.finish code r0 r1).arg4 = s.arg4 := rfl
@[simp] theorem State.finish_res0 (s : State) (code : StatusCode) (r0 r1 : Nat) : (s.finish code r0 r1).res0 = BitVec.ofNat 32 r0 := rfl
@[simp] theorem State.finish_res1 (s : State) (code : StatusCode) (r0 r1 : Nat) : (s.finish code r0 r1).res1 = BitVec.ofNat 32 r1 := rfl
@[simp] theorem State.finish_bm (s : State) (code : StatusCode) (r0 r1 : Nat) : (s.finish code r0 r1).bm = s.bm := rfl
@[simp] theorem State.finish_ht (s : State) (code : StatusCode) (r0 r1 : Nat) : (s.finish code r0 r1).ht = s.ht := rfl
@[simp] theorem State.finish_hd (s : State) (code : StatusCode) (r0 r1 : Nat) : (s.finish code r0 r1).hd = s.hd := rfl
@[simp] theorem State.finish_mem (s : State) (code : StatusCode) (r0 r1 : Nat) : (s.finish code r0 r1).mem = s.mem := rfl
@[simp] theorem State.finish_params (s : State) (code : StatusCode) (r0 r1 : Nat) : (s.finish code r0 r1).params = s.params := rfl
@[simp] theorem State.finish_rst (s : State) (code : StatusCode) (r0 r1 : Nat) : (s.finish code r0 r1).rst = s.rst := rfl
@[simp] theorem State.finish_host (s : State) (code : StatusCode) (r0 r1 : Nat) : (s.finish code r0 r1).host = s.host := rfl
@[simp] theorem State.finish_raced (s : State) (code : StatusCode) (r0 r1 : Nat) : (s.finish code r0 r1).raced = false := rfl
@[simp] theorem State.finish_rdata (s : State) (code : StatusCode) (r0 r1 : Nat) : (s.finish code r0 r1).rdata = s.rdata := rfl
@[simp] theorem State.finish_mdata (s : State) (code : StatusCode) (r0 r1 : Nat) : (s.finish code r0 r1).mdata = s.mdata := rfl
@[simp] theorem State.finish_fresh (s : State) (code : StatusCode) (r0 r1 : Nat) : (s.finish code r0 r1).fresh = s.fresh := rfl

/-! The start of a command. -/

@[simp] theorem State.latchCommand_cmd (s : State) (w : Word) : (s.latchCommand w).cmd = w := rfl
@[simp] theorem State.latchCommand_busy (s : State) (w : Word) : (s.latchCommand w).busy = true := rfl
@[simp] theorem State.latchCommand_done (s : State) (w : Word) : (s.latchCommand w).done = false := rfl
@[simp] theorem State.latchCommand_err (s : State) (w : Word) : (s.latchCommand w).err = s.err := rfl
@[simp] theorem State.latchCommand_arg0 (s : State) (w : Word) : (s.latchCommand w).arg0 = s.arg0 := rfl
@[simp] theorem State.latchCommand_arg1 (s : State) (w : Word) : (s.latchCommand w).arg1 = s.arg1 := rfl
@[simp] theorem State.latchCommand_arg2 (s : State) (w : Word) : (s.latchCommand w).arg2 = s.arg2 := rfl
@[simp] theorem State.latchCommand_arg3 (s : State) (w : Word) : (s.latchCommand w).arg3 = s.arg3 := rfl
@[simp] theorem State.latchCommand_arg4 (s : State) (w : Word) : (s.latchCommand w).arg4 = s.arg4 := rfl
@[simp] theorem State.latchCommand_res0 (s : State) (w : Word) : (s.latchCommand w).res0 = s.res0 := rfl
@[simp] theorem State.latchCommand_res1 (s : State) (w : Word) : (s.latchCommand w).res1 = s.res1 := rfl
@[simp] theorem State.latchCommand_bm (s : State) (w : Word) : (s.latchCommand w).bm = s.bm := rfl
@[simp] theorem State.latchCommand_ht (s : State) (w : Word) : (s.latchCommand w).ht = s.ht := rfl
@[simp] theorem State.latchCommand_hd (s : State) (w : Word) : (s.latchCommand w).hd = s.hd := rfl
@[simp] theorem State.latchCommand_mem (s : State) (w : Word) : (s.latchCommand w).mem = s.mem := rfl
@[simp] theorem State.latchCommand_params (s : State) (w : Word) : (s.latchCommand w).params = s.params := rfl
@[simp] theorem State.latchCommand_rst (s : State) (w : Word) : (s.latchCommand w).rst = s.rst := rfl
@[simp] theorem State.latchCommand_host (s : State) (w : Word) : (s.latchCommand w).host = s.host := rfl
@[simp] theorem State.latchCommand_raced (s : State) (w : Word) : (s.latchCommand w).raced = false := rfl
@[simp] theorem State.latchCommand_rdata (s : State) (w : Word) : (s.latchCommand w).rdata = s.rdata := rfl
@[simp] theorem State.latchCommand_mdata (s : State) (w : Word) : (s.latchCommand w).mdata = s.mdata := rfl
@[simp] theorem State.latchCommand_fresh (s : State) (w : Word) : (s.latchCommand w).fresh = s.fresh := rfl

/-! A command placed for the next step. -/

@[simp] theorem State.withCommand_cmd (s : State) (w : Word) : (s.withCommand w).cmd = w := rfl
@[simp] theorem State.withCommand_busy (s : State) (w : Word) : (s.withCommand w).busy = true := rfl
@[simp] theorem State.withCommand_done (s : State) (w : Word) : (s.withCommand w).done = false := rfl
@[simp] theorem State.withCommand_err (s : State) (w : Word) : (s.withCommand w).err = s.err := rfl
@[simp] theorem State.withCommand_arg0 (s : State) (w : Word) : (s.withCommand w).arg0 = s.arg0 := rfl
@[simp] theorem State.withCommand_arg1 (s : State) (w : Word) : (s.withCommand w).arg1 = s.arg1 := rfl
@[simp] theorem State.withCommand_arg2 (s : State) (w : Word) : (s.withCommand w).arg2 = s.arg2 := rfl
@[simp] theorem State.withCommand_arg3 (s : State) (w : Word) : (s.withCommand w).arg3 = s.arg3 := rfl
@[simp] theorem State.withCommand_arg4 (s : State) (w : Word) : (s.withCommand w).arg4 = s.arg4 := rfl
@[simp] theorem State.withCommand_res0 (s : State) (w : Word) : (s.withCommand w).res0 = s.res0 := rfl
@[simp] theorem State.withCommand_res1 (s : State) (w : Word) : (s.withCommand w).res1 = s.res1 := rfl
@[simp] theorem State.withCommand_bm (s : State) (w : Word) : (s.withCommand w).bm = s.bm := rfl
@[simp] theorem State.withCommand_ht (s : State) (w : Word) : (s.withCommand w).ht = s.ht := rfl
@[simp] theorem State.withCommand_hd (s : State) (w : Word) : (s.withCommand w).hd = s.hd := rfl
@[simp] theorem State.withCommand_mem (s : State) (w : Word) : (s.withCommand w).mem = s.mem := rfl
@[simp] theorem State.withCommand_params (s : State) (w : Word) : (s.withCommand w).params = s.params := rfl
@[simp] theorem State.withCommand_rst (s : State) (w : Word) : (s.withCommand w).rst = false := rfl
@[simp] theorem State.withCommand_host (s : State) (w : Word) : (s.withCommand w).host = [] := rfl
@[simp] theorem State.withCommand_raced (s : State) (w : Word) : (s.withCommand w).raced = false := rfl
@[simp] theorem State.withCommand_rdata (s : State) (w : Word) : (s.withCommand w).rdata = s.rdata := rfl
@[simp] theorem State.withCommand_mdata (s : State) (w : Word) : (s.withCommand w).mdata = s.mdata := rfl
@[simp] theorem State.withCommand_fresh (s : State) (w : Word) : (s.withCommand w).fresh = s.fresh := rfl

/-! A store of bytes. -/

@[simp] theorem State.store_cmd (s : State) (a : Nat) (bs : List Byte) : (s.store a bs).cmd = s.cmd := rfl
@[simp] theorem State.store_busy (s : State) (a : Nat) (bs : List Byte) : (s.store a bs).busy = s.busy := rfl
@[simp] theorem State.store_done (s : State) (a : Nat) (bs : List Byte) : (s.store a bs).done = s.done := rfl
@[simp] theorem State.store_err (s : State) (a : Nat) (bs : List Byte) : (s.store a bs).err = s.err := rfl
@[simp] theorem State.store_arg0 (s : State) (a : Nat) (bs : List Byte) : (s.store a bs).arg0 = s.arg0 := rfl
@[simp] theorem State.store_arg1 (s : State) (a : Nat) (bs : List Byte) : (s.store a bs).arg1 = s.arg1 := rfl
@[simp] theorem State.store_arg2 (s : State) (a : Nat) (bs : List Byte) : (s.store a bs).arg2 = s.arg2 := rfl
@[simp] theorem State.store_arg3 (s : State) (a : Nat) (bs : List Byte) : (s.store a bs).arg3 = s.arg3 := rfl
@[simp] theorem State.store_arg4 (s : State) (a : Nat) (bs : List Byte) : (s.store a bs).arg4 = s.arg4 := rfl
@[simp] theorem State.store_res0 (s : State) (a : Nat) (bs : List Byte) : (s.store a bs).res0 = s.res0 := rfl
@[simp] theorem State.store_res1 (s : State) (a : Nat) (bs : List Byte) : (s.store a bs).res1 = s.res1 := rfl
@[simp] theorem State.store_bm (s : State) (a : Nat) (bs : List Byte) : (s.store a bs).bm = s.bm := rfl
@[simp] theorem State.store_ht (s : State) (a : Nat) (bs : List Byte) : (s.store a bs).ht = s.ht := rfl
@[simp] theorem State.store_hd (s : State) (a : Nat) (bs : List Byte) : (s.store a bs).hd = s.hd := rfl
@[simp] theorem State.store_mem (s : State) (a : Nat) (bs : List Byte) : (s.store a bs).mem = s.mem.writeBytes a bs := rfl
@[simp] theorem State.store_params (s : State) (a : Nat) (bs : List Byte) : (s.store a bs).params = s.params := rfl
@[simp] theorem State.store_rst (s : State) (a : Nat) (bs : List Byte) : (s.store a bs).rst = s.rst := rfl
@[simp] theorem State.store_host (s : State) (a : Nat) (bs : List Byte) : (s.store a bs).host = s.host := rfl
@[simp] theorem State.store_raced (s : State) (a : Nat) (bs : List Byte) : (s.store a bs).raced = s.raced := rfl
@[simp] theorem State.store_rdata (s : State) (a : Nat) (bs : List Byte) : (s.store a bs).rdata = s.rdata := rfl
@[simp] theorem State.store_mdata (s : State) (a : Nat) (bs : List Byte) : (s.store a bs).mdata = s.mdata := rfl
@[simp] theorem State.store_fresh (s : State) (a : Nat) (bs : List Byte) : (s.store a bs).fresh = s.fresh := rfl

/-! The Huffman unit cleared. -/

@[simp] theorem State.clearHuf_cmd (s : State) : (s.clearHuf).cmd = s.cmd := rfl
@[simp] theorem State.clearHuf_busy (s : State) : (s.clearHuf).busy = s.busy := rfl
@[simp] theorem State.clearHuf_done (s : State) : (s.clearHuf).done = s.done := rfl
@[simp] theorem State.clearHuf_err (s : State) : (s.clearHuf).err = s.err := rfl
@[simp] theorem State.clearHuf_arg0 (s : State) : (s.clearHuf).arg0 = s.arg0 := rfl
@[simp] theorem State.clearHuf_arg1 (s : State) : (s.clearHuf).arg1 = s.arg1 := rfl
@[simp] theorem State.clearHuf_arg2 (s : State) : (s.clearHuf).arg2 = s.arg2 := rfl
@[simp] theorem State.clearHuf_arg3 (s : State) : (s.clearHuf).arg3 = s.arg3 := rfl
@[simp] theorem State.clearHuf_arg4 (s : State) : (s.clearHuf).arg4 = s.arg4 := rfl
@[simp] theorem State.clearHuf_res0 (s : State) : (s.clearHuf).res0 = s.res0 := rfl
@[simp] theorem State.clearHuf_res1 (s : State) : (s.clearHuf).res1 = s.res1 := rfl
@[simp] theorem State.clearHuf_bm (s : State) : (s.clearHuf).bm = s.bm := rfl
@[simp] theorem State.clearHuf_ht (s : State) : (s.clearHuf).ht = HufTable.cleared := rfl
@[simp] theorem State.clearHuf_hd (s : State) : (s.clearHuf).hd = HufDecoder.cleared := rfl
@[simp] theorem State.clearHuf_mem (s : State) : (s.clearHuf).mem = s.mem := rfl
@[simp] theorem State.clearHuf_params (s : State) : (s.clearHuf).params = s.params := rfl
@[simp] theorem State.clearHuf_rst (s : State) : (s.clearHuf).rst = s.rst := rfl
@[simp] theorem State.clearHuf_host (s : State) : (s.clearHuf).host = s.host := rfl
@[simp] theorem State.clearHuf_raced (s : State) : (s.clearHuf).raced = s.raced := rfl
@[simp] theorem State.clearHuf_rdata (s : State) : (s.clearHuf).rdata = s.rdata := rfl
@[simp] theorem State.clearHuf_mdata (s : State) : (s.clearHuf).mdata = s.mdata := rfl
@[simp] theorem State.clearHuf_fresh (s : State) : (s.clearHuf).fresh = s.fresh := rfl

/-! A new code table. -/

@[simp] theorem State.setTable_cmd (s : State) (t : HufTable) : (s.setTable t).cmd = s.cmd := rfl
@[simp] theorem State.setTable_busy (s : State) (t : HufTable) : (s.setTable t).busy = s.busy := rfl
@[simp] theorem State.setTable_done (s : State) (t : HufTable) : (s.setTable t).done = s.done := rfl
@[simp] theorem State.setTable_err (s : State) (t : HufTable) : (s.setTable t).err = s.err := rfl
@[simp] theorem State.setTable_arg0 (s : State) (t : HufTable) : (s.setTable t).arg0 = s.arg0 := rfl
@[simp] theorem State.setTable_arg1 (s : State) (t : HufTable) : (s.setTable t).arg1 = s.arg1 := rfl
@[simp] theorem State.setTable_arg2 (s : State) (t : HufTable) : (s.setTable t).arg2 = s.arg2 := rfl
@[simp] theorem State.setTable_arg3 (s : State) (t : HufTable) : (s.setTable t).arg3 = s.arg3 := rfl
@[simp] theorem State.setTable_arg4 (s : State) (t : HufTable) : (s.setTable t).arg4 = s.arg4 := rfl
@[simp] theorem State.setTable_res0 (s : State) (t : HufTable) : (s.setTable t).res0 = s.res0 := rfl
@[simp] theorem State.setTable_res1 (s : State) (t : HufTable) : (s.setTable t).res1 = s.res1 := rfl
@[simp] theorem State.setTable_bm (s : State) (t : HufTable) : (s.setTable t).bm = s.bm := rfl
@[simp] theorem State.setTable_ht (s : State) (t : HufTable) : (s.setTable t).ht = t := rfl
@[simp] theorem State.setTable_hd (s : State) (t : HufTable) : (s.setTable t).hd = HufDecoder.cleared := rfl
@[simp] theorem State.setTable_mem (s : State) (t : HufTable) : (s.setTable t).mem = s.mem := rfl
@[simp] theorem State.setTable_params (s : State) (t : HufTable) : (s.setTable t).params = s.params := rfl
@[simp] theorem State.setTable_rst (s : State) (t : HufTable) : (s.setTable t).rst = s.rst := rfl
@[simp] theorem State.setTable_host (s : State) (t : HufTable) : (s.setTable t).host = s.host := rfl
@[simp] theorem State.setTable_raced (s : State) (t : HufTable) : (s.setTable t).raced = s.raced := rfl
@[simp] theorem State.setTable_rdata (s : State) (t : HufTable) : (s.setTable t).rdata = s.rdata := rfl
@[simp] theorem State.setTable_mdata (s : State) (t : HufTable) : (s.setTable t).mdata = s.mdata := rfl
@[simp] theorem State.setTable_fresh (s : State) (t : HufTable) : (s.setTable t).fresh = s.fresh := rfl

/-! The write windows left unspecified. -/

@[simp] theorem scrambleOutput_cmd (i : Instr) (s : State) : (scrambleOutput i s).cmd = s.cmd := rfl
@[simp] theorem scrambleOutput_busy (i : Instr) (s : State) : (scrambleOutput i s).busy = s.busy := rfl
@[simp] theorem scrambleOutput_done (i : Instr) (s : State) : (scrambleOutput i s).done = s.done := rfl
@[simp] theorem scrambleOutput_err (i : Instr) (s : State) : (scrambleOutput i s).err = s.err := rfl
@[simp] theorem scrambleOutput_arg0 (i : Instr) (s : State) : (scrambleOutput i s).arg0 = s.arg0 := rfl
@[simp] theorem scrambleOutput_arg1 (i : Instr) (s : State) : (scrambleOutput i s).arg1 = s.arg1 := rfl
@[simp] theorem scrambleOutput_arg2 (i : Instr) (s : State) : (scrambleOutput i s).arg2 = s.arg2 := rfl
@[simp] theorem scrambleOutput_arg3 (i : Instr) (s : State) : (scrambleOutput i s).arg3 = s.arg3 := rfl
@[simp] theorem scrambleOutput_arg4 (i : Instr) (s : State) : (scrambleOutput i s).arg4 = s.arg4 := rfl
@[simp] theorem scrambleOutput_res0 (i : Instr) (s : State) : (scrambleOutput i s).res0 = s.res0 := rfl
@[simp] theorem scrambleOutput_res1 (i : Instr) (s : State) : (scrambleOutput i s).res1 = s.res1 := rfl
@[simp] theorem scrambleOutput_bm (i : Instr) (s : State) : (scrambleOutput i s).bm = s.bm := rfl
@[simp] theorem scrambleOutput_ht (i : Instr) (s : State) : (scrambleOutput i s).ht = s.ht := rfl
@[simp] theorem scrambleOutput_hd (i : Instr) (s : State) : (scrambleOutput i s).hd = s.hd := rfl
@[simp] theorem scrambleOutput_mem (i : Instr) (s : State) : (scrambleOutput i s).mem = s.mem.scrambleWrites s.fresh (windows i s) := rfl
@[simp] theorem scrambleOutput_params (i : Instr) (s : State) : (scrambleOutput i s).params = s.params := rfl
@[simp] theorem scrambleOutput_rst (i : Instr) (s : State) : (scrambleOutput i s).rst = s.rst := rfl
@[simp] theorem scrambleOutput_host (i : Instr) (s : State) : (scrambleOutput i s).host = s.host := rfl
@[simp] theorem scrambleOutput_raced (i : Instr) (s : State) : (scrambleOutput i s).raced = s.raced := rfl
@[simp] theorem scrambleOutput_rdata (i : Instr) (s : State) : (scrambleOutput i s).rdata = s.rdata := rfl
@[simp] theorem scrambleOutput_mdata (i : Instr) (s : State) : (scrambleOutput i s).mdata = s.mdata := rfl
@[simp] theorem scrambleOutput_fresh (i : Instr) (s : State) : (scrambleOutput i s).fresh = s.fresh + 1 := rfl

/-! The bytes of the mask left unspecified. -/

@[simp] theorem scrambleMask_cmd (s : State) : (scrambleMask s).cmd = s.cmd := rfl
@[simp] theorem scrambleMask_busy (s : State) : (scrambleMask s).busy = s.busy := rfl
@[simp] theorem scrambleMask_done (s : State) : (scrambleMask s).done = s.done := rfl
@[simp] theorem scrambleMask_err (s : State) : (scrambleMask s).err = s.err := rfl
@[simp] theorem scrambleMask_arg0 (s : State) : (scrambleMask s).arg0 = s.arg0 := rfl
@[simp] theorem scrambleMask_arg1 (s : State) : (scrambleMask s).arg1 = s.arg1 := rfl
@[simp] theorem scrambleMask_arg2 (s : State) : (scrambleMask s).arg2 = s.arg2 := rfl
@[simp] theorem scrambleMask_arg3 (s : State) : (scrambleMask s).arg3 = s.arg3 := rfl
@[simp] theorem scrambleMask_arg4 (s : State) : (scrambleMask s).arg4 = s.arg4 := rfl
@[simp] theorem scrambleMask_res0 (s : State) : (scrambleMask s).res0 = s.res0 := rfl
@[simp] theorem scrambleMask_res1 (s : State) : (scrambleMask s).res1 = s.res1 := rfl
@[simp] theorem scrambleMask_bm (s : State) : (scrambleMask s).bm = { s.bm with bits := (List.range s.bm.size).map (fun j => Config.freeByte s.fresh j) } := rfl
@[simp] theorem scrambleMask_ht (s : State) : (scrambleMask s).ht = s.ht := rfl
@[simp] theorem scrambleMask_hd (s : State) : (scrambleMask s).hd = s.hd := rfl
@[simp] theorem scrambleMask_mem (s : State) : (scrambleMask s).mem = s.mem := rfl
@[simp] theorem scrambleMask_params (s : State) : (scrambleMask s).params = s.params := rfl
@[simp] theorem scrambleMask_rst (s : State) : (scrambleMask s).rst = s.rst := rfl
@[simp] theorem scrambleMask_host (s : State) : (scrambleMask s).host = s.host := rfl
@[simp] theorem scrambleMask_raced (s : State) : (scrambleMask s).raced = s.raced := rfl
@[simp] theorem scrambleMask_rdata (s : State) : (scrambleMask s).rdata = s.rdata := rfl
@[simp] theorem scrambleMask_mdata (s : State) : (scrambleMask s).mdata = s.mdata := rfl
@[simp] theorem scrambleMask_fresh (s : State) : (scrambleMask s).fresh = s.fresh + 1 := rfl

/-! The operand registers as numbers. -/

@[simp] theorem State.a0_finish (s : State) (code : StatusCode) (r0 r1 : Nat) : (s.finish code r0 r1).a0 = s.a0 := rfl
@[simp] theorem State.a0_latchCommand (s : State) (w : Word) : (s.latchCommand w).a0 = s.a0 := rfl
@[simp] theorem State.a1_finish (s : State) (code : StatusCode) (r0 r1 : Nat) : (s.finish code r0 r1).a1 = s.a1 := rfl
@[simp] theorem State.a1_latchCommand (s : State) (w : Word) : (s.latchCommand w).a1 = s.a1 := rfl
@[simp] theorem State.a2_finish (s : State) (code : StatusCode) (r0 r1 : Nat) : (s.finish code r0 r1).a2 = s.a2 := rfl
@[simp] theorem State.a2_latchCommand (s : State) (w : Word) : (s.latchCommand w).a2 = s.a2 := rfl
@[simp] theorem State.a3_finish (s : State) (code : StatusCode) (r0 r1 : Nat) : (s.finish code r0 r1).a3 = s.a3 := rfl
@[simp] theorem State.a3_latchCommand (s : State) (w : Word) : (s.latchCommand w).a3 = s.a3 := rfl
@[simp] theorem State.a4_finish (s : State) (code : StatusCode) (r0 r1 : Nat) : (s.finish code r0 r1).a4 = s.a4 := rfl
@[simp] theorem State.a4_latchCommand (s : State) (w : Word) : (s.latchCommand w).a4 = s.a4 := rfl

/-- The windows of a command depend on the operand registers and the dimensions of the mask alone. -/
theorem windows_congr (i : Instr) (s t : State) (h0 : t.arg0 = s.arg0) (h1 : t.arg1 = s.arg1) (h2 : t.arg2 = s.arg2)
    (h3 : t.arg3 = s.arg3) (hb : t.bm.size = s.bm.size) : windows i t = windows i s := by
  cases i <;> simp [windows, State.a0, State.a1, State.a2, State.a3, h0, h1, h2, h3, hb]

end Sys2Proof.Machine
end

