-- ==== Sys2Proof/Laws/Ops.lean ====
section
/-! SUPPORT. What each shared operation can do, said once: the end of a command, the window tests, the encoders' end, reads through a cursor, little-endian numbers, the step. -/

namespace Sys2Proof.Machine

/-! The end of a command. -/

/-- A command whose window tests pass runs its body. -/
theorem perform_of_windowsOk {i : Instr} {s : State} (onFailed : State → State) (body : Unit → Body)
    (h : windowsOk s.params.memSize (windows i s) = true) : perform i s onFailed body = .next (concluded s onFailed (body ())) := by
  simp [perform, h]

/-- A command whose window tests fail ends with `WrongParam` and has touched nothing. -/
theorem perform_of_not_windowsOk {i : Instr} {s : State} (onFailed : State → State) (body : Unit → Body)
    (h : windowsOk s.params.memSize (windows i s) = false) : perform i s onFailed body = .next (s.finish .wrongParam 0 0) := by
  simp [perform, h, concluded]

/-- A command without windows runs its body. -/
theorem perform_of_no_windows {i : Instr} {s : State} (onFailed : State → State) (body : Unit → Body) (h : windows i s = []) :
    perform i s onFailed body = .next (concluded s onFailed (body ())) :=
  perform_of_windowsOk onFailed body (by simp [h, windowsOk, windowsDisjoint])

/-- Every way a command can end: what its body answers, or `WrongParam`. -/
theorem perform_cases {i : Instr} {s t : State} {onFailed : State → State} {body : Unit → Body}
    (h : perform i s onFailed body = .next t) :
    t = s.finish .wrongParam 0 0 ∨
    (windowsOk s.params.memSize (windows i s) = true ∧
      ((∃ u r0 r1, body () = .ok (u, r0, r1) ∧ t = u.finish .ok r0 r1) ∨
       (body () = .error .failed ∧ t = (onFailed s).finish .failed 0 0) ∨
       (∃ need, body () = .error (.bufferTooSmall need) ∧ t = s.finish .bufferTooSmall need 0) ∨
       (body () = .error .illegalCommand ∧ t = s.finish .illegalCommand 0 0))) := by
  unfold perform at h
  injection h with h
  split at h
  · rename_i hw
    unfold concluded at h
    split at h
    · rename_i hb; exact .inr ⟨hw, .inl ⟨_, _, _, hb, h.symm⟩⟩
    · rename_i hb; exact .inr ⟨hw, .inr (.inl ⟨hb, h.symm⟩)⟩
    · exact .inl h.symm
    · rename_i hb; exact .inr ⟨hw, .inr (.inr (.inl ⟨_, hb, h.symm⟩))⟩
    · rename_i hb; exact .inr ⟨hw, .inr (.inr (.inr ⟨hb, h.symm⟩))⟩
  · exact .inl h.symm

@[simp] theorem concluded_busy (s : State) (f : State → State) (b : Body) : (concluded s f b).busy = false := by
  unfold concluded; split <;> rfl

@[simp] theorem concluded_done (s : State) (f : State → State) (b : Body) : (concluded s f b).done = true := by
  unfold concluded; split <;> rfl

@[simp] theorem concluded_raced (s : State) (f : State → State) (b : Body) : (concluded s f b).raced = false := by
  unfold concluded; split <;> rfl

/-! The window tests (20_memory R66, R67). -/

theorem Window.covers_iff (w : Window) (a : Nat) : w.covers a = true ↔ w.start ≤ a ∧ a < w.start + w.len := by
  simp [Window.covers]

/-- Two windows overlap exactly when they share an address. -/
theorem Window.overlaps_iff (w v : Window) : w.overlaps v = true ↔ ∃ a, w.covers a = true ∧ v.covers a = true := by
  simp only [Window.overlaps, Bool.and_eq_true, decide_eq_true_eq, Window.covers_iff]
  constructor
  · intro h
    exact ⟨max w.start v.start, by omega, by omega⟩
  · rintro ⟨a, h1, h2⟩
    omega

theorem Window.inMem_iff (memSize : Nat) (w : Window) :
    w.inMem memSize = true ↔ w.len = 0 ∨ w.start + w.len ≤ memSize := by simp [Window.inMem]

/-- What the window tests ask for. -/
theorem windowsOk_iff (memSize : Nat) (ws : List Window) :
    windowsOk memSize ws = true ↔ (∀ w ∈ ws, w.inMem memSize = true) ∧ ws.Pairwise (fun w v => w.compatible v = true) := by
  have hd : windowsDisjoint ws = true ↔ ws.Pairwise (fun w v => w.compatible v = true) := by
    induction ws with
    | nil => simp [windowsDisjoint]
    | cons w t ih => simp [windowsDisjoint, ih, List.pairwise_cons]
  simp [windowsOk, hd]

/-- After the tests every address of a window is one of buffer memory. -/
theorem lt_memSize_of_windowsOk {memSize : Nat} {ws : List Window} (h : windowsOk memSize ws = true) {w : Window} (hw : w ∈ ws)
    {a : Nat} (ha : w.covers a = true) : a < memSize := by
  have := (Window.inMem_iff _ _).mp (((windowsOk_iff _ _).mp h).1 w hw)
  rw [Window.covers_iff] at ha
  omega

/-! The end of an encoder (60_exceptions R288). -/

theorem storeOutput_of_lt {s : State} {out : List Byte} (r1 : Nat) (h : s.a3 < out.length) :
    storeOutput s out r1 = .error (.bufferTooSmall out.length) := by simp [storeOutput, h]

theorem storeOutput_of_le {s : State} {out : List Byte} (r1 : Nat) (h : out.length ≤ s.a3) :
    storeOutput s out r1 = .ok (s.store s.a2 out, out.length, r1) := by simp [storeOutput, Nat.not_lt.mpr h]

/-! Reads through a cursor (00_scope R12). -/

/-- Taking `n` bytes succeeds exactly when there are so many, and splits the sequence. -/
theorem takeExact_eq_some {n : Nat} {bs h t : List Byte} : takeExact n bs = some (h, t) ↔ bs = h ++ t ∧ h.length = n := by
  induction n generalizing bs h t with
  | zero =>
    simp only [takeExact, Option.some.injEq, Prod.mk.injEq, List.length_eq_zero_iff]
    constructor
    · rintro ⟨rfl, rfl⟩; exact ⟨rfl, rfl⟩
    · rintro ⟨rfl, rfl⟩; exact ⟨rfl, rfl⟩
  | succ n ih =>
    cases bs with
    | nil =>
      simp only [takeExact, reduceCtorEq, false_iff, not_and]
      intro he
      have : h = [] := (List.append_eq_nil_iff.mp he.symm).1
      simp [this]
    | cons b bs =>
      rw [takeExact]
      cases hr : takeExact n bs with
      | none =>
        simp only [reduceCtorEq, false_iff, not_and]
        intro he hl
        cases h with
        | nil => simp at hl
        | cons c h =>
          have he := (List.cons.inj he).2
          have := ih.mpr ⟨he, by simpa using hl⟩
          rw [hr] at this
          cases this
      | some p =>
        obtain ⟨p, q⟩ := p
        obtain ⟨hpq, hl⟩ := ih.mp hr
        simp only [Option.some.injEq, Prod.mk.injEq]
        constructor
        · rintro ⟨rfl, rfl⟩
          exact ⟨by simp [hpq], by simp [hl]⟩
        · rintro ⟨he, hl'⟩
          cases h with
          | nil => simp at hl'
          | cons c h =>
            have hb : b = c := (List.cons.inj he).1
            have he' : bs = h ++ t := (List.cons.inj he).2
            have hs := (ih (bs := bs) (h := h) (t := t)).mpr ⟨he', by simpa using hl'⟩
            rw [hr] at hs
            cases hs
            rw [hb]
            exact ⟨rfl, rfl⟩

theorem takeExact_append (h t : List Byte) : takeExact h.length (h ++ t) = some (h, t) :=
  takeExact_eq_some.mpr ⟨rfl, rfl⟩

theorem takeExact_eq_none {n : Nat} {bs : List Byte} : takeExact n bs = none ↔ bs.length < n := by
  constructor
  · intro hn
    by_contra hle
    have := takeExact_eq_some (n := n) (bs := bs) (h := bs.take n) (t := bs.drop n)
    rw [hn] at this
    simp at this
    omega
  · intro hlt
    cases hr : takeExact n bs with
    | none => rfl
    | some p =>
      obtain ⟨hb, hl⟩ := takeExact_eq_some.mp hr
      have := congrArg List.length hb
      simp at this
      omega

/-- A read of `n` bytes gives the first `n` bytes of the budget and a cursor after them. -/
theorem rdBytes_eq_ok {n : Nat} {rc rc' : Cursor} {h : List Byte} :
    rdBytes n rc = .ok (h, rc') ↔ rc.left = h ++ rc'.left ∧ h.length = n ∧ rc'.used = rc.used + n := by
  unfold rdBytes
  obtain ⟨l', u'⟩ := rc'
  cases hr : takeExact n rc.left with
  | none =>
    rw [takeExact_eq_none] at hr
    simp only [reduceCtorEq, false_iff, not_and]
    intro he hl
    have := congrArg List.length he
    simp at this
    omega
  | some p =>
    obtain ⟨p, q⟩ := p
    obtain ⟨hpq, hl⟩ := takeExact_eq_some.mp hr
    simp only [Except.ok.injEq, Prod.mk.injEq, Cursor.mk.injEq]
    constructor
    · rintro ⟨rfl, rfl, rfl⟩
      exact ⟨hpq, hl, rfl⟩
    · rintro ⟨he, hl', hu⟩
      rw [hpq] at he
      obtain ⟨rfl, rfl⟩ := List.append_inj he (by omega)
      exact ⟨rfl, rfl, hu.symm⟩

/-- A read fails exactly when the budget is short, and with no other code. -/
theorem rdBytes_eq_error {n : Nat} {rc : Cursor} {e : Raise} :
    rdBytes n rc = .error e ↔ e = .failed ∧ rc.left.length < n := by
  unfold rdBytes
  cases hr : takeExact n rc.left with
  | none => simp [takeExact_eq_none.mp hr, eq_comm]
  | some p =>
    have : ¬ rc.left.length < n := fun hlt => by
      rw [takeExact_eq_none.mpr hlt] at hr
      cases hr
    simp [this]

/-! Little-endian numbers (00_scope R11). -/

@[simp] theorem leBytes_length (n v : Nat) : (leBytes n v).length = n := by
  induction n generalizing v with
  | zero => rfl
  | succ n ih => simp [leBytes, ih]

/-- Writing a number in `n` bytes and reading it back gives it modulo `256^n`. -/
theorem leNat_leBytes (n v : Nat) : leNat (leBytes n v) = v % 256 ^ n := by
  induction n generalizing v with
  | zero => simp [leBytes, leNat, Nat.mod_one]
  | succ n ih =>
    rw [leBytes, leNat, ih, BitVec.toNat_ofNat, show 256 ^ (n + 1) = 256 * 256 ^ n from Nat.pow_succ', Nat.mod_mul]

theorem leNat_lt (bs : List Byte) : leNat bs < 256 ^ bs.length := by
  induction bs with
  | nil => simp [leNat]
  | cons b t ih =>
    have := b.isLt
    rw [leNat, List.length_cons, Nat.pow_succ]
    omega

@[simp] theorem bitsOf_length (n v : Nat) : (bitsOf n v).length = n := by
  induction n with
  | zero => rfl
  | succ n ih => simp [bitsOf, ih]

@[simp] theorem u32Array_length (m : Memory) (a n : Nat) : (u32Array m a n).length = n := by
  induction n generalizing a with
  | zero => rfl
  | succ n ih => simp [u32Array, ih]

@[simp] theorem u32Bytes_length (vs : List Nat) : (u32Bytes vs).length = 4 * vs.length := by
  induction vs with
  | nil => rfl
  | cons v t ih => simp [u32Bytes] at ih ⊢; omega

/-! The step. -/

/-- With no action of the host pending the block moves. -/
theorem step_nil {s : State} (h : s.host = []) : step s = blockStep s := by simp [step, machineStep, h]

/-- With an action of the host pending the host moves. -/
theorem step_cons {s : State} {a : HostAct} {rest : List HostAct} (h : s.host = a :: rest) :
    step s = hostStep a { s with host := rest } := by simp [step, machineStep, h]

/-- A busy block runs the command in `CMD`. -/
theorem blockStep_busy {s : State} (h : s.busy = true) : blockStep s = runCommand s := by simp [blockStep, h]

theorem runCommand_of_decode {s : State} {i : Instr} (hd : decode s.cmd = .ok i) (hr : s.raced = false) :
    runCommand s = exec i s := by simp [runCommand, hd, hr]

/-! The reset input (70_reset R310) and a broken ownership rule (70_reset R321). -/

@[simp] theorem resetPin_rst (s : State) : (resetPin s).rst = true := rfl
@[simp] theorem releasePin_rst (s : State) : (releasePin s).rst = false := rfl

/-- After the reset input has been asserted the block stands at its reset values. -/
theorem resetPin_atReset (s : State) : (resetPin s).AtReset := rfl

/-- While the reset input is asserted no register can be written. -/
theorem writeReg_of_rst {s : State} (r : Reg) (v : Word) (h : s.rst = true) : writeReg s r v = s := by simp [writeReg, h]

/-- A command whose windows the host touched ends as the command does on the bytes it found. -/
theorem racedEnd_of_exec {i : Instr} {s t : State} (h : exec i (foreignReads i s) = .next t) :
    racedEnd i s = .next (racedFrom i s t) := by simp [racedEnd, h]

/-- Its status code is the one of that end. -/
theorem racedFrom_err (i : Instr) (s t : State) : (racedFrom i s t).err = t.err := by
  unfold racedFrom
  split
  · rename_i h; simp [h]
  · rfl

/-- Its results are those of that end, or 0 and 0 after `WrongParam`. -/
theorem racedFrom_res (i : Instr) (s t : State) :
    ((racedFrom i s t).res0 = t.res0 ∧ (racedFrom i s t).res1 = t.res1) ∨
    (t.err = .wrongParam ∧ (racedFrom i s t).res0 = 0#32 ∧ (racedFrom i s t).res1 = 0#32) := by
  unfold racedFrom
  split
  · rename_i h; exact .inr ⟨h, by simp, by simp⟩
  · exact .inl ⟨by simp, by simp⟩

/-- A cut window covers no address the window does not. -/
theorem Window.covers_of_cut {w : Window} {n a : Nat} (h : (w.cut n).covers a = true) : w.covers a = true := by
  simp only [Window.covers_iff, Window.cut] at h ⊢
  omega

/-- It has changed no byte outside the write windows of the command. -/
theorem read_racedMem_other (i : Instr) (s t : State) (x : Nat)
    (h : ∀ w ∈ windows i s, w.write = true → w.covers x = false) : (racedMem i s t).read x = s.mem.read x := by
  unfold racedMem
  split
  · apply Memory.read_scrambleWrites_other
    intro w hw ht
    obtain ⟨v, hv, rfl⟩ := List.mem_map.mp hw
    rw [Bool.eq_false_iff]
    exact fun hc => Bool.eq_false_iff.mp (h v hv ht) (Window.covers_of_cut hc)
  · split
    · exact Memory.read_scrambleWrites_other _ _ _ _ h
    · rfl
  · rfl

/-- It has written nothing unless the command ended with `OK`, or with `Failed` and is a stream decoder (60_exceptions R286, R288,
R289). -/
theorem racedMem_of_nothing_written {i : Instr} {s t : State} (h : t.err ≠ .ok)
    (hf : t.err = .failed → writesBeforeFailing i = false) : racedMem i s t = s.mem := by
  unfold racedMem
  split
  · rename_i he; exact absurd he h
  · rename_i he; simp [hf he]
  · rfl

/-- The memory is in its canonical form again. -/
theorem racedMem_wf {i : Instr} {s t : State} (h : s.mem.wf) : (racedMem i s t).wf := by
  unfold racedMem
  split
  · exact Memory.scrambleWrites_wf _ _ _ h
  · split
    · exact Memory.scrambleWrites_wf _ _ _ h
    · exact h
  · exact h

theorem racedFrom_read_other (i : Instr) (s t : State) (x : Nat)
    (h : ∀ w ∈ windows i s, w.write = true → w.covers x = false) : (racedFrom i s t).mem.read x = s.mem.read x := by
  unfold racedFrom
  split
  · simp
  · rw [State.finish_mem]
    exact read_racedMem_other i s t x h

end Sys2Proof.Machine
end

