-- ==== Sys2Proof/Laws/PerInstr.lean ====
section
/-! SUPPORT. One family of facts about every command: its word is one of the interface and decodes back to it (30_encoding R90, R91). -/

namespace Sys2Proof.Laws.DecodeEncode

/-- The word of a command: bits 31:8 are 0, it is one of the opcode map, the decoder reads the command from it, and so does the
reading of a table word. -/
def Statement (i : Instr) : Prop :=
  i.wellFormed = true ∧ commandWordWellFormed (encode i) = true ∧ decode (encode i) = .ok i ∧
    decodeTableWord 32 (encode i).toNat = some i

theorem sysNop : Statement .sysNop := ⟨rfl, rfl, rfl, rfl⟩
theorem sysReset : Statement .sysReset := ⟨rfl, rfl, rfl, rfl⟩
theorem bmSetSize : Statement .bmSetSize := ⟨rfl, rfl, rfl, rfl⟩
theorem bmIsValid : Statement .bmIsValid := ⟨rfl, rfl, rfl, rfl⟩
theorem bmSetValid : Statement .bmSetValid := ⟨rfl, rfl, rfl, rfl⟩
theorem bmSetInvalid : Statement .bmSetInvalid := ⟨rfl, rfl, rfl, rfl⟩
theorem bmSetAllValid : Statement .bmSetAllValid := ⟨rfl, rfl, rfl, rfl⟩
theorem bmSetAllInvalid : Statement .bmSetAllInvalid := ⟨rfl, rfl, rfl, rfl⟩
theorem bmCount : Statement .bmCount := ⟨rfl, rfl, rfl, rfl⟩
theorem bmLoad : Statement .bmLoad := ⟨rfl, rfl, rfl, rfl⟩
theorem bmStore : Statement .bmStore := ⟨rfl, rfl, rfl, rfl⟩
theorem rleSize : Statement .rleSize := ⟨rfl, rfl, rfl, rfl⟩
theorem rleCompress : Statement .rleCompress := ⟨rfl, rfl, rfl, rfl⟩
theorem rleDecompress : Statement .rleDecompress := ⟨rfl, rfl, rfl, rfl⟩
theorem mskEncode : Statement .mskEncode := ⟨rfl, rfl, rfl, rfl⟩
theorem mskDecode : Statement .mskDecode := ⟨rfl, rfl, rfl, rfl⟩
theorem bsStuff : Statement .bsStuff := ⟨rfl, rfl, rfl, rfl⟩
theorem bsUnstuff : Statement .bsUnstuff := ⟨rfl, rfl, rfl, rfl⟩
theorem bsSizeSimple : Statement .bsSizeSimple := ⟨rfl, rfl, rfl, rfl⟩
theorem bsSizeLut : Statement .bsSizeLut := ⟨rfl, rfl, rfl, rfl⟩
theorem bsEncSimple : Statement .bsEncSimple := ⟨rfl, rfl, rfl, rfl⟩
theorem bsEncLut : Statement .bsEncLut := ⟨rfl, rfl, rfl, rfl⟩
theorem bsDecode : Statement .bsDecode := ⟨rfl, rfl, rfl, rfl⟩
theorem hufCompute : Statement .hufCompute := ⟨rfl, rfl, rfl, rfl⟩
theorem hufSize : Statement .hufSize := ⟨rfl, rfl, rfl, rfl⟩
theorem hufWrTable : Statement .hufWrTable := ⟨rfl, rfl, rfl, rfl⟩
theorem hufRdTable : Statement .hufRdTable := ⟨rfl, rfl, rfl, rfl⟩
theorem hufBuild : Statement .hufBuild := ⟨rfl, rfl, rfl, rfl⟩
theorem hufEncode : Statement .hufEncode := ⟨rfl, rfl, rfl, rfl⟩
theorem hufDecode : Statement .hufDecode := ⟨rfl, rfl, rfl, rfl⟩
theorem hufClear : Statement .hufClear := ⟨rfl, rfl, rfl, rfl⟩
theorem hufGetCode : Statement .hufGetCode := ⟨rfl, rfl, rfl, rfl⟩

end Sys2Proof.Laws.DecodeEncode
end

