-- ==== Sys2Proof/Tests/Slice0.lean ====
section
/-! SUPPORT. The model's own tests, each about one step on a small state, with expected values from the examples of the spec; and one witness for every statement that has hypotheses. -/

set_option Elab.async false

namespace Sys2Proof.Machine

/-- A block with a mask in its store. -/
def State.masked (s : State) (cols rows : Nat) (bits : List Byte) : State :=
  { s with bm := { cols := cols, rows := rows, bits := bits } }

/-- A block with a code table. -/
def State.coded (s : State) (t : HufTable) : State := { s with ht := t }

/-- A block with a code table and its decoder structures. -/
def State.built (s : State) (t : HufTable) : State := { s with ht := t, hd := buildDecoder t }

end Sys2Proof.Machine

namespace Sys2Proof.Machine.Tests

/-! Helpers. -/

/-- A command has ended with this code and these results, in a state with this property. -/
def ends (o : Host.Outcome State Fault Refusal) (code : StatusCode) (r0 r1 : Nat) (p : State → Bool) : Bool :=
  match o with
  | .next t => decide (t.err = code) && decide (t.res0.toNat = r0) && decide (t.res1.toNat = r1) && !t.busy && t.done && p t
  | .fault _ => false
  | .refused _ => false

/-- A step has led to a state with this property. -/
def leads (o : Host.Outcome State Fault Refusal) (p : State → Bool) : Bool :=
  match o with
  | .next t => p t
  | .fault _ => false
  | .refused _ => false

/-- What `leads` says of an outcome. -/
theorem leads_spec {o : Host.Outcome State Fault Refusal} {p : State → Bool} (h : leads o p = true) : ∃ t, o = .next t ∧ p t = true := by
  cases o with
  | next t => exact ⟨t, rfl, h⟩
  | fault r => cases h
  | refused r => cases h

/-- No further property. -/
def any (_ : State) : Bool := true

/-- A buffer memory that holds some byte sequences at some addresses. -/
def memOf : List (Nat × List Byte) → Memory
  | [] => Memory.empty
  | (a, bs) :: t => (memOf t).writeBytes a bs

/-- A busy block whose operand registers and buffer memory are these. -/
def bench (a0 a1 a2 a3 a4 : Nat) (mem : List (Nat × List Byte)) : State :=
  { State.reset with
    busy := true, arg0 := BitVec.ofNat 32 a0, arg1 := BitVec.ofNat 32 a1, arg2 := BitVec.ofNat 32 a2
    arg3 := BitVec.ofNat 32 a3, arg4 := BitVec.ofNat 32 a4, mem := memOf mem }

/-- The code table of 43_huffman R223 and R224. -/
def table6 : HufTable := { valid := true, size := 6, len := [1, 0, 2, 3, 3, 0], code := [1, 0, 1, 0, 1, 0] }

/-- The code table of 43_huffman R225, whose written range wraps around. -/
def table16 : HufTable := tableOf [1, 2, 0, 0, 0, 0, 0, 0, 0, 0, 0, 0, 0, 0, 3, 3]

/-- The code table of 43_huffman R234, with codes of 13 bits. -/
def table14 : HufTable := tableOf [13, 13, 12, 11, 10, 9, 8, 7, 6, 5, 4, 3, 2, 1]

/-! Well-formedness: one ill-formed term for each check, which the check refuses, and the edges it admits. -/

theorem test_wellFormed_word_high_bits : commandWordWellFormed 0x00000100#32 = false := by decide
theorem test_wellFormed_word_family : commandWordWellFormed 0x00000050#32 = false := by decide
theorem test_wellFormed_word_function : commandWordWellFormed 0x00000023#32 = false ∧ commandWordWellFormed 0x00000049#32 = false := by
  decide
theorem test_wellFormed_word_admits : commandWordWellFormed 0x00000028#32 = true ∧ commandWordWellFormed 0x00000048#32 = true := by
  decide
theorem test_wellFormed_instr_admits : Instr.wellFormed .hufGetCode = true := by decide
theorem test_wellFormed_offset : regOffsetWellFormed 0x40 = false ∧ regOffsetWellFormed 0x02 = false ∧ regOffsetWellFormed 0x3C = true := by
  decide
theorem test_wellFormed_params : Config.Params.wellFormed { memSize := 0, maskMaxPixels := 64 } = false ∧
    Config.Params.wellFormed { memSize := 4294967297, maskMaxPixels := 64 } = false ∧
    Config.Params.wellFormed { memSize := 1, maskMaxPixels := 63 } = false ∧
    Config.Params.wellFormed { memSize := 1, maskMaxPixels := 64 } = true := by decide
theorem test_wellFormed_action : HostAct.wellFormed Config.params (.writeReg 0x44 0#32) = false ∧
    HostAct.wellFormed Config.params (.readReg 0x05) = false ∧
    HostAct.wellFormed Config.params (.writeMem 0x7FFFF [1#8, 2#8]) = false ∧
    HostAct.wellFormed Config.params (.readMem 0x7FFFF 2) = false ∧
    HostAct.wellFormed Config.params (.writeMem 0x7FFFF [1#8]) = true := by decide

/-! Decoding: the word of every command written out bit by bit, bits 31:8 zero, family in bits 7:4, function in bits 3:0
(30_encoding R90, R91). -/

theorem test_decode_sys :
    decode 0b00000000000000000000000000000000#32 = .ok .sysNop ∧
    decode 0b00000000000000000000000000000001#32 = .ok .sysReset := ⟨rfl, rfl⟩

theorem test_decode_bm :
    decode 0b00000000000000000000000000010000#32 = .ok .bmSetSize ∧
    decode 0b00000000000000000000000000010001#32 = .ok .bmIsValid ∧
    decode 0b00000000000000000000000000010010#32 = .ok .bmSetValid ∧
    decode 0b00000000000000000000000000010011#32 = .ok .bmSetInvalid ∧
    decode 0b00000000000000000000000000010100#32 = .ok .bmSetAllValid ∧
    decode 0b00000000000000000000000000010101#32 = .ok .bmSetAllInvalid ∧
    decode 0b00000000000000000000000000010110#32 = .ok .bmCount ∧
    decode 0b00000000000000000000000000010111#32 = .ok .bmLoad ∧
    decode 0b00000000000000000000000000011000#32 = .ok .bmStore := ⟨rfl, rfl, rfl, rfl, rfl, rfl, rfl, rfl, rfl⟩

theorem test_decode_rle :
    decode 0b00000000000000000000000000100000#32 = .ok .rleSize ∧
    decode 0b00000000000000000000000000100001#32 = .ok .rleCompress ∧
    decode 0b00000000000000000000000000100010#32 = .ok .rleDecompress ∧
    decode 0b00000000000000000000000000101000#32 = .ok .mskEncode ∧
    decode 0b00000000000000000000000000101001#32 = .ok .mskDecode := ⟨rfl, rfl, rfl, rfl, rfl⟩

theorem test_decode_bs :
    decode 0b00000000000000000000000000110000#32 = .ok .bsStuff ∧
    decode 0b00000000000000000000000000110001#32 = .ok .bsUnstuff ∧
    decode 0b00000000000000000000000000110010#32 = .ok .bsSizeSimple ∧
    decode 0b00000000000000000000000000110011#32 = .ok .bsSizeLut ∧
    decode 0b00000000000000000000000000110100#32 = .ok .bsEncSimple ∧
    decode 0b00000000000000000000000000110101#32 = .ok .bsEncLut ∧
    decode 0b00000000000000000000000000110110#32 = .ok .bsDecode := ⟨rfl, rfl, rfl, rfl, rfl, rfl, rfl⟩

theorem test_decode_huf :
    decode 0b00000000000000000000000001000000#32 = .ok .hufCompute ∧
    decode 0b00000000000000000000000001000001#32 = .ok .hufSize ∧
    decode 0b00000000000000000000000001000010#32 = .ok .hufWrTable ∧
    decode 0b00000000000000000000000001000011#32 = .ok .hufRdTable ∧
    decode 0b00000000000000000000000001000100#32 = .ok .hufBuild ∧
    decode 0b00000000000000000000000001000101#32 = .ok .hufEncode ∧
    decode 0b00000000000000000000000001000110#32 = .ok .hufDecode ∧
    decode 0b00000000000000000000000001000111#32 = .ok .hufClear ∧
    decode 0b00000000000000000000000001001000#32 = .ok .hufGetCode := ⟨rfl, rfl, rfl, rfl, rfl, rfl, rfl, rfl, rfl⟩

theorem test_decode_reserved :
    decode 0b00000000000000000000000000000010#32 = .error .reservedFunction ∧
    decode 0b00000000000000000000000000100011#32 = .error .reservedFunction ∧
    decode 0b00000000000000000000000000101010#32 = .error .reservedFunction ∧
    decode 0b00000000000000000000000001010000#32 = .error .reservedFamily ∧
    decode 0b00000000000000000000000100000000#32 = .error .reservedHighBits ∧
    decode 0b10000000000000000000000001000000#32 = .error .reservedHighBits := ⟨rfl, rfl, rfl, rfl, rfl, rfl⟩

theorem test_decode_table_word : decodeTableWord 32 0x48 = some .hufGetCode ∧ decodeTableWord 40 0x100000048 = none := by decide

/-! SYS (44_system R270, R271). -/

theorem test_step_runs_placed_command : ends (step (State.reset.withFetchWord 32 0)) .ok 0 0 any = true := by decide +kernel
theorem test_step_refuses_reserved_word : ends (step (State.reset.withFetchWord 32 0x49)) .illegalCommand 0 0
    (fun t => decide (t.cmd = 0x49#32)) = true := by decide +kernel
theorem test_sysNop : ends (exec .sysNop (bench 1 2 3 4 5 [])) .ok 0 0 (fun t => decide (t.arg4 = 5#32)) = true := by decide +kernel
theorem test_sysReset : ends (exec .sysReset (((bench 7 0 0 0 0 []).masked 4 3 [0x50#8, 0x40#8]).built table6)) .ok 0 0
    (fun t => decide (t.bm = Mask.empty) && !t.ht.valid && !t.hd.valid && decide (t.arg0 = 7#32)) = true := by decide +kernel

/-! BM (40_bitmask R130 to R138). -/

theorem test_bmSetSize : ends (exec .bmSetSize (bench 4 3 0 0 0 [])) .ok 2 0
    (fun t => decide (t.bm = { cols := 4, rows := 3, bits := [0#8, 0#8] })) = true := by decide +kernel
theorem test_bmSetSize_too_large : ends (exec .bmSetSize (bench 0x1000001 1 0 0 0 [])) .wrongParam 0 0 any = true := by decide +kernel
theorem test_bmIsValid : ends (exec .bmIsValid ((bench 1 0 0 0 0 []).masked 4 3 [0x50#8, 0x40#8])) .ok 1 0 any = true := by
  decide +kernel
theorem test_bmIsValid_end : ends (exec .bmIsValid ((bench 12 0 0 0 0 []).masked 4 3 [0x50#8, 0x40#8])) .wrongParam 0 0 any = true := by
  decide +kernel
theorem test_bmSetValid : ends (exec .bmSetValid ((bench 9 0 0 0 0 []).masked 4 3 [0x50#8, 0x00#8])) .ok 0 0
    (fun t => decide (t.bm.bits = [0x50#8, 0x40#8])) = true := by decide +kernel
theorem test_bmSetInvalid : ends (exec .bmSetInvalid ((bench 0 0 0 0 0 []).masked 4 3 [0xFF#8, 0xFF#8])) .ok 0 0
    (fun t => decide (t.bm.bits = [0x7F#8, 0xFF#8])) = true := by decide +kernel
theorem test_bmSetAllValid : ends (exec .bmSetAllValid ((bench 0 0 0 0 0 []).masked 4 3 [0x00#8, 0x00#8])) .ok 0 0
    (fun t => decide (t.bm.bits = [0xFF#8, 0xFF#8])) = true := by decide +kernel
theorem test_bmSetAllInvalid : ends (exec .bmSetAllInvalid ((bench 0 0 0 0 0 []).masked 4 3 [0xFF#8, 0xFF#8])) .ok 0 0
    (fun t => decide (t.bm.bits = [0x00#8, 0x00#8])) = true := by decide +kernel
theorem test_bmCount_tail : ends (exec .bmCount ((bench 0 0 0 0 0 []).masked 4 3 [0xFF#8, 0xFF#8])) .ok 12 0 any = true := by
  decide +kernel
theorem test_bmCount : ends (exec .bmCount ((bench 0 0 0 0 0 []).masked 4 3 [0x50#8, 0x4F#8])) .ok 3 0 any = true := by decide +kernel
theorem test_bmLoad : ends (exec .bmLoad ((bench 0x40 0 0 0 0 [(0x40, [0x50#8, 0x4F#8])]).masked 4 3 [0#8, 0#8])) .ok 2 0
    (fun t => decide (t.bm.bits = [0x50#8, 0x4F#8])) = true := by decide +kernel
theorem test_bmLoad_window : ends (exec .bmLoad ((bench 0x7FFFF 0 0 0 0 []).masked 4 3 [0#8, 0#8])) .wrongParam 0 0 any = true := by
  decide +kernel
theorem test_bmStore : ends (exec .bmStore ((bench 0 0 0x80 2 0 []).masked 4 3 [0x50#8, 0x40#8])) .ok 2 0
    (fun t => decide (t.mem.readBytes 0x7F 4 = [0#8, 0x50#8, 0x40#8, 0#8])) = true := by decide +kernel
theorem test_bmStore_small : ends (exec .bmStore ((bench 0 0 0x80 1 0 []).masked 4 3 [0x50#8, 0x40#8])) .bufferTooSmall 2 0
    (fun t => decide (t.mem = Memory.empty)) = true := by decide +kernel

/-! RLE and MSK (41_rle R153 to R158). -/

/-- The input and the stream of 30_encoding R95. -/
def plain8 : List Byte := [0xAA#8, 0xAA#8, 0xAA#8, 0xAA#8, 0xAA#8, 0xAA#8, 0xAA#8, 0x55#8]
/-- The stream of `plain8`. -/
def stream8 : List Byte := [0xF9#8, 0xFF#8, 0xAA#8, 0x01#8, 0x00#8, 0x55#8, 0x00#8, 0x80#8]

theorem test_rle_encode_short_run : rleEncode [1#8, 2#8, 3#8, 3#8, 3#8, 3#8, 3#8] =
    [0x07#8, 0x00#8, 1#8, 2#8, 3#8, 3#8, 3#8, 3#8, 3#8, 0x00#8, 0x80#8] := by decide +kernel
theorem test_rleSize : ends (exec .rleSize (bench 0x100 8 0 0 0 [(0x100, plain8)])) .ok 8 0 any = true := by decide +kernel
theorem test_rleSize_empty : ends (exec .rleSize (bench 0x100 0 0 0 0 [])) .ok 2 0 any = true := by decide +kernel
theorem test_rleCompress : ends (exec .rleCompress (bench 0x100 8 0x200 64 0 [(0x100, plain8)])) .ok 8 0
    (fun t => decide (t.mem.readBytes 0x200 9 = stream8 ++ [0#8])) = true := by decide +kernel
theorem test_rleCompress_overlap : ends (exec .rleCompress (bench 0x100 8 0x107 64 0 [(0x100, plain8)])) .wrongParam 0 0 any = true := by
  decide +kernel
theorem test_rleDecompress : ends (exec .rleDecompress (bench 0x200 8 0x300 8 0 [(0x200, stream8)])) .ok 8 8
    (fun t => decide (t.mem.readBytes 0x300 8 = plain8)) = true := by decide +kernel
theorem test_rleDecompress_cap : ends (exec .rleDecompress (bench 0x200 8 0x300 7 0 [(0x200, stream8)])) .failed 0 0
    (fun t => decide (t.mem.read 0x307 = 0#8)) = true := by decide +kernel

/-- The mask segment of 41_rle R157. -/
def segment10 : List Byte := [0x06#8, 0x00#8, 0x00#8, 0x00#8, 0x02#8, 0x00#8, 0x50#8, 0x40#8, 0x00#8, 0x80#8]

theorem test_mskEncode : ends (exec .mskEncode ((bench 0 0 0x400 64 0 []).masked 4 3 [0x50#8, 0x40#8])) .ok 10 3
    (fun t => decide (t.mem.readBytes 0x400 10 = segment10)) = true := by decide +kernel
theorem test_mskEncode_all_valid : ends (exec .mskEncode ((bench 0 0 0x400 4 0 []).masked 4 3 [0xFF#8, 0xF0#8])) .ok 4 12 any = true := by
  decide +kernel
theorem test_mskDecode : ends (exec .mskDecode ((bench 0x400 10 0 0 3 [(0x400, segment10)]).masked 4 3 [0#8, 0#8])) .ok 3 10
    (fun t => decide (t.bm.bits = [0x50#8, 0x40#8])) = true := by decide +kernel
theorem test_mskDecode_count : ends (exec .mskDecode ((bench 0x400 10 0 0 4 [(0x400, segment10)]).masked 4 3 [0#8, 0#8])) .failed 0 0
    (fun t => decide (t.bm.cols = 4) && decide (t.bm.rows = 3)) = true := by decide +kernel

/-! BS (42_bitstuffer R183 to R191). -/

/-- The simple block of 30_encoding R101. -/
def block6 : List Byte := [0x82#8, 0x03#8, 0x00#8, 0x00#8, 0x00#8, 0x6C#8]
/-- The LUT block of 30_encoding R102. -/
def block11 : List Byte := [0xA4#8, 0x06#8, 0x03#8, 0x00#8, 0x00#8, 0x00#8, 0x59#8, 0x00#8, 0x00#8, 0x90#8, 0x14#8]
/-- The same elements as `block6`, the count in 4 bytes (42_bitstuffer R191). -/
def block9 : List Byte := [0x02#8, 0x03#8, 0x00#8, 0x00#8, 0x00#8, 0x00#8, 0x00#8, 0x00#8, 0x6C#8]

theorem test_bsStuff : ends (exec .bsStuff (bench 0x100 3 0x200 16 2 [(0x100, u32Bytes [1, 2, 3])])) .ok 4 0
    (fun t => decide (t.mem.readBytes 0x200 4 = [0x00#8, 0x00#8, 0x00#8, 0x6C#8])) = true := by decide +kernel
theorem test_bsStuff_wide : ends (exec .bsStuff (bench 0x100 3 0x200 16 31 [(0x100, u32Bytes [5, 6, 7])])) .ok 12 0
    (fun t => decide (t.mem.readBytes 0x200 12 = [0x0A#8, 0#8, 0#8, 0#8, 0x18#8, 0#8, 0#8, 0#8, 0x38#8, 0#8, 0#8, 0#8])) = true := by
  decide +kernel
theorem test_bsUnstuff : ends (exec .bsUnstuff (bench 0x200 4 0x300 3 2 [(0x200, [0x00#8, 0x00#8, 0x00#8, 0x6C#8])])) .ok 3 4
    (fun t => decide (u32Array t.mem 0x300 3 = [1, 2, 3])) = true := by decide +kernel
theorem test_bsUnstuff_budget : ends (exec .bsUnstuff (bench 0x200 3 0x300 3 2 [(0x200, [0x00#8, 0x00#8, 0x00#8, 0x6C#8])])) .failed 0 0
    (fun t => decide (t.mem.read 0x203 = 0x6C#8)) = true := by decide +kernel
theorem test_bsSizeSimple : ends (exec .bsSizeSimple (bench 0 300 0 0 7 [])) .ok 119 3 any = true := by decide +kernel
theorem test_bsSizeSimple_wide : ends (exec .bsSizeSimple (bench 0 70000 0 0 1 [])) .ok 8757 1 any = true := by decide +kernel
theorem test_bsSizeLut : ends (exec .bsSizeLut (bench 0x100 6 0 0 0 [(0x100, u32Bytes [0, 5, 5, 0, 9, 5])])) .ok 11 2 any = true := by
  decide +kernel
theorem test_bsEncSimple : ends (exec .bsEncSimple (bench 0x100 3 0x200 64 0 [(0x100, u32Bytes [1, 2, 3])])) .ok 6 2
    (fun t => decide (t.mem.readBytes 0x200 6 = block6)) = true := by decide +kernel
theorem test_bsEncSimple_zeros : ends (exec .bsEncSimple (bench 0x100 4 0x200 64 0 [])) .ok 2 0
    (fun t => decide (t.mem.readBytes 0x200 2 = [0x80#8, 0x04#8])) = true := by decide +kernel
theorem test_bsEncLut : ends (exec .bsEncLut (bench 0x100 6 0x200 64 0 [(0x100, u32Bytes [0, 5, 5, 0, 9, 5])])) .ok 11 2
    (fun t => decide (t.mem.readBytes 0x200 11 = block11)) = true := by decide +kernel
theorem test_bsEncLut_small : ends (exec .bsEncLut (bench 0x100 2 0x200 64 0 [(0x100, u32Bytes [0, 1])])) .ok 11 1
    (fun t => decide (t.mem.readBytes 0x200 11 =
      [0xA1#8, 0x02#8, 0x02#8, 0x00#8, 0x00#8, 0x00#8, 0x80#8, 0x00#8, 0x00#8, 0x00#8, 0x40#8])) = true := by decide +kernel
theorem test_bsDecode : ends (exec .bsDecode (bench 0x200 9 0x300 16 0 [(0x200, block9)])) .ok 3 9
    (fun t => decide (u32Array t.mem 0x300 3 = [1, 2, 3])) = true := by decide +kernel
theorem test_bsDecode_lut : ends (exec .bsDecode (bench 0x200 11 0x300 16 0 [(0x200, block11)])) .ok 6 11
    (fun t => decide (u32Array t.mem 0x300 6 = [0, 5, 5, 0, 9, 5])) = true := by decide +kernel

/-! HUF (43_huffman R224 to R244). -/

/-- The serialized table of 43_huffman R227. -/
def tableBytes18 : List Byte :=
  [0x06#8, 0x00#8, 0x00#8, 0x00#8, 0x00#8, 0x00#8, 0x00#8, 0x00#8, 0x05#8, 0x00#8, 0x00#8, 0x00#8, 0x82#8, 0x05#8, 0x00#8, 0x00#8, 0xC0#8,
    0x4B#8]

theorem test_hufCompute : ends (exec .hufCompute (bench 0x100 6 0 0 0 [(0x100, u32Bytes [5, 0, 2, 1, 1, 0])])) .ok 3 4
    (fun t => decide (t.ht = table6)) = true := by decide +kernel
theorem test_hufCompute_one_symbol : ends (exec .hufCompute ((bench 0x100 1 0 0 0 [(0x100, u32Bytes [5])]).built table6)) .failed 0 0
    (fun t => decide (hufStatWord t = 0#32)) = true := by decide +kernel
theorem test_hufSize : ends (exec .hufSize ((bench 0x100 6 0 0 0 [(0x100, u32Bytes [5, 0, 2, 1, 1, 0])]).coded table6)) .ok 26 18 any = true := by
  decide +kernel
theorem test_hufWrTable : ends (exec .hufWrTable ((bench 0 0 0x200 64 0 []).coded table6)) .ok 18 0
    (fun t => decide (t.mem.readBytes 0x200 18 = tableBytes18)) = true := by decide +kernel
theorem test_hufWrTable_wraps : hufTableBytes table16 =
    [0x10#8, 0x00#8, 0x00#8, 0x00#8, 0x0E#8, 0x00#8, 0x00#8, 0x00#8, 0x12#8, 0x00#8, 0x00#8, 0x00#8, 0x82#8, 0x04#8, 0x00#8, 0x00#8, 0x00#8,
      0xF6#8] := by decide +kernel
theorem test_hufRdTable : ends (exec .hufRdTable (bench 0x200 18 0 0 0 [(0x200, tableBytes18)])) .ok 6 18
    (fun t => decide (t.ht = table6)) = true := by decide +kernel
theorem test_hufRdTable_budget : ends (exec .hufRdTable ((bench 0x200 17 0 0 0 [(0x200, tableBytes18)]).built table6)) .failed 0 0
    (fun t => decide (hufStatWord t = 0#32)) = true := by decide +kernel
theorem test_hufBuild : ends (exec .hufBuild ((bench 0 0 0 0 0 []).coded table6)) .ok 3 0
    (fun t => decide (t.hd.lut = [some (3, 3), some (3, 4), some (2, 2), some (2, 2), some (1, 0), some (1, 0), some (1, 0), some (1, 0)]))
    = true := by decide +kernel
theorem test_hufBuild_long : ends (exec .hufBuild ((bench 0 0 0 0 0 []).coded table14)) .ok 12 12
    (fun t => decide (t.hd.tree = .node (.leaf 0) (.leaf 1)) && decide (t.hd.lut.head? = some none)) = true := by decide +kernel
theorem test_hufEncode : ends (exec .hufEncode ((bench 0x300 9 0x400 64 0 [(0x300, u32Bytes [0, 2, 0, 3, 0, 4, 0, 2, 0])]).coded table6)) .ok 8 0
    (fun t => decide (t.mem.readBytes 0x400 8 = [0x00#8, 0x00#8, 0x36#8, 0xB1#8, 0x00#8, 0x00#8, 0x00#8, 0x00#8])) = true := by
  decide +kernel
theorem test_hufEncode_no_code : ends (exec .hufEncode ((bench 0x300 1 0x400 64 0 [(0x300, u32Bytes [1])]).coded table6)) .failed 0 0 any = true := by
  decide +kernel
theorem test_hufDecode : ends (exec .hufDecode ((bench 0x400 8 0x500 9 0 [(0x400, [0x00#8, 0x00#8, 0x36#8, 0xB1#8])]).built table6)) .ok 9 8
    (fun t => decide (u32Array t.mem 0x500 9 = [0, 2, 0, 3, 0, 4, 0, 2, 0])) = true := by decide +kernel
theorem test_hufDecode_long : ends (exec .hufDecode ((bench 0x400 12 0x500 5 0
      [(0x400, [0x60#8, 0x00#8, 0x00#8, 0x00#8, 0x00#8, 0x00#8, 0x80#8, 0x02#8])]).built table14)) .ok 5 12
    (fun t => decide (u32Array t.mem 0x500 5 = [0, 1, 13, 2, 12])) = true := by decide +kernel
theorem test_hufClear : ends (exec .hufClear ((bench 0 0 0 0 0 []).built table6)) .ok 0 0
    (fun t => decide (hufStatWord t = 0#32) && decide (t.ht.size = 0)) = true := by decide +kernel
theorem test_hufGetCode : ends (exec .hufGetCode ((bench 2 0 0 0 0 []).coded table6)) .ok 2 1 any = true := by decide +kernel
theorem test_hufGetCode_end : ends (exec .hufGetCode ((bench 6 0 0 0 0 []).coded table6)) .wrongParam 0 0 any = true := by decide +kernel

/-! Witnesses: for every statement of Certificates/Slice0/Obligations.lean that has hypotheses, a concrete state and operands that meet
them together, each clause at a boundary of its range. -/

/-- The block runs this command. -/
def running (i : Instr) (s : State) : State := { s with cmd := encode i, busy := true, done := false, raced := false }

/-- The block is idle and the host has these actions pending. -/
def hosted (s : State) (acts : List HostAct) : State := { s with busy := false, done := true, host := acts }

/-- The block is busy and the host has these actions pending. -/
def hostedBusy (s : State) (acts : List HostAct) : State := { s with busy := true, done := false, host := acts }

theorem eq_ok {ε α : Type} {e : Except ε α} {a : α} (h : e.toOption = some a) : e = .ok a := by
  cases e with
  | ok b => exact congrArg Except.ok (Option.some.inj h)
  | error x => cases h

theorem ne_ok {ε α : Type} {e : Except ε α} (h : e.toOption.isSome = false) : ∀ a, e ≠ .ok a := by
  intro a ha
  rw [ha] at h
  cases h

/-- A command completes from this state. -/
def completes (i : Instr) (s : State) : Prop := ∃ t, exec i s = .next t

theorem completes_of {i : Instr} {s : State} (h : leads (exec i s) any = true) : completes i s :=
  (leads_spec h).imp fun _ ht => ht.1

/-- A command completes from this state with this code. -/
def completesWith (i : Instr) (s : State) (code : StatusCode) : Prop := ∃ t, exec i s = .next t ∧ t.err = code

theorem completesWith_of {i : Instr} {s : State} {code : StatusCode} (h : leads (exec i s) (fun t => decide (t.err = code)) = true) :
    completesWith i s code :=
  (leads_spec h).imp fun _ ht => ⟨ht.1, of_decide_eq_true ht.2⟩

theorem witness_StepRunsTheCommandInCmd :
    (let s := running .hufGetCode (bench 0 0 0 0 0 [])
     s.host = [] ∧ s.busy = true ∧ s.raced = false ∧ decode s.cmd = .ok .hufGetCode ∧ Instr.wellFormed .hufGetCode = true) ∧
    (let s := { running .sysNop (bench 0 0 0 0 0 []) with host := [.wait] }
     s.host = .wait :: [] ∧ s.busy = true ∧ s.raced = false ∧ decode s.cmd = .ok .sysNop) ∧
    (let s := hosted (bench 0 0 0 0 0 []) []
     s.host = [] ∧ s.busy = false) ∧
    (let s := hosted (bench 0 0 0 0 0 []) [.wait]
     s.host = .wait :: [] ∧ s.busy = false) ∧
    decodeTableWord 32 0 = some .sysNop ∧ decodeTableWord 32 0x48 = some .hufGetCode :=
  ⟨⟨rfl, rfl, rfl, rfl, rfl⟩, ⟨rfl, rfl, rfl, rfl⟩, ⟨rfl, rfl⟩, ⟨rfl, rfl⟩, rfl, rfl⟩

theorem witness_ReservedWordEndsIllegal :
    (let s := { bench 0 0 0 0 0 [] with cmd := 0x49#32 }
     s.host = [] ∧ s.busy = true ∧ commandWordWellFormed s.cmd = false) ∧
    (let s := { bench 0 0 0 0 0 [] with cmd := 0x100#32 }
     s.host = [] ∧ s.busy = true ∧ commandWordWellFormed s.cmd = false) := by decide

theorem witness_CmdWriteStartsACommand :
    (let s := hosted (bench 0 0 0 0 0 []) [.writeReg 0x00 0xFFFFFFFF#32]
     s.host = .writeReg 0x00 0xFFFFFFFF#32 :: [] ∧ s.busy = false ∧ s.rst = false) ∧
    (let s := hostedBusy (bench 0 0 0 0 0 []) [.writeReg 0x00 0x10#32]
     s.host = .writeReg 0x00 0x10#32 :: [] ∧ s.busy = true) := by decide

theorem witness_RegisterAccessOfAnIdleBlock :
    (let s := hosted (bench 0 0 0 0 0 []) [.readReg 0x00]
     s.host = .readReg 0x00 :: [] ∧ s.busy = false ∧ regOffsetWellFormed 0x00 = true) ∧
    (let s := hosted (bench 0 0 0 0 0 []) [.readReg 0x3C]
     s.host = .readReg 0x3C :: [] ∧ s.busy = false ∧ regOffsetWellFormed 0x3C = true) ∧
    (let s := hosted (bench 0 0 0 0 0 []) [.writeReg 0x08 1#32]
     s.busy = false ∧ s.rst = false ∧ s.host = .writeReg 0x08 1#32 :: []) ∧
    (let s := hosted (bench 0 0 0 0 0 []) [.writeReg 0x0C 1#32]
     s.busy = false ∧ s.rst = false ∧ s.host = .writeReg 0x0C 1#32 :: []) ∧
    (let s := hosted (bench 0 0 0 0 0 []) [.writeReg 0x10 1#32]
     s.busy = false ∧ s.rst = false ∧ s.host = .writeReg 0x10 1#32 :: []) ∧
    (let s := hosted (bench 0 0 0 0 0 []) [.writeReg 0x14 1#32]
     s.busy = false ∧ s.rst = false ∧ s.host = .writeReg 0x14 1#32 :: []) ∧
    (let s := hosted (bench 0 0 0 0 0 []) [.writeReg 0x18 1#32]
     s.busy = false ∧ s.rst = false ∧ s.host = .writeReg 0x18 1#32 :: []) ∧
    (let s := hosted (bench 0 0 0 0 0 []) [.writeReg 0x3C 1#32]
     s.host = .writeReg 0x3C 1#32 :: [] ∧ s.busy = false ∧
       0x3C ∈ [0x04, 0x1C, 0x20, 0x24, 0x28, 0x2C, 0x30, 0x34, 0x38, 0x3C]) ∧
    (let s := hosted (bench 0 0 0 0 0 []) [.writeReg 0x40 1#32]
     s.host = .writeReg 0x40 1#32 :: [] ∧ regOffsetWellFormed 0x40 = false) ∧
    (let s := hosted (bench 0 0 0 0 0 []) [.readReg 0x01]
     s.host = .readReg 0x01 :: [] ∧ regOffsetWellFormed 0x01 = false) := by decide

theorem witness_RegisterAccessOfABusyBlock :
    (let s := hostedBusy (bench 0 0 0 0 0 []) [.writeReg 0x3C 1#32]
     s.host = .writeReg 0x3C 1#32 :: [] ∧ s.busy = true ∧ regOffsetWellFormed 0x3C = true) ∧
    (let s := hostedBusy (bench 0 0 0 0 0 []) [.readReg 0x24]
     s.host = .readReg 0x24 :: [] ∧ s.busy = true ∧ regAt 0x24 = some .id ∧ Reg.id ∉ [Reg.bmCols, Reg.bmRows, Reg.hufStat, Reg.hufSize]) ∧
    (let s := hostedBusy (bench 0 0 0 0 0 []) []
     s.busy = true ∧ s.done = false) ∧
    (let s := hostedBusy (bench 0 0 0 0 0 []) [.readReg 0x28]
     s.host = .readReg 0x28 :: [] ∧ s.busy = true ∧ regAt 0x28 = some .bmCols) ∧
    (let s := hostedBusy (bench 0 0 0 0 0 []) [.readReg 0x34]
     s.host = .readReg 0x34 :: [] ∧ s.busy = true ∧ regAt 0x34 = some .hufSize) := by decide

theorem witness_StatusAndHufstatFieldsReadBack :
    (let s := hosted ((bench 0 0 0 0 0 []).built table14) []
     s.Inv ∧ s.ht.valid = true ∧ s.hd.valid = true) ∧
    (let s := hosted ((bench 0 0 0 0 0 [(0x7FFFF, [1#8])]).coded table6) []
     s.Inv ∧ s.ht.valid = true ∧ s.hd.valid = false) ∧
    (let s := hosted ((bench 0 0 0 0 0 []).masked 4 3 [0x50#8, 0x40#8]) []
     s.Inv ∧ s.ht.valid = false) :=
  ⟨⟨⟨by decide, by decide, by decide, .inl (by decide +kernel), .inl ⟨rfl, rfl⟩, by decide, by decide, by decide, by decide⟩, rfl, rfl⟩,
    by decide +kernel, by decide +kernel⟩

/-- A block whose reset input is held asserted, the host's actions pending. -/
def heldReset (acts : List HostAct) : State := { State.reset with rst := true, host := acts }

theorem witness_ResetInputResetsTheBlock :
    (let s := hosted ((bench 1 2 3 4 5 []).built table6) [.rst true]
     s.host = .rst true :: [] ∧ s.busy = false) ∧
    (let s := { running .rleDecompress (bench 0x200 8 0x300 8 0 []) with host := [.rst true] }
     s.host = .rst true :: [] ∧ s.busy = true ∧ decode s.cmd = .ok .rleDecompress ∧
       (∀ w ∈ windows .rleDecompress s, w.write = true → w.covers 0x308 = false) ∧
       ∃ w ∈ windows .rleDecompress s, w.write = true ∧ w.covers 0x307 = true) ∧
    (let s := heldReset [.writeReg 0x00 0x10#32]
     s.rst = true ∧ s.host = .writeReg 0x00 0x10#32 :: [] ∧ regOffsetWellFormed 0x00 = true ∧ s.Inv ∧ leads (step s) any = true) ∧
    ((heldReset []).Inv ∧ (heldReset []).rst = true ∧ (heldReset []).host = []) ∧
    ((heldReset [.rst false]).Inv ∧ (heldReset [.rst false]).host = .rst false :: [] ∧
      leads (step (heldReset [.rst false])) (fun t => !t.rst) = true) :=
  ⟨⟨rfl, rfl⟩, ⟨rfl, rfl, rfl, by decide, by decide⟩, by decide +kernel, by decide +kernel, by decide +kernel⟩

theorem witness_ScriptLineRunsItsCommand :
    (let s := hosted (bench 0 0 0 0 0 []) (commandLine .bsStuff [0x100, 3, 0x200, 16, 2] ++ [.readReg 0x04])
     s.host = commandLine .bsStuff [0x100, 3, 0x200, 16, 2] ++ [.readReg 0x04] ∧
       [0x100, 3, 0x200, 16, 2].length = (operandOffsets .bsStuff).length ∧ s.busy = false ∧ s.rst = false) ∧
    (let s := hosted (bench 0 0 0 0 0 []) (commandLine .sysNop [] ++ [])
     s.host = commandLine .sysNop [] ++ [] ∧ ([] : List Nat).length = (operandOffsets .sysNop).length ∧ s.busy = false ∧ s.rst = false) := by decide

theorem witness_HostStoresOrdinaryBytes :
    (let s := hosted (bench 0 0 0 0 0 []) [.writeMem 0x7FFFE [1#8, 2#8]]
     s.host = .writeMem 0x7FFFE [1#8, 2#8] :: [] ∧ 0x7FFFE + [1#8, 2#8].length ≤ s.params.memSize ∧ s.busy = false) ∧
    (let s := hosted (bench 0 0 0 0 0 []) [.readMem 0x7FFFE 2]
     s.host = .readMem 0x7FFFE 2 :: [] ∧ 0x7FFFE + 2 ≤ s.params.memSize ∧ s.busy = false) ∧
    (let s := { running .rleSize (bench 0x100 8 0 0 0 []) with host := [.readMem 0x107 2] }
     s.host = .readMem 0x107 2 :: [] ∧ 0x107 + 2 ≤ s.params.memSize ∧ s.busy = true ∧ decode s.cmd = .ok .rleSize ∧
       ∀ w ∈ windows .rleSize s, w.write = false) ∧
    (let s := hosted (bench 0 0 0 0 0 []) [.writeMem 0x7FFFE [1#8, 2#8], .readMem 0x7FFFE 2]
     s.host = .writeMem 0x7FFFE [1#8, 2#8] :: .readMem 0x7FFFE [1#8, 2#8].length :: [] ∧
       0x7FFFE + [1#8, 2#8].length ≤ s.params.memSize ∧ s.busy = false) := by decide

theorem witness_CommandsAreMemorySafe :
    let s := bench 0x100 8 0 0 0 [(0x100, plain8)]
    AgreeOnReads s.mem (s.mem.write 0x108 7#8) (windows .rleSize s) ∧ s.mem.read 0x108 ≠ (s.mem.write 0x108 7#8).read 0x108 ∧
      completes .rleSize s ∧ completes .rleSize { s with mem := s.mem.write 0x108 7#8 } ∧
      ∀ w ∈ windows .rleSize s, w.write = true → w.covers 0x100 = false := by
  refine ⟨?_, by decide +kernel, completes_of (by decide +kernel), completes_of (by decide +kernel), by decide⟩
  intro w hw _ a ha
  have hw : w = rwin 0x100 8 := by simpa [windows, bench, State.a0, State.a1] using hw
  subst hw
  rw [Window.covers_iff] at ha
  have : a < 0x100 + 8 := ha.2
  exact (Memory.read_write_other _ _ _ _ (by omega)).symm

theorem witness_TurnedAwayCommandsChangeNothing :
    completesWith .bsStuff (bench 0 0 0 0 32 []) .wrongParam ∧
    completesWith .bmStore ((bench 0 0 0x80 1 0 []).masked 4 3 [0x50#8, 0x40#8]) .bufferTooSmall :=
  ⟨completesWith_of (by decide +kernel), completesWith_of (by decide +kernel)⟩

theorem witness_FailedLeavesWhatTheRulesSay :
    completesWith .hufCompute ((bench 0x100 1 0 0 0 []).built table6) .failed ∧
    completesWith .hufRdTable ((bench 0x200 11 0 0 0 []).built table6) .failed ∧
    completesWith .mskDecode ((bench 0x400 3 0 0 3 []).masked 4 3 [0#8, 0#8]) .failed ∧
    completesWith .rleDecompress (bench 0x200 1 0x300 8 0 []) .failed ∧
    completesWith .bsDecode (bench 0x200 0 0x300 8 0 []) .failed ∧
    completesWith .hufDecode (bench 0x200 8 0x300 8 0 []) .failed ∧
    completesWith .hufEncode (bench 0x200 0 0x300 8 0 []) .failed ∧
    Instr.hufEncode ∉ [Instr.hufCompute, .hufRdTable, .mskDecode, .rleDecompress, .bsDecode, .hufDecode] :=
  ⟨completesWith_of (by decide +kernel), completesWith_of (by decide +kernel), completesWith_of (by decide +kernel),
    completesWith_of (by decide +kernel), completesWith_of (by decide +kernel), completesWith_of (by decide +kernel),
    completesWith_of (by decide +kernel), by decide⟩

theorem witness_WindowTestsComeFirst :
    (let s := bench 0x7FFFF 2 0 0 0 []
     rwin 0x7FFFF 2 ∈ windows .rleSize s ∧ 0 < (rwin 0x7FFFF 2).len ∧
       s.params.memSize < (rwin 0x7FFFF 2).start + (rwin 0x7FFFF 2).len) ∧
    (let s := bench 0x100 8 0x107 4 0 []
     windows .rleCompress s = [rwin 0x100 8, wwin 0x107 4] ∧ (wwin 0x107 4).write = true ∧ (rwin 0x100 8).covers 0x107 = true ∧
       (wwin 0x107 4).covers 0x107 = true) ∧
    (∀ w ∈ [rwin 0xFFFFFFFF 0, rwin 0 4, wwin 4 4], w.len = 0 ∨ w.start + w.len ≤ 8) ∧
    [rwin 0xFFFFFFFF 0, rwin 0 4, wwin 4 4].Pairwise
      (fun v w => (v.write = false ∧ w.write = false) ∨ ∀ x, ¬ (v.covers x = true ∧ w.covers x = true)) := by
  refine ⟨by decide, by decide, by decide, ?_⟩
  simp only [List.pairwise_cons, List.mem_cons, List.not_mem_nil, or_false, forall_eq_or_imp, forall_eq, Window.covers_iff]
  refine ⟨⟨.inl ⟨rfl, rfl⟩, .inr ?_⟩, .inr ?_, ?_⟩
  · intro x h
    have h1 : 0xFFFFFFFF ≤ x := h.1.1
    have h2 : x < 0xFFFFFFFF + 0 := h.1.2
    omega
  · intro x h
    have h1 : x < 0 + 4 := h.1.2
    have h2 : 4 ≤ x := h.2.1
    omega
  · simp

theorem witness_OnlyTheirCommandsChangeTheStores :
    completes .hufBuild ((bench 0 0 0 0 0 []).coded table6) ∧
    Instr.hufBuild ∉ [Instr.sysReset, .bmSetSize, .bmSetValid, .bmSetInvalid, .bmSetAllValid, .bmSetAllInvalid, .bmLoad, .mskDecode] ∧
    Instr.hufBuild ∉ [Instr.sysReset, .hufCompute, .hufRdTable, .hufClear] ∧
    completes .bmCount (bench 0 0 0 0 0 []) ∧
    Instr.bmCount ∉ [Instr.sysReset, .hufCompute, .hufRdTable, .hufClear, .hufBuild] :=
  ⟨completes_of (by decide +kernel), by decide, by decide, completes_of (by decide +kernel), by decide⟩

theorem witness_SysCommandsOutcome :
    let s := ((bench 0 0 1 2 3 []).masked 4 3 [0x50#8, 0x40#8]).built table6
    s.arg0 = 0#32 ∧ s.arg1 = 0#32 ∧ ∃ t, exec .bmSetSize s = .next t ∧ completes .hufClear t := by
  refine ⟨rfl, rfl, ?_⟩
  obtain ⟨t, ht, hb⟩ := leads_spec
    (o := exec .bmSetSize (((bench 0 0 1 2 3 []).masked 4 3 [0x50#8, 0x40#8]).built table6))
    (p := fun t => leads (exec .hufClear t) any) (by decide +kernel)
  exact ⟨t, ht, completes_of hb⟩

theorem witness_BmPixelOutcome :
    (let s := (bench 12 0 0 0 0 []).masked 4 3 [0x50#8, 0x40#8]
     s.bm.pixels ≤ s.a0) ∧
    (let s := (bench 11 0 0 0 0 []).masked 4 3 [0x50#8, 0x40#8]
     s.a0 < s.bm.pixels ∧ s.bm.bits.length = s.bm.size) := by decide

theorem witness_BmCountCountsValidPixels :
    let s := (bench 0 0 0 0 0 []).masked 4 3 [0xFF#8, 0xFF#8]
    s.bm.bits.length = s.bm.size := by decide

theorem witness_BmLoadStoreOutcome :
    WindowsPass .bmLoad ((bench 0x7FFFE 0 0 0 0 []).masked 4 3 [0#8, 0#8]) ∧
    (let s := (bench 0 0 0x7FFFE 2 0 []).masked 4 3 [0x50#8, 0x40#8]
     s.bm.bits.length = s.bm.size ∧ WindowsPass .bmStore s ∧ s.bm.bits.length ≤ s.a3) ∧
    (let s := (bench 0 0 0x80 1 0 []).masked 4 3 [0x50#8, 0x40#8]
     s.bm.bits.length = s.bm.size ∧ WindowsPass .bmStore s ∧ s.a3 < s.bm.bits.length) := by decide

theorem witness_BitMaskLaws :
    completesWith .bmSetSize (bench 4 3 0 0 0 []) .ok ∧
    completes .bmSetAllValid ((bench 0 0 0 0 0 []).masked 4 3 [0#8, 0#8]) ∧
    (let s := (bench 11 0 0 0 0 []).masked 4 3 [0x50#8, 0x40#8]
     s.bm.bits.length = s.bm.size ∧ s.a0 < s.bm.pixels ∧ completes .bmSetValid s ∧ completes .bmSetInvalid s) ∧
    (let s := (bench 0 0 0x80 2 0 []).masked 4 3 [0x50#8, 0x40#8]
     s.bm.bits.length = s.bm.size ∧ ∃ t, exec .bmStore s = .next t ∧ t.err = .ok ∧ completes .bmLoad { t with arg0 := t.arg2 }) := by
  refine ⟨completesWith_of (by decide +kernel), completes_of (by decide +kernel),
    ⟨by decide, by decide, completes_of (by decide +kernel), completes_of (by decide +kernel)⟩, by decide, ?_⟩
  obtain ⟨t, ht, hb⟩ := leads_spec (o := exec .bmStore ((bench 0 0 0x80 2 0 []).masked 4 3 [0x50#8, 0x40#8]))
    (p := fun t => decide (t.err = .ok) && leads (exec .bmLoad { t with arg0 := t.arg2 }) any) (by decide +kernel)
  rw [Bool.and_eq_true] at hb
  exact ⟨t, ht, of_decide_eq_true hb.1, completes_of hb.2⟩

theorem witness_RleSizeAndCompressOutcome :
    WindowsPass .rleSize (bench 0x7FFF8 8 0 0 0 []) ∧ 1 ≤ ([7#8] : List Byte).length ∧
    (let s := bench 0x100 8 0x108 8 0 [(0x100, plain8)]
     WindowsPass .rleCompress s ∧ (rleEncode (s.mem.readBytes s.a0 s.a1)).length ≤ s.a3) ∧
    (let s := bench 0x100 8 0x108 7 0 [(0x100, plain8)]
     WindowsPass .rleCompress s ∧ s.a3 < (rleEncode (s.mem.readBytes s.a0 s.a1)).length) := by decide +kernel

/-- Five equal bytes at the end of the input start no run; seven do, and so do five with another byte after them. -/
theorem witness_RleSizeAndCompressOutcome_runs :
    (∀ t, t < [1#8, 2#8, 3#8, 3#8, 3#8, 3#8, 3#8].length → ¬ StartsRun ([1#8, 2#8, 3#8, 3#8, 3#8, 3#8, 3#8].drop t)) ∧
    (5 ≤ 7 ∧ 6 ≤ 7 + [0x55#8].length ∧ [0x55#8].head? ≠ some 0xAA#8 ∧
      ∀ t, t < ([] : List Byte).length → ¬ StartsRun (([] ++ List.replicate 7 0xAA#8 ++ [0x55#8]).drop t)) ∧
    (5 ≤ 5 ∧ 6 ≤ 5 + [0#8].length ∧ [0#8].head? ≠ some 3#8 ∧
      ∀ t, t < [1#8, 3#8, 2#8].length → ¬ StartsRun (([1#8, 3#8, 2#8] ++ List.replicate 5 3#8 ++ [0#8]).drop t)) := by
  unfold StartsRun
  decide

/-- The stream of 30_encoding R95 is a legal one: repeat 7 of AA, literal 1, end. -/
theorem stream8_legal : RleStream stream8 plain8 :=
  RleStream.repeated 7 0xAA#8 [0x01#8, 0x00#8, 0x55#8, 0x00#8, 0x80#8] [0x55#8] (by decide)
    (RleStream.literal [0x55#8] [0x00#8, 0x80#8] [] (by decide) RleStream.endMark)

theorem RleStream_length {st out : List Byte} (h : RleStream st out) : 2 ≤ st.length := by
  cases h <;> simp [i16Bytes]

theorem witness_RleDecompressOutcome :
    (let s := bench 0x200 8 0x300 8 0 [(0x200, stream8)]
     WindowsPass .rleDecompress s ∧ s.mem.readBytes s.a0 s.a1 = stream8 ++ [] ∧ RleStream stream8 plain8 ∧ plain8.length ≤ s.a3) ∧
    (let s := bench 0x200 1 0x300 8 0 [(0x200, stream8)]
     WindowsPass .rleDecompress s ∧
       ¬ ∃ st out tail, s.mem.readBytes s.a0 s.a1 = st ++ tail ∧ RleStream st out ∧ out.length ≤ s.a3) := by
  refine ⟨⟨by decide, by decide +kernel, stream8_legal, by decide⟩, by decide, ?_⟩
  rintro ⟨st, out, tail, he, hst, -⟩
  have hl := congrArg List.length he
  rw [Memory.readBytes_length, List.length_append] at hl
  have h2 := RleStream_length hst
  have h1 : (bench 0x200 1 0x300 8 0 [(0x200, stream8)]).a1 = 1 := rfl
  omega

theorem witness_RleRoundTrip : plain8.length ≤ 8 := by decide

theorem witness_MskEncodeOutcome :
    (let s := (bench 0 0 0x400 4 0 []).masked 0 3 []
     s.bm.bits.length = s.bm.size ∧ WindowsPass .mskEncode s ∧ s.bm.validPixels = 0) ∧
    (let s := (bench 0 0 0x400 3 0 []).masked 4 3 [0xFF#8, 0xF0#8]
     s.bm.bits.length = s.bm.size ∧ WindowsPass .mskEncode s ∧ s.bm.validPixels = s.bm.pixels ∧ s.a3 < 4) ∧
    (let s := (bench 0 0 0x400 10 0 []).masked 4 3 [0x50#8, 0x40#8]
     s.bm.bits.length = s.bm.size ∧ WindowsPass .mskEncode s ∧ s.bm.validPixels ≠ 0 ∧ s.bm.validPixels ≠ s.bm.pixels) := by
  decide +kernel

theorem witness_MskDecodeOutcome :
    (let s := (bench 0x400 10 0 0 13 []).masked 4 3 [0#8, 0#8]
     WindowsPass .mskDecode s ∧ s.bm.pixels < s.a4) ∧
    (let s := (bench 0x400 10 0 0 3 [(0x400, segment10)]).masked 4 3 [0#8, 0#8]
     WindowsPass .mskDecode s ∧ s.a4 ≤ s.bm.pixels ∧
       SegmentDecodes s.bm s.a4 (s.mem.readBytes s.a0 s.a1) { cols := 4, rows := 3, bits := [0x50#8, 0x40#8] } 10) ∧
    (let s := (bench 0x400 4 0 0 12 []).masked 4 3 [0#8, 0#8]
     WindowsPass .mskDecode s ∧ s.a4 ≤ s.bm.pixels ∧
       SegmentDecodes s.bm s.a4 (s.mem.readBytes s.a0 s.a1) { cols := 4, rows := 3, bits := [0xFF#8, 0xFF#8] } 4) ∧
    (let s := (bench 0x400 3 0 0 0 []).masked 4 3 [0#8, 0#8]
     WindowsPass .mskDecode s ∧ s.a4 ≤ s.bm.pixels ∧
       ¬ ∃ b used, SegmentDecodes s.bm s.a4 (s.mem.readBytes s.a0 s.a1) b used) := by
  refine ⟨by decide, ⟨by decide, by decide, ?_⟩, ⟨by decide, by decide, ?_⟩, by decide, by decide, ?_⟩
  · refine ⟨6, [0x02#8, 0x00#8, 0x50#8, 0x40#8, 0x00#8, 0x80#8], by decide, by decide +kernel, .inr (.inr
      ⟨by decide, by decide, by decide, by decide, by decide, _, [], [0x50#8, 0x40#8], ?_,
        RleStream.literal [0x50#8, 0x40#8] [0x00#8, 0x80#8] [] (by decide) RleStream.endMark, by decide, by decide, by decide +kernel⟩)⟩
    decide
  · exact ⟨0, [], by decide, by decide +kernel, .inr (.inl ⟨rfl, by decide, by decide, by decide, rfl⟩)⟩
  · rintro ⟨b, used, cnt, tail, -, he, -⟩
    have hl := congrArg List.length he
    rw [Memory.readBytes_length, List.length_append, leBytes_length] at hl
    have h1 : ((bench 0x400 3 0 0 0 []).masked 4 3 [0#8, 0#8]).a1 = 3 := rfl
    omega

theorem witness_MaskSegmentsAreFaithful :
    let b : Mask := { cols := 4, rows := 3, bits := [0x50#8, 0x4F#8] }
    b.bits.length = b.size ∧ (rleEncode b.bits).length < 2147483648 ∧ b.count ≠ 0 ∧ b.count ≠ b.pixels := by decide +kernel

theorem witness_StuffPlacesEveryBit :
    31 ≤ 31 ∧ (∀ v ∈ [0, 2147483647], v < 2 ^ 31) ∧ 1 < [0, 2147483647].length ∧ 0 ≤ 31 ∧ (∀ v ∈ [0, 0], v < 2 ^ 0) ∧
    [1#8, 2#8, 3#8, 4#8].length % 4 = 0 ∧ 31 < 8 * [1#8, 2#8, 3#8, 4#8].length := by decide

theorem witness_BsStuffOutcome :
    31 < (bench 0x100 1 0x200 4 32 []).a4 ∧
    (let s := bench 0x100 1 0x200 4 31 [(0x100, u32Bytes [2147483648])]
     s.a4 ≤ 31 ∧ WindowsPass .bsStuff s ∧ ∃ v ∈ u32Array s.mem s.a0 s.a1, 2 ^ s.a4 ≤ v) ∧
    (let s := bench 0x100 1 0x200 4 31 [(0x100, u32Bytes [2147483647])]
     s.a4 ≤ 31 ∧ WindowsPass .bsStuff s ∧ (∀ v ∈ u32Array s.mem s.a0 s.a1, v < 2 ^ s.a4) ∧
       (stuff (u32Array s.mem s.a0 s.a1) s.a4).length ≤ s.a3) := by decide +kernel

theorem witness_BsUnstuffOutcome :
    31 < (bench 0x200 4 0x300 3 32 []).a4 ∧
    (let s := bench 0x200 3 0x300 3 2 []
     s.a4 ≤ 31 ∧ WindowsPass .bsUnstuff s ∧ s.a1 < 4 * ((s.a3 * s.a4 + 31) / 32)) ∧
    (let s := bench 0x200 4 0x300 3 2 []
     s.a4 ≤ 31 ∧ WindowsPass .bsUnstuff s ∧ 4 * ((s.a3 * s.a4 + 31) / 32) ≤ s.a1) := by decide +kernel

theorem witness_UnstuffInvertsStuff :
    let s := bench 0x200 4 0x300 3 2 [(0x200, [0x00#8, 0x00#8, 0x00#8, 0x6C#8])]
    s.a4 ≤ 31 ∧ (∀ v ∈ [1, 2, 3], v < 2 ^ s.a4) ∧ [1, 2, 3].length = s.a3 ∧ WindowsPass .bsUnstuff s ∧
      s.a1 = (stuff [1, 2, 3] s.a4).length ∧ Holds s s.a0 (stuff [1, 2, 3] s.a4) := by
  unfold Holds
  decide +kernel

theorem witness_BsEncSimpleOutcome :
    (let s := bench 0x100 1 0x200 64 0 [(0x100, u32Bytes [2147483648])]
     WindowsPass .bsEncSimple s ∧ ∃ v ∈ u32Array s.mem s.a0 s.a1, 2147483648 ≤ v) ∧
    (let s := bench 0x100 1 0x200 64 0 [(0x100, u32Bytes [2147483647])]
     WindowsPass .bsEncSimple s ∧ ∀ v ∈ u32Array s.mem s.a0 s.a1, v < 2147483648) := by decide +kernel

/-- What `LutOf` answers for the array of 30_encoding R102. -/
def lut3 : Lut := { table := [0, 5, 9], stored := 2, width := 4, indices := [0, 1, 1, 0, 2, 1] }

theorem witness_LutOfFindsTheTable :
    lutOf [0, 5, 5, 0, 9, 5] = .ok lut3 ∧
    (0 ∈ [0, 2147483647] ∧ (∃ v ∈ [0, 2147483647], v ≠ 0) ∧ ([0, 2147483647].toFinset.erase 0).card ≤ 254 ∧
      ∀ v ∈ [0, 2147483647], v < 2147483648) ∧
    ¬ (0 ∈ [0, 2147483648] ∧ (∃ v ∈ [0, 2147483648], v ≠ 0) ∧ ([0, 2147483648].toFinset.erase 0).card ≤ 254 ∧
      ∀ v ∈ [0, 2147483648], v < 2147483648) :=
  ⟨eq_ok (by decide +kernel), by decide, by decide⟩

theorem witness_BsLutOutcome :
    (let s := bench 0x100 2 0 0 0 [(0x100, u32Bytes [0, 0])]
     WindowsPass .bsSizeLut s ∧ ∀ l, lutOf (u32Array s.mem s.a0 s.a1) ≠ .ok l) ∧
    (let s := bench 0x100 6 0 0 0 [(0x100, u32Bytes [0, 5, 5, 0, 9, 5])]
     WindowsPass .bsSizeLut s ∧ lutOf (u32Array s.mem s.a0 s.a1) = .ok lut3) ∧
    (let s := bench 0x100 2 0x200 64 0 [(0x100, u32Bytes [1, 2])]
     WindowsPass .bsEncLut s ∧ ∀ l, lutOf (u32Array s.mem s.a0 s.a1) ≠ .ok l) ∧
    (let s := bench 0x100 6 0x200 11 0 [(0x100, u32Bytes [0, 5, 5, 0, 9, 5])]
     WindowsPass .bsEncLut s ∧ lutOf (u32Array s.mem s.a0 s.a1) = .ok lut3) :=
  ⟨⟨by decide, ne_ok (by decide +kernel)⟩, ⟨by decide, eq_ok (by decide +kernel)⟩, ⟨by decide, ne_ok (by decide +kernel)⟩,
    by decide, eq_ok (by decide +kernel)⟩

/-- The block of 30_encoding R101 is a legal one. -/
theorem block6_legal : BlockOf block6 [1, 2, 3] := by
  refine ⟨2, 2, 1, by decide, by decide, by decide, .inl ⟨[0x00#8, 0x00#8, 0x00#8, 0x6C#8], by decide, by decide, rfl, ?_⟩⟩
  decide

/-- The LUT block of 30_encoding R102 is a legal one. -/
theorem block11_legal : BlockOf block11 [0, 5, 5, 0, 9, 5] := by
  refine ⟨4, 2, 1, by decide, by decide, by decide, .inr ⟨2, [0x00#8, 0x00#8, 0x00#8, 0x59#8], [0x00#8, 0x00#8, 0x90#8, 0x14#8], [5, 9],
    [0, 1, 1, 0, 2, 1], by decide, by decide, by decide, by decide, ⟨by decide, rfl, by decide⟩, ⟨by decide, rfl, by decide⟩, by decide,
    by decide⟩⟩

/-- Every legal block begins with a header whose width code is not the reserved one. -/
theorem BlockOf_head {bytes : List Byte} {vs : List Nat} (h : BlockOf bytes vs) : ∃ b t, bytes = b :: t ∧ b.toNat < 192 := by
  obtain ⟨b, nw, k, hb, hn, -, ⟨body, he, -⟩ | ⟨m, table, idx, d, r, -, -, -, he, -⟩⟩ := h <;>
    exact ⟨_, _, he, by simp only [BitVec.toNat_ofNat]; omega⟩

theorem witness_BsDecodeOutcome :
    (let s := bench 0x200 6 0x300 3 0 [(0x200, block6)]
     WindowsPass .bsDecode s ∧ s.mem.readBytes s.a0 s.a1 = block6 ++ [] ∧ BlockOf block6 [1, 2, 3] ∧ [1, 2, 3].length ≤ s.a3) ∧
    (let s := bench 0x200 12 0x300 6 0 [(0x200, block11)]
     WindowsPass .bsDecode s ∧ s.mem.readBytes s.a0 s.a1 = block11 ++ [0#8] ∧ BlockOf block11 [0, 5, 5, 0, 9, 5] ∧
       [0, 5, 5, 0, 9, 5].length ≤ s.a3) ∧
    (let s := bench 0x200 2 0x300 3 0 [(0x200, [0xC0#8, 0x00#8])]
     WindowsPass .bsDecode s ∧
       ¬ ∃ bytes tail vs, s.mem.readBytes s.a0 s.a1 = bytes ++ tail ∧ BlockOf bytes vs ∧ vs.length ≤ s.a3) ∧
    ¬ ∃ bytes tail vs, ([] : List Byte) = bytes ++ tail ∧ BlockOf bytes vs ∧ vs.length ≤ 3 := by
  refine ⟨⟨by decide, by decide +kernel, block6_legal, by decide⟩, ⟨by decide, by decide +kernel, block11_legal, by decide⟩,
    ⟨by decide, ?_⟩, ?_⟩
  · rintro ⟨bytes, tail, vs, he, hb, -⟩
    obtain ⟨b, t, rfl, hlt⟩ := BlockOf_head hb
    have hs : (bench 0x200 2 0x300 3 0 [(0x200, [0xC0#8, 0x00#8])]).mem.readBytes 0x200 2 = [0xC0#8, 0x00#8] := by decide +kernel
    have hc := (List.cons.inj (hs.symm.trans he)).1
    rw [← hc] at hlt
    exact absurd hlt (by decide)
  · rintro ⟨bytes, tail, vs, he, hb, -⟩
    obtain ⟨b, t, rfl, -⟩ := BlockOf_head hb
    cases he

theorem witness_BlockRoundTrip :
    [1, 2, 2147483647].length < 4294967296 ∧ (∀ v ∈ [1, 2, 2147483647], v < 2147483648) ∧ [1, 2, 2147483647].length ≤ 3 ∧
    1 < (simpleBlock [1, 2, 2147483647]).length ∧
    [0, 5, 5, 0, 9, 5].length < 4294967296 ∧ lutOf [0, 5, 5, 0, 9, 5] = .ok lut3 ∧ [0, 5, 5, 0, 9, 5].length ≤ 6 ∧
    10 < (lutBlock [0, 5, 5, 0, 9, 5] lut3).length :=
  ⟨by decide, by decide, by decide, by decide +kernel, by decide, eq_ok (by decide +kernel), by decide, by decide +kernel⟩

theorem witness_DecoderAcceptsAnyLegalWidth :
    (∀ k ∈ [1, 2, 4], (k = 1 ∨ k = 2 ∨ k = 4) ∧ [1, 2, 3].length < 256 ^ k) ∧ 31 ≤ 31 ∧ (∀ v ∈ [1, 2, 3], v < 2 ^ 31) ∧ [1, 2, 3].length ≤ 3 := by
  decide

/-- A histogram of 33 bins that grow like the Fibonacci numbers, the deepest tree that has codes (43_huffman R224). -/
def hist33 : List Nat :=
  [1, 1, 2, 3, 5, 8, 13, 21, 34, 55, 89, 144, 233, 377, 610, 987, 1597, 2584, 4181, 6765, 10946, 17711, 28657, 46368, 75025, 121393, 196418,
    317811, 514229, 832040, 1346269, 2178309, 3524578]

theorem witness_HufLengthsAreComplete :
    usedSymbols [0, 7, 0] < 2 ∧ hufLengths [5, 0, 2, 1, 1, 0] = .ok [1, 0, 2, 3, 3, 0] ∧
    2 ≤ usedSymbols [1, 0, 1] ∧ usedSymbols [1, 0, 1] ≤ 33 ∧ 2 ≤ usedSymbols hist33 ∧ usedSymbols hist33 = 33 :=
  ⟨by decide, eq_ok (by decide +kernel), by decide, by decide, by decide, by decide⟩

theorem witness_CanonicalCodesArePrefixFree :
    complete [1, 0, 2, 3, 3, 0] = true ∧ 4 < [1, 0, 2, 3, 3, 0].length ∧ 0 < [1, 0, 2, 3, 3, 0].getD 2 0 ∧
      [1, 0, 2, 3, 3, 0].getD 2 0 < [1, 0, 2, 3, 3, 0].getD 4 0 := by decide +kernel

theorem witness_HufComputeOutcome :
    (bench 0x100 0 0 0 0 []).a1 < 1 ∧ 32768 < (bench 0x100 32769 0 0 0 []).a1 ∧
    (let s := bench 0x100 1 0 0 0 [(0x100, u32Bytes [5])]
     1 ≤ s.a1 ∧ s.a1 ≤ 32768 ∧ WindowsPass .hufCompute s ∧ ∀ len, hufLengths (u32Array s.mem s.a0 s.a1) ≠ .ok len) ∧
    (let s := bench 0x100 6 0 0 0 [(0x100, u32Bytes [5, 0, 2, 1, 1, 0])]
     1 ≤ s.a1 ∧ s.a1 ≤ 32768 ∧ WindowsPass .hufCompute s ∧ hufLengths (u32Array s.mem s.a0 s.a1) = .ok [1, 0, 2, 3, 3, 0]) ∧
    (let s := bench 0x100 32768 0 0 0 []
     1 ≤ s.a1 ∧ s.a1 ≤ 32768 ∧ WindowsPass .hufCompute s) :=
  ⟨by decide, by decide, ⟨by decide, by decide, by decide, ne_ok (by decide +kernel)⟩,
    ⟨by decide, by decide, by decide, eq_ok (by decide +kernel)⟩, by decide⟩

theorem witness_HufRangeCoversTheCodes :
    1 ≤ usedSymbols [0, 1, 0] ∧ 1 ≤ usedSymbols table16.len ∧
    (0 < 2 ∧ 2 ≤ [1, 1].length ∧ [1, 1].getD 0 0 ≠ 0 ∧ [1, 1].getD (2 - 1) 0 ≠ 0 ∧ (∀ i, 2 ≤ i → [1, 1].getD i 0 = 0) ∧
      FirstLongestZeroRun [1, 1] 0 0 ∧ ¬ [1, 1].length - 0 < 2 - 0) ∧
    (0 < 4 ∧ 4 ≤ [1, 0, 0, 1].length ∧ [1, 0, 0, 1].getD 0 0 ≠ 0 ∧ [1, 0, 0, 1].getD (4 - 1) 0 ≠ 0 ∧
      (∀ i, 4 ≤ i → [1, 0, 0, 1].getD i 0 = 0) ∧ FirstLongestZeroRun [1, 0, 0, 1] 1 2 ∧ [1, 0, 0, 1].length - 2 < 4 - 0) := by
  refine ⟨by decide, by decide, ⟨by decide, by decide, by decide, by decide, ?_, ⟨by decide, by omega, ?_⟩, by decide⟩,
    by decide, by decide, by decide, by decide, ?_, ⟨by decide, ?_, ?_⟩, by decide⟩
  · intro i h; exact List.getD_eq_default _ _ h
  · intro j m hj hz
    simp only [List.length_cons, List.length_nil] at hj
    by_cases hm : m = 0
    · omega
    · have h2 : j < 2 := by omega
      have := hz j (by omega) (by omega)
      interval_cases j <;> simp at this
  · intro i h; exact List.getD_eq_default _ _ h
  · intro i h1 h2; interval_cases i <;> rfl
  · intro j m hj hz
    simp only [List.length_cons, List.length_nil] at hj
    by_cases h0 : j = 0
    · subst h0
      by_cases hm : m = 0
      · omega
      · have := hz 0 (by omega) (by omega)
        simp at this
    · by_cases h3 : j ≤ 3 ∧ 3 < j + m
      · have := hz 3 h3.1 h3.2
        simp at this
      · omega

theorem witness_HufWrTableAndSizeOutcome :
    (let s := bench 0 0 0x200 18 0 []
     WindowsPass .hufWrTable s ∧ s.ht.valid = false) ∧
    (let s := (bench 0 0 0x200 18 0 []).coded table6
     WindowsPass .hufWrTable s ∧ s.ht.valid = true ∧ (hufTableBytes s.ht).length ≤ s.a3) ∧
    (let s := bench 0x100 6 0 0 0 []
     WindowsPass .hufSize s ∧ s.ht.valid = false) ∧
    (let s := (bench 0x100 5 0 0 0 []).coded table6
     WindowsPass .hufSize s ∧ s.ht.valid = true ∧ s.a1 ≠ s.ht.size) ∧
    (let s := (bench 0x100 6 0 0 0 [(0x100, u32Bytes [5, 0, 2, 1, 1, 1])]).coded table6
     WindowsPass .hufSize s ∧ s.ht.valid = true ∧ s.a1 = s.ht.size ∧ s.ht.len.length = s.ht.size ∧
       (5 < s.ht.size ∧ 0 < (u32Array s.mem s.a0 s.a1).getD 5 0 ∧ s.ht.len.getD 5 0 = 0)) ∧
    (let s := (bench 0x100 6 0 0 0 [(0x100, u32Bytes [5, 0, 2, 1, 1, 0])]).coded table6
     WindowsPass .hufSize s ∧ s.ht.valid = true ∧ s.a1 = s.ht.size ∧ s.ht.len.length = s.ht.size ∧
       ∀ k, k < s.ht.size → 0 < (u32Array s.mem s.a0 s.a1).getD k 0 → s.ht.len.getD k 0 ≠ 0) := by decide +kernel

theorem witness_TableRoundTrip :
    table6.legal ∧ table16.legal ∧
    (let s := bench 0x200 18 0 0 0 [(0x200, tableBytes18)]
     WindowsPass .hufRdTable s ∧ s.mem.readBytes s.a0 s.a1 = hufTableBytes table6 ++ []) ∧
    (let s := bench 0x200 17 0 0 0 [(0x200, tableBytes18)]
     WindowsPass .hufRdTable s ∧ 17 < (hufTableBytes table6).length ∧ s.mem.readBytes s.a0 s.a1 = (hufTableBytes table6).take 17) := by
  decide +kernel

/-- The serialized table of 43_huffman R227 is a legal one. -/
theorem tableBytes18_legal : SerializedTable tableBytes18 [1, 0, 2, 3, 3, 0] := by
  refine ⟨0, 5, [0x82#8, 0x05#8, 0x00#8, 0x00#8, 0xC0#8, 0x4B#8], [1, 0, 2, 3, 3], by decide, by decide, by decide, by decide, by decide,
    by decide, ⟨2, 2, 1, by decide, by decide, by decide, .inl ⟨[0x00#8, 0x00#8, 0xC0#8, 0x4B#8], by decide, by decide, rfl, by decide⟩⟩,
    by decide, ?_, ?_, by decide, by decide, by decide⟩
  · intro i _ h; interval_cases i <;> rfl
  · intro k hk h
    have : ¬ k < 5 := fun h5 => h k (by omega) h5 (by simp [wrapIndex]; omega)
    have : k = 5 := by simp at hk; omega
    subst this; rfl

theorem SerializedTable_length {bytes : List Byte} {len : List Nat} (h : SerializedTable bytes len) : 12 ≤ bytes.length := by
  obtain ⟨i0, i1, block, lens, he, -⟩ := h
  simp [he]; omega

theorem witness_HufRdTableOutcome :
    (let s := bench 0x200 18 0 0 0 [(0x200, tableBytes18)]
     WindowsPass .hufRdTable s ∧ s.mem.readBytes s.a0 s.a1 = tableBytes18 ++ [] ∧ SerializedTable tableBytes18 [1, 0, 2, 3, 3, 0]) ∧
    (let s := bench 0x200 11 0 0 0 [(0x200, tableBytes18)]
     WindowsPass .hufRdTable s ∧
       ¬ ∃ bytes tail len, s.mem.readBytes s.a0 s.a1 = bytes ++ tail ∧ SerializedTable bytes len) := by
  refine ⟨⟨by decide, by decide +kernel, tableBytes18_legal⟩, by decide, ?_⟩
  rintro ⟨bytes, tail, len, he, ht⟩
  have hl := congrArg List.length he
  rw [Memory.readBytes_length, List.length_append] at hl
  have h1 : (bench 0x200 11 0 0 0 [(0x200, tableBytes18)]).a1 = 11 := rfl
  have := SerializedTable_length ht
  omega

theorem witness_HufBuildOutcome :
    (bench 0 0 0 0 0 []).ht.valid = false ∧ ((bench 0 0 0 0 0 []).coded table6).ht.legal ∧
      maxLen ((bench 0 0 0 0 0 []).coded table6).ht.len ≤ 12 ∧ ((bench 0 0 0 0 0 []).coded table14).ht.legal ∧
      12 < maxLen ((bench 0 0 0 0 0 []).coded table14).ht.len ∧ 0 < ((bench 0 0 0 0 0 []).coded table14).ht.size ∧
      12 < ((bench 0 0 0 0 0 []).coded table14).ht.len.getD 0 0 := by decide +kernel

theorem witness_DecodeLutHoldsTheShortCodes :
    table6.legal ∧ 7 < 2 ^ (buildDecoder table6).numBitsLUT ∧ table14.legal ∧ 0 < 2 ^ (buildDecoder table14).numBitsLUT := by
  decide +kernel

theorem witness_DecodeStepsAgree : table6.legal ∧ table14.legal := by decide +kernel

theorem witness_HufEncodeOutcome :
    (let s := bench 0x300 1 0x400 8 0 []
     WindowsPass .hufEncode s ∧ s.ht.valid = false) ∧
    (let s := (bench 0x300 1 0x400 8 0 [(0x300, u32Bytes [6])]).coded table6
     WindowsPass .hufEncode s ∧ s.ht.valid = true ∧ ∃ k ∈ u32Array s.mem s.a0 s.a1, s.ht.size ≤ k ∨ s.ht.len.getD k 0 = 0) ∧
    (let s := (bench 0x300 1 0x400 8 0 [(0x300, u32Bytes [4])]).coded table6
     WindowsPass .hufEncode s ∧ s.ht.valid = true ∧ ∀ k ∈ u32Array s.mem s.a0 s.a1, k < s.ht.size ∧ s.ht.len.getD k 0 ≠ 0) := by
  decide +kernel

/-- The message of 43_huffman R237. -/
def message9 : List Nat := [0, 2, 0, 3, 0, 4, 0, 2, 0]
/-- Its bit stream. -/
def stream9 : List Byte := [0x00#8, 0x00#8, 0x36#8, 0xB1#8, 0x00#8, 0x00#8, 0x00#8, 0x00#8]

theorem hufStreamBytes_ge (n : Nat) : 4 ≤ hufStreamBytes n := by unfold hufStreamBytes; omega

theorem witness_HufDecodeOutcome :
    (let s := (bench 0x400 8 0x500 9 0 [(0x400, stream9)]).coded table6
     WindowsPass .hufDecode s ∧ s.hd.valid = false) ∧
    (let s := (bench 0x400 8 0x500 9 0 [(0x400, stream9)]).built table6
     WindowsPass .hufDecode s ∧ s.ht.legal ∧ s.hd = buildDecoder s.ht ∧ message9.length = s.a3 ∧
       (∀ k ∈ message9, s.ht.hasCode k = true) ∧ codeString s.ht message9 <+: streamBits (s.mem.readBytes s.a0 s.a1) ∧
       hufStreamBytes (codeString s.ht message9).length ≤ s.a1 ∧ hufStreamBytes (s.a3 * maxLen s.ht.len) ≤ s.a1) ∧
    (let s := (bench 0x400 3 0x500 9 0 [(0x400, stream9)]).built table6
     WindowsPass .hufDecode s ∧ s.ht.legal ∧ s.hd = buildDecoder s.ht ∧
       ¬ ∃ syms : List Nat, syms.length = s.a3 ∧ (∀ k ∈ syms, s.ht.hasCode k = true) ∧
          codeString s.ht syms <+: streamBits (s.mem.readBytes s.a0 s.a1) ∧ hufStreamBytes (codeString s.ht syms).length ≤ s.a1) := by
  refine ⟨by decide +kernel, by decide +kernel, by decide +kernel, by decide +kernel, by decide +kernel, ?_⟩
  rintro ⟨syms, -, -, -, h⟩
  have h1 : ((bench 0x400 3 0x500 9 0 [(0x400, stream9)]).built table6).a1 = 3 := rfl
  have := hufStreamBytes_ge (codeString ((bench 0x400 3 0x500 9 0 [(0x400, stream9)]).built table6).ht syms).length
  omega

theorem witness_HuffmanRoundTrip :
    (let s := (bench 0x400 8 0x500 9 0 [(0x400, stream9)]).built table6
     s.ht.legal ∧ s.hd = buildDecoder s.ht ∧ message9.length = s.a3 ∧ (∀ k ∈ message9, s.ht.hasCode k = true) ∧
       Holds s s.a0 (hufStream s.ht message9) ∧ WindowsPass .hufDecode s ∧ (hufStream s.ht message9).length ≤ s.a1) ∧
    (let s := (bench 0x400 7 0x500 9 0 [(0x400, stream9)]).built table6
     s.ht.legal ∧ s.hd = buildDecoder s.ht ∧ message9.length = s.a3 ∧ (∀ k ∈ message9, s.ht.hasCode k = true) ∧
       Holds s s.a0 (hufStream s.ht message9) ∧ WindowsPass .hufDecode s ∧ s.a1 < (hufStream s.ht message9).length) := by
  unfold Holds
  decide +kernel

theorem witness_HufSizePredictsTheBytes :
    let s := (bench 0x100 6 0 0 0 [(0x100, u32Bytes [5, 0, 2, 1, 1, 0])]).coded table6
    s.ht.legal ∧ WindowsPass .hufSize s ∧ s.a1 = s.ht.size ∧ (∀ k ∈ message9, s.ht.hasCode k = true) ∧
      u32Array s.mem s.a0 s.a1 = histogramOf s.ht.size message9 ∧
      (hufTableBytes s.ht).length + (hufStream s.ht message9).length < 4294967296 := by decide +kernel

theorem witness_HufClearAndGetCodeOutcome :
    (bench 0 0 0 0 0 []).ht.valid = false ∧
    (let s := (bench 6 0 0 0 0 []).coded table6
     s.ht.valid = true ∧ s.ht.size ≤ s.a0) ∧
    (let s := (bench 5 0 0 0 0 []).coded table6
     s.ht.valid = true ∧ s.a0 < s.ht.size) := by decide

theorem witness_StepKeepsTheInvariant :
    let s := running .bmStore (((bench 0 0 0x80 2 0 []).masked 4 3 [0x50#8, 0x40#8]).built table6)
    s.Inv ∧ leads (step s) any = true := by decide +kernel

theorem witness_ConformingHostIsNeverStopped :
    (let s := hosted (bench 0 0 0 0 0 []) [.writeMem 0x7FFFF [1#8], .writeReg 0x3C 0#32, .readMem 0 0x80000, .rst true, .rst false, .wait, .skipUnlessOk 1]
     s.conforming ∧ leads (step s) any = true) ∧
    (let s := hosted (bench 0 0 0 0 0 []) [.writeMem 0x7FFFF [1#8, 2#8]]
     s.host = .writeMem 0x7FFFF [1#8, 2#8] :: [] ∧ s.params.memSize < 0x7FFFF + [1#8, 2#8].length) ∧
    (let s := hosted (bench 0 0 0 0 0 []) [.readMem 0x80000 1]
     s.host = .readMem 0x80000 1 :: [] ∧ s.params.memSize < 0x80000 + 1) := by decide +kernel

theorem witness_OwnershipBreachStaysInBounds :
    (let s := { running .rleSize (bench 0x100 8 0 0 0 []) with host := [.writeMem 0x107 [1#8, 2#8]] }
     s.host = .writeMem 0x107 [1#8, 2#8] :: [] ∧ 0x107 + [1#8, 2#8].length ≤ s.params.memSize ∧ s.busy = true ∧
       decode s.cmd = .ok .rleSize ∧ WindowsPass .rleSize s ∧ rwin 0x100 8 ∈ windows .rleSize s ∧ (rwin 0x100 8).covers 0x107 = true ∧
       0x107 ≤ 0x107 ∧ 0x107 < 0x107 + [1#8, 2#8].length) ∧
    (let s := { running .rleSize (bench 0x100 8 0 0 0 []) with raced := true }
     s.host = [] ∧ s.busy = true ∧ s.raced = true ∧ decode s.cmd = .ok .rleSize ∧ s.Inv) ∧
    (let s := { running .bsUnstuff (bench 0x200 3 0x300 3 2 []) with raced := true, host := [.wait] }
     s.host = .wait :: [] ∧ s.busy = true ∧ s.raced = true ∧ decode s.cmd = .ok .bsUnstuff ∧ s.Inv ∧
       leads (step s) (fun t => decide (t.err = .failed) && decide (t.mem = s.mem)) = true) ∧
    (let s := { running .rleDecompress (bench 0x200 8 0x300 8 0 []) with host := [.readMem 0x2FF 2] }
     s.host = .readMem 0x2FF 2 :: [] ∧ 0x2FF + 2 ≤ s.params.memSize ∧ decode s.cmd = .ok .rleDecompress ∧
       (∀ w ∈ windows .rleDecompress s, w.write = true → w.covers (0x2FF + 0) = false) ∧
       ∃ w ∈ windows .rleDecompress s, w.write = true ∧ w.covers (0x2FF + 1) = true) :=
  ⟨⟨rfl, by decide, rfl, rfl, by decide, by decide, by decide, by decide, by decide⟩, ⟨rfl, rfl, rfl, rfl, by decide +kernel⟩,
    by decide +kernel, by decide +kernel⟩

end Sys2Proof.Machine.Tests
end

/-! ## Rules about the state's operations -/

section
namespace Sys2Proof.Machine

/-! Buffer memory keeps within `MEM_SIZE` (20_memory R60). -/

theorem Memory.write_sound {m : Memory} {n a : Nat} (v : Byte) (h : m.sound n) (ha : a < n) : (m.write a v).sound n := by
  obtain ⟨hwf, hcells, hspans⟩ := h
  refine ⟨Memory.write_wf m a v hwf, fun c hc => ?_, fun q hq => ?_⟩
  · rcases mem_cellPut hc with ⟨rfl, -⟩ | ⟨hc, -⟩
    · exact ha
    · exact hcells c hc
  · obtain ⟨sp, hsp, -, hhi, -⟩ := mem_punchSpans hq
    exact hhi.trans (hspans sp hsp)

/-- Storing bytes that lie in buffer memory, or none at all, keeps it sound. -/
theorem Memory.writeBytes_sound {m : Memory} {n a : Nat} {bs : List Byte} (h : m.sound n)
    (hb : bs.length = 0 ∨ a + bs.length ≤ n) : (m.writeBytes a bs).sound n := by
  induction bs generalizing m a with
  | nil => exact h
  | cons v t ih =>
    rw [List.length_cons] at hb
    exact ih (Memory.write_sound v h (by omega)) (by omega)

theorem Memory.scramble_sound {m : Memory} {n a k : Nat} (tag : Nat) (h : m.sound n) (hk : k = 0 ∨ a + k ≤ n) :
    (m.scramble a k tag).sound n := by
  obtain ⟨hwf, hcells, hspans⟩ := h
  refine ⟨Memory.scramble_wf m a k tag hwf, ?_⟩
  unfold Memory.scramble
  split
  · exact ⟨hcells, hspans⟩
  · refine ⟨fun c hc => hcells c (List.mem_of_mem_filter hc), fun q hq => ?_⟩
    rcases mem_insertSpan.mp hq with rfl | hq
    · exact hk.resolve_left ‹_›
    · obtain ⟨sp, hsp, -, hhi, -⟩ := mem_punchSpans hq
      exact hhi.trans (hspans sp hsp)

/-- Leaving unspecified the write windows of a list of windows that lie in buffer memory keeps it sound. -/
theorem Memory.scrambleWrites_sound {m : Memory} {n : Nat} (tag : Nat) {ws : List Window} (h : m.sound n)
    (hw : ∀ w ∈ ws, w.inMem n = true) : (m.scrambleWrites tag ws).sound n := by
  induction ws generalizing m with
  | nil => exact h
  | cons w t ih =>
    rw [Memory.scrambleWrites]
    refine ih ?_ (fun v hv => hw v (by simp [hv]))
    split
    · exact Memory.scramble_sound tag h ((Window.inMem_iff n w).mp (hw w (by simp)))
    · exact h

theorem Window.inMem_cut {w : Window} {n : Nat} (k : Nat) (h : w.inMem n = true) : (w.cut k).inMem n = true := by
  rw [Window.inMem_iff] at h ⊢
  simp only [Window.cut]
  omega

theorem inMem_of_windowsOk {n : Nat} {ws : List Window} (h : windowsOk n ws = true) : ∀ w ∈ ws, w.inMem n = true :=
  ((windowsOk_iff n ws).mp h).1

/-! The windows the running command owns (20_memory R71). -/

@[simp] theorem ownedWindows_of_idle {s : State} (h : s.busy = false) : ownedWindows s = [] := by simp [ownedWindows, h]

/-- They lie in buffer memory. -/
theorem inMem_of_ownedWindows (s : State) : ∀ w ∈ ownedWindows s, w.inMem s.params.memSize = true := by
  unfold ownedWindows
  split
  · split
    · split
      · exact inMem_of_windowsOk ‹_›
      · simp
    · simp
  · simp

/-! The mask store within its limits (10_state R31). -/

theorem Mask.empty_sound (n : Nat) : Mask.empty.sound n := by
  simp [Mask.sound, Mask.empty, Mask.pixels, Mask.size, ceilDiv]

/-- The limits depend on the dimensions and the number of bytes alone. -/
theorem Mask.sound_of_bits {b : Mask} {n : Nat} {bits : List Byte} (h : b.sound n) (hl : bits.length = b.size) :
    Mask.sound { b with bits := bits } n := by
  obtain ⟨hc, hr, hp, -⟩ := h
  exact ⟨hc, hr, hp, hl⟩

theorem Mask.bits_length_of_sound {b : Mask} {n : Nat} (h : b.sound n) : b.bits.length = b.size := by
  obtain ⟨-, -, -, hl⟩ := h
  exact hl

theorem Mask.setBit_sound {b : Mask} {n : Nat} (k : Nat) (h : b.sound n) : (b.setBit k).sound n :=
  Mask.sound_of_bits h (by simpa using Mask.bits_length_of_sound h)

theorem Mask.clearBit_sound {b : Mask} {n : Nat} (k : Nat) (h : b.sound n) : (b.clearBit k).sound n :=
  Mask.sound_of_bits h (by simpa using Mask.bits_length_of_sound h)

theorem Mask.fill_sound {b : Mask} {n : Nat} (v : Byte) (h : b.sound n) : (b.fill v).sound n :=
  Mask.sound_of_bits h (by simp)

/-- A mask `MSK.DECODE` reads keeps the limits. -/
theorem readSegment_sound {b b' : Mask} {nv used n : Nat} {src : List Byte} (h : readSegment b nv src = .ok (b', used))
    (hb : b.sound n) : b'.sound n := by
  unfold readSegment at h
  split at h
  · cases h
  split at h
  · cases h
  split at h
  · split at h
    · cases h
    split at h <;> cases h <;> exact Mask.fill_sound _ hb
  split at h
  · cases h
  split at h
  · cases h
  split at h
  · cases h
  split at h
  · cases h
  split at h
  · cases h
  cases h
  exact Mask.sound_of_bits hb (by simp_all)

/-! Lengths of what the decoders produce. -/

@[simp] theorem chunks_length (n b : Nat) (bs : List Bool) : (chunks n b bs).length = n := by
  induction n generalizing bs with
  | zero => rfl
  | succ n ih => simp [chunks, ih]

@[simp] theorem unstuff_length (bytes : List Byte) (n b : Nat) : (unstuff bytes n b).length = n := chunks_length n b _

theorem decodeSimple_length {n b : Nat} {rc rc' : Cursor} {vs : List Nat} (h : decodeSimple n b rc = .ok (vs, rc')) :
    vs.length = n := by
  unfold decodeSimple at h
  split at h
  · cases h
  · cases h; simp

theorem decodeLut_length {n b : Nat} {rc rc' : Cursor} {vs : List Nat} (h : decodeLut n b rc = .ok (vs, rc')) :
    vs.length = n := by
  unfold decodeLut at h
  split at h
  · cases h
  split at h
  · cases h
  split at h
  · cases h
  split at h
  · cases h
  split at h
  · cases h
  rename_i hr
  split at h
  · cases h
  · cases h
    simpa using decodeSimple_length hr

/-- A block decodes to no more elements than the capacity. -/
theorem decodeBlock_length_le {cap : Nat} {rc rc' : Cursor} {vs : List Nat} (h : decodeBlock cap rc = .ok (vs, rc')) :
    vs.length ≤ cap := by
  unfold decodeBlock at h
  split at h
  · cases h
  split at h
  · cases h
  split at h
  · cases h
  split at h
  · cases h
  split at h
  · exact (decodeSimple_length h).trans_le (by omega)
  · exact (decodeLut_length h).trans_le (by omega)

/-- An RLE stream decodes to no more bytes than the capacity. -/
theorem rleDecode_length_le {fuel cap : Nat} {rc rc' : Cursor} {out : List Byte}
    (h : rleDecode fuel cap rc = .ok (out, rc')) : out.length ≤ cap := by
  induction fuel generalizing cap rc rc' out with
  | zero => cases h
  | succ fuel ih =>
    unfold rleDecode at h
    split at h
    · cases h
    split at h
    · cases h; simp
    split at h
    · split at h
      · cases h
      rename_i hlit
      split at h
      · cases h
      split at h
      · cases h
      rename_i hrest
      cases h
      have := (rdBytes_eq_ok.mp hlit).2.1
      have := ih hrest
      rw [List.length_append]
      omega
    split at h
    · split at h
      · cases h
      split at h
      · cases h
      split at h
      · cases h
      rename_i hrest
      cases h
      have := ih hrest
      rw [List.length_append, List.length_replicate]
      omega
    · cases h

theorem decodeSymbols_length {d : HufDecoder} {budget n pos last : Nat} {bs : List Bool} {ks : List Nat}
    (h : decodeSymbols d budget n pos bs = .ok (ks, last)) : ks.length = n := by
  induction n generalizing pos bs ks last with
  | zero => cases h; rfl
  | succ n ih =>
    unfold decodeSymbols at h
    split at h
    · cases h
    split at h
    · cases h
    · rename_i hrest
      cases h
      simpa using ih hrest

end Sys2Proof.Machine
end

/-! ## Facts about the Huffman unit's algorithms -/

section
namespace Sys2Proof.Machine

/-! The longest code length (10_state R36). -/

theorem foldl_max_le_iff {vs : List Nat} {a n : Nat} : vs.foldl max a ≤ n ↔ a ≤ n ∧ ∀ v ∈ vs, v ≤ n := by
  induction vs generalizing a with
  | nil => simp
  | cons v t ih => simp [ih, and_assoc]

theorem maxLen_le_iff {len : List Nat} {n : Nat} : maxLen len ≤ n ↔ ∀ l ∈ len, l ≤ n := by
  simp [maxLen, foldl_max_le_iff]

theorem le_maxLen {len : List Nat} {l : Nat} (h : l ∈ len) : l ≤ maxLen len := maxLen_le_iff.mp le_rfl l h

@[simp] theorem maxLen_nil : maxLen [] = 0 := rfl

/-! Complete lengths (10_state R36). -/

/-- Each symbol in use adds at most `2^(L-1)` to the sum. -/
theorem kraftSum_le (bigL : Nat) (len : List Nat) : kraftSum bigL len ≤ usedSymbols len * 2 ^ (bigL - 1) := by
  induction len with
  | nil => simp [kraftSum]
  | cons l t ih =>
    simp only [kraftSum, usedSymbols, List.map_cons, List.sum_cons] at ih ⊢
    by_cases hl : l = 0
    · simpa [hl] using ih
    · have hp : 2 ^ (bigL - l) ≤ 2 ^ (bigL - 1) := Nat.pow_le_pow_right (by omega) (by omega)
      simp only [hl, if_false, Nat.pos_of_ne_zero hl, decide_true, List.filter_cons_of_pos, List.length_cons, Nat.succ_mul]
      omega

theorem two_le_usedSymbols {len : List Nat} (h : complete len = true) : 2 ≤ usedSymbols len := by
  obtain ⟨hL, hk⟩ : 1 ≤ maxLen len ∧ kraftSum (maxLen len) len = 2 ^ maxLen len := by simpa [complete] using h
  have hle := kraftSum_le (maxLen len) len
  rw [hk, show maxLen len = maxLen len - 1 + 1 by omega, Nat.pow_succ', Nat.add_sub_cancel] at hle
  exact Nat.le_of_mul_le_mul_right hle (by positivity)

/-- The table of complete lengths within the limits is legal. -/
theorem tableOf_legal {len : List Nat} (hs : len.length ≤ Config.hufMaxBins) (hm : maxLen len ≤ Config.hufMaxLen)
    (hc : complete len = true) : (tableOf len).legal := by
  have hu := two_le_usedSymbols hc
  have hlen : usedSymbols len ≤ len.length := List.length_filter_le _ _
  exact ⟨rfl, by simp only [tableOf]; omega, hs, rfl, hu, hm, hc, rfl⟩

/-! The tree of the construction (43_huffman R221): its symbols and its Kraft sum. -/

/-- The symbols of a tree, from left to right. -/
def HTree.symbols : HTree → List Nat
  | .leaf k => [k]
  | .node a b => a.symbols ++ b.symbols

/-- The symbols of a pool's trees. -/
def poolSymbols (pool : List PoolNode) : List Nat := pool.flatMap (fun x => x.tree.symbols)

@[simp] theorem poolSymbols_cons (x : PoolNode) (t : List PoolNode) :
    poolSymbols (x :: t) = x.tree.symbols ++ poolSymbols t := rfl

theorem HTree.map_fst_depths (t : HTree) (d : Nat) : (t.depths d).map Prod.fst = t.symbols := by
  induction t generalizing d with
  | leaf k => rfl
  | node a b iha ihb => simp [HTree.depths, HTree.symbols, iha, ihb]

theorem HTree.le_of_mem_depths {t : HTree} {d : Nat} {p : Nat × Nat} (h : p ∈ t.depths d) : d ≤ p.2 := by
  induction t generalizing d with
  | leaf k => simp_all [HTree.depths]
  | node a b iha ihb =>
    rcases List.mem_append.mp h with h | h
    · exact (Nat.le_succ d).trans (iha h)
    · exact (Nat.le_succ d).trans (ihb h)

theorem HTree.depths_ne_nil (t : HTree) (d : Nat) : t.depths d ≠ [] := by
  induction t generalizing d with
  | leaf k => simp [HTree.depths]
  | node a b iha _ => simp [HTree.depths, iha]

/-- The Kraft equality of a binary tree: its leaves fill the subtree below depth `d`. -/
theorem HTree.kraft (t : HTree) {d bigL : Nat} (h : ∀ p ∈ t.depths d, p.2 ≤ bigL) :
    ((t.depths d).map (fun p => 2 ^ (bigL - p.2))).sum = 2 ^ (bigL - d) := by
  induction t generalizing d with
  | leaf k => simp [HTree.depths]
  | node a b iha ihb =>
    obtain ⟨ha, hb⟩ := List.forall_mem_append.mp h
    obtain ⟨p, hp⟩ := List.exists_mem_of_ne_nil _ (a.depths_ne_nil (d + 1))
    have hd : d + 1 ≤ bigL := (HTree.le_of_mem_depths hp).trans (ha p hp)
    rw [HTree.depths, List.map_append, List.sum_append, iha ha, ihb hb,
      show bigL - d = bigL - (d + 1) + 1 by omega, Nat.pow_succ]
    omega

theorem HTree.symbols_length_pos (t : HTree) : 0 < t.symbols.length := by
  induction t with
  | leaf k => simp [HTree.symbols]
  | node a b iha _ => simp only [HTree.symbols, List.length_append]; omega

theorem length_le_poolSymbols (pool : List PoolNode) : pool.length ≤ (poolSymbols pool).length := by
  induction pool with
  | nil => simp
  | cons x t ih =>
    have := x.tree.symbols_length_pos
    simp only [poolSymbols_cons, List.length_append, List.length_cons]
    omega

/-- A tree of two symbols or more has no leaf at its root. -/
theorem HTree.depths_pos {t : HTree} (h : 2 ≤ t.symbols.length) : ∀ p ∈ t.depths 0, 1 ≤ p.2 := by
  cases t with
  | leaf k => simp [HTree.symbols] at h
  | node a b =>
    intro p hp
    rcases List.mem_append.mp hp with hp | hp <;> exact HTree.le_of_mem_depths hp

theorem poolInsert_perm (x : PoolNode) (pool : List PoolNode) : (poolInsert x pool).Perm (x :: pool) := by
  induction pool with
  | nil => rfl
  | cons y t ih =>
    unfold poolInsert
    split
    · rfl
    · exact (ih.cons y).trans (.swap x y t)

theorem poolSymbols_poolInsert (x : PoolNode) (pool : List PoolNode) :
    (poolSymbols (poolInsert x pool)).Perm (x.tree.symbols ++ poolSymbols pool) :=
  (poolInsert_perm x pool).flatMap_right _

/-- The merges keep the symbols of the pool. -/
theorem mergePool_symbols {fuel key : Nat} {pool : List PoolNode} {root : HTree} (h : mergePool fuel key pool = some root) :
    root.symbols.Perm (poolSymbols pool) := by
  induction fuel generalizing key pool with
  | zero =>
    match pool, h with
    | [x], h => cases h; simp [poolSymbols]
  | succ fuel ih =>
    match pool, h with
    | [x], h => cases h; simp [poolSymbols]
    | x :: y :: t, h =>
      refine (ih h).trans ((poolSymbols_poolInsert _ t).trans ?_)
      simp [HTree.symbols]

/-- The pool of a histogram holds symbols of its bins, each at most once. -/
theorem poolSymbols_poolOf (k : Nat) (hist : List Nat) :
    (poolSymbols (poolOf k hist)).Subperm (List.range' k hist.length) := by
  induction hist generalizing k with
  | nil => exact List.Subperm.refl _
  | cons w t ih =>
    rw [List.length_cons, List.range'_succ]
    unfold poolOf
    split
    · exact (ih (k + 1)).trans (List.sublist_cons_self _ _).subperm
    · exact (poolSymbols_poolInsert _ _).subperm.trans ((List.subperm_cons k).mpr (ih (k + 1)))

/-! Lengths by symbol: the list the construction answers. -/

theorem assocD_of_not_mem {k : Nat} {ds : List (Nat × Nat)} (h : k ∉ ds.map Prod.fst) : assocD k ds = 0 := by
  induction ds with
  | nil => rfl
  | cons p t ih =>
    obtain ⟨hne, ht⟩ : ¬ k = p.1 ∧ k ∉ t.map Prod.fst := by simpa using h
    rw [assocD, if_neg (Ne.symm hne), ih ht]

theorem assocD_of_mem {p : Nat × Nat} {ds : List (Nat × Nat)} (hn : (ds.map Prod.fst).Nodup) (h : p ∈ ds) :
    assocD p.1 ds = p.2 := by
  induction ds with
  | nil => cases h
  | cons q t ih =>
    obtain ⟨hq, ht⟩ := List.nodup_cons.mp hn
    rcases List.mem_cons.mp h with rfl | h
    · simp [assocD]
    · have hne : q.1 ≠ p.1 := fun e => hq (e ▸ List.mem_map_of_mem h)
      rw [assocD, if_neg hne, ih ht h]

theorem assocD_eq_zero_or_mem (k : Nat) (ds : List (Nat × Nat)) : assocD k ds = 0 ∨ (k, assocD k ds) ∈ ds := by
  induction ds with
  | nil => exact .inl rfl
  | cons p t ih =>
    obtain ⟨j, v⟩ := p
    by_cases h : j = k
    · simp [assocD, h]
    · simp only [assocD, h, if_false, List.mem_cons]
      exact ih.imp id .inr

/-- A sum over the symbols below `n` is a sum over the pairs, for distinct symbols. -/
theorem sum_assocD (g : Nat → Nat) (hg : g 0 = 0) (n : Nat) {ds : List (Nat × Nat)} (hn : (ds.map Prod.fst).Nodup)
    (hlt : ∀ p ∈ ds, p.1 < n) : ∑ k ∈ Finset.range n, g (assocD k ds) = (ds.map (fun p => g p.2)).sum := by
  induction ds with
  | nil => simp [assocD, hg]
  | cons p t ih =>
    obtain ⟨hp, ht⟩ := List.nodup_cons.mp hn
    have hsplit : ∀ k, g (assocD k (p :: t)) = (if p.1 = k then g p.2 else 0) + g (assocD k t) := by
      intro k
      by_cases hk : p.1 = k
      · simp [assocD, hk, assocD_of_not_mem (hk ▸ hp), hg]
      · simp [assocD, hk]
    simp only [hsplit, Finset.sum_add_distrib, ih ht (fun q hq => hlt q (by simp [hq])), List.map_cons, List.sum_cons]
    simp [hlt p (by simp)]

/-- The depths of the leaves of a tree with two distinct symbols or more below `n` are complete lengths. -/
theorem complete_of_depths {t : HTree} {n : Nat} (h2 : 2 ≤ t.symbols.length) (hn : t.symbols.Nodup)
    (hlt : ∀ k ∈ t.symbols, k < n) : complete ((List.range n).map (fun k => assocD k (t.depths 0))) = true := by
  set len := (List.range n).map (fun k => assocD k (t.depths 0)) with hlen
  have hnd : ((t.depths 0).map Prod.fst).Nodup := by rwa [t.map_fst_depths]
  have hkey : ∀ p ∈ t.depths 0, p.1 < n := fun p hp =>
    hlt _ (t.map_fst_depths 0 ▸ List.mem_map_of_mem hp)
  have hle : ∀ p ∈ t.depths 0, p.2 ≤ maxLen len := fun p hp =>
    le_maxLen (List.mem_map.mpr ⟨p.1, List.mem_range.mpr (hkey p hp), assocD_of_mem hnd hp⟩)
  have hpos := HTree.depths_pos h2
  have hL : 1 ≤ maxLen len := by
    obtain ⟨p, hp⟩ := List.exists_mem_of_ne_nil _ (t.depths_ne_nil 0)
    exact (hpos p hp).trans (hle p hp)
  have hkraft : kraftSum (maxLen len) len = 2 ^ maxLen len := by
    calc kraftSum (maxLen len) len
        = ∑ k ∈ Finset.range n, (fun l => if l = 0 then 0 else 2 ^ (maxLen len - l)) (assocD k (t.depths 0)) := by
          rw [kraftSum, hlen, List.map_map, ← List.sum_toFinset _ List.nodup_range, List.toFinset_range]; rfl
      _ = ((t.depths 0).map (fun p => if p.2 = 0 then 0 else 2 ^ (maxLen len - p.2))).sum :=
          sum_assocD (fun l => if l = 0 then 0 else 2 ^ (maxLen len - l)) rfl n hnd hkey
      _ = ((t.depths 0).map (fun p => 2 ^ (maxLen len - p.2))).sum := by
          congr 1
          exact List.map_congr_left fun p hp => if_neg (by have := hpos p hp; omega)
      _ = 2 ^ maxLen len := t.kraft hle
  simp [complete, hL, hkraft]

/-- The lengths of a histogram make a legal table (43_huffman R221). -/
theorem hufLengths_legal {hist len : List Nat} (hs : hist.length ≤ Config.hufMaxBins) (h : hufLengths hist = .ok len) :
    (tableOf len).legal := by
  simp only [hufLengths] at h
  split at h
  · cases h
  rename_i hpool
  split at h
  · cases h
  rename_i root hroot
  split at h
  · cases h
  rename_i hmax
  cases h
  have hperm := mergePool_symbols hroot
  have hsub := hperm.subperm.trans (poolSymbols_poolOf 0 hist)
  rw [← List.range_eq_range'] at hsub
  have h2 : 2 ≤ root.symbols.length := by
    have := length_le_poolSymbols (poolOf 0 hist)
    rw [hperm.length_eq]
    omega
  have hnd : root.symbols.Nodup := by
    obtain ⟨l, hl, hrange⟩ := hsub
    exact hl.nodup (hrange.nodup List.nodup_range)
  have hc := complete_of_depths h2 hnd (fun k hk => List.mem_range.mp (hsub.subset hk))
  refine tableOf_legal (by simpa using hs) (maxLen_le_iff.mpr fun l hl => ?_) hc
  obtain ⟨k, -, rfl⟩ := List.mem_map.mp hl
  rcases assocD_eq_zero_or_mem k (root.depths 0) with h0 | hm
  · simp [h0]
  · simp only [List.any_eq_true, decide_eq_true_eq, not_exists, not_and, not_lt] at hmax
    exact hmax _ hm

/-! The serialized table (43_huffman R228). -/

@[simp] theorem spreadLengths_length (size i0 i1 : Nat) (lens : List Nat) : (spreadLengths size i0 i1 lens).length = size := by
  simp [spreadLengths]

/-- Every length of the table is 0 or one of the range. -/
theorem spreadLengths_le {size i0 i1 n : Nat} {lens : List Nat} (h : ∀ l ∈ lens, l ≤ n) :
    ∀ l ∈ spreadLengths size i0 i1 lens, l ≤ n := by
  have hget : ∀ j, lens.getD j 0 ≤ n := by
    intro j
    by_cases hj : j < lens.length
    · rw [List.getD_eq_getElem _ _ hj]
      exact h _ (List.getElem_mem hj)
    · rw [List.getD_eq_default _ _ (not_lt.mp hj)]
      exact n.zero_le
  intro l hl
  obtain ⟨k, -, rfl⟩ := List.mem_map.mp hl
  split
  · exact hget _
  split
  · exact hget _
  · exact n.zero_le

/-- A table `HUF.RDTABLE` reads is legal. -/
theorem readTable_legal {src : List Byte} {t : HufTable} {used : Nat} (h : readTable src = .ok (t, used)) : t.legal := by
  unfold readTable at h
  split at h
  · cases h
  split at h
  · cases h
  split at h
  · cases h
  split at h
  · cases h
  rename_i hsize
  split at h
  · cases h
  split at h
  · cases h
  split at h
  · cases h
  split at h
  · cases h
  rename_i hmax
  split at h
  · cases h
  rename_i hcomplete
  cases h
  refine tableOf_legal ?_ (maxLen_le_iff.mpr (spreadLengths_le ?_)) (by simpa using hcomplete)
  · rw [spreadLengths_length]; omega
  · simpa using hmax

/-! Tables and decoder structures in a sound state (10_state R36, R39). -/

theorem HufTable.legal_of_sound {t : HufTable} (h : t.sound) (hv : t.valid = true) : t.legal := by
  rcases h with h | rfl
  · exact h
  · cases hv

theorem HufTable.eq_cleared_of_sound {t : HufTable} (h : t.sound) (hv : t.valid = false) : t = HufTable.cleared :=
  h.resolve_left fun hl => by simp [hl.1] at hv

theorem HufDecoder.eq_buildDecoder_of_sound {d : HufDecoder} {t : HufTable} (h : d.sound t) (hv : d.valid = true) :
    t.valid = true ∧ d = buildDecoder t := by
  rcases h with h | rfl
  · exact h
  · cases hv

theorem HufDecoder.eq_cleared_of_sound {d : HufDecoder} {t : HufTable} (h : d.sound t) (hv : d.valid = false) :
    d = HufDecoder.cleared := by
  rcases h with ⟨-, rfl⟩ | h
  · cases hv
  · exact h

theorem HufTable.legal.maxLen_bounds {t : HufTable} (h : t.legal) : 1 ≤ maxLen t.len ∧ maxLen t.len ≤ 32 := by
  obtain ⟨-, -, -, -, -, hm, hc, -⟩ := h
  simp only [complete, Bool.and_eq_true, decide_eq_true_eq] at hc
  exact ⟨hc.1, hm⟩

/-- A long code has at most all bits but one leading and zero (43_huffman R233). -/
theorem longCodeZeros_lt {ps : List (Nat × Nat)} {n : Nat} (h : ∀ p ∈ ps, p.1 ≤ n) : ∀ z ∈ longCodeZeros ps, z < n := by
  induction ps with
  | nil => simp [longCodeZeros]
  | cons p t ih =>
    obtain ⟨hp, ht⟩ := List.forall_mem_cons.mp h
    unfold longCodeZeros
    split
    · refine List.forall_mem_cons.mpr ⟨?_, ih ht⟩
      simp only [Config.hufLutBits] at *
      omega
    · exact ih ht

theorem skipOfTable_lt {t : HufTable} (h : 1 ≤ maxLen t.len) : skipOfTable t < maxLen t.len := by
  unfold skipOfTable
  cases hz : (longCodeZeros (t.len.zip t.code)).min? with
  | none => exact h
  | some z =>
    exact longCodeZeros_lt (fun p hp => le_maxLen (List.of_mem_zip hp).1) z (List.min?_mem hz)

end Sys2Proof.Machine
end

/-! ## What a command can do -/

section
namespace Sys2Proof.Machine

/-- What a command has done to the state by its end, before `State.finish`, with the commands that can do it (10_state R34, R39;
60_exceptions R287 to R289). -/
inductive CommandEffect (i : Instr) (s : State) : State → Prop where
  | nothing : CommandEffect i s s
  | output (out : List Byte) (n : Nat) (hw : wwin s.a2 n ∈ windows i s) (hn : out.length ≤ n) :
      CommandEffect i s (s.store s.a2 out)
  | freeOutput (hi : writesBeforeFailing i = true) : CommandEffect i s (scrambleOutput i s)
  | mask (b : Mask) (hi : i ∈ [Instr.bmSetSize, .bmSetValid, .bmSetInvalid, .bmSetAllValid, .bmSetAllInvalid, .bmLoad, .mskDecode])
      (hb : s.bm.sound s.params.maskMaxPixels → b.sound s.params.maskMaxPixels) : CommandEffect i s { s with bm := b }
  | freeMask (hi : i = .mskDecode) : CommandEffect i s (scrambleMask s)
  | table (t : HufTable) (hi : i ∈ [Instr.hufCompute, .hufRdTable]) (ht : t.legal) : CommandEffect i s (s.setTable t)
  | cleared (hi : i ∈ [Instr.hufCompute, .hufRdTable, .hufClear]) : CommandEffect i s s.clearHuf
  | built (hi : i = .hufBuild) (hv : s.ht.valid = true) : CommandEffect i s { s with hd := buildDecoder s.ht }
  | stores (hi : i = .sysReset) : CommandEffect i s { s.clearHuf with bm := Mask.empty }

/-- How a command ends: `WrongParam` with nothing touched, or its window tests pass and it ends with a code after one of its
effects. -/
def CommandEnds (i : Instr) (s t : State) : Prop :=
  t = s.finish .wrongParam 0 0 ∨
  (WindowsPass i s ∧ ∃ (u : State) (code : StatusCode) (r0 r1 : Nat),
    CommandEffect i s u ∧ code ≠ .nan ∧ t = u.finish code r0 r1)

/-- A command ends so if its body does when it answers, and its end in `Failed`. -/
theorem perform_ends {i : Instr} {s t : State} {onFailed : State → State} {body : Unit → Body}
    (h : perform i s onFailed body = .next t) (hfail : CommandEffect i s (onFailed s))
    (hok : ∀ u r0 r1, body () = .ok (u, r0, r1) → CommandEffect i s u) : CommandEnds i s t := by
  refine (perform_cases h).imp_right fun ⟨hw, hend⟩ => ⟨hw, ?_⟩
  rcases hend with ⟨u, r0, r1, hb, ht⟩ | ⟨-, ht⟩ | ⟨need, -, ht⟩ | ⟨-, ht⟩
  · exact ⟨u, .ok, r0, r1, hok u r0 r1 hb, by decide, ht⟩
  · exact ⟨onFailed s, .failed, 0, 0, hfail, by decide, ht⟩
  · exact ⟨s, .bufferTooSmall, need, 0, .nothing, by decide, ht⟩
  · exact ⟨s, .illegalCommand, 0, 0, .nothing, by decide, ht⟩

/-- The end of an encoder is a store into its write window. -/
theorem storeOutput_effect {i : Instr} {s u : State} {out : List Byte} {r r0 r1 : Nat}
    (h : storeOutput s out r = .ok (u, r0, r1)) (hw : wwin s.a2 s.a3 ∈ windows i s) : CommandEffect i s u := by
  by_cases hlt : s.a3 < out.length
  · rw [storeOutput_of_lt r hlt] at h; cases h
  · rw [storeOutput_of_le r (not_lt.mp hlt)] at h
    cases h
    exact .output out s.a3 hw (not_lt.mp hlt)

/-- A store of elements that fit a capacity of `a3` elements is one into the write window of `4 * a3` bytes. -/
theorem storeElements_effect {i : Instr} {s : State} {vs : List Nat} (hvs : vs.length ≤ s.a3)
    (hw : wwin s.a2 (4 * s.a3) ∈ windows i s) : CommandEffect i s (s.store s.a2 (u32Bytes vs)) :=
  .output _ _ hw (by rw [u32Bytes_length]; omega)

/-! SYS. -/

theorem execSysNop_ends {s t : State} (h : execSysNop s = .next t) : CommandEnds .sysNop s t :=
  perform_ends h .nothing fun _ _ _ hb => by cases hb; exact .nothing

theorem execSysReset_ends {s t : State} (h : execSysReset s = .next t) : CommandEnds .sysReset s t :=
  perform_ends h .nothing fun _ _ _ hb => by cases hb; exact .stores rfl

/-! BM. -/

theorem execBmSetSize_ends {s t : State} (h : execBmSetSize s = .next t) : CommandEnds .bmSetSize s t := by
  refine perform_ends h .nothing fun u r0 r1 hb => ?_
  split at hb
  · cases hb
  rename_i hdim
  split at hb
  · cases hb
  rename_i hpixels
  cases hb
  refine .mask _ (by simp) fun _ => ⟨?_, ?_, not_lt.mp hpixels, by simp [Mask.size]⟩
  · simp only; omega
  · simp only; omega

theorem execBmIsValid_ends {s t : State} (h : execBmIsValid s = .next t) : CommandEnds .bmIsValid s t := by
  refine perform_ends h .nothing fun u r0 r1 hb => ?_
  split at hb <;> cases hb
  exact .nothing

theorem execBmSetValid_ends {s t : State} (h : execBmSetValid s = .next t) : CommandEnds .bmSetValid s t := by
  refine perform_ends h .nothing fun u r0 r1 hb => ?_
  split at hb <;> cases hb
  exact .mask _ (by simp) (Mask.setBit_sound _)

theorem execBmSetInvalid_ends {s t : State} (h : execBmSetInvalid s = .next t) : CommandEnds .bmSetInvalid s t := by
  refine perform_ends h .nothing fun u r0 r1 hb => ?_
  split at hb <;> cases hb
  exact .mask _ (by simp) (Mask.clearBit_sound _)

theorem execBmSetAllValid_ends {s t : State} (h : execBmSetAllValid s = .next t) : CommandEnds .bmSetAllValid s t :=
  perform_ends h .nothing fun _ _ _ hb => by cases hb; exact .mask _ (by simp) (Mask.fill_sound _)

theorem execBmSetAllInvalid_ends {s t : State} (h : execBmSetAllInvalid s = .next t) : CommandEnds .bmSetAllInvalid s t :=
  perform_ends h .nothing fun _ _ _ hb => by cases hb; exact .mask _ (by simp) (Mask.fill_sound _)

theorem execBmCount_ends {s t : State} (h : execBmCount s = .next t) : CommandEnds .bmCount s t :=
  perform_ends h .nothing fun _ _ _ hb => by cases hb; exact .nothing

theorem execBmLoad_ends {s t : State} (h : execBmLoad s = .next t) : CommandEnds .bmLoad s t :=
  perform_ends h .nothing fun _ _ _ hb => by
    cases hb; exact .mask _ (by simp) fun hs => Mask.sound_of_bits hs (Memory.readBytes_length _ _ _)

theorem execBmStore_ends {s t : State} (h : execBmStore s = .next t) : CommandEnds .bmStore s t := by
  refine perform_ends h .nothing fun u r0 r1 hb => ?_
  split at hb
  · cases hb
  · cases hb
    exact .output _ s.a3 (by simp [windows]) (by rw [List.length_take]; omega)

/-! RLE and MSK. -/

theorem execRleSize_ends {s t : State} (h : execRleSize s = .next t) : CommandEnds .rleSize s t :=
  perform_ends h .nothing fun _ _ _ hb => by cases hb; exact .nothing

theorem execRleCompress_ends {s t : State} (h : execRleCompress s = .next t) : CommandEnds .rleCompress s t :=
  perform_ends h .nothing fun _ _ _ hb => storeOutput_effect hb (by simp [windows])

theorem execRleDecompress_ends {s t : State} (h : execRleDecompress s = .next t) : CommandEnds .rleDecompress s t := by
  refine perform_ends h (.freeOutput rfl) fun u r0 r1 hb => ?_
  split at hb
  · cases hb
  · rename_i hout
    cases hb
    exact .output _ s.a3 (by simp [windows]) (rleDecode_length_le hout)

theorem execMskEncode_ends {s t : State} (h : execMskEncode s = .next t) : CommandEnds .mskEncode s t :=
  perform_ends h .nothing fun _ _ _ hb => storeOutput_effect hb (by simp [windows])

theorem execMskDecode_ends {s t : State} (h : execMskDecode s = .next t) : CommandEnds .mskDecode s t := by
  refine perform_ends h (.freeMask rfl) fun u r0 r1 hb => ?_
  split at hb
  · cases hb
  split at hb
  · cases hb
  · rename_i hseg
    cases hb
    exact .mask _ (by simp) (readSegment_sound hseg)

/-! BS. -/

theorem execBsStuff_ends {s t : State} (h : execBsStuff s = .next t) : CommandEnds .bsStuff s t := by
  refine perform_ends h .nothing fun u r0 r1 hb => ?_
  split at hb
  · cases hb
  split at hb
  · cases hb
  · exact storeOutput_effect hb (by simp [windows])

theorem execBsUnstuff_ends {s t : State} (h : execBsUnstuff s = .next t) : CommandEnds .bsUnstuff s t := by
  refine perform_ends h .nothing fun u r0 r1 hb => ?_
  split at hb
  · cases hb
  split at hb
  · cases hb
  · cases hb
    exact storeElements_effect (by simp) (by simp [windows])

theorem execBsSizeSimple_ends {s t : State} (h : execBsSizeSimple s = .next t) : CommandEnds .bsSizeSimple s t := by
  refine perform_ends h .nothing fun u r0 r1 hb => ?_
  split at hb
  · cases hb
  split at hb <;> cases hb
  exact .nothing

theorem execBsSizeLut_ends {s t : State} (h : execBsSizeLut s = .next t) : CommandEnds .bsSizeLut s t := by
  refine perform_ends h .nothing fun u r0 r1 hb => ?_
  split at hb <;> cases hb
  exact .nothing

theorem execBsEncSimple_ends {s t : State} (h : execBsEncSimple s = .next t) : CommandEnds .bsEncSimple s t := by
  refine perform_ends h .nothing fun u r0 r1 hb => ?_
  split at hb
  · cases hb
  · exact storeOutput_effect hb (by simp [windows])

theorem execBsEncLut_ends {s t : State} (h : execBsEncLut s = .next t) : CommandEnds .bsEncLut s t := by
  refine perform_ends h .nothing fun u r0 r1 hb => ?_
  split at hb
  · cases hb
  · exact storeOutput_effect hb (by simp [windows])

theorem execBsDecode_ends {s t : State} (h : execBsDecode s = .next t) : CommandEnds .bsDecode s t := by
  refine perform_ends h (.freeOutput rfl) fun u r0 r1 hb => ?_
  split at hb
  · cases hb
  · rename_i hblock
    cases hb
    exact storeElements_effect (decodeBlock_length_le hblock) (by simp [windows])

/-! HUF. -/

theorem execHufCompute_ends {s t : State} (h : execHufCompute s = .next t) : CommandEnds .hufCompute s t := by
  refine perform_ends h (.cleared (by simp)) fun u r0 r1 hb => ?_
  split at hb
  · cases hb
  rename_i hsize
  split at hb
  · cases hb
  · rename_i hlen
    cases hb
    refine .table _ (by simp) (hufLengths_legal ?_ hlen)
    rw [sourceArray, u32Array_length]
    omega

theorem execHufSize_ends {s t : State} (h : execHufSize s = .next t) : CommandEnds .hufSize s t := by
  refine perform_ends h .nothing fun u r0 r1 hb => ?_
  split at hb
  · cases hb
  split at hb
  · cases hb
  split at hb
  · cases hb
  split at hb <;> cases hb
  exact .nothing

theorem execHufWrTable_ends {s t : State} (h : execHufWrTable s = .next t) : CommandEnds .hufWrTable s t := by
  refine perform_ends h .nothing fun u r0 r1 hb => ?_
  split at hb
  · cases hb
  · exact storeOutput_effect hb (by simp [windows])

theorem execHufRdTable_ends {s t : State} (h : execHufRdTable s = .next t) : CommandEnds .hufRdTable s t := by
  refine perform_ends h (.cleared (by simp)) fun u r0 r1 hb => ?_
  split at hb
  · cases hb
  · rename_i htable
    cases hb
    exact .table _ (by simp) (readTable_legal htable)

theorem execHufBuild_ends {s t : State} (h : execHufBuild s = .next t) : CommandEnds .hufBuild s t := by
  refine perform_ends h .nothing fun u r0 r1 hb => ?_
  split at hb
  · cases hb
  · rename_i hv
    cases hb
    exact .built rfl (by simpa using hv)

theorem execHufEncode_ends {s t : State} (h : execHufEncode s = .next t) : CommandEnds .hufEncode s t := by
  refine perform_ends h .nothing fun u r0 r1 hb => ?_
  split at hb
  · cases hb
  split at hb
  · cases hb
  · exact storeOutput_effect hb (by simp [windows])

theorem execHufDecode_ends {s t : State} (h : execHufDecode s = .next t) : CommandEnds .hufDecode s t := by
  refine perform_ends h (.freeOutput rfl) fun u r0 r1 hb => ?_
  split at hb
  · cases hb
  split at hb
  · cases hb
  rename_i hsyms
  split at hb
  · cases hb
  · cases hb
    exact storeElements_effect (decodeSymbols_length hsyms).le (by simp [windows])

theorem execHufClear_ends {s t : State} (h : execHufClear s = .next t) : CommandEnds .hufClear s t :=
  perform_ends h .nothing fun _ _ _ hb => by cases hb; exact .cleared (by simp)

theorem execHufGetCode_ends {s t : State} (h : execHufGetCode s = .next t) : CommandEnds .hufGetCode s t := by
  refine perform_ends h .nothing fun u r0 r1 hb => ?_
  split at hb
  · cases hb
  split at hb <;> cases hb
  exact .nothing

/-! Every command. -/

theorem exec_ends {i : Instr} {s t : State} (h : exec i s = .next t) : CommandEnds i s t := by
  cases i with
  | sysNop => exact execSysNop_ends h
  | sysReset => exact execSysReset_ends h
  | bmSetSize => exact execBmSetSize_ends h
  | bmIsValid => exact execBmIsValid_ends h
  | bmSetValid => exact execBmSetValid_ends h
  | bmSetInvalid => exact execBmSetInvalid_ends h
  | bmSetAllValid => exact execBmSetAllValid_ends h
  | bmSetAllInvalid => exact execBmSetAllInvalid_ends h
  | bmCount => exact execBmCount_ends h
  | bmLoad => exact execBmLoad_ends h
  | bmStore => exact execBmStore_ends h
  | rleSize => exact execRleSize_ends h
  | rleCompress => exact execRleCompress_ends h
  | rleDecompress => exact execRleDecompress_ends h
  | mskEncode => exact execMskEncode_ends h
  | mskDecode => exact execMskDecode_ends h
  | bsStuff => exact execBsStuff_ends h
  | bsUnstuff => exact execBsUnstuff_ends h
  | bsSizeSimple => exact execBsSizeSimple_ends h
  | bsSizeLut => exact execBsSizeLut_ends h
  | bsEncSimple => exact execBsEncSimple_ends h
  | bsEncLut => exact execBsEncLut_ends h
  | bsDecode => exact execBsDecode_ends h
  | hufCompute => exact execHufCompute_ends h
  | hufSize => exact execHufSize_ends h
  | hufWrTable => exact execHufWrTable_ends h
  | hufRdTable => exact execHufRdTable_ends h
  | hufBuild => exact execHufBuild_ends h
  | hufEncode => exact execHufEncode_ends h
  | hufDecode => exact execHufDecode_ends h
  | hufClear => exact execHufClear_ends h
  | hufGetCode => exact execHufGetCode_ends h

end Sys2Proof.Machine
end

/-! ## What every step keeps -/

section
namespace Sys2Proof.Machine

/-! Commands. -/

/-- The parts of a sound state that a command can change: buffer memory, the mask store and the Huffman unit. -/
def State.PartsSound (s : State) : Prop :=
  s.mem.sound s.params.memSize ∧ s.bm.sound s.params.maskMaxPixels ∧ s.ht.sound ∧ s.hd.sound s.ht

theorem CommandEffect.keepsOperands {i : Instr} {s u : State} (h : CommandEffect i s u) : KeepsOperands s u := by
  cases h <;> exact ⟨rfl, rfl, rfl, rfl, rfl, rfl, rfl, rfl, rfl, rfl, rfl⟩

/-- Every effect of a command whose windows lie in buffer memory keeps the parts sound. -/
theorem CommandEffect.partsSound {i : Instr} {s u : State} (h : CommandEffect i s u) (hw : WindowsPass i s)
    (hs : s.PartsSound) : u.PartsSound := by
  obtain ⟨hmem, hbm, hht, hhd⟩ := hs
  cases h with
  | nothing => exact ⟨hmem, hbm, hht, hhd⟩
  | output out n hwin hn =>
    have hin : n = 0 ∨ s.a2 + n ≤ s.params.memSize := (Window.inMem_iff _ _).mp (inMem_of_windowsOk hw _ hwin)
    have hfits : out.length = 0 ∨ s.a2 + out.length ≤ s.params.memSize := by omega
    exact ⟨Memory.writeBytes_sound hmem hfits, hbm, hht, hhd⟩
  | freeOutput => exact ⟨Memory.scrambleWrites_sound _ hmem (inMem_of_windowsOk hw), hbm, hht, hhd⟩
  | mask b _ hb => exact ⟨hmem, hb hbm, hht, hhd⟩
  | freeMask => exact ⟨hmem, Mask.sound_of_bits hbm (by simp), hht, hhd⟩
  | table t _ ht => exact ⟨hmem, hbm, .inl ht, .inr rfl⟩
  | cleared => exact ⟨hmem, hbm, .inr rfl, .inr rfl⟩
  | built _ hv => exact ⟨hmem, hbm, hht, .inl ⟨hv, rfl⟩⟩
  | stores => exact ⟨hmem, Mask.empty_sound _, .inr rfl, .inr rfl⟩

/-! The invariant, part by part. -/

theorem State.Inv.partsSound {s : State} (h : s.Inv) : s.PartsSound := by
  obtain ⟨-, hmem, hbm, hht, hhd, -⟩ := h
  exact ⟨hmem, hbm, hht, hhd⟩

/-- A command runs only with the reset input released. -/
theorem State.Inv.rst_of_busy {s : State} (h : s.Inv) (hb : s.busy = true) : s.rst = false := by
  obtain ⟨-, -, -, -, -, -, -, -, hrst⟩ := h
  by_contra hr
  have hidle : s.busy = false := by rw [hrst (by simpa using hr)]; rfl
  simp [hb] at hidle

/-- The end of a command is sound if its parts are. -/
theorem State.finish_inv {s : State} {code : StatusCode} (r0 r1 : Nat) (hp : s.params.wellFormed = true) (hs : s.PartsSound)
    (hc : code ≠ .nan) (hr : s.rst = false) : (s.finish code r0 r1).Inv := by
  obtain ⟨hmem, hbm, hht, hhd⟩ := hs
  exact ⟨hp, hmem, hbm, hht, hhd, hc, by simp, by simp, by simp [hr]⟩

/-- What is not the block's is free within buffer memory's own limits. -/
theorem State.Inv.hostSide {s : State} (h : s.Inv) {m : Memory} (hm : m.sound s.params.memSize) (host : List HostAct)
    (rdata : Word) (mdata : List Byte) (fresh : Nat) :
    ({ s with mem := m, host := host, rdata := rdata, mdata := mdata, fresh := fresh } : State).Inv := by
  obtain ⟨hp, -, hbm, hht, hhd, herr, hdone, hraced, hrst⟩ := h
  exact ⟨hp, hm, hbm, hht, hhd, herr, hdone, hraced, fun hr =>
    congrArg (fun x : State => { x with mem := m, host := host, rdata := rdata, mdata := mdata, fresh := fresh }) (hrst hr)⟩

/-! The block's steps. -/

theorem exec_inv {i : Instr} {s t : State} (hs : s.Inv) (hr : s.rst = false) (h : exec i s = .next t) : t.Inv := by
  rcases exec_ends h with rfl | ⟨hw, u, code, r0, r1, hu, hc, rfl⟩
  · exact State.finish_inv 0 0 hs.1 hs.partsSound (by decide) hr
  · obtain ⟨-, -, -, -, -, -, hparams, hrst, -⟩ := hu.keepsOperands
    exact State.finish_inv r0 r1 (hparams ▸ hs.1) (hu.partsSound hw hs.partsSound) hc (hrst.trans hr)

theorem freeMask_sound (tag maxPixels : Nat) : (freeMask tag maxPixels).sound maxPixels := by
  unfold freeMask
  split
  · rename_i h
    obtain ⟨hc, hr, hp⟩ := h
    exact ⟨hc, hr, hp, by simp [Mask.size]⟩
  · exact Mask.empty_sound _

theorem freeTable_sound (tag : Nat) : (freeTable tag).sound := by
  simp only [freeTable]
  split
  · rename_i h
    obtain ⟨hs, hm, hc⟩ := h
    exact .inl (tableOf_legal hs hm hc)
  · exact .inr rfl

theorem freeDecoder_sound (tag : Nat) (t : HufTable) : (freeDecoder tag t).sound t := by
  unfold freeDecoder
  split
  · rename_i h
    exact .inl ⟨by simp_all, rfl⟩
  · exact .inr rfl

theorem racedMem_sound {i : Instr} {s : State} (t : State) (h : s.mem.sound s.params.memSize) (hw : WindowsPass i s) :
    (racedMem i s t).sound s.params.memSize := by
  have hin := inMem_of_windowsOk hw
  unfold racedMem
  split
  · refine Memory.scrambleWrites_sound _ h fun v hv => ?_
    obtain ⟨w, hmem, rfl⟩ := List.mem_map.mp hv
    exact Window.inMem_cut _ (hin w hmem)
  · split
    · exact Memory.scrambleWrites_sound _ h hin
    · exact h
  · exact h

/-- The window tests do not look at buffer memory. -/
theorem windowsPass_foreignReads {i j : Instr} {s : State} : WindowsPass i (foreignReads j s) ↔ WindowsPass i s := by
  simp only [WindowsPass, windows_congr i s (foreignReads j s) rfl rfl rfl rfl rfl]
  rfl

/-- A command whose windows the host touched ends in a sound state (70_reset R321). -/
theorem racedEnd_inv {i : Instr} {s t : State} (hs : s.Inv) (hr : s.rst = false) (h : racedEnd i s = .next t) : t.Inv := by
  obtain ⟨u, hu, rfl⟩ : ∃ u, exec i (foreignReads i s) = .next u ∧ racedFrom i s u = t := by
    unfold racedEnd at h
    split at h <;> cases h
    exact ⟨_, ‹_›, rfl⟩
  unfold racedFrom
  split
  · exact State.finish_inv 0 0 hs.1 hs.partsSound (by decide) hr
  rename_i hne
  rcases exec_ends hu with rfl | ⟨hw, v, code, r0, r1, -, hc, rfl⟩
  · exact absurd rfl hne
  · have hpass := windowsPass_foreignReads.mp hw
    exact State.finish_inv _ _ hs.1
      ⟨racedMem_sound _ hs.partsSound.1 hpass, freeMask_sound _ _, freeTable_sound _, freeDecoder_sound _ _⟩ hc hr

theorem blockStep_inv {s t : State} (hs : s.Inv) (h : blockStep s = .next t) : t.Inv := by
  unfold blockStep at h
  split at h
  · rename_i hb
    have hr := hs.rst_of_busy hb
    unfold runCommand at h
    split at h
    · cases h
      exact State.finish_inv 0 0 hs.1 hs.partsSound (by decide) hr
    · split at h
      · exact racedEnd_inv hs hr h
      · exact exec_inv hs hr h
  · cases h
    exact hs

/-! The host's steps. -/

theorem writeReg_inv {s : State} (r : Reg) (v : Word) (hs : s.Inv) : (writeReg s r v).Inv := by
  unfold writeReg
  split
  · exact hs
  rename_i hidle
  obtain ⟨-, hr⟩ : s.busy = false ∧ s.rst = false := by simpa using hidle
  have ⟨hp, hmem, hbm, hht, hhd, herr, hdone, hraced, _⟩ := hs
  cases r with
  | cmd => exact ⟨hp, hmem, hbm, hht, hhd, herr, by simp, by simp, by simp [hr]⟩
  | arg0 | arg1 | arg2 | arg3 | arg4 => exact ⟨hp, hmem, hbm, hht, hhd, herr, hdone, hraced, by simp [hr]⟩
  | _ => exact hs

theorem readReg_inv {s : State} (r : Reg) (hs : s.Inv) : (readReg s r).Inv := by
  unfold readReg
  split
  · exact hs.hostSide hs.partsSound.1 _ _ _ _
  · exact hs.hostSide hs.partsSound.1 _ _ _ _

theorem hostWrite_inv {s : State} {a : Nat} {bs : List Byte} (hs : s.Inv) (ha : a + bs.length ≤ s.params.memSize) :
    (hostWrite s a bs).Inv := by
  have hm : (s.mem.writeBytes a bs).sound s.params.memSize := Memory.writeBytes_sound hs.partsSound.1 (.inr ha)
  have ht := hs.hostSide hm s.host s.rdata s.mdata s.fresh
  cases hb : s.busy with
  | false => simpa [hostWrite, hb] using ht
  | true =>
    have hr := hs.rst_of_busy hb
    obtain ⟨hp, -, hbm, hht, hhd, herr, hdone, -⟩ := hs
    exact ⟨hp, hm, hbm, hht, hhd, herr, hdone, fun _ => hb, fun h => by simp [hostWrite, hr] at h⟩

theorem hostRead_inv {s : State} (a n : Nat) (hs : s.Inv) : (hostRead s a n).Inv :=
  hs.hostSide hs.partsSound.1 _ _ _ _

theorem resetPin_inv {s : State} (hs : s.Inv) : (resetPin s).Inv :=
  ⟨hs.1, Memory.scrambleWrites_sound _ hs.partsSound.1 (inMem_of_ownedWindows s), Mask.empty_sound _, .inr rfl, .inr rfl,
    by simp [resetPin, State.reset], by simp [resetPin, State.reset], by simp [resetPin, State.reset],
    fun _ => resetPin_atReset s⟩

theorem releasePin_inv {s : State} (hs : s.Inv) : (releasePin s).Inv := by
  obtain ⟨hp, hmem, hbm, hht, hhd, herr, hdone, hraced, -⟩ := hs
  exact ⟨hp, hmem, hbm, hht, hhd, herr, hdone, hraced, by simp⟩

theorem skipUnlessOk_inv {s : State} (n : Nat) (hs : s.Inv) : (skipUnlessOk s n).Inv := by
  unfold skipUnlessOk
  split
  · exact hs
  · exact hs.hostSide hs.partsSound.1 _ _ _ _

/-- Every action of the host keeps the invariant. -/
theorem hostStep_inv {a : HostAct} {s t : State} (hs : s.Inv) (h : hostStep a s = .next t) : t.Inv := by
  cases a with
  | writeReg offset v =>
    simp only [hostStep] at h
    split at h <;> cases h
    exact writeReg_inv _ v hs
  | readReg offset =>
    simp only [hostStep] at h
    split at h <;> cases h
    exact readReg_inv _ hs
  | writeMem addr bytes =>
    simp only [hostStep] at h
    split at h <;> cases h
    exact hostWrite_inv hs ‹_›
  | readMem addr n =>
    simp only [hostStep] at h
    split at h <;> cases h
    exact hostRead_inv addr n hs
  | wait => exact blockStep_inv hs h
  | rst asserted =>
    cases asserted <;> cases h
    · exact releasePin_inv hs
    · exact resetPin_inv hs
  | skipUnlessOk n =>
    cases h
    exact skipUnlessOk_inv n hs

/-- Settles O58: the block's step and each action of the host keep the invariant. -/
theorem stepKeepsTheInvariant : Obligations.StepKeepsTheInvariant := by
  intro s t hs h
  cases hh : s.host with
  | nil => exact blockStep_inv hs (step_nil hh ▸ h)
  | cons a rest => exact hostStep_inv (hs.hostSide hs.partsSound.1 rest _ _ _) (step_cons hh ▸ h)

end Sys2Proof.Machine
end

/-! ## The obligations of the state's registers and stores -/

section
namespace Sys2Proof.Machine

/-! STATUS, HUFSTAT and HUFSIZE (10_state R23, R28, R29). -/

theorem StatusCode.number_lt (c : StatusCode) : c.number < 16 := by cases c <;> decide

theorem statusWord_toNat (s : State) : (statusWord s).toNat = s.busy.toNat + 2 * s.done.toNat + 16 * s.err.number := by
  have := s.err.number_lt
  have := s.busy.toNat_le
  have := s.done.toNat_le
  rw [statusWord, BitVec.toNat_ofNat, Nat.mod_eq_of_lt (by omega)]

/-- The ranges of the shown fields of a code table (10_state R28, R29). -/
theorem HufTable.fields_of_sound {t : HufTable} (h : t.sound) :
    maxLen t.len ≤ 32 ∧ t.size ≤ 32768 ∧ (t.valid = true → 1 ≤ maxLen t.len ∧ maxLen t.len ≤ 32) ∧
    (t.valid = false → maxLen t.len = 0) ∧ (t.valid = true → 1 ≤ t.size ∧ t.size ≤ 32768) ∧ (t.valid = false → t.size = 0) := by
  rcases h with h | rfl
  · obtain ⟨hm1, hm32⟩ := h.maxLen_bounds
    obtain ⟨hv, hs1, hs, -⟩ := h
    exact ⟨hm32, hs, fun _ => ⟨hm1, hm32⟩, by simp [hv], fun _ => ⟨hs1, hs⟩, by simp [hv]⟩
  · simp [HufTable.cleared]

/-- The ranges of the shown fields of the decoder structures (10_state R28). -/
theorem HufDecoder.fields_of_sound {d : HufDecoder} {t : HufTable} (ht : t.sound) (h : d.sound t) :
    (d.valid = true → 1 ≤ d.numBitsLUT ∧ d.numBitsLUT ≤ 12 ∧ d.skip ≤ 31) ∧
    (d.valid = false → d.numBitsLUT = 0 ∧ d.skip = 0) ∧ d.numBitsLUT ≤ 12 ∧ d.skip ≤ 31 := by
  rcases h with ⟨hv, rfl⟩ | rfl
  · obtain ⟨hm1, hm32⟩ := (HufTable.legal_of_sound ht hv).maxLen_bounds
    have hn1 : 1 ≤ (buildDecoder t).numBitsLUT := le_min hm1 (by decide)
    have hn12 : (buildDecoder t).numBitsLUT ≤ 12 := min_le_right _ _
    have hskip : (buildDecoder t).skip ≤ 31 := by
      have : (buildDecoder t).skip < maxLen t.len := skipOfTable_lt hm1
      omega
    exact ⟨fun _ => ⟨hn1, hn12, hskip⟩, by simp [buildDecoder], hn12, hskip⟩
  · simp [HufDecoder.cleared]

theorem hufStatWord_toNat {s : State} (hm : maxLen s.ht.len ≤ 32) (hn : s.hd.numBitsLUT ≤ 12) (hk : s.hd.skip ≤ 31) :
    (hufStatWord s).toNat = s.ht.valid.toNat + 2 * s.hd.valid.toNat + 256 * maxLen s.ht.len + 65536 * s.hd.numBitsLUT
      + 16777216 * s.hd.skip := by
  have := s.ht.valid.toNat_le
  have := s.hd.valid.toNat_le
  rw [hufStatWord, BitVec.toNat_ofNat]
  omega

/-- The two flags in the low bits of a word. -/
theorem low_flags {w : Word} {a b : Bool} {r : Nat} (h : w.toNat = a.toNat + 2 * b.toNat + 4 * r) :
    w.getLsbD 0 = a ∧ w.getLsbD 1 = b := by
  simp only [BitVec.getLsbD, h, Nat.testBit_succ, Nat.testBit_zero]
  cases a <;> cases b <;> simp <;> omega

/-- Settles O8, from the two words as sums of their fields and the ranges the invariant gives. -/
theorem statusAndHufstatFieldsReadBack : Obligations.StatusAndHufstatFieldsReadBack := by
  refine ⟨fun s => ?_, fun s hs => ?_⟩
  · have hw : (regWord s .status).toNat = _ := statusWord_toNat s
    obtain ⟨hbusy, hdone⟩ := low_flags (w := regWord s .status) (a := s.busy) (b := s.done) (r := 4 * s.err.number) (by omega)
    have := s.busy.toNat_le
    have := s.done.toNat_le
    exact ⟨hbusy, hdone, by omega, by omega, s.err.number_lt⟩
  · obtain ⟨-, -, hht, hhd⟩ := hs.partsSound
    obtain ⟨hm, hsize, hmax, hmax0, hsize1, hsize0⟩ := HufTable.fields_of_sound hht
    obtain ⟨hvalid, hinvalid, hn, hk⟩ := HufDecoder.fields_of_sound hht hhd
    have hw : (regWord s .hufStat).toNat = _ := hufStatWord_toNat hm hn hk
    obtain ⟨htv, hdv⟩ := low_flags (w := regWord s .hufStat) (a := s.ht.valid) (b := s.hd.valid)
      (r := 64 * maxLen s.ht.len + 16384 * s.hd.numBitsLUT + 4194304 * s.hd.skip) (by omega)
    have := s.ht.valid.toNat_le
    have := s.hd.valid.toNat_le
    have hsz : (regWord s .hufSize).toNat = s.ht.size := by
      rw [regWord, BitVec.toNat_ofNat, Nat.mod_eq_of_lt (by omega)]
    exact ⟨htv, hdv, by omega, by omega, by omega, by omega, by omega, by omega, by omega, hmax, hmax0, hvalid, hinvalid,
      hsz, hsize1, hsize0⟩

/-! Who changes the stores (10_state R34, R39). -/

theorem CommandEffect.bm_eq {i : Instr} {s u : State} (h : CommandEffect i s u)
    (hi : i ∉ [Instr.sysReset, .bmSetSize, .bmSetValid, .bmSetInvalid, .bmSetAllValid, .bmSetAllInvalid, .bmLoad, .mskDecode]) :
    u.bm = s.bm := by
  cases h with
  | mask b hmem => exact absurd (List.mem_cons_of_mem _ hmem) hi
  | freeMask he | stores he => subst he; simp at hi
  | _ => rfl

theorem CommandEffect.ht_eq {i : Instr} {s u : State} (h : CommandEffect i s u)
    (hi : i ∉ [Instr.sysReset, .hufCompute, .hufRdTable, .hufClear]) : u.ht = s.ht := by
  cases h with
  | table t hmem => simp_all
  | cleared hmem => exact absurd (List.mem_cons_of_mem _ hmem) hi
  | stores he => subst he; simp at hi
  | _ => rfl

theorem CommandEffect.hd_eq {i : Instr} {s u : State} (h : CommandEffect i s u)
    (hi : i ∉ [Instr.sysReset, .hufCompute, .hufRdTable, .hufClear, .hufBuild]) : u.hd = s.hd := by
  cases h with
  | table t hmem | cleared hmem => simp_all
  | built he | stores he => subst he; simp at hi
  | _ => rfl

/-- Settles O17: the end of a command keeps the stores, and so does each of its effects but those of the commands named. -/
theorem onlyTheirCommandsChangeTheStores : Obligations.OnlyTheirCommandsChangeTheStores := by
  intro i s t h
  rcases exec_ends h with rfl | ⟨-, u, code, r0, r1, hu, -, rfl⟩
  · exact ⟨fun _ => rfl, fun _ => rfl, fun _ => rfl⟩
  · exact ⟨hu.bm_eq, hu.ht_eq, hu.hd_eq⟩

/-! The write that starts a command (10_state R22). -/

/-- A write to a busy block has no effect (70_reset R320). -/
theorem writeReg_of_busy {s : State} (r : Reg) (v : Word) (h : s.busy = true) : writeReg s r v = s := by simp [writeReg, h]

theorem writeReg_cmd_of_idle {s : State} (w : Word) (hb : s.busy = false) (hr : s.rst = false) :
    writeReg s .cmd w = s.latchCommand w := by simp [writeReg, hb, hr]

theorem step_writeCmd {s : State} {w : Word} {rest : List HostAct} (h : s.host = .writeReg 0x00 w :: rest) :
    step s = .next (writeReg { s with host := rest } .cmd w) := step_cons h

/-- Settles O5: a write to `CMD` latches the word on an idle block and has no effect on a busy one. -/
theorem cmdWriteStartsACommand : Obligations.CmdWriteStartsACommand := by
  refine ⟨fun s w rest h hb hr => ?_, fun s w rest h hb => ?_⟩
  · have hstep : step s = .next (({ s with host := rest } : State).latchCommand w) :=
      (step_writeCmd h).trans (congrArg _ (writeReg_cmd_of_idle w hb hr))
    exact ⟨_, hstep, rfl, rfl⟩
  · exact (step_writeCmd h).trans (congrArg _ (writeReg_of_busy .cmd w hb))

/-! The state right after reset (10_state R42). -/

theorem Memory.empty_sound (n : Nat) : Memory.empty.sound n := ⟨Memory.empty_wf, by simp [Memory.empty], by simp [Memory.empty]⟩

/-- Settles O57. -/
theorem resetStateIsSound : Obligations.ResetStateIsSound :=
  ⟨rfl, Memory.empty_sound _, Mask.empty_sound _, .inr rfl, .inr rfl, by decide, by decide, by decide, fun _ => rfl⟩

end Sys2Proof.Machine
end

/-! ## The obligations of buffer memory and the step -/

section
namespace Sys2Proof.Machine

/-! The block's step (20_memory R70, R73). -/

/-- An idle block holds its state. -/
theorem blockStep_of_idle {s : State} (h : s.busy = false) : blockStep s = .next s := by simp [blockStep, h]

theorem blockStep_of_decode {s : State} {i : Instr} (hb : s.busy = true) (hr : s.raced = false) (hd : decode s.cmd = .ok i) :
    blockStep s = exec i s := (blockStep_busy hb).trans (runCommand_of_decode hd hr)

/-- A host that waits lets the block move. -/
theorem step_wait {s : State} {rest : List HostAct} (h : s.host = .wait :: rest) :
    step s = blockStep { s with host := rest } := step_cons h

/-- A word of the opcode table decodes from the 32 bits that are placed in `CMD`. -/
theorem decode_of_decodeTableWord {n w : Nat} {i : Instr} (h : decodeTableWord n w = some i) :
    decode (BitVec.ofNat 32 (w % 2 ^ n)) = .ok i := by
  unfold decodeTableWord at h
  split at h
  · split at h <;> cases h
    assumption
  · cases h

/-- Settles O3. -/
theorem stepRunsTheCommandInCmd : Obligations.StepRunsTheCommandInCmd := by
  refine ⟨fun s i hh hb hr hd _ => ?_, fun s i rest hh hb hr hd _ => ?_, fun s hh hb => ?_, fun s rest hh hb => ?_,
    fun s i w hw => ?_⟩
  · exact (step_nil hh).trans (blockStep_of_decode hb hr hd)
  · exact (step_wait hh).trans (blockStep_of_decode hb hr hd)
  · exact (step_nil hh).trans (blockStep_of_idle hb)
  · exact (step_wait hh).trans (blockStep_of_idle hb)
  · have hd : decode (s.withFetchWord 32 w).cmd = .ok i := decode_of_decodeTableWord hw
    exact (step_nil rfl).trans (blockStep_of_decode rfl rfl hd)

/-! The window tests (20_memory R66, R67). -/

/-- Two windows may stand together exactly when both are read windows or they share no address. -/
theorem Window.compatible_iff (v w : Window) :
    v.compatible w = true ↔ (v.write = false ∧ w.write = false) ∨ ∀ x, ¬ (v.covers x = true ∧ w.covers x = true) := by
  have hshare : v.overlaps w = false ↔ ∀ x, ¬ (v.covers x = true ∧ w.covers x = true) := by
    rw [Bool.eq_false_iff, ne_eq, Window.overlaps_iff, not_exists]
  rw [← hshare]
  simp [Window.compatible]

/-- No command stops the machine. -/
theorem exec_next (i : Instr) (s : State) : ∃ t, exec i s = .next t := by
  cases i <;> exact ⟨_, rfl⟩

/-- A command whose window tests fail ends with `WrongParam` and has touched nothing. -/
theorem exec_of_not_windowsPass {i : Instr} {s : State} (h : ¬ WindowsPass i s) :
    exec i s = .next (s.finish .wrongParam 0 0) := by
  obtain ⟨t, ht⟩ := exec_next i s
  rcases exec_ends ht with rfl | ⟨hw, -⟩
  · exact ht
  · exact absurd hw h

theorem not_windowsPass_of_outside {i : Instr} {s : State} {w : Window} (hw : w ∈ windows i s) (hl : 0 < w.len)
    (hout : s.params.memSize < w.start + w.len) : ¬ WindowsPass i s := fun h => by
  have := (Window.inMem_iff _ w).mp (inMem_of_windowsOk h w hw)
  omega

theorem not_windowsPass_of_shared {i : Instr} {s : State} {v w : Window} {x : Nat} (hws : windows i s = [v, w])
    (hwrite : w.write = true) (hv : v.covers x = true) (hw : w.covers x = true) : ¬ WindowsPass i s := fun h => by
  have hpair := ((windowsOk_iff _ _).mp h).2
  rw [hws, List.pairwise_pair, Window.compatible_iff] at hpair
  rcases hpair with ⟨-, hread⟩ | hdisjoint
  · simp [hwrite] at hread
  · exact hdisjoint x ⟨hv, hw⟩

/-- Settles O16: a failed test ends every command alike, the tests ask for no more than the rules do, and the windows are those of
30_encoding R93, command by command. -/
theorem windowTestsComeFirst : Obligations.WindowTestsComeFirst := by
  refine ⟨fun i s w hw hl hout => ?_, fun i s v w x hws hwrite hv hw => ?_, fun memSize ws hin hpair => ?_, fun s i => ?_⟩
  · exact exec_of_not_windowsPass (not_windowsPass_of_outside hw hl hout)
  · exact exec_of_not_windowsPass (not_windowsPass_of_shared hws hwrite hv hw)
  · exact (windowsOk_iff memSize ws).mpr ⟨fun w hw => (Window.inMem_iff memSize w).mpr (hin w hw),
      hpair.imp (Window.compatible_iff _ _).mpr⟩
  · refine ⟨fun hi => by subst hi; rfl, ?_, ?_, ?_, ?_, ?_, ?_, ?_⟩ <;> (intro hi; fin_cases hi <;> rfl)

/-! The host's accesses to buffer memory (20_memory R60, R71). -/

/-- Bytes just stored are read back. -/
theorem Memory.readBytes_writeBytes (m : Memory) (a : Nat) (bs : List Byte) : (m.writeBytes a bs).readBytes a bs.length = bs := by
  rw [Memory.readBytes_eq]
  refine List.ext_getElem (by simp) fun j hj hbs => ?_
  simp [Memory.read_writeBytes_same _ _ _ _ hbs, hbs]

/-- Every window a block owns is one of the command it runs. -/
theorem mem_ownedWindows {s : State} {w : Window} (h : w ∈ ownedWindows s) :
    s.busy = true ∧ ∃ i, decode s.cmd = .ok i ∧ w ∈ windows i s := by
  unfold ownedWindows at h
  split at h
  · split at h
    · split at h
      · exact ⟨‹_›, _, ‹_›, h⟩
      · cases h
    · cases h
  · cases h

/-- The host stores into the memory of an idle block as the block itself does, with no mark. -/
theorem hostWrite_of_idle {s : State} (a : Nat) (bs : List Byte) (h : s.busy = false) : hostWrite s a bs = s.store a bs := by
  simp [hostWrite, State.store, h]

/-- No byte of an address range lies in a write window the block owns. -/
def State.OwnsNoWriteIn (s : State) (a n : Nat) : Prop :=
  ∀ w ∈ ownedWindows s, w.write = true → ∀ x, a ≤ x → x < a + n → w.covers x = false

theorem State.ownsNoWriteIn_of_idle {s : State} (a n : Nat) (h : s.busy = false) : s.OwnsNoWriteIn a n := by
  simp [State.OwnsNoWriteIn, h]

theorem State.ownsNoWriteIn_of_windows {s : State} {a n : Nat} {i : Instr} (hd : decode s.cmd = .ok i)
    (h : ∀ w ∈ windows i s, w.write = true → ∀ x, a ≤ x → x < a + n → w.covers x = false) : s.OwnsNoWriteIn a n := by
  intro w hw
  obtain ⟨-, j, hj, hmem⟩ := mem_ownedWindows hw
  obtain rfl : i = j := Except.ok.inj (hd.symm.trans hj)
  exact h w hmem

/-- Outside the write windows the block owns a host's read answers the bytes of memory and takes no free value. -/
theorem hostRead_of_ownsNoWriteIn {s : State} {a n : Nat} (h : s.OwnsNoWriteIn a n) :
    hostRead s a n = { s with mdata := (List.range n).map (fun j => s.mem.read (a + j)) } := by
  have hbyte : ∀ j ∈ List.range n, hostByte s (a + j) = s.mem.read (a + j) := fun j hj => by
    have hj : j < n := List.mem_range.mp hj
    refine if_neg fun hany => ?_
    obtain ⟨w, hw, hc⟩ := List.any_eq_true.mp hany
    obtain ⟨hwrite, hcov⟩ := Bool.and_eq_true_iff.mp hc
    simp [h w hw hwrite (a + j) (by omega) (by omega)] at hcov
  have hnone : ¬ (ownedWindows s).any (fun w => w.write && w.overlaps (rwin a n)) = true := fun hany => by
    obtain ⟨w, hw, hc⟩ := List.any_eq_true.mp hany
    obtain ⟨hwrite, hover⟩ := Bool.and_eq_true_iff.mp hc
    obtain ⟨x, hx, hr⟩ := (Window.overlaps_iff _ _).mp hover
    obtain ⟨hlo, hhi⟩ := (Window.covers_iff _ _).mp hr
    simp [h w hw hwrite x hlo hhi] at hx
  rw [hostRead, List.map_congr_left hbyte, if_neg hnone]

theorem step_writeMem {s : State} {a : Nat} {bs : List Byte} {rest : List HostAct} (h : s.host = .writeMem a bs :: rest)
    (ha : a + bs.length ≤ s.params.memSize) : step s = .next (hostWrite { s with host := rest } a bs) :=
  (step_cons h).trans (if_pos ha)

theorem step_writeMem_of_idle {s : State} {a : Nat} {bs : List Byte} {rest : List HostAct}
    (h : s.host = .writeMem a bs :: rest) (ha : a + bs.length ≤ s.params.memSize) (hb : s.busy = false) :
    step s = .next (({ s with host := rest } : State).store a bs) :=
  (step_writeMem h ha).trans (congrArg _ (hostWrite_of_idle a bs hb))

theorem step_readMem {s : State} {a n : Nat} {rest : List HostAct} (h : s.host = .readMem a n :: rest)
    (ha : a + n ≤ s.params.memSize) : step s = .next (hostRead { s with host := rest } a n) :=
  (step_cons h).trans (if_pos ha)

/-- A host's read outside the write windows of the running command. -/
theorem step_readMem_of_ownsNoWriteIn {s : State} {a n : Nat} {rest : List HostAct} (h : s.host = .readMem a n :: rest)
    (ha : a + n ≤ s.params.memSize) (ho : ({ s with host := rest } : State).OwnsNoWriteIn a n) :
    step s = .next { s with host := rest, mdata := (List.range n).map (fun j => s.mem.read (a + j)) } :=
  (step_readMem h ha).trans (congrArg _ (hostRead_of_ownsNoWriteIn ho))

/-- A run goes on from the next state. -/
theorem run_succ_of_step {M : Host.Core} {s t : M.State} (k : Nat) (h : M.step s = .next t) : M.run (k + 1) s = M.run k t := by
  rw [Host.Core.run, h]

/-- Settles O11: the rules of reads after writes, and an idle block owns no window. -/
theorem hostStoresOrdinaryBytes : Obligations.HostStoresOrdinaryBytes := by
  refine ⟨fun s a bs rest hh ha => ?_, fun s a n rest hh ha hfree => ?_, fun s a bs rest hh ha hb => ?_⟩
  · exact ⟨_, step_writeMem hh ha, fun j hj => Memory.read_writeBytes_same _ _ _ _ hj,
      fun x hx => Memory.read_writeBytes_other _ _ _ _ hx, Memory.readBytes_writeBytes _ _ _, rfl,
      fun hb => by simp [hostWrite_of_idle, hb]⟩
  · refine step_readMem_of_ownsNoWriteIn hh ha ?_
    rcases hfree with hb | ⟨i, hd, hw⟩
    · exact State.ownsNoWriteIn_of_idle a n hb
    · exact State.ownsNoWriteIn_of_windows hd (windows_congr i s { s with host := rest } rfl rfl rfl rfl rfl ▸ hw)
  · have hwrite := step_writeMem_of_idle hh ha hb
    have hread := step_readMem_of_ownsNoWriteIn (s := ({ s with host := .readMem a bs.length :: rest } : State).store a bs) rfl ha
      (State.ownsNoWriteIn_of_idle a bs.length hb)
    have hback : (List.range bs.length).map (fun j => (s.mem.writeBytes a bs).read (a + j)) = bs :=
      (Memory.readBytes_eq _ _ _).symm.trans (Memory.readBytes_writeBytes s.mem a bs)
    rw [State.store_mem, hback] at hread
    exact ⟨_, (run_succ_of_step (M := core) 1 hwrite).trans (run_succ_of_step (M := core) 0 hread), rfl, rfl⟩

end Sys2Proof.Machine
end

/-! ## The obligations of the command words -/

section
namespace Sys2Proof

/-! The opcode map read both ways (30_encoding R90, R91). -/

/-- The laws of the command words, over all commands. -/
theorem decodeEncode_statement : (i : Instr) → Laws.DecodeEncode.Statement i
  | .sysNop => Laws.DecodeEncode.sysNop
  | .sysReset => Laws.DecodeEncode.sysReset
  | .bmSetSize => Laws.DecodeEncode.bmSetSize
  | .bmIsValid => Laws.DecodeEncode.bmIsValid
  | .bmSetValid => Laws.DecodeEncode.bmSetValid
  | .bmSetInvalid => Laws.DecodeEncode.bmSetInvalid
  | .bmSetAllValid => Laws.DecodeEncode.bmSetAllValid
  | .bmSetAllInvalid => Laws.DecodeEncode.bmSetAllInvalid
  | .bmCount => Laws.DecodeEncode.bmCount
  | .bmLoad => Laws.DecodeEncode.bmLoad
  | .bmStore => Laws.DecodeEncode.bmStore
  | .rleSize => Laws.DecodeEncode.rleSize
  | .rleCompress => Laws.DecodeEncode.rleCompress
  | .rleDecompress => Laws.DecodeEncode.rleDecompress
  | .mskEncode => Laws.DecodeEncode.mskEncode
  | .mskDecode => Laws.DecodeEncode.mskDecode
  | .bsStuff => Laws.DecodeEncode.bsStuff
  | .bsUnstuff => Laws.DecodeEncode.bsUnstuff
  | .bsSizeSimple => Laws.DecodeEncode.bsSizeSimple
  | .bsSizeLut => Laws.DecodeEncode.bsSizeLut
  | .bsEncSimple => Laws.DecodeEncode.bsEncSimple
  | .bsEncLut => Laws.DecodeEncode.bsEncLut
  | .bsDecode => Laws.DecodeEncode.bsDecode
  | .hufCompute => Laws.DecodeEncode.hufCompute
  | .hufSize => Laws.DecodeEncode.hufSize
  | .hufWrTable => Laws.DecodeEncode.hufWrTable
  | .hufRdTable => Laws.DecodeEncode.hufRdTable
  | .hufBuild => Laws.DecodeEncode.hufBuild
  | .hufEncode => Laws.DecodeEncode.hufEncode
  | .hufDecode => Laws.DecodeEncode.hufDecode
  | .hufClear => Laws.DecodeEncode.hufClear
  | .hufGetCode => Laws.DecodeEncode.hufGetCode

theorem decode_encode (i : Instr) : decode (encode i) = .ok i := by
  obtain ⟨-, -, hdecode, -⟩ := decodeEncode_statement i
  exact hdecode

theorem commandWordWellFormed_encode (i : Instr) : commandWordWellFormed (encode i) = true := by
  obtain ⟨-, hword, -, -⟩ := decodeEncode_statement i
  exact hword

/-- The fields of a word give the word back. -/
theorem Word.toNat_eq_fields (w : Word) : w.toNat = 256 * w.zeroField + 16 * w.famField + w.fnField := by
  unfold Word.zeroField Word.famField Word.fnField
  omega

/-- A word with bits 31:8 zero is its family and its function. -/
theorem Word.eq_of_zeroField {w : Word} (hz : w.zeroField = 0) : w = BitVec.ofNat 32 (16 * w.famField + w.fnField) := by
  have hw : w.toNat = 16 * w.famField + w.fnField := by rw [w.toNat_eq_fields, hz]; omega
  rw [← hw, BitVec.ofNat_toNat, BitVec.setWidth_eq]

/-- A word whose fields are those of a command is the command's encoding. -/
theorem eq_encode_of_fields {w : Word} {i : Instr} (hz : w.zeroField = 0) (hi : i.famFn = (w.famField, w.fnField)) :
    w = encode i := by
  rw [encode, hi]
  exact Word.eq_of_zeroField hz

theorem famFn_of_decodeSys {n : Nat} {i : Instr} (h : decodeSys n = .ok i) : i.famFn = (0, n) := by
  unfold decodeSys at h
  split at h <;> cases h <;> rfl

theorem famFn_of_decodeBm {n : Nat} {i : Instr} (h : decodeBm n = .ok i) : i.famFn = (1, n) := by
  unfold decodeBm at h
  split at h <;> cases h <;> rfl

theorem famFn_of_decodeRle {n : Nat} {i : Instr} (h : decodeRle n = .ok i) : i.famFn = (2, n) := by
  unfold decodeRle at h
  split at h <;> cases h <;> rfl

theorem famFn_of_decodeBs {n : Nat} {i : Instr} (h : decodeBs n = .ok i) : i.famFn = (3, n) := by
  unfold decodeBs at h
  split at h <;> cases h <;> rfl

theorem famFn_of_decodeHuf {n : Nat} {i : Instr} (h : decodeHuf n = .ok i) : i.famFn = (4, n) := by
  unfold decodeHuf at h
  split at h <;> cases h <;> rfl

/-- What the decoder accepts: bits 31:8 are 0, and the fields are the command's family and function. -/
theorem fields_of_decode {w : Word} {i : Instr} (h : decode w = .ok i) :
    w.zeroField = 0 ∧ i.famFn = (w.famField, w.fnField) := by
  unfold decode at h
  split at h
  case isTrue => cases h
  case isFalse hz =>
    refine ⟨not_not.mp hz, ?_⟩
    split at h
    case h_1 hf => rw [hf]; exact famFn_of_decodeSys h
    case h_2 hf => rw [hf]; exact famFn_of_decodeBm h
    case h_3 hf => rw [hf]; exact famFn_of_decodeRle h
    case h_4 hf => rw [hf]; exact famFn_of_decodeBs h
    case h_5 hf => rw [hf]; exact famFn_of_decodeHuf h
    case h_6 => cases h

/-- A word decodes to a command exactly when it is the command's encoding. -/
theorem decode_eq_ok_iff {w : Word} {i : Instr} : decode w = .ok i ↔ w = encode i := by
  constructor
  · intro h
    obtain ⟨hz, hi⟩ := fields_of_decode h
    exact eq_encode_of_fields hz hi
  · rintro rfl
    exact decode_encode i

/-- The decoder accepts exactly the assigned functions of each family (30_encoding R91, R94). -/
theorem decode_isOk_eq_assignedOpcode : ∀ fam < 16, ∀ fn < 16,
    (decode (BitVec.ofNat 32 (16 * fam + fn))).isOk = assignedOpcode fam fn := by decide

/-- A word decodes to some command exactly when the interface admits it. -/
theorem exists_decode_iff {w : Word} : (∃ i, decode w = .ok i) ↔ commandWordWellFormed w = true := by
  constructor
  · rintro ⟨i, h⟩
    rw [decode_eq_ok_iff.mp h]
    exact commandWordWellFormed_encode i
  · intro h
    obtain ⟨hz, ha⟩ := Bool.and_eq_true_iff.mp h
    have hfields := decode_isOk_eq_assignedOpcode w.famField (Nat.mod_lt _ (by decide)) w.fnField (Nat.mod_lt _ (by decide))
    rw [← Word.eq_of_zeroField (of_decide_eq_true hz)] at hfields
    have hok : (decode w).isOk = true := hfields.trans ha
    cases hd : decode w with
    | ok i => exact ⟨i, rfl⟩
    | error e => rw [hd] at hok; cases hok

/-- Settles O1: what decodes to a command has the command's fields, and every encoding decodes back. -/
theorem decodeInvertsEncode : Obligations.DecodeInvertsEncode := ⟨fun _ _ => decode_eq_ok_iff, fun _ => exists_decode_iff⟩

/-! Reserved words (30_encoding R94). -/

theorem decode_of_highBits {w : Word} (h : w.zeroField ≠ 0) : decode w = .error .reservedHighBits := if_pos h

theorem decode_of_family {w : Word} (hz : w.zeroField = 0) (hf : 5 ≤ w.famField) : decode w = .error .reservedFamily := by
  rw [decode, if_neg (not_not.mpr hz)]
  split
  case h_6 => rfl
  all_goals omega

/-- Settles O2: the commands by `decode_encode`, the reserved words by the field that is reserved. -/
theorem opcodeMapWordsDecode : Obligations.OpcodeMapWordsDecode :=
  ⟨decode_encode .sysNop, decode_encode .bmSetSize, decode_encode .rleDecompress, decode_encode .mskDecode,
    decode_encode .bsDecode, decode_encode .hufGetCode, decode_of_highBits (by decide), decode_of_family (by decide) (by decide),
    rfl⟩

theorem exists_error_of_reserved {w : Word} (h : commandWordWellFormed w = false) : ∃ e, decode w = .error e := by
  cases hd : decode w with
  | error e => exact ⟨e, rfl⟩
  | ok i => rw [exists_decode_iff.mp ⟨i, hd⟩] at h; cases h

end Sys2Proof

namespace Sys2Proof.Machine

/-- A reserved word in `CMD` ends the command with `IllegalCommand` (30_encoding R94). -/
theorem runCommand_of_reserved {s : State} (h : commandWordWellFormed s.cmd = false) :
    runCommand s = .next (s.finish .illegalCommand 0 0) := by
  obtain ⟨e, he⟩ := exists_error_of_reserved h
  simp [runCommand, he, illegalCommand]

/-- Settles O4. -/
theorem reservedWordEndsIllegal : Obligations.ReservedWordEndsIllegal := by
  intro s hh hb hw
  calc step s = blockStep s := step_nil hh
    _ = runCommand s := blockStep_busy hb
    _ = .next (s.finish .illegalCommand 0 0) := runCommand_of_reserved hw

end Sys2Proof.Machine
end

/-! ## The obligation of the command script -/

section
namespace Sys2Proof.Machine

/-! The operand registers (10_state R24). -/

/-- `ARG0` to `ARG4`. -/
def argRegs : List Reg := [.arg0, .arg1, .arg2, .arg3, .arg4]

theorem mem_argRegs {r : Reg} : r ∈ argRegs ↔ r = .arg0 ∨ r = .arg1 ∨ r = .arg2 ∨ r = .arg3 ∨ r = .arg4 := by simp [argRegs]

/-- Every command takes its operands from operand registers, each at most once and in their order (30_encoding R92). -/
theorem regAt_operandOffsets_sublist (i : Instr) : ((operandOffsets i).map regAt).Sublist (argRegs.map some) := by
  cases i <;> decide

/-- Nothing but the host's list and the operand registers differs. -/
def OperandsOnly (s t : State) : Prop :=
  ∃ host a0 a1 a2 a3 a4, t = { s with host := host, arg0 := a0, arg1 := a1, arg2 := a2, arg3 := a3, arg4 := a4 }

theorem OperandsOnly.refl (s : State) : OperandsOnly s s := ⟨_, _, _, _, _, _, rfl⟩

theorem OperandsOnly.trans {s t u : State} (hst : OperandsOnly s t) (htu : OperandsOnly t u) : OperandsOnly s u := by
  obtain ⟨_, _, _, _, _, _, rfl⟩ := hst
  obtain ⟨_, _, _, _, _, _, rfl⟩ := htu
  exact ⟨_, _, _, _, _, _, rfl⟩

theorem OperandsOnly.keeps {s t : State} (h : OperandsOnly s t) :
    t.busy = s.busy ∧ t.rst = s.rst ∧ t.mem = s.mem ∧ t.params = s.params ∧ KeepsStores s t := by
  obtain ⟨_, _, _, _, _, _, rfl⟩ := h
  exact ⟨rfl, rfl, rfl, rfl, rfl, rfl, rfl⟩

/-! A write to an operand register of an idle block, the reset input released (10_state R24; 70_reset R310, R320). -/

/-- This operand register holds this word, and nothing else of the block has changed. -/
structure OperandWritten (s t : State) (r : Reg) (v : Word) : Prop where
  frame : OperandsOnly s t
  same : regWord t r = v
  other : ∀ q ∈ argRegs, q ≠ r → regWord t q = regWord s q

theorem writeReg_operandWritten {s : State} {r : Reg} (v : Word) (hb : s.busy = false) (hr : s.rst = false)
    (hreg : r ∈ argRegs) :
    OperandWritten s (writeReg s r v) r v ∧ (writeReg s r v).host = s.host := by
  have hfree : ¬ (s.busy || s.rst) = true := by simp [hb, hr]
  rw [writeReg.eq_def, if_neg hfree]
  rcases mem_argRegs.mp hreg with rfl | rfl | rfl | rfl | rfl <;>
    exact ⟨⟨⟨_, _, _, _, _, _, rfl⟩, rfl, fun q _ hne => by cases q <;> trivial⟩, rfl⟩

/-- No register shows the host's list. -/
theorem regWord_host (s : State) (host : List HostAct) (r : Reg) : regWord { s with host := host } r = regWord s r := by
  cases r <;> rfl

theorem step_writeOperand {s : State} {o : Nat} {r : Reg} {v : Word} {rest : List HostAct}
    (hh : s.host = .writeReg o v :: rest) (ho : regAt o = some r) (hreg : r ∈ argRegs) (hb : s.busy = false) (hr : s.rst = false) :
    ∃ t, step s = .next t ∧ t.host = rest ∧ OperandWritten s t r v := by
  obtain ⟨hw, hhost⟩ := writeReg_operandWritten (s := { s with host := rest }) v hb hr hreg
  have hstep : hostStep (.writeReg o v) { s with host := rest } = .next (writeReg { s with host := rest } r v) := by
    simp only [hostStep, ho]
  exact ⟨_, (step_cons hh).trans hstep, hhost, OperandsOnly.trans ⟨_, _, _, _, _, _, rfl⟩ hw.frame, hw.same,
    fun q hq hne => (hw.other q hq hne).trans (regWord_host s rest q)⟩

/-! The writes of the operands (30_encoding R109). -/

/-- The writes of operands to the registers at some offsets. -/
def operandWrites (offs ops : List Nat) : List HostAct := (offs.zip ops).map (fun p => .writeReg p.1 (BitVec.ofNat 32 p.2))

theorem commandLine_append (i : Instr) (ops : List Nat) (rest : List HostAct) :
    commandLine i ops ++ rest = operandWrites (operandOffsets i) ops ++ .writeReg 0x00 (encode i) :: .wait :: rest := by
  simp [commandLine, operandWrites]

/-- The registers at these offsets hold these operands, and nothing else of the block has changed. -/
structure OperandsWritten (s t : State) (offs ops : List Nat) : Prop where
  frame : OperandsOnly s t
  written : ∀ j, j < ops.length → ∃ r ∈ argRegs, regAt (offs.getD j 0) = some r ∧ regWord t r = BitVec.ofNat 32 (ops.getD j 0)
  kept : ∀ r ∈ argRegs, some r ∉ offs.map regAt → regWord t r = regWord s r

theorem OperandsWritten.nil (s : State) : OperandsWritten s s [] [] :=
  ⟨.refl s, fun _ hj => absurd hj (Nat.not_lt_zero _), fun _ _ _ => rfl⟩

/-- A write before others to other registers. -/
theorem OperandsWritten.cons {s t u : State} {o v : Nat} {offs ops : List Nat} {r : Reg} (hreg : r ∈ argRegs)
    (ho : regAt o = some r) (hnew : some r ∉ offs.map regAt) (h : OperandWritten s t r (BitVec.ofNat 32 v)) (hs : OperandsWritten t u offs ops) :
    OperandsWritten s u (o :: offs) (v :: ops) where
  frame := h.frame.trans hs.frame
  written
    | 0, _ => ⟨r, hreg, ho, (hs.kept r hreg hnew).trans h.same⟩
    | j + 1, hj => hs.written j (Nat.lt_of_succ_lt_succ hj)
  kept := by
    intro q hq hqn
    obtain ⟨hqo, hqs⟩ := not_or.mp (fun hc => hqn (List.mem_cons.mpr hc))
    have hne : q ≠ r := fun he => hqo (by rw [he, ho])
    exact (hs.kept q hq hqs).trans (h.other q hq hne)

/-- The host's writes to the operand registers of an idle block, one step each. -/
theorem run_operandWrites (k : Nat) {offs ops : List Nat} {rest : List HostAct} {s : State}
    (hsub : (offs.map regAt).Sublist (argRegs.map some)) (hlen : ops.length = offs.length)
    (hh : s.host = operandWrites offs ops ++ rest) (hb : s.busy = false) (hr : s.rst = false) :
    ∃ t, core.run (offs.length + k) s = core.run k t ∧ t.host = rest ∧ OperandsWritten s t offs ops := by
  induction offs generalizing ops s with
  | nil =>
    obtain rfl := List.length_eq_zero_iff.mp hlen
    exact ⟨s, by rw [List.length_nil, Nat.zero_add], hh, .nil s⟩
  | cons o offs ih =>
    obtain ⟨v, ops, rfl⟩ := List.exists_cons_of_length_eq_add_one hlen
    obtain ⟨r, hreg, ho⟩ := List.mem_map.mp (hsub.subset List.mem_cons_self)
    have hnew : some r ∉ offs.map regAt := ho ▸ (List.nodup_cons.mp (hsub.nodup (by decide))).1
    obtain ⟨t, hstep, hhost, hw⟩ := step_writeOperand hh ho.symm hreg hb hr
    obtain ⟨hbusy, hrst, -⟩ := hw.frame.keeps
    obtain ⟨u, hrun, hrest, hws⟩ :=
      ih (List.sublist_of_cons_sublist hsub) (Nat.succ.inj hlen) hhost (hbusy.trans hb) (hrst.trans hr)
    have hgo : core.run ((o :: offs).length + k) s = core.run (offs.length + k) t := by
      rw [List.length_cons, Nat.add_right_comm]
      exact run_succ_of_step (M := core) _ hstep
    exact ⟨u, hgo.trans hrun, hrest, .cons hreg ho.symm hnew hw hws⟩

/-! The write of `CMD` and the wait. -/

theorem run_one (M : Host.Core) (s : M.State) : M.run 1 s = M.step s := by
  rw [Host.Core.run]
  cases M.step s <;> rfl

/-- A write of a command to `CMD` and a wait run the command. -/
theorem run_commandWrite_wait {s : State} {i : Instr} {rest : List HostAct}
    (hh : s.host = .writeReg 0x00 (encode i) :: .wait :: rest) (hb : s.busy = false) (hr : s.rst = false) :
    core.run 2 s = exec i (({ s with host := rest } : State).latchCommand (encode i)) := by
  have hwrite : core.step s = .next (({ s with host := .wait :: rest } : State).latchCommand (encode i)) :=
    (step_writeCmd hh).trans (congrArg _ (writeReg_cmd_of_idle (encode i) hb hr))
  obtain ⟨-, step_wait_exec, -⟩ := stepRunsTheCommandInCmd
  have hwait := step_wait_exec (({ s with host := .wait :: rest } : State).latchCommand (encode i)) i rest rfl rfl rfl
    (decode_encode i) rfl
  exact (run_succ_of_step (M := core) 1 hwrite).trans ((run_one core _).trans hwait)

theorem regWord_latchCommand {s : State} {r : Reg} (w : Word) (host : List HostAct) (hreg : r ∈ argRegs) :
    regWord (({ s with host := host } : State).latchCommand w) r = regWord s r := by
  rcases mem_argRegs.mp hreg with rfl | rfl | rfl | rfl | rfl <;> rfl

/-- Settles O10: the operand writes, then the write of `CMD` and the wait; the table of R92 command by command. -/
theorem scriptLineRunsItsCommand : Obligations.ScriptLineRunsItsCommand := by
  refine ⟨fun s i ops rest hh hlen hb hr => ?_, fun i => by cases i <;> decide⟩
  obtain ⟨t, hrun, hhost, hw⟩ :=
    run_operandWrites 2 (regAt_operandOffsets_sublist i) hlen (hh.trans (commandLine_append i ops rest)) hb hr
  obtain ⟨hbusy, hrst, hmem, hparams, hstores⟩ := hw.frame.keeps
  refine ⟨_, hrun.trans (run_commandWrite_wait hhost (hbusy.trans hb) (hrst.trans hr)), rfl, rfl, rfl, rfl, hmem, hparams,
    hstores, fun j hj => ?_⟩
  obtain ⟨r, hreg, hat, hword⟩ := hw.written j hj
  exact ⟨r, hat, (regWord_latchCommand _ _ hreg).trans hword⟩

end Sys2Proof.Machine
end

/-! ## The obligations of the mask commands -/

section
namespace Sys2Proof.Machine

/-! The bits of the store (10_state R32; 40_bitmask R131 to R133). -/

/-- The bit of pixel `k` within its byte, counted from the least significant. -/
theorem maskbit_eq_twoPow (k : Nat) : maskbit k = BitVec.twoPow 8 (7 - k % 8) := by
  have hshift : ∀ i < 8, 0x80#8 >>> i = BitVec.twoPow 8 (7 - i) := by decide
  exact hshift _ (Nat.mod_lt k (by decide))

theorem getLsbD_maskbit (k i : Nat) : (maskbit k).getLsbD i = decide (i = 7 - k % 8) := by
  have hlt : 7 - k % 8 < 8 := by omega
  simp [maskbit_eq_twoPow, BitVec.getLsbD_twoPow, hlt, eq_comm]

theorem getLsbD_compl_maskbit (k i : Nat) : (0xFF#8 - maskbit k).getLsbD i = (decide (i < 8) && !decide (i = 7 - k % 8)) := by
  rw [show 0xFF#8 = BitVec.allOnes 8 from rfl, BitVec.allOnes_sub_eq_not, BitVec.getLsbD_not, getLsbD_maskbit]

/-- Pixel `k` is bit `7 - (k mod 8)` of byte `k div 8`. -/
theorem Mask.bit_eq_getLsbD (b : Mask) (k : Nat) : b.bit k = (b.bits.getD (k / 8) 0#8).getLsbD (7 - k % 8) := by
  have hone : BitVec.twoPow 8 (7 - k % 8) ≠ 0#8 := fun h => by
    have := congrArg (fun x => BitVec.getLsbD x (7 - k % 8)) h
    simp [BitVec.getLsbD_twoPow] at this
    omega
  rw [Mask.bit, maskbit_eq_twoPow, BitVec.and_twoPow]
  by_cases hb : (b.bits.getD (k / 8) 0#8).getLsbD (7 - k % 8) = true
  · rw [if_pos hb, hb, bne_iff_ne]
    exact hone
  · rw [if_neg hb, Bool.eq_false_iff.mpr hb]
    rfl

/-- The byte of every pixel is one of the store's. -/
theorem Mask.div_lt_length {b : Mask} {k : Nat} (hl : b.bits.length = b.size) (hk : k < b.pixels) : k / 8 < b.bits.length := by
  rw [hl, Mask.size, ceilDiv]
  rw [Mask.pixels] at hk
  omega

theorem getD_set_of_lt {α : Type} (l : List α) {n : Nat} (hn : n < l.length) (v d : α) (j : Nat) :
    (l.set n v).getD j d = if j = n then v else l.getD j d := by
  by_cases hj : j = n
  · subst hj; simp [hn]
  · simp [hj, Ne.symm hj]

/-- Setting a pixel sets its bit and keeps every other bit of the store. -/
theorem Mask.getLsbD_setBit (b : Mask) {k : Nat} (hk : k / 8 < b.bits.length) (j i : Nat) :
    ((b.setBit k).bits.getD j 0#8).getLsbD i =
      (decide (j = k / 8 ∧ i = 7 - k % 8) || (b.bits.getD j 0#8).getLsbD i) := by
  rw [Mask.setBit, getD_set_of_lt _ hk]
  by_cases hj : j = k / 8
  · simp [hj, BitVec.getLsbD_or, getLsbD_maskbit, Bool.or_comm]
  · simp [hj]

/-- Clearing a pixel clears its bit and keeps every other bit of the store. -/
theorem Mask.getLsbD_clearBit (b : Mask) {k : Nat} (hk : k / 8 < b.bits.length) (j i : Nat) :
    ((b.clearBit k).bits.getD j 0#8).getLsbD i =
      (!decide (j = k / 8 ∧ i = 7 - k % 8) && (b.bits.getD j 0#8).getLsbD i) := by
  rw [Mask.clearBit, getD_set_of_lt _ hk]
  by_cases hj : j = k / 8
  · rw [if_pos hj, BitVec.getLsbD_and, getLsbD_compl_maskbit, ← hj]
    by_cases hi : i < 8
    · simp [hi, Bool.and_comm]
    · simp [BitVec.getLsbD_of_ge _ _ (not_lt.mp hi)]
  · simp [hj]

/-- Two pixels with the same byte and the same bit in it are one. -/
theorem pixel_place_iff (j k : Nat) : (j / 8 = k / 8 ∧ 7 - j % 8 = 7 - k % 8) ↔ j = k := by omega

theorem Mask.bit_setBit (b : Mask) {k : Nat} (hk : k / 8 < b.bits.length) (j : Nat) :
    (b.setBit k).bit j = (decide (j = k) || b.bit j) := by
  simp only [Mask.bit_eq_getLsbD, Mask.getLsbD_setBit b hk, pixel_place_iff]

theorem Mask.bit_clearBit (b : Mask) {k : Nat} (hk : k / 8 < b.bits.length) (j : Nat) :
    (b.clearBit k).bit j = (!decide (j = k) && b.bit j) := by
  simp only [Mask.bit_eq_getLsbD, Mask.getLsbD_clearBit b hk, pixel_place_iff]

@[simp] theorem Mask.pixels_setBit (b : Mask) (k : Nat) : (b.setBit k).pixels = b.pixels := rfl
@[simp] theorem Mask.pixels_clearBit (b : Mask) (k : Nat) : (b.clearBit k).pixels = b.pixels := rfl
@[simp] theorem Mask.pixels_fill (b : Mask) (v : Byte) : (b.fill v).pixels = b.pixels := rfl

theorem Mask.setBit_length {b : Mask} (k : Nat) (hl : b.bits.length = b.size) : (b.setBit k).bits.length = (b.setBit k).size :=
  List.length_set.trans hl

theorem Mask.clearBit_length {b : Mask} (k : Nat) (hl : b.bits.length = b.size) :
    (b.clearBit k).bits.length = (b.clearBit k).size := List.length_set.trans hl

theorem Mask.fill_length (b : Mask) (v : Byte) : (b.fill v).bits.length = (b.fill v).size := List.length_replicate

theorem Mask.bit_fill (b : Mask) (v : Byte) {k : Nat} (hk : k < b.pixels) : (b.fill v).bit k = v.getLsbD (7 - k % 8) := by
  have hbyte : k / 8 < b.size := (b.fill_length v) ▸ Mask.div_lt_length (b.fill_length v) hk
  simp [Mask.bit_eq_getLsbD, Mask.fill, hbyte]

/-! The population count (40_bitmask R136). -/

/-- The 1 bits of a byte, counted from the most significant. -/
theorem popcount8_eq_countP (x : Byte) : popcount8 x = (List.range 8).countP (fun i => x.getLsbD (7 - i)) := by
  have hrev : (List.range 8).reverse = (List.range 8).map (fun i => 7 - i) := rfl
  rw [popcount8, ← List.countP_eq_length_filter, ← List.countP_reverse, hrev, List.countP_map]
  rfl

/-- The byte-wise population count is the number of 1 bits, all the places of the bytes taken in order. -/
theorem sum_popcount8 (bytes : List Byte) :
    (bytes.map popcount8).sum =
      (List.range (8 * bytes.length)).countP (fun k => (bytes.getD (k / 8) 0#8).getLsbD (7 - k % 8)) := by
  induction bytes with
  | nil => rfl
  | cons x t ih =>
    have hhead : (List.range 8).countP (fun k => ((x :: t).getD (k / 8) 0#8).getLsbD (7 - k % 8)) = popcount8 x := by
      rw [popcount8_eq_countP]
      refine List.countP_congr fun k hk => ?_
      have hk : k < 8 := List.mem_range.mp hk
      simp [Nat.div_eq_of_lt hk, Nat.mod_eq_of_lt hk]
    have htail : ∀ k, (8 + k) / 8 = k / 8 + 1 := fun k => by omega
    rw [List.length_cons, Nat.mul_succ, Nat.add_comm, List.range_add, List.countP_append, hhead, List.countP_map, List.map_cons,
      List.sum_cons, ih]
    simp [Function.comp_def, htail]

/-- The population count of the store less the tail bits that are 1 is the number of pixels whose bit is 1. -/
theorem Mask.count_eq_validPixels {b : Mask} (hl : b.bits.length = b.size) : b.count = b.validPixels := by
  obtain ⟨tail, htail⟩ : ∃ tail, 8 * b.size = b.pixels + tail := by
    refine Nat.exists_eq_add_of_le ?_
    rw [Mask.pixels, Mask.size, ceilDiv]
    omega
  have hsum : ((b.bits.take b.size).map popcount8).sum = (List.range (8 * b.size)).countP b.bit := by
    rw [List.take_of_length_le hl.le, sum_popcount8, hl]
    exact List.countP_congr fun k _ => by rw [Mask.bit_eq_getLsbD]
  rw [Mask.count, Mask.validPixels, hsum, htail, Nat.add_sub_cancel_left, List.range_add, List.countP_append,
    List.countP_map, List.countP_eq_length_filter, List.countP_eq_length_filter]
  exact Nat.add_sub_cancel _ _

/-- The pixels whose bit is 1. -/
def Mask.validSet (b : Mask) : Finset Nat := {k ∈ Finset.range b.pixels | b.bit k = true}

theorem Mask.mem_validSet {b : Mask} {k : Nat} : k ∈ b.validSet ↔ k < b.pixels ∧ b.bit k = true := by simp [Mask.validSet]

theorem Mask.validPixels_eq_card (b : Mask) : b.validPixels = b.validSet.card := by
  have hlist : ((List.range b.pixels).filter (fun k => b.bit k)).toFinset = b.validSet := by
    ext k
    simp [Mask.mem_validSet]
  rw [← hlist, List.toFinset_card_of_nodup (List.nodup_range.filter _), Mask.validPixels]

theorem Mask.validPixels_le_pixels (b : Mask) : b.validPixels ≤ b.pixels := by
  rw [Mask.validPixels_eq_card]
  exact (Finset.card_filter_le _ _).trans_eq (Finset.card_range _)

theorem Mask.validSet_setBit {b : Mask} {k : Nat} (hl : b.bits.length = b.size) (hk : k < b.pixels) :
    (b.setBit k).validSet = insert k b.validSet := by
  ext j
  rw [Finset.mem_insert, Mask.mem_validSet, Mask.mem_validSet, Mask.bit_setBit b (Mask.div_lt_length hl hk), Mask.pixels_setBit]
  by_cases hj : j = k <;> simp [hj, hk]

theorem Mask.validSet_clearBit {b : Mask} {k : Nat} (hl : b.bits.length = b.size) (hk : k < b.pixels) :
    (b.clearBit k).validSet = b.validSet.erase k := by
  ext j
  rw [Finset.mem_erase, Mask.mem_validSet, Mask.mem_validSet, Mask.bit_clearBit b (Mask.div_lt_length hl hk),
    Mask.pixels_clearBit]
  by_cases hj : j = k <;> simp [hj]

/-- Setting a pixel adds one to the count unless the pixel was valid before. -/
theorem Mask.validPixels_setBit {b : Mask} {k : Nat} (hl : b.bits.length = b.size) (hk : k < b.pixels) :
    (b.setBit k).validPixels = if b.bit k then b.validPixels else b.validPixels + 1 := by
  simp only [Mask.validPixels_eq_card, Mask.validSet_setBit hl hk, Finset.card_insert_eq_ite, Mask.mem_validSet, hk, true_and]

/-- Clearing a pixel takes one off the count if the pixel was valid before. -/
theorem Mask.validPixels_clearBit {b : Mask} {k : Nat} (hl : b.bits.length = b.size) (hk : k < b.pixels) :
    (b.clearBit k).validPixels = if b.bit k then b.validPixels - 1 else b.validPixels := by
  simp only [Mask.validPixels_eq_card, Mask.validSet_clearBit hl hk, Finset.card_erase_eq_ite, Mask.mem_validSet, hk, true_and]

/-- After a fill with 1 every pixel is valid. -/
theorem Mask.validPixels_fill_ones (b : Mask) : (b.fill 0xFF#8).validPixels = b.pixels := by
  have hones : ∀ i < 8, (0xFF#8).getLsbD i = true := by decide
  have hall : (b.fill 0xFF#8).validSet = Finset.range b.pixels := by
    ext k
    rw [Mask.mem_validSet, Mask.pixels_fill, Finset.mem_range, and_iff_left_iff_imp]
    exact fun hk => (b.bit_fill _ hk).trans (hones _ (by omega))
  rw [Mask.validPixels_eq_card, hall, Finset.card_range]

/-- After a fill with 0 no pixel is valid. -/
theorem Mask.validPixels_fill_zeros (b : Mask) : (b.fill 0x00#8).validPixels = 0 := by
  rw [Mask.validPixels_eq_card, Finset.card_eq_zero, Finset.eq_empty_iff_forall_notMem]
  intro k hk
  obtain ⟨hk, hbit⟩ := Mask.mem_validSet.mp hk
  rw [b.bit_fill _ hk] at hbit
  simp at hbit

/-! What each mask command leaves (40_bitmask R130 to R138). -/

theorem exec_bmSetSize_of_out_of_range {s : State}
    (h : Config.dimMax < s.a0 ∨ Config.dimMax < s.a1 ∨ s.params.maskMaxPixels < s.a0 * s.a1) :
    exec .bmSetSize s = .next (s.finish .wrongParam 0 0) := by
  change execBmSetSize s = _
  refine (perform_of_no_windows id _ rfl).trans ?_
  rcases or_assoc.mpr h with hdim | hpixels
  · rw [if_pos hdim]; rfl
  · rw [if_pos hpixels, ite_self]; rfl

theorem exec_bmSetSize_of_in_range {s : State}
    (h : ¬ (Config.dimMax < s.a0 ∨ Config.dimMax < s.a1 ∨ s.params.maskMaxPixels < s.a0 * s.a1)) :
    exec .bmSetSize s =
      .next (({ s with bm := Mask.fill { cols := s.a0, rows := s.a1, bits := [] } 0x00#8 } : State).finish .ok
        (ceilDiv (s.a0 * s.a1) 8) 0) := by
  change execBmSetSize s = _
  refine (perform_of_no_windows id _ rfl).trans ?_
  obtain ⟨hdim, hpixels⟩ := not_or.mp (mt or_assoc.mp h)
  rw [if_neg hdim, if_neg hpixels]
  rfl

/-! An index at or beyond the pixel count ends each command on one pixel with `WrongParam`. -/

theorem exec_bmIsValid_of_le {s : State} (h : s.bm.pixels ≤ s.a0) :
    exec .bmIsValid s = .next (s.finish .wrongParam 0 0) := by
  change execBmIsValid s = _
  exact (perform_of_no_windows id _ rfl).trans (by rw [if_pos h]; rfl)

theorem exec_bmSetValid_of_le {s : State} (h : s.bm.pixels ≤ s.a0) :
    exec .bmSetValid s = .next (s.finish .wrongParam 0 0) := by
  change execBmSetValid s = _
  exact (perform_of_no_windows id _ rfl).trans (by rw [if_pos h]; rfl)

theorem exec_bmSetInvalid_of_le {s : State} (h : s.bm.pixels ≤ s.a0) :
    exec .bmSetInvalid s = .next (s.finish .wrongParam 0 0) := by
  change execBmSetInvalid s = _
  exact (perform_of_no_windows id _ rfl).trans (by rw [if_pos h]; rfl)

/-! An index below the pixel count names a pixel. -/

theorem exec_bmIsValid_of_lt {s : State} (h : s.a0 < s.bm.pixels) :
    exec .bmIsValid s = .next (s.finish .ok (s.bm.bit s.a0).toNat 0) := by
  change execBmIsValid s = _
  exact (perform_of_no_windows id _ rfl).trans (by rw [if_neg (not_le.mpr h)]; rfl)

theorem exec_bmSetValid_of_lt {s : State} (h : s.a0 < s.bm.pixels) :
    exec .bmSetValid s = .next (({ s with bm := s.bm.setBit s.a0 } : State).finish .ok 0 0) := by
  change execBmSetValid s = _
  exact (perform_of_no_windows id _ rfl).trans (by rw [if_neg (not_le.mpr h)]; rfl)

theorem exec_bmSetInvalid_of_lt {s : State} (h : s.a0 < s.bm.pixels) :
    exec .bmSetInvalid s = .next (({ s with bm := s.bm.clearBit s.a0 } : State).finish .ok 0 0) := by
  change execBmSetInvalid s = _
  exact (perform_of_no_windows id _ rfl).trans (by rw [if_neg (not_le.mpr h)]; rfl)

/-! Commands on the whole store. -/

theorem exec_bmSetAllValid (s : State) :
    exec .bmSetAllValid s = .next (({ s with bm := s.bm.fill 0xFF#8 } : State).finish .ok 0 0) := by
  change execBmSetAllValid s = _
  exact perform_of_no_windows id _ rfl

theorem exec_bmSetAllInvalid (s : State) :
    exec .bmSetAllInvalid s = .next (({ s with bm := s.bm.fill 0x00#8 } : State).finish .ok 0 0) := by
  change execBmSetAllInvalid s = _
  exact perform_of_no_windows id _ rfl

theorem exec_bmCount {s : State} (h : s.bm.bits.length = s.bm.size) :
    exec .bmCount s = .next (s.finish .ok s.bm.validPixels 0) := by
  rw [← Mask.count_eq_validPixels h]
  change execBmCount s = _
  exact perform_of_no_windows id _ rfl

theorem exec_bmLoad {s : State} (h : WindowsPass .bmLoad s) :
    exec .bmLoad s =
      .next (({ s with bm := { s.bm with bits := s.mem.readBytes s.a0 s.bm.size } } : State).finish .ok s.bm.size 0) := by
  change execBmLoad s = _
  exact perform_of_windowsOk id _ h

/-- `BM.STORE` ends as an encoder does whose output is the store's bytes. -/
theorem exec_bmStore {s : State} (hl : s.bm.bits.length = s.bm.size) (h : WindowsPass .bmStore s) :
    exec .bmStore s = .next (concluded s id (storeOutput s s.bm.bits 0)) := by
  change execBmStore s = _
  refine (perform_of_windowsOk id _ h).trans ?_
  rw [List.take_of_length_le hl.le, ← hl]
  rfl

/-! The end of an encoder (60_exceptions R288). -/

/-- A store of bytes that ends the command with `OK` leaves them in buffer memory and everything else as it was. -/
theorem stored_finish_store (s : State) (a : Nat) (out : List Byte) (r0 r1 : Nat) :
    Stored s ((s.store a out).finish .ok r0 r1) a out r0 r1 :=
  ⟨⟨rfl, rfl, rfl, rfl, rfl⟩, fun j hj => Memory.read_writeBytes_same s.mem a j out hj,
    fun x hx => Memory.read_writeBytes_other s.mem a x out hx, ⟨rfl, rfl, rfl⟩,
    ⟨rfl, rfl, rfl, rfl, rfl, rfl, rfl, rfl, rfl, rfl, rfl⟩⟩

/-- A command that ends as `storeOutput` does encodes to its output. -/
theorem encodesTo_of_storeOutput {i : Instr} {s : State} {onFailed : State → State} {out : List Byte} {r1 : Nat}
    (h : exec i s = .next (concluded s onFailed (storeOutput s out r1))) : EncodesTo i s out r1 := by
  refine ⟨fun hlt => ?_, fun hle => ⟨_, ?_, stored_finish_store s s.a2 out out.length r1⟩⟩
  · rw [h, storeOutput_of_lt r1 hlt]; rfl
  · rw [h, storeOutput_of_le r1 hle]; rfl

/-- An encoder that ended with `OK` passed its window tests, had room for its output and has stored it. -/
theorem stored_of_err_ok {i : Instr} {s t : State} {out : List Byte} {r1 : Nat} (h : WindowsPass i s → EncodesTo i s out r1)
    (ht : exec i s = .next t) (hok : t.err = .ok) :
    WindowsPass i s ∧ out.length ≤ s.a3 ∧ Stored s t s.a2 out out.length r1 := by
  have hw : WindowsPass i s := by
    by_contra hw
    rw [exec_of_not_windowsPass hw] at ht
    cases ht
    cases hok
  obtain ⟨hsmall, hfits⟩ := h hw
  have hle : out.length ≤ s.a3 := by
    by_contra hlt
    rw [hsmall (not_le.mp hlt)] at ht
    cases ht
    cases hok
  obtain ⟨u, hu, hstored⟩ := hfits hle
  cases hu.symm.trans ht
  exact ⟨hw, hle, hstored⟩

/-! The laws of R140 that chain two commands. -/

/-- After a change of the store that keeps its dimensions `BM.ISVALID` and `BM.COUNT` answer from the new bits. -/
theorem exec_after_pixel_change {s : State} {b : Mask} (hk : s.a0 < s.bm.pixels) (hp : b.pixels = s.bm.pixels)
    (hl : b.bits.length = b.size) :
    let t := ({ s with bm := b } : State).finish .ok 0 0
    exec .bmIsValid t = .next (t.finish .ok (b.bit s.a0).toNat 0) ∧ exec .bmCount t = .next (t.finish .ok b.validPixels 0) :=
  ⟨exec_bmIsValid_of_lt (s := State.finish _ _ _ _) (hk.trans_eq hp.symm), exec_bmCount (s := State.finish _ _ _ _) hl⟩

/-- `BM.STORE` encodes to the bytes of the store. -/
theorem bmStore_encodesTo {s : State} (hl : s.bm.bits.length = s.bm.size) (h : WindowsPass .bmStore s) :
    EncodesTo .bmStore s s.bm.bits 0 := encodesTo_of_storeOutput (exec_bmStore hl h)

/-- Bytes that memory holds are read back. -/
theorem Holds.readBytes {s : State} {a : Nat} {bs : List Byte} (h : Holds s a bs) : s.mem.readBytes a bs.length = bs := by
  rw [Memory.readBytes_eq]
  refine List.ext_getElem (by simp) fun j hj hbs => ?_
  simp [h j hbs, hbs]

/-- What `BM.STORE` has stored `BM.LOAD` loads back. -/
theorem bm_of_bmStore_bmLoad {s t u : State} (hl : s.bm.bits.length = s.bm.size) (ht : exec .bmStore s = .next t)
    (hok : t.err = .ok) (hu : exec .bmLoad { t with arg0 := t.arg2 } = .next u) : u.bm = s.bm := by
  obtain ⟨hw, hle, -, hholds, -, ⟨hbm, -, -⟩, -, -, -, harg2, -, -, hparams, -⟩ :=
    stored_of_err_ok (bmStore_encodesTo hl) ht hok
  have hwindow : s.a3 = 0 ∨ s.a2 + s.a3 ≤ s.params.memSize :=
    (Window.inMem_iff _ (wwin s.a2 s.a3)).mp (inMem_of_windowsOk hw _ (by simp [windows]))
  have hload : WindowsPass .bmLoad { t with arg0 := t.arg2 } := by
    refine (windowsOk_iff _ _).mpr ⟨fun w hmem => ?_, List.pairwise_singleton _ _⟩
    rw [List.mem_singleton.mp hmem, Window.inMem_iff]
    simp only [rwin, State.a0, hbm, harg2, hparams]
    simp only [State.a2] at hwindow
    omega
  rw [exec_bmLoad hload] at hu
  cases hu
  simp only [State.finish_bm, State.a0, hbm, harg2, ← hl]
  rw [show s.arg2.toNat = s.a2 from rfl, hholds.readBytes]

/-! The obligations. -/

/-- Settles O19. -/
theorem bmSetSizeOutcome : Obligations.BmSetSizeOutcome := by
  intro s
  split
  · exact exec_bmSetSize_of_out_of_range ‹_›
  · exact exec_bmSetSize_of_in_range ‹_›

/-- Settles O21. -/
theorem bmFillOutcome : Obligations.BmFillOutcome := fun s => ⟨exec_bmSetAllValid s, exec_bmSetAllInvalid s⟩

/-- Settles O22. -/
theorem bmCountCountsValidPixels : Obligations.BmCountCountsValidPixels := fun _ h => exec_bmCount h

/-- Settles O20, from what the change of one pixel does to every bit of the store. -/
theorem bmPixelOutcome : Obligations.BmPixelOutcome := by
  refine ⟨fun s h => ?_, fun s h => ?_, fun s hl h => ⟨?_, ?_⟩⟩
  · exact ⟨exec_bmIsValid_of_le h, exec_bmSetValid_of_le h, exec_bmSetInvalid_of_le h⟩
  · rw [exec_bmIsValid_of_lt h, Mask.bit_eq_getLsbD, Bool.toNat, Bool.cond_eq_ite]
  · have hset := Mask.getLsbD_setBit s.bm (Mask.div_lt_length hl h)
    exact ⟨(s.bm.setBit s.a0).bits, exec_bmSetValid_of_lt h, List.length_set, by rw [hset]; simp,
      fun j b _ hother => by rw [hset, decide_eq_false hother, Bool.false_or]⟩
  · have hclear := Mask.getLsbD_clearBit s.bm (Mask.div_lt_length hl h)
    exact ⟨(s.bm.clearBit s.a0).bits, exec_bmSetInvalid_of_lt h, List.length_set, by rw [hclear]; simp,
      fun j b _ hother => by rw [hclear, decide_eq_false hother, Bool.not_false, Bool.true_and]⟩

/-- Settles O23. -/
theorem bmLoadStoreOutcome : Obligations.BmLoadStoreOutcome :=
  ⟨fun s h => by rw [exec_bmLoad h, Memory.readBytes_eq], fun _ => bmStore_encodesTo⟩

/-- Settles O24, from the count as the number of the valid pixels. -/
theorem bitMaskLaws : Obligations.BitMaskLaws := by
  refine ⟨fun s t ht hok => ?_, fun s t ht => ?_, fun s t hl hk ht => ?_, fun s t hl hk ht => ?_,
    fun s t u => bm_of_bmStore_bmLoad, fun b hl => ?_⟩
  · by_cases hrange : Config.dimMax < s.a0 ∨ Config.dimMax < s.a1 ∨ s.params.maskMaxPixels < s.a0 * s.a1
    · rw [exec_bmSetSize_of_out_of_range hrange] at ht
      cases ht
      cases hok
    · rw [exec_bmSetSize_of_in_range hrange] at ht
      cases ht
      rw [exec_bmCount (Mask.fill_length _ _), State.finish_bm, Mask.validPixels_fill_zeros]
  · rw [exec_bmSetAllValid] at ht
    cases ht
    rw [exec_bmCount (Mask.fill_length _ _), State.finish_bm, Mask.validPixels_fill_ones]
  · rw [exec_bmSetValid_of_lt hk] at ht
    cases ht
    have hbit : (s.bm.setBit s.a0).bit s.a0 = true := by simp [Mask.bit_setBit _ (Mask.div_lt_length hl hk)]
    have hafter := exec_after_pixel_change (b := s.bm.setBit s.a0) hk rfl (Mask.setBit_length _ hl)
    rw [hbit, Mask.validPixels_setBit hl hk, ← Mask.count_eq_validPixels hl] at hafter
    exact hafter
  · rw [exec_bmSetInvalid_of_lt hk] at ht
    cases ht
    have hbit : (s.bm.clearBit s.a0).bit s.a0 = false := by simp [Mask.bit_clearBit _ (Mask.div_lt_length hl hk)]
    have hafter := exec_after_pixel_change (b := s.bm.clearBit s.a0) hk rfl (Mask.clearBit_length _ hl)
    rw [hbit, Mask.validPixels_clearBit hl hk, ← Mask.count_eq_validPixels hl] at hafter
    exact hafter
  · rw [Mask.count_eq_validPixels hl]
    exact b.validPixels_le_pixels

end Sys2Proof.Machine
end

/-! ## Facts about signed little-endian numbers -/

section
namespace Sys2Proof.Machine

/-! Little-endian numbers, read back (00_scope R11; 41_rle R150). -/

/-- Reading bytes as a number and writing it in as many bytes gives them back. -/
theorem leBytes_leNat (bs : List Byte) : leBytes bs.length (leNat bs) = bs := by
  induction bs with
  | nil => rfl
  | cons b t ih =>
    have hlow : BitVec.ofNat 8 (b.toNat + 256 * leNat t) = b := BitVec.eq_of_toNat_eq (by
      rw [BitVec.toNat_ofNat]; have := b.isLt; omega)
    have hhigh : (b.toNat + 256 * leNat t) / 256 = leNat t := by have := b.isLt; omega
    rw [List.length_cons, leNat, leBytes, hlow, hhigh, ih]

/-- Only the low `n` bytes of a number are written. -/
theorem leBytes_mod (n v : Nat) : leBytes n (v % 256 ^ n) = leBytes n v := by
  have h := leBytes_leNat (leBytes n v)
  rwa [leBytes_length, leNat_leBytes] at h

/-- The bytes of a signed number of `n` bytes: `i16Bytes` and `i32Bytes`. -/
def signedBytes (n : Nat) (c : Int) : List Byte := leBytes n (BitVec.ofInt (8 * n) c).toNat

theorem i16Bytes_eq_signedBytes (c : Int) : i16Bytes c = signedBytes 2 c := rfl
theorem i32Bytes_eq_signedBytes (c : Int) : i32Bytes c = signedBytes 4 c := rfl

@[simp] theorem i16Bytes_length (c : Int) : (i16Bytes c).length = 2 := leBytes_length 2 _

theorem two_pow_bytes (n : Nat) : 2 ^ (8 * n) = 256 ^ n := Nat.pow_mul 2 8 n

/-- A signed number in range is read back from its bytes. -/
theorem leInt_signedBytes {n : Nat} {c : Int} (hlo : -(2 ^ (8 * n) : Nat) ≤ 2 * c) (hhi : 2 * c < (2 ^ (8 * n) : Nat)) :
    leInt (8 * n) (signedBytes n c) = c := by
  rw [leInt, signedBytes, leNat_leBytes, ← two_pow_bytes, Nat.mod_eq_of_lt (BitVec.isLt _), BitVec.ofNat_toNat,
    BitVec.setWidth_eq, BitVec.toInt_ofInt]
  exact Int.bmod_eq_of_le_mul_two (by omega) (by omega)

/-- Every byte sequence is the bytes of the signed number it is read as. -/
theorem signedBytes_leInt {n : Nat} {bs : List Byte} (h : bs.length = n) : signedBytes n (leInt (8 * n) bs) = bs := by
  subst h
  rw [signedBytes, leInt, BitVec.ofInt_toInt, BitVec.toNat_ofNat, two_pow_bytes, Nat.mod_eq_of_lt (leNat_lt bs), leBytes_leNat]

theorem leInt_i16Bytes {c : Int} (hlo : -32768 ≤ c) (hhi : c ≤ 32767) : leInt 16 (i16Bytes c) = c :=
  leInt_signedBytes (n := 2) (by norm_num; omega) (by norm_num; omega)

theorem leInt_i16_range (bs : List Byte) : -32768 ≤ leInt 16 bs ∧ leInt 16 bs ≤ 32767 := by
  have h := BitVec.le_toInt (BitVec.ofNat 16 (leNat bs))
  have h' := BitVec.toInt_lt (x := BitVec.ofNat 16 (leNat bs))
  rw [leInt]
  omega

/-- A byte of a number depends on its remainder alone. -/
theorem byte_ofInt_congr {a b : Int} (h : a % 256 = b % 256) : BitVec.ofInt 8 a = BitVec.ofInt 8 b :=
  BitVec.eq_of_toNat_eq (by rw [BitVec.toNat_ofInt, BitVec.toNat_ofInt]; exact congrArg Int.toNat h)

/-- The two bytes of a count (41_rle R150). -/
theorem i16Bytes_eq (c : Int) : i16Bytes c = [BitVec.ofInt 8 c, BitVec.ofInt 8 (c / 256)] := by
  have hword : ((BitVec.ofInt 16 c).toNat : Int) = c % 65536 := by
    rw [BitVec.toNat_ofInt]
    exact Int.toNat_of_nonneg (Int.emod_nonneg c (by decide))
  have hlow : ((BitVec.ofInt 16 c).toNat : Int) % 256 = c % 256 := by omega
  have hhigh : (((BitVec.ofInt 16 c).toNat / 256 : Nat) : Int) % 256 = c / 256 % 256 := by omega
  rw [i16Bytes, leBytes, leBytes, leBytes, ← BitVec.ofInt_natCast, ← BitVec.ofInt_natCast, byte_ofInt_congr hlow,
    byte_ofInt_congr hhigh]

theorem i16Bytes_rleEos : i16Bytes Config.rleEos = [0x00#8, 0x80#8] := by decide

/-- The four bytes of a length are those of the number. -/
theorem i32Bytes_natCast (n : Nat) : i32Bytes n = leBytes 4 n := by
  have htoNat : (BitVec.ofInt 32 (n : Int)).toNat = n % 256 ^ 4 := by
    rw [BitVec.ofInt_natCast, BitVec.toNat_ofNat, ← two_pow_bytes]
  rw [i32Bytes, htoNat, leBytes_mod]

/-- A read of a signed number gives the number its bytes write, and a cursor after them. -/
theorem rdSigned_eq_ok {n : Nat} {rc rc' : Cursor} {c : Int} :
    rdSigned n rc = .ok (c, rc') ↔
      ∃ bs, rc.left = bs ++ rc'.left ∧ bs.length = n ∧ rc'.used = rc.used + n ∧ leInt (8 * n) bs = c := by
  rw [rdSigned]
  cases hr : rdBytes n rc with
  | error e =>
    simp only [reduceCtorEq, false_iff, not_exists]
    rintro bs ⟨hleft, hlen, hused, -⟩
    rw [rdBytes_eq_ok.mpr ⟨hleft, hlen, hused⟩] at hr
    cases hr
  | ok p =>
    obtain ⟨bs, rc₁⟩ := p
    simp only [Except.ok.injEq, Prod.mk.injEq]
    constructor
    · rintro ⟨rfl, rfl⟩
      obtain ⟨hleft, hlen, hused⟩ := rdBytes_eq_ok.mp hr
      exact ⟨bs, hleft, hlen, hused, rfl⟩
    · rintro ⟨bs', hleft, hlen, hused, hc⟩
      have hr' := hr.symm.trans (rdBytes_eq_ok.mpr ⟨hleft, hlen, hused⟩)
      cases hr'
      exact ⟨hc, rfl⟩

/-- It fails with no code but `Failed`. -/
theorem eq_failed_of_rdSigned {n : Nat} {rc : Cursor} {e : Raise} (h : rdSigned n rc = .error e) : e = .failed := by
  rw [rdSigned] at h
  cases hr : rdBytes n rc with
  | error e' =>
    rw [hr] at h
    cases h
    exact (rdBytes_eq_error.mp hr).1
  | ok p => rw [hr] at h; cases h

/-- A read at the head of a sequence takes the bytes that stand there. -/
theorem rdBytes_append (h t : List Byte) (u : Nat) :
    rdBytes h.length { left := h ++ t, used := u } = .ok (h, { left := t, used := u + h.length }) :=
  rdBytes_eq_ok.mpr ⟨rfl, rfl, rfl⟩

theorem rdSigned_two_i16Bytes {c : Int} (hlo : -32768 ≤ c) (hhi : c ≤ 32767) (t : List Byte) (u : Nat) :
    rdSigned 2 { left := i16Bytes c ++ t, used := u } = .ok (c, { left := t, used := u + 2 }) :=
  rdSigned_eq_ok.mpr ⟨i16Bytes c, rfl, i16Bytes_length c, rfl, leInt_i16Bytes hlo hhi⟩

end Sys2Proof.Machine
end

/-! ## Facts about the RLE decoder -/

section
namespace Sys2Proof.Machine

/-! The decoder and the legal streams (30_encoding R95, R96; 41_rle R155). -/

/-! One turn of the decoder's loop, on each of the three counts. -/

theorem rleDecode_endMark (fuel cap : Nat) (tail : List Byte) (u : Nat) :
    rleDecode (fuel + 1) cap { left := i16Bytes Config.rleEos ++ tail, used := u } = .ok ([], { left := tail, used := u + 2 }) := by
  rw [rleDecode, rdSigned_two_i16Bytes (by decide) (by decide)]
  exact if_pos rfl

theorem rleDecode_literal {fuel cap u : Nat} {lit rest out : List Byte} {rc : Cursor}
    (hlit : 1 ≤ lit.length ∧ lit.length ≤ 32767) (hcap : lit.length ≤ cap)
    (h : rleDecode fuel (cap - lit.length) { left := rest, used := u + 2 + lit.length } = .ok (out, rc)) :
    rleDecode (fuel + 1) cap { left := i16Bytes lit.length ++ (lit ++ rest), used := u } = .ok (lit ++ out, rc) := by
  have hmark : ((lit.length : Nat) : Int) ≠ Config.rleEos := by rw [Config.rleEos]; omega
  rw [rleDecode, rdSigned_two_i16Bytes (by omega) (by omega)]
  simp only [if_neg hmark, if_pos (show (0 : Int) < lit.length by omega), Int.toNat_natCast, rdBytes_append,
    if_neg (not_lt.mpr hcap), h]

theorem rleDecode_repeated {fuel cap u m : Nat} {b : Byte} {rest out : List Byte} {rc : Cursor} (hm : 1 ≤ m ∧ m ≤ 32767)
    (hcap : m ≤ cap) (h : rleDecode fuel (cap - m) { left := rest, used := u + 2 + 1 } = .ok (out, rc)) :
    rleDecode (fuel + 1) cap { left := i16Bytes (-(m : Int)) ++ ([b] ++ rest), used := u } =
      .ok (List.replicate m b ++ out, rc) := by
  have hmark : -(m : Int) ≠ Config.rleEos := by rw [Config.rleEos]; omega
  have hbyte : rdBytes 1 { left := [b] ++ rest, used := u + 2 } = .ok ([b], { left := rest, used := u + 2 + 1 }) :=
    rdBytes_append [b] rest (u + 2)
  rw [rleDecode, rdSigned_two_i16Bytes (by omega) (by omega)]
  simp only [if_neg hmark, if_neg (show ¬ 0 < -(m : Int) by omega), if_pos (show -(m : Int) < 0 by omega), Int.neg_neg,
    Int.toNat_natCast, hbyte, if_neg (not_lt.mpr hcap), h, List.headD_cons]

/-- The decoder takes a legal stream whose data fit the capacity, gives its data and stops after its end mark. -/
theorem rleDecode_of_rleStream {st out : List Byte} (h : RleStream st out) {fuel cap : Nat} (tail : List Byte) (u : Nat)
    (hfuel : st.length ≤ fuel) (hcap : out.length ≤ cap) :
    rleDecode fuel cap { left := st ++ tail, used := u } = .ok (out, { left := tail, used := u + st.length }) := by
  induction h generalizing fuel cap u with
  | endMark =>
    obtain ⟨fuel, rfl⟩ := Nat.exists_eq_succ_of_ne_zero (Nat.ne_zero_of_lt hfuel)
    exact i16Bytes_rleEos ▸ rleDecode_endMark fuel cap tail u
  | literal lit rest out hlit _ ih =>
    simp only [List.length_append, i16Bytes_length] at hfuel hcap
    obtain ⟨fuel, rfl⟩ := Nat.exists_eq_succ_of_ne_zero (show fuel ≠ 0 by omega)
    have hrest := ih (fuel := fuel) (cap := cap - lit.length) (u + 2 + lit.length) (by omega) (by omega)
    have hturn := rleDecode_literal hlit (by omega) hrest
    simpa only [List.append_assoc, List.length_append, i16Bytes_length, Nat.add_assoc] using hturn
  | repeated m b rest out hm _ ih =>
    simp only [List.length_append, i16Bytes_length, List.length_singleton, List.length_replicate] at hfuel hcap
    obtain ⟨fuel, rfl⟩ := Nat.exists_eq_succ_of_ne_zero (show fuel ≠ 0 by omega)
    have hrest := ih (fuel := fuel) (cap := cap - m) (u + 2 + 1) (by omega) (by omega)
    have hturn := rleDecode_repeated (b := b) hm (by omega) hrest
    simpa only [List.append_assoc, List.length_append, i16Bytes_length, List.length_singleton, Nat.add_assoc] using hturn

/-- The bytes of a count that was read are those the count is written in. -/
theorem count_of_rdSigned {rc rc' : Cursor} {c : Int} (h : rdSigned 2 rc = .ok (c, rc')) :
    rc.left = i16Bytes c ++ rc'.left ∧ rc'.used = rc.used + 2 ∧ -32768 ≤ c ∧ c ≤ 32767 := by
  obtain ⟨bs, hleft, hlen, hused, rfl⟩ := rdSigned_eq_ok.mp h
  rw [i16Bytes_eq_signedBytes, signedBytes_leInt hlen]
  exact ⟨hleft, hused, leInt_i16_range bs⟩

/-- One turn of the loop, where the decoder answers: it read the end mark, or one run and left the rest to later turns. -/
theorem rleDecode_succ_cases {fuel cap : Nat} {rc rc' : Cursor} {out : List Byte}
    (h : rleDecode (fuel + 1) cap rc = .ok (out, rc')) :
    (out = [] ∧ rc.left = i16Bytes Config.rleEos ++ rc'.left ∧ rc'.used = rc.used + 2) ∨
    (∃ (lit rest : List Byte) (rc₁ : Cursor), out = lit ++ rest ∧ (1 ≤ lit.length ∧ lit.length ≤ 32767) ∧
      rc.left = i16Bytes lit.length ++ lit ++ rc₁.left ∧ rc₁.used = rc.used + 2 + lit.length ∧
      rleDecode fuel (cap - lit.length) rc₁ = .ok (rest, rc')) ∨
    (∃ (m : Nat) (b : Byte) (rest : List Byte) (rc₁ : Cursor), out = List.replicate m b ++ rest ∧ (1 ≤ m ∧ m ≤ 32767) ∧
      rc.left = i16Bytes (-(m : Int)) ++ [b] ++ rc₁.left ∧ rc₁.used = rc.used + 2 + 1 ∧
      rleDecode fuel (cap - m) rc₁ = .ok (rest, rc')) := by
  rw [rleDecode] at h
  split at h
  · cases h
  rename_i c rc₁ hcount
  obtain ⟨hleft, hused, hlo, hhi⟩ := count_of_rdSigned hcount
  split at h
  case isTrue heos =>
    cases h
    exact .inl ⟨rfl, heos ▸ hleft, hused⟩
  rename_i hmark
  rw [Config.rleEos] at hmark
  split at h
  case isTrue hpos =>
    split at h
    · cases h
    rename_i lit rc₂ hlit
    obtain ⟨hleft₁, hlen, hused₁⟩ := rdBytes_eq_ok.mp hlit
    split at h
    · cases h
    split at h
    · cases h
    rename_i hrest
    cases h
    have hc : c = (lit.length : Nat) := by omega
    rw [← hlen] at hused₁ hrest
    exact .inr (.inl ⟨lit, _, rc₂, rfl, by omega, by rw [hleft, hleft₁, hc, List.append_assoc], by rw [hused₁, hused], hrest⟩)
  split at h
  case isTrue hneg =>
    split at h
    · cases h
    rename_i bs rc₂ hbyte
    obtain ⟨hleft₁, hlen, hused₁⟩ := rdBytes_eq_ok.mp hbyte
    obtain ⟨b, rfl⟩ := List.length_eq_one_iff.mp hlen
    split at h
    · cases h
    split at h
    · cases h
    rename_i hrest
    cases h
    have hc : -((-c).toNat : Int) = c := by omega
    exact .inr (.inr ⟨(-c).toNat, b, _, rc₂, rfl, by omega, by rw [hleft, hleft₁, hc, List.append_assoc], by rw [hused₁, hused],
      hrest⟩)
  case isFalse => cases h

/-- Where the decoder answers, a legal stream of its data stands at the head of what was left. -/
theorem rleStream_of_rleDecode {fuel cap : Nat} {rc rc' : Cursor} {out : List Byte} (h : rleDecode fuel cap rc = .ok (out, rc')) :
    ∃ st, rc.left = st ++ rc'.left ∧ rc'.used = rc.used + st.length ∧ RleStream st out := by
  induction fuel generalizing cap rc out with
  | zero => cases h
  | succ fuel ih =>
    rcases rleDecode_succ_cases h with ⟨rfl, hleft, hused⟩ | ⟨lit, rest, rc₁, rfl, hlit, hleft, hused, hrest⟩ |
      ⟨m, b, rest, rc₁, rfl, hm, hleft, hused, hrest⟩
    · exact ⟨_, hleft, by rw [i16Bytes_length, hused], i16Bytes_rleEos ▸ .endMark⟩
    · obtain ⟨st, hleft₁, hused₁, hst⟩ := ih hrest
      refine ⟨_, by rw [hleft, hleft₁, ← List.append_assoc], ?_, .literal lit st rest hlit hst⟩
      simp only [List.length_append, i16Bytes_length]
      omega
    · obtain ⟨st, hleft₁, hused₁, hst⟩ := ih hrest
      refine ⟨_, by rw [hleft, hleft₁, ← List.append_assoc], ?_, .repeated m b st rest hm hst⟩
      simp only [List.length_append, i16Bytes_length, List.length_singleton]
      omega

/-- The decoder fails with no code but `Failed`. -/
theorem eq_failed_of_rleDecode {fuel cap : Nat} {rc : Cursor} {e : Raise} (h : rleDecode fuel cap rc = .error e) : e = .failed := by
  induction fuel generalizing cap rc with
  | zero => cases h; rfl
  | succ fuel ih =>
    rw [rleDecode] at h
    split at h
    case h_1 hcount => cases h; exact eq_failed_of_rdSigned hcount
    split at h
    case isTrue => cases h
    split at h
    case isTrue =>
      split at h
      case h_1 hlit => cases h; exact (rdBytes_eq_error.mp hlit).1
      split at h
      case isTrue => cases h; rfl
      split at h <;> cases h
      exact ih ‹_›
    split at h
    case isTrue =>
      split at h
      case h_1 hbyte => cases h; exact (rdBytes_eq_error.mp hbyte).1
      split at h
      case isTrue => cases h; rfl
      split at h <;> cases h
      exact ih ‹_›
    case isFalse => cases h; rfl

/-- With its budget as fuel the decoder answers exactly on a legal stream whose data fit the capacity. -/
theorem rleDecode_start_eq_ok {budget cap : Nat} {bs out : List Byte} {rc : Cursor} (hb : bs.length = budget) :
    rleDecode budget cap (Cursor.start bs) = .ok (out, rc) ↔
      ∃ st, bs = st ++ rc.left ∧ rc.used = st.length ∧ RleStream st out ∧ out.length ≤ cap := by
  constructor
  · intro h
    obtain ⟨st, hleft, hused, hst⟩ := rleStream_of_rleDecode h
    exact ⟨st, hleft, hused.trans (Nat.zero_add _), hst, rleDecode_length_le h⟩
  · rintro ⟨st, hbs, hused, hst, hcap⟩
    have h := rleDecode_of_rleStream hst rc.left 0 (fuel := budget) (by rw [← hb, hbs]; simp) hcap
    rwa [← hbs, Nat.zero_add, ← hused] at h

end Sys2Proof.Machine
end

/-! ## Facts about the RLE encoder -/

section
namespace Sys2Proof.Machine

/-! The runs of the encoder's output (41_rle R152). -/

theorem literalRuns_nil : literalRuns [] = [] := rfl

/-- Literal bytes that fit one run. -/
theorem literalRuns_of_le {p : List Byte} (h : 1 ≤ p.length ∧ p.length ≤ 32767) : literalRuns p = i16Bytes p.length ++ p := by
  obtain ⟨hlo, hhi⟩ := h
  have hone : (p.length + 32766) / 32767 = 1 := by omega
  rw [literalRuns, hone, List.range_one, List.flatMap_singleton, Nat.mul_zero, Nat.sub_zero, Nat.min_eq_right hhi,
    List.drop_zero, List.take_of_length_le hhi]

/-- A run at the cap, and the runs of the bytes after it. -/
theorem literalRuns_cap_append {p : List Byte} (h : p.length = 32767) (q : List Byte) :
    literalRuns (p ++ q) = i16Bytes p.length ++ p ++ literalRuns q := by
  have hruns : ((p ++ q).length + 32766) / 32767 = (q.length + 32766) / 32767 + 1 := by rw [List.length_append]; omega
  have hlen : ∀ j, (p ++ q).length - 32767 * (j + 1) = q.length - 32767 * j := fun j => by rw [List.length_append]; omega
  have hdrop : ∀ j, (p ++ q).drop (32767 * (j + 1)) = q.drop (32767 * j) := fun j => by
    rw [show 32767 * (j + 1) = p.length + 32767 * j by omega, List.drop_length_add_append]
  have hfirst : min 32767 (p ++ q).length = p.length := by rw [List.length_append]; omega
  rw [literalRuns, hruns, List.range_succ_eq_map, List.flatMap_cons, List.flatMap_map, Nat.mul_zero, Nat.sub_zero, hfirst,
    List.drop_zero, List.take_left' h]
  simp only [Nat.succ_eq_add_one, hlen, hdrop, literalRuns]

/-- Copies of a byte that fit one run. -/
theorem repeatRuns_of_le {m : Nat} (h : 1 ≤ m ∧ m ≤ 32767) (x : Byte) : repeatRuns m x = i16Bytes (-(m : Int)) ++ [x] := by
  obtain ⟨hlo, hhi⟩ := h
  have hone : (m + 32766) / 32767 = 1 := by omega
  rw [repeatRuns, hone, List.range_one, List.flatMap_singleton, Nat.mul_zero, Nat.sub_zero, Nat.min_eq_right hhi]

/-- A run at the cap, and the runs of the copies after it. -/
theorem repeatRuns_cap_add (m : Nat) (x : Byte) :
    repeatRuns (32767 + m) x = i16Bytes (-32767) ++ [x] ++ repeatRuns m x := by
  have hruns : (32767 + m + 32766) / 32767 = (m + 32766) / 32767 + 1 := by omega
  have hlen : ∀ j, 32767 + m - 32767 * (j + 1) = m - 32767 * j := fun j => by omega
  have hfirst : min 32767 (32767 + m) = 32767 := by omega
  rw [repeatRuns, hruns, List.range_succ_eq_map, List.flatMap_cons, List.flatMap_map, Nat.mul_zero, Nat.sub_zero, hfirst]
  simp only [Nat.succ_eq_add_one, hlen, repeatRuns, Nat.cast_ofNat]

/-- Induction over literal bytes run by run. -/
theorem literalRuns_induction {P : List Byte → Prop} (nil : P []) (last : ∀ p, 1 ≤ p.length ∧ p.length ≤ 32767 → P p)
    (cap : ∀ p q, p.length = 32767 → P q → P (p ++ q)) (lit : List Byte) : P lit := by
  by_cases hnil : lit.length = 0
  · rwa [List.length_eq_zero_iff.mp hnil]
  by_cases hle : lit.length ≤ 32767
  · exact last lit ⟨Nat.one_le_iff_ne_zero.mpr hnil, hle⟩
  · rw [← List.take_append_drop 32767 lit]
    exact cap _ _ (List.length_take_of_le (by omega)) (literalRuns_induction nil last cap (lit.drop 32767))
termination_by lit.length
decreasing_by rw [List.length_drop]; omega

/-- Induction over copies of a byte run by run. -/
theorem repeatRuns_induction {P : Nat → Prop} (zero : P 0) (last : ∀ m, 1 ≤ m ∧ m ≤ 32767 → P m)
    (cap : ∀ m, P m → P (32767 + m)) (m : Nat) : P m := by
  by_cases hzero : m = 0
  · rwa [hzero]
  by_cases hle : m ≤ 32767
  · exact last m ⟨Nat.one_le_iff_ne_zero.mpr hzero, hle⟩
  · rw [← Nat.add_sub_of_le (not_le.mp hle).le]
    exact cap _ (repeatRuns_induction zero last cap (m - 32767))

theorem literalRuns_length (lit : List Byte) : (literalRuns lit).length = lit.length + 2 * ((lit.length + 32766) / 32767) := by
  induction lit using literalRuns_induction with
  | nil => rfl
  | last p h => rw [literalRuns_of_le h, List.length_append, i16Bytes_length]; omega
  | cap p q h ih =>
    rw [literalRuns_cap_append h, List.length_append, List.length_append, i16Bytes_length, List.length_append, ih]
    omega

theorem repeatRuns_length (m : Nat) (x : Byte) : (repeatRuns m x).length = 3 * ((m + 32766) / 32767) := by
  induction m using repeatRuns_induction with
  | zero => rfl
  | last m h => rw [repeatRuns_of_le h, List.length_append, i16Bytes_length, List.length_singleton]; omega
  | cap m ih =>
    rw [repeatRuns_cap_add, List.length_append, List.length_append, i16Bytes_length, List.length_singleton, ih]
    omega

/-- Literal runs before a legal stream make a legal stream. -/
theorem RleStream.literalRuns_append {st out : List Byte} (h : RleStream st out) (lit : List Byte) :
    RleStream (literalRuns lit ++ st) (lit ++ out) := by
  induction lit using literalRuns_induction with
  | nil => exact h
  | last p hp => rw [literalRuns_of_le hp]; exact .literal p st out hp h
  | cap p q hp ih =>
    rw [literalRuns_cap_append hp, List.append_assoc _ (literalRuns q), List.append_assoc p]
    exact .literal p _ _ (by omega) ih

/-- Repeat runs before a legal stream make a legal stream. -/
theorem RleStream.repeatRuns_append {st out : List Byte} (h : RleStream st out) (m : Nat) (x : Byte) :
    RleStream (repeatRuns m x ++ st) (List.replicate m x ++ out) := by
  induction m using repeatRuns_induction with
  | zero => exact h
  | last m hm => rw [repeatRuns_of_le hm]; exact .repeated m x st out hm h
  | cap m ih =>
    rw [repeatRuns_cap_add, List.append_assoc _ (repeatRuns m x), List.replicate_add, List.append_assoc (List.replicate _ x)]
    exact .repeated 32767 x _ _ (by omega) ih

/-- A legal stream is its end mark at least. -/
theorem RleStream.two_le_length {st out : List Byte} (h : RleStream st out) : 2 ≤ st.length := by
  cases h with
  | endMark => simp
  | literal lit rest out | repeated m b rest out => simp only [List.length_append, i16Bytes_length]; omega

/-- A legal stream that holds data has a run before its end mark. -/
theorem RleStream.five_le_length {st out : List Byte} (h : RleStream st out) (hout : out ≠ []) : 5 ≤ st.length := by
  cases h with
  | endMark => exact absurd rfl hout
  | literal lit rest out hlit t =>
    have := t.two_le_length
    simp only [List.length_append, i16Bytes_length]
    omega
  | repeated m b rest out hm t =>
    have := t.two_le_length
    simp only [List.length_append, i16Bytes_length, List.length_singleton]
    omega

/-! Where repeat runs start (41_rle R151). -/

/-- The first two bytes of a run are equal. -/
theorem eq_of_startsRun {x y : Byte} {rest : List Byte} (h : StartsRun (x :: y :: rest)) : x = y := (h.2 1 (by omega)).symm

/-- The encoder's lookahead tells whether a run starts. -/
theorem startsRun_cons_iff (x : Byte) (l : List Byte) : StartsRun (x :: l) ↔ enough x l = true := by
  match l with
  | [] | [_] | [_, _] | [_, _, _] | [_, _, _, _] => simp [StartsRun, enough, Config.minNumEven]
  | b :: c :: d :: e :: f :: l =>
    have henough : enough x (b :: c :: d :: e :: f :: l) = true ↔ b = x ∧ c = x ∧ d = x ∧ e = x := by
      simp [enough, Config.minNumEven]
    rw [henough]
    constructor
    · rintro ⟨-, h⟩
      exact ⟨h 1 (by omega), h 2 (by omega), h 3 (by omega), h 4 (by omega)⟩
    · rintro ⟨rfl, rfl, rfl, rfl⟩
      exact ⟨by simp, fun j hj => by interval_cases j <;> rfl⟩

/-- A sequence as the copies of a byte at its head and a rest that does not begin with that byte. -/
theorem exists_replicate_append (x : Byte) (a : List Byte) :
    ∃ (m : Nat) (rest : List Byte), a = List.replicate m x ++ rest ∧ rest.head? ≠ some x := by
  induction a with
  | nil => exact ⟨0, [], rfl, by simp⟩
  | cons y a ih =>
    by_cases hy : y = x
    · obtain ⟨m, rest, rfl, hrest⟩ := ih
      exact ⟨m + 1, rest, by rw [hy]; rfl, hrest⟩
    · exact ⟨0, y :: a, rfl, by simpa using hy⟩

/-- A run starts with five copies of a byte at least, and six bytes in all. -/
theorem startsRun_replicate_append {m : Nat} {rest : List Byte} (hm : 5 ≤ m) (hlen : 6 ≤ m + rest.length) (x : Byte) :
    StartsRun (List.replicate m x ++ rest) := by
  have hcopy : ∀ j < 5, (List.replicate m x ++ rest).getD j 0#8 = x := fun j hj => by
    rw [List.getD_append _ _ _ _ (by simp; omega), List.getD_replicate x (by omega)]
  exact ⟨by simpa using hlen, fun j hj => (hcopy j hj).trans (hcopy 0 (by omega)).symm⟩

/-- All the copies of its first byte that a run starts with. -/
theorem exists_replicate_append_of_startsRun {a : List Byte} (h : StartsRun a) :
    ∃ (m : Nat) (x : Byte) (rest : List Byte),
      a = List.replicate m x ++ rest ∧ 5 ≤ m ∧ 6 ≤ m + rest.length ∧ rest.head? ≠ some x := by
  obtain ⟨hlen, hcopy⟩ := h
  obtain ⟨m, rest, ha, hrest⟩ := exists_replicate_append (a.getD 0 0#8) a
  have htotal : 6 ≤ m + rest.length := by rwa [ha, List.length_append, List.length_replicate] at hlen
  refine ⟨m, a.getD 0 0#8, rest, ha, ?_, htotal, hrest⟩
  by_contra hm
  obtain ⟨y, t, rfl⟩ := List.exists_cons_of_length_pos (show 0 < rest.length by omega)
  have hy : a.getD m 0#8 = y := by
    rw [ha, List.getD_append_right _ _ _ _ (by simp)]
    simp
  exact hrest (congrArg some (hy.symm.trans (hcopy m (by omega))))

/-! The encoder's two modes (41_rle R150, R152). -/

/-- The encoder in odd mode, with the bytes of the pending literal run. -/
def RleState.pending (p : List Byte) : RleState := { odd := true, cntOdd := p.length, cntEven := 0, litRev := p.reverse }

/-- The encoder in even mode, with the count of the pending repeat run. -/
def RleState.repeating (c : Nat) : RleState := { odd := false, cntOdd := 0, cntEven := c, litRev := [] }

theorem rleEncode_eq (a : List Byte) : rleEncode a = rleScan (.pending []) a := rfl

theorem rleEncode_nil : rleEncode [] = i16Bytes Config.rleEos := rfl

/-- A byte at which no run starts is literal. -/
theorem rleByte_pending_of_not_startsRun (p : List Byte) {x y : Byte} {rest : List Byte} (h : ¬ StartsRun (x :: y :: rest)) :
    rleByte (.pending p) x y rest = (.pending (p ++ [x]), []) := by
  rw [startsRun_cons_iff, Bool.not_eq_true] at h
  simp [rleByte, h, RleState.pending, RleState.literal]

/-- Where a run starts the pending literals are emitted. -/
theorem rleByte_pending_of_startsRun {p : List Byte} {x y : Byte} {rest : List Byte} (h : StartsRun (x :: y :: rest))
    (hp : p.length < 32767) : rleByte (.pending p) x y rest = (.repeating 1, literalRuns p) := by
  have henough := (startsRun_cons_iff x (y :: rest)).mp h
  obtain rfl := eq_of_startsRun h
  cases p with
  | nil => simp [rleByte, henough, RleState.pending, RleState.repeating, literalRuns_nil]
  | cons z p =>
    rw [literalRuns_of_le ⟨by simp, hp.le⟩]
    simp [rleByte, henough, RleState.pending, RleState.repeating]

/-- A further copy is counted. -/
theorem rleByte_repeating_same (c : Nat) (x : Byte) (rest : List Byte) :
    rleByte (.repeating c) x x rest = (.repeating (c + 1), []) := by simp [rleByte, RleState.repeating]

/-- The last copy ends the repeat run. -/
theorem rleByte_repeating_other (c : Nat) {x y : Byte} (rest : List Byte) (h : x ≠ y) :
    rleByte (.repeating c) x y rest = (.pending [], i16Bytes (-(c + 1 : Nat)) ++ [x]) := by
  simp [rleByte, h, RleState.repeating, RleState.pending]

theorem rleFlushOdd_pending_of_lt {p : List Byte} (h : p.length < 32767) : rleFlushOdd (.pending p) = (.pending p, []) :=
  if_neg h.ne

theorem rleFlushOdd_pending_of_eq {p : List Byte} (h : p.length = 32767) :
    rleFlushOdd (.pending p) = (.pending [], i16Bytes p.length ++ p) := by
  simp [rleFlushOdd, RleState.pending, h, Config.rleCntMax]

theorem rleFlushOdd_repeating (c : Nat) : rleFlushOdd (.repeating c) = (.repeating c, []) :=
  if_neg (show ¬ 0 = 32767 by decide)

theorem rleFlushEven_pending (p : List Byte) (x : Byte) : rleFlushEven (.pending p) x = (.pending p, []) :=
  if_neg (show ¬ 0 = 32767 by decide)

theorem rleFlushEven_repeating_of_lt {c : Nat} (h : c < 32767) (x : Byte) :
    rleFlushEven (.repeating c) x = (.repeating c, []) := if_neg h.ne

theorem rleFlushEven_repeating_cap (x : Byte) :
    rleFlushEven (.repeating 32767) x = (.repeating 0, i16Bytes (-32767) ++ [x]) := if_pos rfl

/-! One byte that is not the last, its flushes included. -/

/-- What the encoder does with a byte `x` that is not the last, from what `rleByte` and the two flushes answer. -/
theorem rleScan_step {m m₁ m₂ m₃ : RleState} {x y : Byte} {rest out₁ out₂ out₃ : List Byte}
    (hbyte : rleByte m x y rest = (m₁, out₁)) (hodd : rleFlushOdd m₁ = (m₂, out₂)) (heven : rleFlushEven m₂ x = (m₃, out₃)) :
    rleScan m (x :: y :: rest) = out₁ ++ out₂ ++ out₃ ++ rleScan m₃ (y :: rest) := by
  rw [rleScan, hbyte, hodd, heven]

theorem rleScan_singleton (m : RleState) (x : Byte) : rleScan m [x] = rleLast m x := rfl

theorem rleScan_pending_of_lt {p : List Byte} {x y : Byte} {rest : List Byte} (h : ¬ StartsRun (x :: y :: rest))
    (hp : (p ++ [x]).length < 32767) :
    rleScan (.pending p) (x :: y :: rest) = rleScan (.pending (p ++ [x])) (y :: rest) :=
  rleScan_step (rleByte_pending_of_not_startsRun p h) (rleFlushOdd_pending_of_lt hp) (rleFlushEven_pending _ x)

theorem rleScan_pending_of_eq {p : List Byte} {x y : Byte} {rest : List Byte} (h : ¬ StartsRun (x :: y :: rest))
    (hp : (p ++ [x]).length = 32767) :
    rleScan (.pending p) (x :: y :: rest) = i16Bytes (p ++ [x]).length ++ (p ++ [x]) ++ rleEncode (y :: rest) := by
  rw [rleScan_step (rleByte_pending_of_not_startsRun p h) (rleFlushOdd_pending_of_eq hp) (rleFlushEven_pending _ x),
    List.nil_append, List.append_nil, rleEncode_eq]

theorem rleScan_pending_of_startsRun {p : List Byte} {x y : Byte} {rest : List Byte} (h : StartsRun (x :: y :: rest))
    (hp : p.length < 32767) :
    rleScan (.pending p) (x :: y :: rest) = literalRuns p ++ rleScan (.repeating 1) (y :: rest) := by
  rw [rleScan_step (rleByte_pending_of_startsRun h hp) (rleFlushOdd_repeating 1) (rleFlushEven_repeating_of_lt (by omega) x),
    List.append_nil, List.append_nil]

theorem rleScan_repeating_of_lt {c : Nat} (x : Byte) (rest : List Byte) (h : c + 1 < 32767) :
    rleScan (.repeating c) (x :: x :: rest) = rleScan (.repeating (c + 1)) (x :: rest) :=
  rleScan_step (rleByte_repeating_same c x rest) (rleFlushOdd_repeating _) (rleFlushEven_repeating_of_lt h x)

theorem rleScan_repeating_of_eq {c : Nat} (x : Byte) (rest : List Byte) (h : c + 1 = 32767) :
    rleScan (.repeating c) (x :: x :: rest) = i16Bytes (-32767) ++ [x] ++ rleScan (.repeating 0) (x :: rest) := by
  rw [rleScan_step (rleByte_repeating_same c x rest) (rleFlushOdd_repeating _) (h ▸ rleFlushEven_repeating_cap x),
    List.append_nil, List.nil_append]

theorem rleScan_repeating_other {c : Nat} {x y : Byte} (rest : List Byte) (h : x ≠ y) :
    rleScan (.repeating c) (x :: y :: rest) = i16Bytes (-(c + 1 : Nat)) ++ [x] ++ rleEncode (y :: rest) := by
  rw [rleScan_step (rleByte_repeating_other c rest h) (rleFlushOdd_pending_of_lt (by simp)) (rleFlushEven_pending _ x),
    List.append_nil, List.append_nil, rleEncode_eq]

theorem rleScan_pending_last (p : List Byte) (x : Byte) :
    rleScan (.pending p) [x] = i16Bytes (p ++ [x]).length ++ (p ++ [x]) ++ i16Bytes Config.rleEos := by
  simp [rleScan_singleton, rleLast, RleState.pending]

theorem rleScan_repeating_last (c : Nat) (x : Byte) :
    rleScan (.repeating c) [x] = i16Bytes (-(c + 1 : Nat)) ++ [x] ++ i16Bytes Config.rleEos := by
  simp [rleScan_singleton, rleLast, RleState.repeating]

/-! The stream run by run. -/

/-- In even mode all copies of the byte are repeat runs, and the rest is encoded anew. -/
theorem rleScan_repeating_replicate {x : Byte} {rest : List Byte} (hrest : rest.head? ≠ some x) (n : Nat) {c : Nat}
    (hc : c < 32767) :
    rleScan (.repeating c) (List.replicate (n + 1) x ++ rest) = repeatRuns (c + 1 + n) x ++ rleEncode rest := by
  induction n generalizing c with
  | zero =>
    rw [Nat.add_zero, repeatRuns_of_le ⟨by omega, by omega⟩]
    cases rest with
    | nil => exact rleScan_repeating_last c x
    | cons y rest => exact rleScan_repeating_other rest fun hxy => hrest (congrArg some hxy.symm)
  | succ n ih =>
    rcases Nat.lt_or_eq_of_le (Nat.succ_le_of_lt hc) with hlt | heq
    · refine (rleScan_repeating_of_lt x _ hlt).trans ((ih hlt).trans ?_)
      rw [Nat.add_right_comm (c + 1), Nat.add_assoc (c + 1)]
    · refine (rleScan_repeating_of_eq x _ heq).trans ?_
      have hgo := ih (c := 0) (by omega)
      rw [Nat.zero_add, Nat.add_comm 1 n] at hgo
      rw [show c + 1 = 32767 from heq, repeatRuns_cap_add, List.append_assoc _ (repeatRuns _ x), ← hgo]
      rfl

/-- In odd mode bytes at which no run starts are literal runs, when the pending bytes are so before `tail`: `more` are the bytes of
`tail` that its first runs take, `close` is what is emitted after them. -/
theorem rleScan_pending_append {tail more close : List Byte} (htail : tail ≠ [])
    (hclose : ∀ p : List Byte, p.length < 32767 → rleScan (.pending p) tail = literalRuns (p ++ more) ++ close) (lit p : List Byte)
    (hp : p.length < 32767) (hlit : ∀ t, t < lit.length → ¬ StartsRun ((lit ++ tail).drop t)) :
    rleScan (.pending p) (lit ++ tail) = literalRuns (p ++ (lit ++ more)) ++ close := by
  induction lit generalizing p with
  | nil => exact hclose p hp
  | cons x lit ih =>
    have hhead : ¬ StartsRun (x :: (lit ++ tail)) := hlit 0 (by simp)
    have htl : ∀ t, t < lit.length → ¬ StartsRun ((lit ++ tail).drop t) := fun t ht => hlit (t + 1) (by simpa using ht)
    obtain ⟨y, rest, hnext⟩ := List.exists_cons_of_ne_nil (show lit ++ tail ≠ [] by simp [htail])
    have hjoin : p ++ (x :: lit ++ more) = p ++ [x] ++ (lit ++ more) := by simp
    rw [hnext] at hhead
    rw [List.cons_append, hnext, hjoin]
    have hle : (p ++ [x]).length ≤ 32767 := by rw [List.length_append, List.length_singleton]; omega
    rcases Nat.lt_or_eq_of_le hle with hlt | heq
    · rw [rleScan_pending_of_lt hhead hlt, ← hnext]
      exact ih _ hlt htl
    · rw [rleScan_pending_of_eq hhead heq, ← hnext, rleEncode_eq, ih [] (by simp) htl, literalRuns_cap_append heq,
        List.nil_append, List.append_assoc _ (literalRuns _)]

/-- Bytes at which no run starts are encoded as literal runs. -/
theorem rleEncode_of_no_run {lit : List Byte} (h : ∀ t, t < lit.length → ¬ StartsRun (lit.drop t)) :
    rleEncode lit = literalRuns lit ++ i16Bytes Config.rleEos := by
  rcases List.eq_nil_or_concat lit with rfl | ⟨lit, z, rfl⟩
  · rfl
  · have hlast : ∀ p : List Byte, p.length < 32767 →
        rleScan (.pending p) [z] = literalRuns (p ++ [z]) ++ i16Bytes Config.rleEos := fun p hp => by
      rw [rleScan_pending_last, literalRuns_of_le (by simp; omega)]
    rw [List.concat_eq_append] at h ⊢
    exact rleScan_pending_append (by simp) hlast lit [] (by simp) fun t ht => h t (by rw [List.length_append]; omega)

/-- A run of a byte is encoded as the literal runs before it, its repeat runs, and the rest anew. -/
theorem rleEncode_of_run {lit rest : List Byte} {m : Nat} {x : Byte} (hm : 5 ≤ m) (hlen : 6 ≤ m + rest.length)
    (hrest : rest.head? ≠ some x) (h : ∀ t, t < lit.length → ¬ StartsRun ((lit ++ List.replicate m x ++ rest).drop t)) :
    rleEncode (lit ++ List.replicate m x ++ rest) = literalRuns lit ++ repeatRuns m x ++ rleEncode rest := by
  have hstart := startsRun_replicate_append hm hlen x
  obtain ⟨n, rfl⟩ := Nat.exists_eq_add_of_le' (show 2 ≤ m by omega)
  have hrun : ∀ p : List Byte, p.length < 32767 → rleScan (.pending p) (List.replicate (n + 2) x ++ rest) =
      literalRuns (p ++ []) ++ (repeatRuns (n + 2) x ++ rleEncode rest) := fun p hp => by
    refine (rleScan_pending_of_startsRun hstart hp).trans ?_
    rw [List.append_nil, Nat.add_comm n 2]
    exact congrArg _ (rleScan_repeating_replicate hrest n (by omega))
  rw [List.append_assoc] at h ⊢
  rw [rleEncode_eq, rleScan_pending_append (by simp) hrun lit [] (by simp) h]
  simp

/-- Induction over a sequence as the encoder cuts it: literal bytes with no run, or literal bytes, a run and a shorter rest. -/
theorem rleEncode_induction {P : List Byte → Prop} (literal : ∀ lit, (∀ t, t < lit.length → ¬ StartsRun (lit.drop t)) → P lit)
    (run : ∀ (lit rest : List Byte) (m : Nat) (x : Byte), 5 ≤ m → 6 ≤ m + rest.length → rest.head? ≠ some x →
      (∀ t, t < lit.length → ¬ StartsRun ((lit ++ List.replicate m x ++ rest).drop t)) → P rest →
      P (lit ++ List.replicate m x ++ rest)) (a : List Byte) : P a := by
  classical
  by_cases hex : ∃ t, StartsRun (a.drop t)
  · obtain ⟨m, x, rest, hdrop, hm, hlen, hrest⟩ := exists_replicate_append_of_startsRun (Nat.find_spec hex)
    have ha : a = a.take (Nat.find hex) ++ List.replicate m x ++ rest := by
      rw [List.append_assoc, ← hdrop, List.take_append_drop]
    have hshort : rest.length < a.length := by
      rw [ha]; simp only [List.length_append, List.length_replicate]; omega
    have hfirst : ∀ t, t < (a.take (Nat.find hex)).length → ¬ StartsRun (a.drop t) := fun t ht =>
      Nat.find_min hex (ht.trans_le (List.length_take_le _ _))
    have hP := run (a.take (Nat.find hex)) rest m x hm hlen hrest (ha ▸ hfirst) (rleEncode_induction literal run rest)
    rwa [← ha] at hP
  · exact literal a fun t _ ht => hex ⟨t, ht⟩
termination_by a.length

/-- The encoder writes a legal stream of its input. -/
theorem rleStream_rleEncode (a : List Byte) : RleStream (rleEncode a) a := by
  induction a using rleEncode_induction with
  | literal lit h =>
    have hstream := RleStream.endMark.literalRuns_append lit
    rwa [← i16Bytes_rleEos, ← rleEncode_of_no_run h, List.append_nil] at hstream
  | run lit rest m x hm hlen hrest h ih =>
    rw [rleEncode_of_run hm hlen hrest h, List.append_assoc, List.append_assoc]
    exact (ih.repeatRuns_append m x).literalRuns_append lit

/-- What a run saves pays for the literal runs it cuts in two (41_rle R153). -/
theorem rleEncode_length_le (a : List Byte) : (rleEncode a).length ≤ a.length + 2 * ((a.length + 32766) / 32767) + 2 := by
  induction a using rleEncode_induction with
  | literal lit h => rw [rleEncode_of_no_run h, List.length_append, literalRuns_length, i16Bytes_length]
  | run lit rest m x hm hlen hrest h ih =>
    rw [rleEncode_of_run hm hlen hrest h]
    simp only [List.length_append, literalRuns_length, repeatRuns_length, List.length_replicate]
    omega

end Sys2Proof.Machine
end

/-! ## What the RLE and mask segment commands do -/

section
namespace Sys2Proof.Machine

/-! The RLE commands (41_rle R153 to R155). -/

theorem exec_rleSize {s : State} (h : WindowsPass .rleSize s) :
    exec .rleSize s = .next (s.finish .ok (rleEncode (s.mem.readBytes s.a0 s.a1)).length 0) := by
  change execRleSize s = _
  exact perform_of_windowsOk id _ h

/-- `RLE.COMPRESS` encodes to the stream of its source. -/
theorem rleCompress_encodesTo {s : State} (h : WindowsPass .rleCompress s) :
    EncodesTo .rleCompress s (rleEncode (s.mem.readBytes s.a0 s.a1)) 0 := by
  refine encodesTo_of_storeOutput (onFailed := id) ?_
  change execRleCompress s = _
  exact perform_of_windowsOk id _ h

theorem exec_rleDecompress_of_ok {s : State} (h : WindowsPass .rleDecompress s) {out : List Byte} {rc : Cursor}
    (hd : rleDecode s.a1 s.a3 (Cursor.start (s.mem.readBytes s.a0 s.a1)) = .ok (out, rc)) :
    exec .rleDecompress s = .next ((s.store s.a2 out).finish .ok out.length rc.used) := by
  change execRleDecompress s = _
  exact (perform_of_windowsOk _ _ h).trans (by rw [hd]; rfl)

theorem exec_rleDecompress_of_error {s : State} (h : WindowsPass .rleDecompress s) {e : Raise}
    (hd : rleDecode s.a1 s.a3 (Cursor.start (s.mem.readBytes s.a0 s.a1)) = .error e) :
    exec .rleDecompress s = .next ((scrambleOutput .rleDecompress s).finish .failed 0 0) := by
  obtain rfl := eq_failed_of_rleDecode hd
  change execRleDecompress s = _
  exact (perform_of_windowsOk _ _ h).trans (by rw [hd]; rfl)

/-- A stream decoder whose one write window starts at `a` and is `n` bytes long has failed as R289 says. -/
theorem decoderFailed_of_scrambleOutput {i : Instr} {s : State} {a n : Nat}
    (h : exec i s = .next ((scrambleOutput i s).finish .failed 0 0)) (hw : ∀ w ∈ windows i s, w.write = true → w = wwin a n) :
    DecoderFailed i s a n := by
  refine ⟨_, h, ⟨rfl, rfl, rfl, rfl, rfl⟩, fun x hx => ?_, ⟨rfl, rfl, rfl⟩, ⟨rfl, rfl, rfl, rfl, rfl, rfl, rfl, rfl, rfl, rfl, rfl⟩⟩
  refine Memory.read_scrambleWrites_other s.mem s.fresh x _ fun w hmem hwrite => ?_
  rw [hw w hmem hwrite, Bool.eq_false_iff, ne_eq, Window.covers_iff]
  exact hx

theorem eq_wwin_of_mem_windows_rleDecompress {s : State} {w : Window} (hmem : w ∈ windows .rleDecompress s)
    (hwrite : w.write = true) : w = wwin s.a2 s.a3 := by
  rcases List.mem_pair.mp hmem with rfl | rfl
  · cases hwrite
  · rfl

/-! The mask segments (30_encoding R97; 41_rle R157, R158). -/

theorem maskSegment_of_uniform {b : Mask} (h : b.count = 0 ∨ b.count = b.pixels) : maskSegment b = leBytes 4 0 := by
  rw [maskSegment, if_pos h]
  exact i32Bytes_natCast 0

theorem maskSegment_of_mixed {b : Mask} (hl : b.bits.length = b.size) (h0 : b.count ≠ 0) (hN : b.count ≠ b.pixels) :
    maskSegment b = leBytes 4 (rleEncode b.bits).length ++ rleEncode b.bits := by
  rw [maskSegment, if_neg (not_or.mpr ⟨h0, hN⟩), List.take_of_length_le hl.le, i32Bytes_natCast]

/-- A count of four bytes that is not negative, read at the head of a segment. -/
theorem rdSigned_four_start {src : List Byte} {rc : Cursor} {n : Nat} :
    rdSigned 4 (Cursor.start src) = .ok ((n : Int), rc) ↔
      n < 2147483648 ∧ src = leBytes 4 n ++ rc.left ∧ rc.used = 4 := by
  rw [rdSigned_eq_ok]
  constructor
  · rintro ⟨bs, hleft, hlen, hused, hn⟩
    have hbytes : i32Bytes n = bs := by rw [i32Bytes_eq_signedBytes, ← hn, signedBytes_leInt hlen]
    have hmax := BitVec.toInt_lt (x := BitVec.ofNat (8 * 4) (leNat bs))
    rw [leInt] at hn
    rw [i32Bytes_natCast] at hbytes
    exact ⟨by omega, hbytes ▸ hleft, by simpa [Cursor.start] using hused⟩
  · rintro ⟨hn, hsrc, hused⟩
    refine ⟨leBytes 4 n, hsrc, leBytes_length 4 n, by simpa [Cursor.start] using hused, ?_⟩
    rw [← i32Bytes_natCast, i32Bytes_eq_signedBytes]
    exact leInt_signedBytes (by norm_num; omega) (by norm_num; omega)

theorem readSegment_all_invalid {b : Mask} {src : List Byte} {rc : Cursor}
    (hcount : rdSigned 4 (Cursor.start src) = .ok (0, rc)) : readSegment b 0 src = .ok (b.fill 0x00#8, 4) := by
  simp [readSegment, hcount]

theorem readSegment_all_valid {b : Mask} {src : List Byte} {rc : Cursor}
    (hcount : rdSigned 4 (Cursor.start src) = .ok (0, rc)) (h0 : b.pixels ≠ 0) :
    readSegment b b.pixels src = .ok (b.fill 0xFF#8, 4) := by
  simp [readSegment, hcount, h0]

/-- A positive count: the mask is what the stream in its bytes decodes to, if that has the store's length and the announced number
of valid pixels. -/
theorem readSegment_stream {b : Mask} {nv cnt : Nat} {src stream out : List Byte} {rc rc₁ rc₂ : Cursor}
    (hcount : rdSigned 4 (Cursor.start src) = .ok ((cnt : Int), rc)) (hpos : 0 < cnt) (h0 : nv ≠ 0) (hN : nv ≠ b.pixels)
    (hbytes : rdBytes cnt rc = .ok (stream, rc₁)) (hout : rleDecode cnt b.size (Cursor.start stream) = .ok (out, rc₂))
    (hlen : out.length = b.size) (hvalid : ({ b with bits := out } : Mask).validPixels = nv) :
    readSegment b nv src = .ok ({ b with bits := out }, 4 + cnt) := by
  have hneg : ¬ ((cnt : Int) < 0) := by omega
  have hcnt : ((cnt : Nat) : Int) ≠ 0 := by omega
  have hnv : ¬ (nv = 0 ∨ nv = b.pixels) := not_or.mpr ⟨h0, hN⟩
  have hcountValid : ({ b with bits := out } : Mask).count = nv := (Mask.count_eq_validPixels hlen).trans hvalid
  simp only [readSegment, hcount, if_neg hneg, if_neg hnv, if_neg hcnt, Int.toNat_natCast, hbytes, hout, hlen, hcountValid,
    ne_eq, not_true_eq_false, if_false]

/-- Every legal segment is read as what it describes. -/
theorem readSegment_of_segmentDecodes {b b' : Mask} {nv used : Nat} {src : List Byte} (h : SegmentDecodes b nv src b' used) :
    readSegment b nv src = .ok (b', used) := by
  obtain ⟨cnt, tail, hcnt, hsrc, hcase⟩ := h
  have hcount : rdSigned 4 (Cursor.start src) = .ok ((cnt : Int), { left := tail, used := 4 }) :=
    rdSigned_four_start.mpr ⟨hcnt, hsrc, rfl⟩
  rcases hcase with ⟨rfl, rfl, rfl, rfl⟩ | ⟨rfl, h0, rfl, rfl, rfl⟩ |
    ⟨hpos, h0, hN, hle, rfl, st, pad, out, htake, hst, hlen, rfl, hvalid⟩
  · exact readSegment_all_invalid hcount
  · exact readSegment_all_valid hcount h0
  · have htakeLen : (tail.take cnt).length = cnt := List.length_take_of_le hle
    have hbytes : rdBytes cnt { left := tail, used := 4 } = .ok (tail.take cnt, { left := tail.drop cnt, used := 4 + cnt }) :=
      rdBytes_eq_ok.mpr ⟨(List.take_append_drop cnt tail).symm, htakeLen, rfl⟩
    have hout : rleDecode cnt b.size (Cursor.start (tail.take cnt)) = .ok (out, { left := pad, used := st.length }) :=
      (rleDecode_start_eq_ok htakeLen).mpr ⟨st, htake, rfl, hst, hlen.le⟩
    exact readSegment_stream hcount hpos h0 hN hbytes hout hlen hvalid

/-- What is read is a legal segment. -/
theorem segmentDecodes_of_readSegment {b b' : Mask} {nv used : Nat} {src : List Byte} (h : readSegment b nv src = .ok (b', used)) :
    SegmentDecodes b nv src b' used := by
  rw [readSegment] at h
  split at h
  · cases h
  rename_i c rc hcount
  split at h
  · cases h
  rename_i hneg
  obtain ⟨cnt, rfl⟩ := Int.eq_ofNat_of_zero_le (not_lt.mp hneg)
  obtain ⟨hcnt, hsrc, -⟩ := rdSigned_four_start.mp hcount
  refine ⟨cnt, rc.left, hcnt, hsrc, ?_⟩
  split at h
  case isTrue hnv =>
    split at h
    · cases h
    rename_i hzero
    have hzero : cnt = 0 := by omega
    split at h
    case isTrue h0 => cases h; exact .inl ⟨hzero, h0, rfl, rfl⟩
    case isFalse h0 => cases h; exact .inr (.inl ⟨hzero, h0, hnv.resolve_left h0, rfl, rfl⟩)
  rename_i hnv
  obtain ⟨h0, hN⟩ := not_or.mp hnv
  split at h
  · cases h
  split at h
  · cases h
  rename_i stream rc₁ hbytes
  obtain ⟨hleft, hlen, -⟩ := rdBytes_eq_ok.mp hbytes
  rw [Int.toNat_natCast] at hlen
  split at h
  · cases h
  rename_i out rc₂ hout
  rw [Int.toNat_natCast, rleDecode_start_eq_ok hlen] at hout
  obtain ⟨st, hstream, -, hst, -⟩ := hout
  split at h
  · cases h
  rename_i hsize
  split at h
  · cases h
  rename_i hvalid
  rw [not_not] at hsize hvalid
  cases h
  refine .inr (.inr ⟨by omega, h0, hN, by rw [hleft, List.length_append]; omega, by simp, st, rc₂.left, out, ?_, hst, hsize, rfl,
    (Mask.count_eq_validPixels hsize).symm.trans hvalid⟩)
  rw [hleft, List.take_left' hlen, hstream]

/-- A segment that is not read fails with no code but `Failed`. -/
theorem eq_failed_of_readSegment {b : Mask} {nv : Nat} {src : List Byte} {e : Raise} (h : readSegment b nv src = .error e) :
    e = .failed := by
  rw [readSegment] at h
  split at h
  case h_1 hcount => cases h; exact eq_failed_of_rdSigned hcount
  split at h
  · cases h; rfl
  split at h
  case isTrue =>
    split at h
    · cases h; rfl
    split at h <;> cases h
  split at h
  · cases h; rfl
  split at h
  case h_1 hbytes => cases h; exact (rdBytes_eq_error.mp hbytes).1
  split at h
  case h_1 hout => cases h; exact eq_failed_of_rleDecode hout
  split at h
  · cases h; rfl
  split at h
  · cases h; rfl
  · cases h

/-! The MSK commands (41_rle R157, R158). -/

/-- `MSK.ENCODE` encodes to the segment of the store. -/
theorem mskEncode_encodesTo {s : State} (h : WindowsPass .mskEncode s) : EncodesTo .mskEncode s (maskSegment s.bm) s.bm.count := by
  refine encodesTo_of_storeOutput (onFailed := id) ?_
  change execMskEncode s = _
  exact perform_of_windowsOk id _ h

theorem exec_mskDecode_of_lt {s : State} (h : WindowsPass .mskDecode s) (hnv : s.bm.pixels < s.a4) :
    exec .mskDecode s = .next (s.finish .wrongParam 0 0) := by
  change execMskDecode s = _
  exact (perform_of_windowsOk _ _ h).trans (by rw [if_pos hnv]; rfl)

theorem exec_mskDecode_of_ok {s : State} (h : WindowsPass .mskDecode s) (hnv : s.a4 ≤ s.bm.pixels) {b : Mask} {used : Nat}
    (hseg : readSegment s.bm s.a4 (s.mem.readBytes s.a0 s.a1) = .ok (b, used)) :
    exec .mskDecode s = .next (({ s with bm := b } : State).finish .ok s.a4 used) := by
  change execMskDecode s = _
  exact (perform_of_windowsOk _ _ h).trans (by rw [if_neg (not_lt.mpr hnv), hseg]; rfl)

theorem exec_mskDecode_of_error {s : State} (h : WindowsPass .mskDecode s) (hnv : s.a4 ≤ s.bm.pixels) {e : Raise}
    (hseg : readSegment s.bm s.a4 (s.mem.readBytes s.a0 s.a1) = .error e) :
    exec .mskDecode s = .next ((scrambleMask s).finish .failed 0 0) := by
  obtain rfl := eq_failed_of_readSegment hseg
  change execMskDecode s = _
  exact (perform_of_windowsOk _ _ h).trans (by rw [if_neg (not_lt.mpr hnv), hseg]; rfl)

/-! Mask fidelity (41_rle R159). -/

theorem getLsbD_ones : ∀ i < 8, (0xFF#8).getLsbD i = true := by decide

theorem Mask.bit_of_validPixels_eq_zero {b : Mask} (h : b.validPixels = 0) {k : Nat} (hk : k < b.pixels) : b.bit k = false := by
  rw [Mask.validPixels_eq_card, Finset.card_eq_zero] at h
  rw [Bool.eq_false_iff]
  intro hbit
  have hmem := Mask.mem_validSet.mpr ⟨hk, hbit⟩
  simp [h] at hmem

theorem Mask.bit_of_validPixels_eq_pixels {b : Mask} (h : b.validPixels = b.pixels) {k : Nat} (hk : k < b.pixels) :
    b.bit k = true := by
  rw [Mask.validPixels_eq_card] at h
  have hall : b.validSet = Finset.range b.pixels :=
    Finset.eq_of_subset_of_card_le (Finset.filter_subset _ _) (by rw [h, Finset.card_range])
  exact (Mask.mem_validSet.mp (hall ▸ Finset.mem_range.mpr hk)).2

/-- The segment of a mask with valid and invalid pixels is a legal one of the mask itself. -/
theorem segmentDecodes_maskSegment {b : Mask} (old tail : List Byte) (hl : b.bits.length = b.size) (h0 : b.count ≠ 0)
    (hN : b.count ≠ b.pixels) (hlt : (rleEncode b.bits).length < 2147483648) :
    SegmentDecodes { b with bits := old } b.count (maskSegment b ++ tail) b (maskSegment b).length := by
  have hst := rleStream_rleEncode b.bits
  have hseg := maskSegment_of_mixed hl h0 hN
  refine ⟨(rleEncode b.bits).length, rleEncode b.bits ++ tail, hlt, by rw [hseg, List.append_assoc], .inr (.inr
    ⟨Nat.zero_lt_of_lt hst.two_le_length, h0, hN, by simp, by simp [hseg], rleEncode b.bits, [], b.bits, by simp, hst, hl, rfl,
      (Mask.count_eq_validPixels hl).symm⟩)⟩

/-- The count of a zero-length segment. -/
theorem rdSigned_zero_segment (tail : List Byte) :
    rdSigned 4 (Cursor.start (leBytes 4 0 ++ tail)) = .ok (0, { left := tail, used := 4 }) :=
  rdSigned_four_start (n := 0).mpr ⟨by omega, rfl, rfl⟩

end Sys2Proof.Machine
end

/-! ## The obligations of the RLE and mask segment codecs -/

section
namespace Sys2Proof.Machine

/-- Settles O27, from the stream the encoder writes and what the decoder does with every legal stream. -/
theorem rleRoundTrip : Obligations.RleRoundTrip := fun a =>
  have hst := rleStream_rleEncode a
  ⟨hst, fun _ _ hcap => (rleDecode_start_eq_ok rfl).mpr ⟨rleEncode a, rfl, rfl, hst, hcap⟩⟩

/-- Settles O25: the stream is known run by run, and its size by induction over the runs. -/
theorem rleSizeAndCompressOutcome : Obligations.RleSizeAndCompressOutcome := by
  refine ⟨fun s => exec_rleSize, fun s => rleCompress_encodesTo, ?_, fun a ha => ⟨?_, rleEncode_length_le a⟩, i16Bytes_eq,
    fun lit h => ?_, fun lit rest m x hm hlen hrest h => rleEncode_of_run hm hlen hrest h⟩
  · rw [rleEncode_nil, i16Bytes_length]
  · exact (rleStream_rleEncode a).five_le_length (List.ne_nil_of_length_pos ha)
  · rw [rleEncode_of_no_run h, i16Bytes_rleEos]

/-- Settles O26: the decoder answers exactly on the legal streams that fit. -/
theorem rleDecompressOutcome : Obligations.RleDecompressOutcome := by
  intro s hw
  have hbudget := Memory.readBytes_length s.mem s.a0 s.a1
  refine ⟨fun st out tail hsrc hst hcap => ?_, fun hnone => ?_⟩
  · have hd := (rleDecode_start_eq_ok (rc := ⟨tail, st.length⟩) hbudget).mpr ⟨st, hsrc, rfl, hst, hcap⟩
    exact ⟨_, exec_rleDecompress_of_ok hw hd, stored_finish_store s s.a2 out out.length st.length⟩
  · cases hd : rleDecode s.a1 s.a3 (Cursor.start (s.mem.readBytes s.a0 s.a1)) with
    | error e =>
      exact decoderFailed_of_scrambleOutput (exec_rleDecompress_of_error hw hd) fun w => eq_wwin_of_mem_windows_rleDecompress
    | ok p =>
      obtain ⟨st, hsrc, -, hst, hcap⟩ := (rleDecode_start_eq_ok hbudget).mp hd
      exact absurd ⟨st, p.1, p.2.left, hsrc, hst, hcap⟩ hnone

/-- Settles O28: the count of the store is the number of its valid pixels. -/
theorem mskEncodeOutcome : Obligations.MskEncodeOutcome := by
  intro s hl hw
  have henc := mskEncode_encodesTo hw
  rw [← Mask.count_eq_validPixels hl]
  refine ⟨fun huniform => ?_, fun h0 hN => ?_⟩
  · rwa [maskSegment_of_uniform huniform] at henc
  · rwa [maskSegment_of_mixed hl h0 hN] at henc

/-- Settles O29: what is read is exactly the legal segments. -/
theorem mskDecodeOutcome : Obligations.MskDecodeOutcome := by
  intro s hw
  refine ⟨exec_mskDecode_of_lt hw, fun hnv => ⟨fun b used hseg => ?_, fun hnone => ?_⟩⟩
  · exact exec_mskDecode_of_ok hw hnv (readSegment_of_segmentDecodes hseg)
  · cases hseg : readSegment s.bm s.a4 (s.mem.readBytes s.a0 s.a1) with
    | error e => exact ⟨(scrambleMask s).bm.bits, by simp [scrambleMask], exec_mskDecode_of_error hw hnv hseg⟩
    | ok p => exact absurd ⟨p.1, p.2, segmentDecodes_of_readSegment hseg⟩ hnone

/-- Settles O30: a zero-length segment fills the store as every pixel was, any other is the stream of the store's bytes. -/
theorem maskSegmentsAreFaithful : Obligations.MaskSegmentsAreFaithful := by
  intro b old tail hl hlt
  have hcount := Mask.count_eq_validPixels hl
  by_cases h0 : b.count = 0
  · rw [maskSegment_of_uniform (.inl h0), h0]
    refine ⟨b.fill 0x00#8, readSegment_all_invalid (rdSigned_zero_segment tail), rfl, rfl, fun k hk => ?_,
      fun hne => absurd rfl hne⟩
    rw [Mask.bit_of_validPixels_eq_zero (hcount.symm.trans h0) hk, Mask.bit_fill _ _ hk, BitVec.getLsbD_zero]
  by_cases hN : b.count = b.pixels
  · rw [maskSegment_of_uniform (.inr hN), hN]
    refine ⟨b.fill 0xFF#8, readSegment_all_valid (rdSigned_zero_segment tail) (hN ▸ h0), rfl, rfl, fun k hk => ?_,
      fun _ hne => absurd rfl hne⟩
    rw [Mask.bit_of_validPixels_eq_pixels (hcount.symm.trans hN) hk, Mask.bit_fill _ _ hk, getLsbD_ones _ (by omega)]
  · exact ⟨b, readSegment_of_segmentDecodes (segmentDecodes_maskSegment old tail hl h0 hN hlt), rfl, rfl, fun _ _ => rfl,
      fun _ _ => rfl⟩

end Sys2Proof.Machine
end

/-! ## Facts about bit strings and stuffed words -/

section
namespace Sys2Proof.Machine

/-! Rounding up to whole words (00_scope R8). -/

theorem ceilDiv_bsWord (n : Nat) : ceilDiv n Config.bsWord = (n + 31) / 32 := rfl

theorem stuffBytes_eq (n b : Nat) : stuffBytes n b = 4 * ((n * b + 31) / 32) := rfl

/-! Bit lengths (00_scope R9). -/

theorem bitlen_le_iff {v n : Nat} : bitlen v ≤ n ↔ v < 2 ^ n := by
  unfold bitlen
  split
  · rename_i h; simp [h]
  · rename_i h; rw [Nat.succ_le_iff, Nat.log2_lt h]

theorem lt_two_pow_bitlen (v : Nat) : v < 2 ^ bitlen v := bitlen_le_iff.mp le_rfl

theorem lt_bitlen_iff {v n : Nat} : n < bitlen v ↔ 2 ^ n ≤ v := by
  rw [← not_le, bitlen_le_iff, not_lt]

@[simp] theorem bitlen_zero : bitlen 0 = 0 := rfl

theorem one_le_bitlen {v : Nat} (h : v ≠ 0) : 1 ≤ bitlen v := lt_bitlen_iff.mpr (Nat.one_le_iff_ne_zero.mpr h)

theorem two_pow_bitlen_pred_le {v : Nat} (h : v ≠ 0) : 2 ^ (bitlen v - 1) ≤ v :=
  lt_bitlen_iff.mp (by have := one_le_bitlen h; omega)

/-! Bit strings and the numbers they write (00_scope R14). -/

theorem bitsOf_eq_map (n v : Nat) : bitsOf n v = (List.range n).map (fun j => v.testBit (n - 1 - j)) := by
  induction n with
  | zero => rfl
  | succ n ih =>
    rw [bitsOf, ih, List.range_succ_eq_map, List.map_cons, List.map_map]
    simp [Function.comp_def, Nat.sub_sub, Nat.add_comm 1]

/-- Bit `j` from the left is the one of weight `2^(n-1-j)`. -/
theorem getD_bitsOf {n j : Nat} (v : Nat) (h : j < n) : (bitsOf n v).getD j false = v.testBit (n - 1 - j) := by
  simp [bitsOf_eq_map, List.getD_eq_getElem?_getD, h]

/-- Only the low `n` bits of a number are written. -/
theorem bitsOf_mod (n v : Nat) : bitsOf n (v % 2 ^ n) = bitsOf n v := by
  rw [bitsOf_eq_map, bitsOf_eq_map]
  refine List.map_congr_left fun j hj => ?_
  rw [Nat.testBit_mod_two_pow, decide_eq_true (by have := List.mem_range.mp hj; omega), Bool.true_and]

@[simp] theorem natOfBits_nil : natOfBits [] = 0 := rfl

theorem natOfBits_concat (bs : List Bool) (b : Bool) : natOfBits (bs ++ [b]) = 2 * natOfBits bs + b.toNat := by
  simp [natOfBits]

theorem natOfBits_append (p q : List Bool) : natOfBits (p ++ q) = natOfBits p * 2 ^ q.length + natOfBits q := by
  induction q using List.reverseRecOn with
  | nil => simp
  | append_singleton q b ih =>
    rw [← List.append_assoc, natOfBits_concat, ih, natOfBits_concat, List.length_append, List.length_singleton, Nat.pow_succ]
    ring

theorem natOfBits_lt (bs : List Bool) : natOfBits bs < 2 ^ bs.length := by
  induction bs using List.reverseRecOn with
  | nil => simp
  | append_singleton bs b ih =>
    have := b.toNat_lt
    rw [natOfBits_concat, List.length_append, List.length_singleton, Nat.pow_succ]
    omega

theorem natOfBits_replicate_false (n : Nat) : natOfBits (List.replicate n false) = 0 := by
  induction n with
  | zero => rfl
  | succ n ih => rw [List.replicate_succ', natOfBits_concat, ih]; rfl

theorem natOfBits_cons (b : Bool) (bs : List Bool) : natOfBits (b :: bs) = b.toNat * 2 ^ bs.length + natOfBits bs := by
  have h := natOfBits_append [b] bs
  rwa [show natOfBits [b] = b.toNat from by simp [natOfBits]] at h

/-- A number is the number its low bits write. -/
theorem natOfBits_bitsOf (n v : Nat) : natOfBits (bitsOf n v) = v % 2 ^ n := by
  induction n with
  | zero => simp [bitsOf, Nat.mod_one]
  | succ n ih => rw [bitsOf, natOfBits_cons, ih, bitsOf_length, Nat.mod_pow_succ, Nat.toNat_testBit, Nat.add_comm, Nat.mul_comm]

/-- A bit string is written back from its number. -/
theorem bitsOf_natOfBits (bs : List Bool) : bitsOf bs.length (natOfBits bs) = bs := by
  induction bs with
  | nil => rfl
  | cons b bs ih =>
    have hlt := natOfBits_lt bs
    have htop : (natOfBits (b :: bs)).testBit bs.length = b := by
      rw [natOfBits_cons, Nat.mul_comm, Nat.testBit_two_pow_mul_add _ hlt]
      cases b <;> simp
    have hlow : natOfBits (b :: bs) % 2 ^ bs.length = natOfBits bs := by
      rw [natOfBits_cons, Nat.mul_comm, Nat.mul_add_mod, Nat.mod_eq_of_lt hlt]
    rw [List.length_cons, bitsOf, htop, ← bitsOf_mod, hlow, ih]

/-! The bits of little-endian bytes (00_scope R11). -/

/-- Bit `q` of a little-endian number is bit `q mod 8` of byte `q div 8`. -/
theorem testBit_leNat (bytes : List Byte) (q : Nat) : (leNat bytes).testBit q = (bytes.getD (q / 8) 0#8).getLsbD (q % 8) := by
  induction bytes generalizing q with
  | nil => simp [leNat]
  | cons b t ih =>
    rw [leNat, Nat.add_comm, show (256 : Nat) = 2 ^ 8 from rfl, Nat.testBit_two_pow_mul_add _ b.isLt, ih]
    by_cases hq : q < 8
    · simp [hq, Nat.div_eq_of_lt hq, Nat.mod_eq_of_lt hq, BitVec.testBit_toNat]
    · obtain ⟨r, rfl⟩ := Nat.exists_eq_add_of_le' (not_lt.mp hq)
      simp [hq]

/-- Byte `j` of a number. -/
theorem getD_leBytes {n j : Nat} (v : Nat) (h : j < n) : (leBytes n v).getD j 0#8 = BitVec.ofNat 8 (v / 256 ^ j) := by
  induction n generalizing v j with
  | zero => omega
  | succ n ih =>
    cases j with
    | zero => simp [leBytes]
    | succ j => rw [leBytes, List.getD_cons_succ, ih _ (by omega), Nat.div_div_eq_div_mul, Nat.pow_succ']

/-! The bits of whole words (42_bitstuffer R182). -/

theorem streamBits_word (w : Nat) (t : List Byte) : streamBits (leBytes 4 w ++ t) = bitsOf 32 w ++ streamBits t := by
  have h := bitsOf_mod 32 w
  rw [show 2 ^ 32 = 256 ^ 4 from rfl, ← leNat_leBytes] at h
  rw [← h]
  rfl

theorem streamBits_cons (b0 b1 b2 b3 : Byte) (t : List Byte) :
    streamBits (b0 :: b1 :: b2 :: b3 :: t) = bitsOf 32 (leNat [b0, b1, b2, b3]) ++ streamBits t := rfl

/-- A sequence of whole words is empty or a word and a sequence of whole words. -/
theorem wholeWords_induction {P : (bytes : List Byte) → bytes.length % 4 = 0 → Prop} (nil : P [] rfl)
    (word : ∀ (b0 b1 b2 b3 : Byte) (t : List Byte) (ht : t.length % 4 = 0) (h : (b0 :: b1 :: b2 :: b3 :: t).length % 4 = 0),
      P t ht → P (b0 :: b1 :: b2 :: b3 :: t) h) (bytes : List Byte) (h : bytes.length % 4 = 0) : P bytes h := by
  match bytes, h with
  | [], _ => exact nil
  | [_], h | [_, _], h | [_, _, _], h => simp at h
  | b0 :: b1 :: b2 :: b3 :: t, h =>
    have ht : t.length % 4 = 0 := by simp only [List.length_cons] at h; omega
    exact word b0 b1 b2 b3 t ht h (wholeWords_induction nil word t ht)

theorem streamBits_length {bytes : List Byte} (h : bytes.length % 4 = 0) : (streamBits bytes).length = 8 * bytes.length := by
  induction bytes, h using wholeWords_induction with
  | nil => rfl
  | word b0 b1 b2 b3 t ht _ ih =>
    rw [streamBits_cons, List.length_append, ih, bitsOf_length]
    simp only [List.length_cons]
    omega

/-- Position `p` is bit `31 - p mod 32` of little-endian word `p div 32`. -/
theorem getD_streamBits {bytes : List Byte} {p : Nat} (h : bytes.length % 4 = 0) (hp : p < 8 * bytes.length) :
    (streamBits bytes).getD p false = (bytes.getD (4 * (p / 32) + (31 - p % 32) / 8) 0#8).getLsbD ((31 - p % 32) % 8) := by
  induction bytes, h using wholeWords_induction generalizing p with
  | nil => simp at hp
  | word b0 b1 b2 b3 t ht _ ih =>
    simp only [List.length_cons] at hp
    rw [streamBits_cons]
    by_cases hfirst : p < 32
    · have hbyte := List.getD_append [b0, b1, b2, b3] t 0#8 ((31 - p) / 8) (show _ < 4 by omega)
      rw [List.getD_append _ _ _ _ (by simpa using hfirst), getD_bitsOf _ hfirst, testBit_leNat,
        Nat.div_eq_of_lt hfirst, Nat.mod_eq_of_lt hfirst, Nat.mul_zero, Nat.zero_add, show 32 - 1 - p = 31 - p from rfl, ← hbyte]
      rfl
    · obtain ⟨r, rfl⟩ := Nat.exists_eq_add_of_le' (not_lt.mp hfirst)
      rw [List.getD_append_right _ _ _ _ (by simp), bitsOf_length, Nat.add_sub_cancel, ih (by omega), Nat.add_mod_right,
        Nat.add_div_right _ (by decide),
        show 4 * (r / 32).succ + (31 - r % 32) / 8 = 4 * (r / 32) + (31 - r % 32) / 8 + 1 + 1 + 1 + 1 from by omega]
      rfl

/-! The words of a bit string. -/

@[simp] theorem wordsOf_length (w : Nat) (bs : List Bool) : (wordsOf w bs).length = w := by
  induction w generalizing bs with
  | zero => rfl
  | succ w ih => simp [wordsOf, ih]

theorem stuffedBytes_length (bs : List Bool) : (stuffedBytes bs).length = 4 * ((bs.length + 31) / 32) := by
  exact (u32Bytes_length _).trans (by rw [wordsOf_length, ceilDiv_bsWord])

/-- A word is the number of its 32 bits, the missing ones 0. -/
theorem bitsOf_wordOfBits (bs : List Bool) :
    bitsOf 32 (wordOfBits bs) = bs.take 32 ++ List.replicate (32 - (bs.take 32).length) false := by
  have hle : (bs.take 32).length ≤ 32 := List.length_take_le 32 bs
  have hpad := natOfBits_append (bs.take 32) (List.replicate (32 - (bs.take 32).length) false)
  rw [natOfBits_replicate_false, List.length_replicate, Nat.add_zero] at hpad
  have hbits := bitsOf_natOfBits (bs.take 32 ++ List.replicate (32 - (bs.take 32).length) false)
  rw [hpad, List.length_append, List.length_replicate, Nat.add_sub_cancel' hle] at hbits
  exact hbits

theorem streamBits_wordsOf {w : Nat} {bs : List Bool} (h : bs.length ≤ 32 * w) :
    streamBits ((wordsOf w bs).flatMap (leBytes 4)) = bs ++ List.replicate (32 * w - bs.length) false := by
  induction w generalizing bs with
  | zero => simp [List.length_eq_zero_iff.mp (Nat.le_zero.mp h), wordsOf, streamBits]
  | succ w ih =>
    rw [wordsOf, List.flatMap_cons, streamBits_word, bitsOf_wordOfBits, ih (by simp [Config.bsWord]; omega)]
    by_cases hlong : 32 ≤ bs.length
    · rw [List.length_take_of_le hlong, Nat.sub_self, List.replicate_zero, List.append_nil, ← List.append_assoc]
      simp only [Config.bsWord, List.take_append_drop, List.length_drop]
      congr 2
      omega
    · have hshort : bs.length ≤ 32 := by omega
      simp only [Config.bsWord, List.take_of_length_le hshort, List.drop_of_length_le hshort, List.nil_append, List.append_assoc,
        List.length_nil, List.replicate_append_replicate]
      congr 2
      omega

/-- Stuffed bytes hold their bit string, then zeros to the end of the last word. -/
theorem streamBits_stuffedBytes (bs : List Bool) :
    streamBits (stuffedBytes bs) = bs ++ List.replicate (32 * ((bs.length + 31) / 32) - bs.length) false := by
  rw [stuffedBytes, ceilDiv_bsWord, streamBits_wordsOf (by omega)]

/-! Elements of equal width (42_bitstuffer R181, R182). -/

@[simp] theorem flatMap_bitsOf_length (vs : List Nat) (b : Nat) : (vs.flatMap (bitsOf b)).length = vs.length * b := by
  simp [List.length_flatMap]

theorem getD_flatMap_bitsOf {vs : List Nat} {b i j : Nat} (hi : i < vs.length) (hj : j < b) :
    (vs.flatMap (bitsOf b)).getD (i * b + j) false = (vs.getD i 0).testBit (b - 1 - j) := by
  induction vs generalizing i with
  | nil => simp at hi
  | cons v t ih =>
    rw [List.flatMap_cons]
    cases i with
    | zero => rw [Nat.zero_mul, Nat.zero_add, List.getD_append _ _ _ _ (by simpa using hj), getD_bitsOf v hj, List.getD_cons_zero]
    | succ i =>
      rw [show (i + 1) * b + j = i * b + j + b by ring, List.getD_append_right _ _ _ _ (by simp), bitsOf_length,
        Nat.add_sub_cancel, ih (by simpa using hi), List.getD_cons_succ]

theorem stuff_length (vs : List Nat) (b : Nat) : (stuff vs b).length = stuffBytes vs.length b := by
  rw [stuff, stuffedBytes_length, flatMap_bitsOf_length, stuffBytes_eq]

theorem streamBits_stuff (vs : List Nat) (b : Nat) :
    streamBits (stuff vs b) =
      vs.flatMap (bitsOf b) ++ List.replicate (32 * ((vs.length * b + 31) / 32) - vs.length * b) false := by
  rw [stuff, streamBits_stuffedBytes, flatMap_bitsOf_length]

theorem getD_streamBits_stuff {vs : List Nat} {b i j : Nat} (hi : i < vs.length) (hj : j < b) :
    (streamBits (stuff vs b)).getD (i * b + j) false = (vs.getD i 0).testBit (b - 1 - j) := by
  have hin : i * b + j < vs.length * b := by
    have := Nat.mul_le_mul_right b hi
    rw [Nat.succ_mul] at this
    omega
  rw [streamBits_stuff, List.getD_append _ _ _ _ (by simpa using hin), getD_flatMap_bitsOf hi hj]

theorem getD_streamBits_stuff_after {vs : List Nat} {b p : Nat} (hp : vs.length * b ≤ p) :
    (streamBits (stuff vs b)).getD p false = false := by
  rw [streamBits_stuff, List.getD_append_right _ _ _ _ (by simpa using hp), List.getD_eq_getElem?_getD, List.getElem?_replicate]
  split <;> rfl

/-- The elements of a bit string that begins with those of an array are the array. -/
theorem chunks_flatMap_bitsOf {vs : List Nat} {b : Nat} (h : ∀ v ∈ vs, v < 2 ^ b) (t : List Bool) :
    chunks vs.length b (vs.flatMap (bitsOf b) ++ t) = vs := by
  induction vs with
  | nil => rfl
  | cons v vs ih =>
    rw [List.forall_mem_cons] at h
    rw [List.length_cons, chunks, List.flatMap_cons, List.append_assoc, List.take_left' (bitsOf_length b v),
      List.drop_left' (bitsOf_length b v), natOfBits_bitsOf, Nat.mod_eq_of_lt h.1, ih h.2]

theorem unstuff_stuff {vs : List Nat} {b : Nat} (h : ∀ v ∈ vs, v < 2 ^ b) : unstuff (stuff vs b) vs.length b = vs := by
  rw [unstuff, streamBits_stuff, chunks_flatMap_bitsOf h]

/-- Element `i` of a bit string long enough is the number of the bits `i*b .. i*b+b-1`. -/
theorem getD_chunks {n b i : Nat} {bs : List Bool} (hi : i < n) (hlen : n * b ≤ bs.length) :
    (chunks n b bs).getD i 0 = natOfBits ((List.range b).map (fun j => bs.getD (i * b + j) false)) := by
  induction n generalizing i bs with
  | zero => omega
  | succ n ih =>
    rw [Nat.succ_mul] at hlen
    rw [chunks]
    cases i with
    | zero =>
      rw [List.getD_cons_zero]
      congr 1
      refine List.ext_getElem (by simp; omega) fun j hj _ => ?_
      have hjb : j < bs.length := by simp at hj; omega
      simp [hjb]
    | succ i =>
      rw [List.getD_cons_succ, ih (by omega) (by rw [List.length_drop]; omega)]
      simp only [List.getD_eq_getElem?_getD, List.getElem?_drop, Nat.succ_mul]
      congr 2
      funext j
      rw [show b + (i * b + j) = i * b + b + j by ring]

/-- Stuffed words of `n` elements are so many bytes and hold the elements that `Unstuff` reads. -/
theorem stuffedAs_iff {body : List Byte} {n b : Nat} {vs : List Nat} :
    StuffedAs body n b vs ↔ body.length = stuffBytes n b ∧ unstuff body n b = vs := by
  rw [StuffedAs, ← stuffBytes_eq]
  refine and_congr_right fun hlen => ?_
  have hbits : n * b ≤ (streamBits body).length := by
    rw [stuffBytes_eq] at hlen
    rw [streamBits_length (by omega)]
    omega
  constructor
  · rintro ⟨hn, hvs⟩
    refine List.ext_getElem (by simp [hn]) fun i hi hi' => ?_
    have := getD_chunks (hn ▸ hi') hbits
    rw [← hvs i (hn ▸ hi')] at this
    simpa [unstuff, hi', hn ▸ hi'] using this
  · rintro rfl
    exact ⟨unstuff_length body n b, fun i hi => getD_chunks hi hbits⟩

theorem stuffedAs_stuff {vs : List Nat} {b : Nat} (h : ∀ v ∈ vs, v < 2 ^ b) : StuffedAs (stuff vs b) vs.length b vs :=
  stuffedAs_iff.mpr ⟨stuff_length vs b, unstuff_stuff h⟩

end Sys2Proof.Machine
end

/-! ## Facts about the block decoder -/

section
namespace Sys2Proof.Machine

/-! Decoding steps in sequence: what it takes to succeed, and that the one code is `Failed`. -/

theorem bind_eq_ok {ε α β : Type} {x : Except ε α} {f : α → Except ε β} {b : β} :
    x >>= f = .ok b ↔ ∃ a, x = .ok a ∧ f a = .ok b := by
  cases x <;> simp [bind, Except.bind]

theorem bind_eq_error {ε α β : Type} {x : Except ε α} {f : α → Except ε β} {e : ε} :
    x >>= f = .error e ↔ x = .error e ∨ ∃ a, x = .ok a ∧ f a = .error e := by
  cases x <;> simp [bind, Except.bind]

theorem failIf_eq_ok {α : Type} {c : Prop} [Decidable c] {x : Except Raise α} {a : α} :
    (if c then .error .failed else x) = .ok a ↔ ¬ c ∧ x = .ok a := by
  split <;> simp [*]

theorem failIf_eq_error {α : Type} {c : Prop} [Decidable c] {x : Except Raise α} {e : Raise}
    (h : (if c then .error .failed else x) = .error e) : e = .failed ∨ x = .error e := by
  split at h
  · cases h; exact .inl rfl
  · exact .inr h

/-! Bytes read through a cursor (00_scope R12). -/

/-- Reading takes the cursor past a byte sequence. -/
def Cursor.Reads (rc : Cursor) (bytes : List Byte) (rc' : Cursor) : Prop :=
  rc.left = bytes ++ rc'.left ∧ rc'.used = rc.used + bytes.length

theorem Cursor.reads_append_iff {rc rc' : Cursor} {p q : List Byte} :
    rc.Reads (p ++ q) rc' ↔ ∃ mid, rc.Reads p mid ∧ mid.Reads q rc' := by
  constructor
  · rintro ⟨hleft, hused⟩
    refine ⟨⟨q ++ rc'.left, rc.used + p.length⟩, ⟨by rw [hleft, List.append_assoc], rfl⟩, rfl, ?_⟩
    rw [hused, List.length_append, Nat.add_assoc]
  · rintro ⟨mid, ⟨hleft, hused⟩, hleft', hused'⟩
    exact ⟨by rw [hleft, hleft', List.append_assoc], by rw [hused', hused, List.length_append, Nat.add_assoc]⟩

theorem Cursor.start_reads_iff {src bytes : List Byte} {rc : Cursor} :
    (Cursor.start src).Reads bytes rc ↔ src = bytes ++ rc.left ∧ rc.used = bytes.length := by
  simp [Cursor.Reads, Cursor.start]

theorem rdBytes_eq_ok_iff_reads {n : Nat} {rc rc' : Cursor} {bytes : List Byte} :
    rdBytes n rc = .ok (bytes, rc') ↔ rc.Reads bytes rc' ∧ bytes.length = n := by
  rw [rdBytes_eq_ok, Cursor.Reads]
  constructor
  · rintro ⟨hleft, rfl, hused⟩; exact ⟨⟨hleft, hused⟩, rfl⟩
  · rintro ⟨⟨hleft, hused⟩, rfl⟩; exact ⟨hleft, rfl, hused⟩

theorem rdUnsigned_eq_bind (n : Nat) (rc : Cursor) :
    rdUnsigned n rc = rdBytes n rc >>= fun p => .ok (leNat p.1, p.2) := by
  rw [rdUnsigned]
  cases rdBytes n rc <;> rfl

/-- A read of an unsigned number succeeds exactly on the bytes that write it. -/
theorem rdUnsigned_eq_ok {n v : Nat} {rc rc' : Cursor} :
    rdUnsigned n rc = .ok (v, rc') ↔ v < 256 ^ n ∧ rc.Reads (leBytes n v) rc' := by
  simp only [rdUnsigned_eq_bind, bind_eq_ok, Prod.exists, rdBytes_eq_ok_iff_reads, Except.ok.injEq, Prod.mk.injEq]
  constructor
  · rintro ⟨bytes, rc₁, ⟨hreads, rfl⟩, rfl, rfl⟩
    exact ⟨leNat_lt bytes, by rwa [leBytes_leNat]⟩
  · rintro ⟨hlt, hreads⟩
    exact ⟨_, _, ⟨hreads, leBytes_length n v⟩, by rw [leNat_leBytes, Nat.mod_eq_of_lt hlt], rfl⟩

theorem eq_failed_of_rdUnsigned {n : Nat} {rc : Cursor} {e : Raise} (h : rdUnsigned n rc = .error e) : e = .failed := by
  rw [rdUnsigned_eq_bind, bind_eq_error] at h
  obtain h | ⟨p, -, h⟩ := h
  · exact (rdBytes_eq_error.mp h).1
  · cases h

/-! The body of a simple block (42_bitstuffer R191). -/

theorem decodeSimple_eq_bind (n b : Nat) (rc : Cursor) :
    decodeSimple n b rc = rdBytes (stuffBytes n b) rc >>= fun p => .ok (unstuff p.1 n b, p.2) := by
  rw [decodeSimple]
  cases rdBytes (stuffBytes n b) rc <;> rfl

theorem decodeSimple_eq_ok {n b : Nat} {rc rc' : Cursor} {vs : List Nat} :
    decodeSimple n b rc = .ok (vs, rc') ↔ ∃ body, rc.Reads body rc' ∧ StuffedAs body n b vs := by
  simp only [decodeSimple_eq_bind, bind_eq_ok, Prod.exists, rdBytes_eq_ok_iff_reads, Except.ok.injEq, Prod.mk.injEq,
    stuffedAs_iff]
  constructor
  · rintro ⟨body, rc₁, ⟨hreads, hlen⟩, hvs, rfl⟩; exact ⟨body, hreads, hlen, hvs⟩
  · rintro ⟨body, hreads, hlen, hvs⟩; exact ⟨body, rc', ⟨hreads, hlen⟩, hvs, rfl⟩

theorem eq_failed_of_decodeSimple {n b : Nat} {rc : Cursor} {e : Raise} (h : decodeSimple n b rc = .error e) : e = .failed := by
  rw [decodeSimple_eq_bind, bind_eq_error] at h
  obtain h | ⟨p, -, h⟩ := h
  · exact (rdBytes_eq_error.mp h).1
  · cases h

/-! The body of a LUT block (30_encoding R102; 42_bitstuffer R191). -/

/-- The values that indices name: index 0 names 0, index `j` stored entry `j`. -/
def lookUp (d r : List Nat) : List Nat := r.map (fun j => (0 :: d).getD j 0)

@[simp] theorem lookUp_length (d r : List Nat) : (lookUp d r).length = r.length := List.length_map _

theorem eq_lookUp_iff {vs d r : List Nat} (h : r.length = vs.length) :
    (∀ i, i < vs.length → vs.getD i 0 = (0 :: d).getD (r.getD i 0) 0) ↔ vs = lookUp d r := by
  constructor
  · intro hvs
    refine List.ext_getElem (by simp [h]) fun i hi hr => ?_
    rw [lookUp_length] at hr
    have := hvs i hi
    rw [List.getD_eq_getElem _ _ hi, List.getD_eq_getElem _ _ hr] at this
    simpa [lookUp] using this
  · intro hvs i hi
    have hr : i < r.length := h ▸ hi
    subst hvs
    rw [List.getD_eq_getElem _ _ hi, List.getD_eq_getElem _ _ hr]
    exact List.getElem_map _

/-- The bytes of a LUT block after its header and element count, with the `n` values they hold: the second body of `BlockOf`. -/
def LutBody (body : List Byte) (n b : Nat) (vs : List Nat) : Prop :=
  ∃ (m : Nat) (table idx : List Byte) (d r : List Nat), 1 ≤ b ∧ 1 ≤ m ∧ m ≤ 254 ∧
    body = leBytes 1 (m + 1) ++ table ++ idx ∧ StuffedAs table m b d ∧ StuffedAs idx n (bitlen m) r ∧ (∀ j ∈ r, j ≤ m) ∧
    vs = lookUp d r

theorem LutBody.length_eq {body : List Byte} {n b : Nat} {vs : List Nat} (h : LutBody body n b vs) : vs.length = n := by
  obtain ⟨m, table, idx, d, r, -, -, -, -, -, ⟨-, hr, -⟩, -, rfl⟩ := h
  rw [lookUp_length, hr]

theorem decodeLut_eq_bind (n b : Nat) (rc : Cursor) :
    decodeLut n b rc =
      if b = 0 then .error .failed
      else rdUnsigned 1 rc >>= fun t =>
        if t.1 < 2 then .error .failed
        else decodeSimple (t.1 - 1) b t.2 >>= fun d =>
          decodeSimple n (bitlen (t.1 - 1)) d.2 >>= fun r =>
            if ∃ j ∈ r.1, t.1 - 1 < j then .error .failed else .ok (lookUp d.1 r.1, r.2) := by
  rw [decodeLut]
  refine if_congr Iff.rfl rfl ?_
  cases rdUnsigned 1 rc with
  | error e => rfl
  | ok t =>
    refine if_congr Iff.rfl rfl ?_
    cases decodeSimple (t.1 - 1) b t.2 with
    | error e => rfl
    | ok d =>
      change (match decodeSimple n (bitlen (t.1 - 1)) d.2 with | .error e => _ | .ok (r, rc3) => _) = decodeSimple _ _ _ >>= _
      cases decodeSimple n (bitlen (t.1 - 1)) d.2 with
      | error e => rfl
      | ok r => exact if_congr (by simp) rfl rfl

/-- The decoder of a LUT body accepts exactly the legal ones. -/
theorem decodeLut_eq_ok {n b : Nat} {rc rc' : Cursor} {vs : List Nat} :
    decodeLut n b rc = .ok (vs, rc') ↔ ∃ body, rc.Reads body rc' ∧ LutBody body n b vs := by
  simp only [decodeLut_eq_bind, failIf_eq_ok, bind_eq_ok, Prod.exists, rdUnsigned_eq_ok, decodeSimple_eq_ok,
    Except.ok.injEq, Prod.mk.injEq, not_exists, not_and, not_lt]
  constructor
  · rintro ⟨hb, t, rc₁, ⟨ht, hsize⟩, ht2, d, rc₂, ⟨table, htable, hd⟩, r, rc₃, ⟨idx, hidx, hr⟩, hle, rfl, rfl⟩
    have hreads := Cursor.reads_append_iff.mpr ⟨rc₂, Cursor.reads_append_iff.mpr ⟨rc₁, hsize, htable⟩, hidx⟩
    refine ⟨_, hreads, t - 1, table, idx, d, r, by omega, by omega, by omega, ?_, hd, hr, hle, rfl⟩
    rw [Nat.sub_add_cancel (by omega)]
  · rintro ⟨body, hreads, m, table, idx, d, r, hb, hm, hm', rfl, hd, hr, hle, rfl⟩
    obtain ⟨rc₂, hreads, hidx⟩ := Cursor.reads_append_iff.mp hreads
    obtain ⟨rc₁, hsize, htable⟩ := Cursor.reads_append_iff.mp hreads
    exact ⟨by omega, m + 1, rc₁, ⟨by omega, hsize⟩, by omega, d, rc₂, ⟨table, htable, hd⟩, r, rc', ⟨idx, hidx, hr⟩, hle,
      rfl, rfl⟩

theorem eq_failed_of_decodeLut {n b : Nat} {rc : Cursor} {e : Raise} (h : decodeLut n b rc = .error e) : e = .failed := by
  rw [decodeLut_eq_bind] at h
  obtain h | h := failIf_eq_error h
  · exact h
  obtain h | ⟨t, -, h⟩ := bind_eq_error.mp h
  · exact eq_failed_of_rdUnsigned h
  obtain h | h := failIf_eq_error h
  · exact h
  obtain h | ⟨d, -, h⟩ := bind_eq_error.mp h
  · exact eq_failed_of_decodeSimple h
  obtain h | ⟨r, -, h⟩ := bind_eq_error.mp h
  · exact eq_failed_of_decodeSimple h
  obtain h | h := failIf_eq_error h
  · exact h
  · cases h

/-! The header (30_encoding R99, R100). -/

theorem countBytes_eq_ok {nw k : Nat} : countBytes nw = .ok k ↔ (nw = 0 ∧ k = 4) ∨ (nw = 1 ∧ k = 2) ∨ (nw = 2 ∧ k = 1) := by
  match nw with
  | 0 | 1 | 2 => simp [countBytes, eq_comm]
  | nw + 3 => simp [countBytes]

theorem eq_failed_of_countBytes {nw : Nat} {e : Raise} (h : countBytes nw = .error e) : e = .failed := by
  unfold countBytes at h
  split at h <;> cases h
  rfl

theorem lt_three_of_countBytes {nw k : Nat} (h : countBytes nw = .ok k) : nw < 3 := by
  have := countBytes_eq_ok.mp h
  omega

theorem countBytes_nwCode {k : Nat} (h : k = 1 ∨ k = 2 ∨ k = 4) : countBytes (nwCode k) = .ok k := by
  obtain rfl | rfl | rfl := h <;> rfl

/-- The header byte made of the fields of a number is the byte of the number. -/
theorem headerByte_fields (h : Nat) :
    [headerByte (h % 32) (decide (h / 32 % 2 = 1)) (h / 64)] = leBytes 1 h := by
  have : h % 32 + 32 * (decide (h / 32 % 2 = 1)).toNat + 64 * (h / 64) = h := by
    by_cases hl : h / 32 % 2 = 1
    · rw [decide_eq_true hl, Bool.toNat_true]; omega
    · rw [decide_eq_false hl, Bool.toNat_false]; omega
  rw [headerByte, this]
  rfl

/-- The words of a simple block, or the body of a LUT block. -/
def BlockBody (lut : Bool) (body : List Byte) (n b : Nat) (vs : List Nat) : Prop :=
  if lut then LutBody body n b vs else StuffedAs body n b vs

theorem BlockBody.length_eq {lut : Bool} {body : List Byte} {n b : Nat} {vs : List Nat} (h : BlockBody lut body n b vs) :
    vs.length = n := by
  cases lut with
  | false => exact h.2.1
  | true => exact LutBody.length_eq h

/-- The legal blocks, by the fields of their header. -/
theorem blockOf_iff {bytes : List Byte} {vs : List Nat} :
    BlockOf bytes vs ↔ ∃ (b nw k : Nat) (lut : Bool) (body : List Byte), b < 32 ∧ countBytes nw = .ok k ∧ vs.length < 256 ^ k ∧
      bytes = [headerByte b lut nw] ++ leBytes k vs.length ++ body ∧ BlockBody lut body vs.length b vs := by
  constructor
  · rintro ⟨b, nw, k, hb, hnw, hn, ⟨body, rfl, hbody⟩ | ⟨m, table, idx, d, r, hb1, hm, hm', rfl, hd, hr, hle, hvs⟩⟩
    · exact ⟨b, nw, k, false, body, by omega, countBytes_eq_ok.mpr hnw, hn, rfl, hbody⟩
    · refine ⟨b, nw, k, true, leBytes 1 (m + 1) ++ table ++ idx, by omega, countBytes_eq_ok.mpr hnw, hn, ?_, m, table, idx, d, r,
        hb1, hm, hm', rfl, hd, hr, hle, (eq_lookUp_iff hr.2.1).mp hvs⟩
      simp only [List.append_assoc]
      rfl
  · rintro ⟨b, nw, k, lut, body, hb, hnw, hn, rfl, hbody⟩
    refine ⟨b, nw, k, by omega, countBytes_eq_ok.mp hnw, hn, ?_⟩
    cases lut with
    | false => exact .inl ⟨body, rfl, hbody⟩
    | true =>
      obtain ⟨m, table, idx, d, r, hb1, hm, hm', rfl, hd, hr, hle, hvs⟩ := hbody
      refine .inr ⟨m, table, idx, d, r, hb1, hm, hm', ?_, hd, hr, hle, (eq_lookUp_iff hr.2.1).mpr hvs⟩
      simp only [List.append_assoc]
      rfl

/-! The block decoder (42_bitstuffer R191). -/

theorem decodeBlock_eq_bind (cap : Nat) (rc : Cursor) :
    decodeBlock cap rc =
      rdUnsigned 1 rc >>= fun h => countBytes (h.1 / 64) >>= fun k => rdUnsigned k h.2 >>= fun n =>
        if cap < n.1 then .error .failed
        else if h.1 / 32 % 2 = 0 then decodeSimple n.1 (h.1 % 32) n.2 else decodeLut n.1 (h.1 % 32) n.2 := by
  rw [decodeBlock]
  cases rdUnsigned 1 rc with
  | error e => rfl
  | ok h =>
    change (match countBytes (h.1 / 64) with | .error e => _ | .ok k => _) = countBytes _ >>= _
    cases countBytes (h.1 / 64) with
    | error e => rfl
    | ok k =>
      change (match rdUnsigned k h.2 with | .error e => _ | .ok (n, rc2) => _) = rdUnsigned _ _ >>= _
      cases rdUnsigned k h.2 <;> rfl

/-- The body is decoded as the header says. -/
theorem decodeBody_eq_ok {h n : Nat} {rc rc' : Cursor} {vs : List Nat} :
    (if h / 32 % 2 = 0 then decodeSimple n (h % 32) rc else decodeLut n (h % 32) rc) = .ok (vs, rc') ↔
      ∃ body, rc.Reads body rc' ∧ BlockBody (decide (h / 32 % 2 = 1)) body n (h % 32) vs := by
  by_cases hl : h / 32 % 2 = 0
  · rw [if_pos hl, decide_eq_false (by omega)]
    exact decodeSimple_eq_ok
  · rw [if_neg hl, decide_eq_true (by omega)]
    exact decodeLut_eq_ok

/-- The block decoder accepts exactly the legal blocks of no more elements than its capacity, and reads past them. -/
theorem decodeBlock_eq_ok {cap : Nat} {rc rc' : Cursor} {vs : List Nat} :
    decodeBlock cap rc = .ok (vs, rc') ↔ ∃ bytes, rc.Reads bytes rc' ∧ BlockOf bytes vs ∧ vs.length ≤ cap := by
  simp only [decodeBlock_eq_bind, bind_eq_ok, Prod.exists, rdUnsigned_eq_ok, failIf_eq_ok, decodeBody_eq_ok,
    not_lt, blockOf_iff]
  constructor
  · rintro ⟨h, rc₁, ⟨hh, hhead⟩, k, hk, n, rc₂, ⟨hn, hcount⟩, hcap, body, hbody, hvs⟩
    obtain rfl := hvs.length_eq
    have hreads := Cursor.reads_append_iff.mpr ⟨rc₂, Cursor.reads_append_iff.mpr ⟨rc₁, hhead, hcount⟩, hbody⟩
    rw [← headerByte_fields h] at hreads
    exact ⟨_, hreads, ⟨h % 32, h / 64, k, _, body, Nat.mod_lt h (by decide), hk, hn, rfl, hvs⟩, hcap⟩
  · rintro ⟨bytes, hreads, ⟨b, nw, k, lut, body, hb, hk, hn, rfl, hvs⟩, hcap⟩
    obtain ⟨rc₂, hreads, hbody⟩ := Cursor.reads_append_iff.mp hreads
    obtain ⟨rc₁, hhead, hcount⟩ := Cursor.reads_append_iff.mp hreads
    have hnw := lt_three_of_countBytes hk
    have hlut := Bool.toNat_lt lut
    have hnw' : (b + 32 * lut.toNat + 64 * nw) / 64 = nw := by omega
    have hb' : (b + 32 * lut.toNat + 64 * nw) % 32 = b := by omega
    have hlut' : decide ((b + 32 * lut.toNat + 64 * nw) / 32 % 2 = 1) = lut := by
      cases lut
      · exact decide_eq_false (by rw [Bool.toNat_false]; omega)
      · exact decide_eq_true (by rw [Bool.toNat_true]; omega)
    refine ⟨b + 32 * lut.toNat + 64 * nw, rc₁, ⟨by omega, hhead⟩, k, hnw'.symm ▸ hk, vs.length, rc₂, ⟨hn, hcount⟩, hcap, body,
      hbody, ?_⟩
    rwa [hb', hlut']

theorem eq_failed_of_decodeBlock {cap : Nat} {rc : Cursor} {e : Raise} (h : decodeBlock cap rc = .error e) : e = .failed := by
  rw [decodeBlock_eq_bind] at h
  obtain h | ⟨hd, -, h⟩ := bind_eq_error.mp h
  · exact eq_failed_of_rdUnsigned h
  obtain h | ⟨k, -, h⟩ := bind_eq_error.mp h
  · exact eq_failed_of_countBytes h
  obtain h | ⟨n, -, h⟩ := bind_eq_error.mp h
  · exact eq_failed_of_rdUnsigned h
  obtain h | h := failIf_eq_error h
  · exact h
  split at h
  · exact eq_failed_of_decodeSimple h
  · exact eq_failed_of_decodeLut h

/-- The legal block at the head of a source is decoded and consumed whole, whatever follows it. -/
theorem decodeBlock_of_blockOf {cap : Nat} {bytes tail : List Byte} {vs : List Nat} (h : BlockOf bytes vs) (hcap : vs.length ≤ cap) :
    decodeBlock cap (Cursor.start (bytes ++ tail)) = .ok (vs, { left := tail, used := bytes.length }) :=
  decodeBlock_eq_ok.mpr ⟨bytes, Cursor.start_reads_iff.mpr ⟨rfl, rfl⟩, h, hcap⟩

/-- A source that begins with no legal block that fits does not decode. -/
theorem decodeBlock_of_no_block {cap : Nat} {src : List Byte}
    (h : ¬ ∃ bytes tail vs, src = bytes ++ tail ∧ BlockOf bytes vs ∧ vs.length ≤ cap) :
    decodeBlock cap (Cursor.start src) = .error .failed := by
  cases hd : decodeBlock cap (Cursor.start src) with
  | error e => rw [eq_failed_of_decodeBlock hd]
  | ok p =>
    obtain ⟨bytes, hreads, hblock, hcap⟩ := decodeBlock_eq_ok.mp hd
    exact absurd ⟨bytes, p.2.left, p.1, (Cursor.start_reads_iff.mp hreads).1, hblock, hcap⟩ h

/-- Nothing follows a legal block inside a longer one: both decode from the longer one, and are consumed whole. -/
theorem eq_nil_of_blockOf_append {p q : List Byte} {us vs : List Nat} (hp : BlockOf p us) (hpq : BlockOf (p ++ q) vs) : q = [] := by
  have hshort := decodeBlock_of_blockOf (tail := q) hp (Nat.le_max_left us.length vs.length)
  have hlong := decodeBlock_of_blockOf (tail := []) hpq (Nat.le_max_right us.length vs.length)
  rw [List.append_nil] at hlong
  have hsame := Except.ok.inj (hshort.symm.trans hlong)
  exact congrArg (fun p => p.2.left) hsame

/-- A legal block cut short does not decode. -/
theorem decodeBlock_take {cap k : Nat} {bytes : List Byte} {vs : List Nat} (h : BlockOf bytes vs) (hk : k < bytes.length) :
    decodeBlock cap (Cursor.start (bytes.take k)) = .error .failed := by
  refine decodeBlock_of_no_block ?_
  rintro ⟨p, tail, us, htake, hp, -⟩
  have hbytes : p ++ (tail ++ bytes.drop k) = bytes := by rw [← List.append_assoc, ← htake, List.take_append_drop]
  have hrest := eq_nil_of_blockOf_append hp (hbytes.symm ▸ h)
  have hdrop := (List.append_eq_nil_iff.mp hrest).2
  rw [List.drop_eq_nil_iff] at hdrop
  omega

end Sys2Proof.Machine
end

/-! ## Facts about simple blocks, lookup tables and LUT blocks -/

section
namespace Sys2Proof.Machine

/-! The largest element and its width (42_bitstuffer R187). -/

theorem maxElem_le_iff {vs : List Nat} {n : Nat} : maxElem vs ≤ n ↔ ∀ v ∈ vs, v ≤ n := by
  rw [maxElem, foldl_max_le_iff, and_iff_right (Nat.zero_le n)]

/-- The width of the largest element holds every element, and is the least that does. -/
theorem bitlen_maxElem_le_iff {vs : List Nat} {b : Nat} : bitlen (maxElem vs) ≤ b ↔ ∀ v ∈ vs, v < 2 ^ b := by
  rw [bitlen_le_iff, Nat.lt_iff_le_pred (Nat.two_pow_pos b), maxElem_le_iff]
  simp only [← Nat.lt_iff_le_pred (Nat.two_pow_pos b)]

theorem lt_bitlen_maxElem_iff {vs : List Nat} {b : Nat} : b < bitlen (maxElem vs) ↔ ∃ v ∈ vs, 2 ^ b ≤ v := by
  rw [← not_le, bitlen_maxElem_le_iff]
  simp

theorem bitlen_maxElem_le_31 {vs : List Nat} (h : ∀ v ∈ vs, v < 2147483648) : bitlen (maxElem vs) ≤ 31 :=
  bitlen_maxElem_le_iff.mpr h

/-! The element count (30_encoding R100). -/

theorem nBytes_cases (n : Nat) : nBytes n = 1 ∨ nBytes n = 2 ∨ nBytes n = 4 := by
  unfold nBytes
  split
  · exact .inl rfl
  split
  · exact .inr (.inl rfl)
  · exact .inr (.inr rfl)

theorem lt_pow_nBytes {n : Nat} (h : n < 4294967296) : n < 256 ^ nBytes n := by
  unfold nBytes
  split
  · norm_num; omega
  split
  · norm_num; omega
  · exact h

/-! Simple blocks (30_encoding R101). -/

/-- A simple block is legal with any count width and any element width up to 31 that fit. -/
theorem blockOf_simple {vs : List Nat} {b k : Nat} (hk : k = 1 ∨ k = 2 ∨ k = 4) (hn : vs.length < 256 ^ k) (hb : b ≤ 31)
    (hvs : ∀ v ∈ vs, v < 2 ^ b) : BlockOf ([headerByte b false (nwCode k)] ++ leBytes k vs.length ++ stuff vs b) vs :=
  blockOf_iff.mpr ⟨b, nwCode k, k, false, _, by omega, countBytes_nwCode hk, hn, rfl, stuffedAs_stuff hvs⟩

theorem blockOf_simpleBlock {vs : List Nat} (hn : vs.length < 4294967296) (hvs : ∀ v ∈ vs, v < 2147483648) :
    BlockOf (simpleBlock vs) vs :=
  blockOf_simple (nBytes_cases _) (lt_pow_nBytes hn) (bitlen_maxElem_le_31 hvs) (bitlen_maxElem_le_iff.mp le_rfl)

theorem simpleBlock_length (vs : List Nat) :
    (simpleBlock vs).length = 1 + nBytes vs.length + stuffBytes vs.length (bitlen (maxElem vs)) := by
  rw [simpleBlock, List.length_append, List.length_append, List.length_singleton, leBytes_length, stuff_length]

/-! The distinct values in ascending order (42_bitstuffer R188). -/

theorem mem_insertDistinct {x v : Nat} {d : List Nat} : v ∈ insertDistinct x d ↔ v = x ∨ v ∈ d := by
  induction d with
  | nil => simp [insertDistinct]
  | cons y t ih =>
    unfold insertDistinct
    split
    · exact List.mem_cons
    split
    · rename_i hxy; subst hxy; simp
    · rw [List.mem_cons, ih, List.mem_cons]; tauto

theorem insertDistinct_sorted {d : List Nat} (x : Nat) (h : d.Pairwise (· < ·)) : (insertDistinct x d).Pairwise (· < ·) := by
  induction d with
  | nil => simp [insertDistinct]
  | cons y t ih =>
    obtain ⟨hy, ht⟩ := List.pairwise_cons.mp h
    unfold insertDistinct
    split
    · rename_i hxy
      exact List.pairwise_cons.mpr ⟨List.forall_mem_cons.mpr ⟨hxy, fun v hv => hxy.trans (hy v hv)⟩, h⟩
    split
    · exact h
    · refine List.pairwise_cons.mpr ⟨fun v hv => ?_, ih ht⟩
      obtain rfl | hv := mem_insertDistinct.mp hv
      · omega
      · exact hy v hv

@[simp] theorem mem_distinctSorted {vs : List Nat} {v : Nat} : v ∈ distinctSorted vs ↔ v ∈ vs := by
  induction vs with
  | nil => rfl
  | cons x t ih => rw [distinctSorted, List.foldr_cons, mem_insertDistinct, List.mem_cons]; exact or_congr_right ih

theorem distinctSorted_sorted (vs : List Nat) : (distinctSorted vs).Pairwise (· < ·) := by
  induction vs with
  | nil => exact List.Pairwise.nil
  | cons x t ih => exact insertDistinct_sorted x ih

theorem distinctSorted_length (vs : List Nat) : (distinctSorted vs).length = vs.toFinset.card := by
  rw [← List.toFinset_card_of_nodup ((distinctSorted_sorted vs).imp Nat.ne_of_lt)]
  exact congrArg Finset.card (Finset.ext fun v => by simp)

/-- The least value of an array with a 0 is 0, and only of such an array. -/
theorem headD_distinctSorted_eq_zero_iff {vs : List Nat} : (distinctSorted vs).headD 1 = 0 ↔ 0 ∈ vs := by
  rw [← mem_distinctSorted]
  have hsorted := distinctSorted_sorted vs
  cases hd : distinctSorted vs with
  | nil => simp
  | cons x t =>
    rw [hd] at hsorted
    rw [List.headD_cons, List.mem_cons]
    refine ⟨fun h => .inl h.symm, fun h => h.elim Eq.symm fun h0 => ?_⟩
    exact absurd ((List.pairwise_cons.mp hsorted).1 0 h0) (Nat.not_lt_zero x)

/-- With a 0 in the array the table is 0 and the stored entries. -/
theorem zero_cons_drop_distinctSorted {vs : List Nat} (h : 0 ∈ vs) : 0 :: (distinctSorted vs).drop 1 = distinctSorted vs := by
  have hhead := headD_distinctSorted_eq_zero_iff.mpr h
  cases hd : distinctSorted vs with
  | nil => rw [hd] at hhead; cases hhead
  | cons x t => rw [hd] at hhead; rw [show x = 0 from hhead]; rfl

theorem stored_eq_card_erase {vs : List Nat} (h : 0 ∈ vs) : (distinctSorted vs).length - 1 = (vs.toFinset.erase 0).card := by
  rw [distinctSorted_length, Finset.card_erase_of_mem (List.mem_toFinset.mpr h)]

theorem one_le_card_erase_iff {vs : List Nat} : 1 ≤ (vs.toFinset.erase 0).card ↔ ∃ v ∈ vs, v ≠ 0 := by
  rw [Nat.one_le_iff_ne_zero, Finset.card_ne_zero]
  simp [Finset.Nonempty, and_comm]

theorem maxElem_distinctSorted_le_iff {vs : List Nat} {b : Nat} :
    bitlen (maxElem (distinctSorted vs)) ≤ b ↔ ∀ v ∈ vs, v < 2 ^ b := by
  simp only [bitlen_maxElem_le_iff, mem_distinctSorted]

/-! When an array has a lookup table, and which (42_bitstuffer R188). -/

/-- A 0 occurs, a non-zero value occurs, at most 254 distinct non-zero values occur, and every value is below 2^31. -/
def HasLut (vs : List Nat) : Prop :=
  0 ∈ vs ∧ (∃ v ∈ vs, v ≠ 0) ∧ (vs.toFinset.erase 0).card ≤ 254 ∧ ∀ v ∈ vs, v < 2147483648

/-- The table of such an array. -/
def lutFor (vs : List Nat) : Lut :=
  { table := distinctSorted vs
    stored := (distinctSorted vs).length - 1
    width := bitlen (maxElem (distinctSorted vs))
    indices := vs.map (fun v => (distinctSorted vs).idxOf v) }

theorem lutOf_eq (vs : List Nat) :
    lutOf vs =
      if 0 ∉ vs then .error .failed
      else if (lutFor vs).stored < 1 ∨ 254 < (lutFor vs).stored then .error .failed
      else if 31 < (lutFor vs).width then .error .failed
      else .ok (lutFor vs) := by
  rw [lutOf]
  refine if_congr ?_ rfl rfl
  rw [← headD_distinctSorted_eq_zero_iff]
  cases vs with
  | nil => decide
  | cons v t => simp

theorem lutOf_of_hasLut {vs : List Nat} (h : HasLut vs) : lutOf vs = .ok (lutFor vs) := by
  obtain ⟨hzero, hsome, hcard, hsmall⟩ := h
  have hstored : (lutFor vs).stored = _ := stored_eq_card_erase hzero
  have hpos := one_le_card_erase_iff.mpr hsome
  have hwidth : (lutFor vs).width ≤ 31 := maxElem_distinctSorted_le_iff.mpr hsmall
  rw [lutOf_eq, if_neg (not_not.mpr hzero), if_neg (by omega), if_neg (by omega)]

theorem lutOf_of_not_hasLut {vs : List Nat} (h : ¬ HasLut vs) : lutOf vs = .error .failed := by
  rw [lutOf_eq]
  split
  · rfl
  rename_i hzero
  split
  · rfl
  rename_i hstored
  split
  · rfl
  rename_i hwidth
  rw [not_not] at hzero
  rw [show (lutFor vs).stored = _ from stored_eq_card_erase hzero, not_or, not_lt, not_lt, one_le_card_erase_iff] at hstored
  exact absurd ⟨hzero, hstored.1, hstored.2, maxElem_distinctSorted_le_iff.mp (not_lt.mp hwidth)⟩ h

theorem lutOf_eq_ok_iff {vs : List Nat} {l : Lut} : lutOf vs = .ok l ↔ HasLut vs ∧ l = lutFor vs := by
  by_cases h : HasLut vs
  · simp [lutOf_of_hasLut h, h, eq_comm]
  · simp [lutOf_of_not_hasLut h, h]

/-- An array without a table raises `Failed`. -/
theorem lutOf_of_no_table {vs : List Nat} (h : ∀ l, lutOf vs ≠ .ok l) : lutOf vs = .error .failed :=
  lutOf_of_not_hasLut fun hl => h _ (lutOf_of_hasLut hl)

theorem getElem?_idxOf_distinctSorted {vs : List Nat} {v : Nat} (h : v ∈ vs) :
    (distinctSorted vs)[(distinctSorted vs).idxOf v]? = some v := List.getElem?_idxOf (mem_distinctSorted.mpr h)

@[simp] theorem lutFor_indices_length (vs : List Nat) : (lutFor vs).indices.length = vs.length := List.length_map _

theorem lutFor_drop_length (vs : List Nat) : ((lutFor vs).table.drop 1).length = (lutFor vs).stored := List.length_drop

theorem lutFor_stored_succ {vs : List Nat} (h : 0 ∈ vs) : (lutFor vs).stored + 1 = (lutFor vs).table.length :=
  Nat.succ_pred_eq_of_pos (List.length_pos_of_mem (mem_distinctSorted.mpr h))

theorem lutFor_index_le {vs : List Nat} : ∀ j ∈ (lutFor vs).indices, j ≤ (lutFor vs).stored := by
  intro j hj
  obtain ⟨v, hv, rfl⟩ := List.mem_map.mp hj
  exact Nat.le_pred_of_lt (List.idxOf_lt_length_iff.mpr (mem_distinctSorted.mpr hv))

/-- The stored entries and the indices name the values. -/
theorem lookUp_lutFor {vs : List Nat} (h : 0 ∈ vs) : lookUp ((lutFor vs).table.drop 1) (lutFor vs).indices = vs := by
  rw [lookUp, show 0 :: (lutFor vs).table.drop 1 = distinctSorted vs from zero_cons_drop_distinctSorted h]
  rw [show (lutFor vs).indices = vs.map (fun v => (distinctSorted vs).idxOf v) from rfl, List.map_map]
  refine (List.map_congr_left fun v hv => ?_).trans (List.map_id vs)
  simp [getElem?_idxOf_distinctSorted hv]

/-! LUT blocks (30_encoding R102). -/

theorem lutBlock_length (vs : List Nat) : (lutBlock vs (lutFor vs)).length = lutBlockSize vs.length (lutFor vs) := by
  simp only [lutBlock, List.length_append, List.length_singleton, leBytes_length, stuff_length, lutFor_drop_length,
    lutFor_indices_length, lutBlockSize]

/-- The LUT block of an array with a table is legal. -/
theorem blockOf_lutBlock {vs : List Nat} (hn : vs.length < 4294967296) (h : HasLut vs) : BlockOf (lutBlock vs (lutFor vs)) vs := by
  obtain ⟨hzero, hsome, hcard, hsmall⟩ := h
  have hstored : (lutFor vs).stored = _ := stored_eq_card_erase hzero
  have hpos := one_le_card_erase_iff.mpr hsome
  have hwidth : (lutFor vs).width ≤ 31 := maxElem_distinctSorted_le_iff.mpr hsmall
  have hwidth1 : 1 ≤ (lutFor vs).width := by
    obtain ⟨v, hv, hv0⟩ := hsome
    exact lt_bitlen_maxElem_iff.mpr ⟨v, mem_distinctSorted.mpr hv, Nat.one_le_iff_ne_zero.mpr hv0⟩
  have htable : ∀ v ∈ (lutFor vs).table.drop 1, v < 2 ^ (lutFor vs).width := fun v hv =>
    bitlen_maxElem_le_iff.mp le_rfl v (List.mem_of_mem_drop hv)
  have hindices : ∀ j ∈ (lutFor vs).indices, j < 2 ^ bitlen (lutFor vs).stored := fun j hj =>
    (lutFor_index_le j hj).trans_lt (lt_two_pow_bitlen _)
  have htableStuffed := stuffedAs_stuff htable
  have hindicesStuffed := stuffedAs_stuff hindices
  rw [lutFor_drop_length] at htableStuffed
  rw [lutFor_indices_length] at hindicesStuffed
  refine blockOf_iff.mpr ⟨(lutFor vs).width, _, nBytes vs.length, true, _, by omega, countBytes_nwCode (nBytes_cases _), lt_pow_nBytes hn,
    ?_, (lutFor vs).stored, _, _, _, _, hwidth1, by omega, by omega, rfl, htableStuffed, hindicesStuffed, lutFor_index_le,
    (lookUp_lutFor hzero).symm⟩
  simp only [lutBlock, List.append_assoc]
  rfl

end Sys2Proof.Machine
end

/-! ## What the BS commands do -/

section
namespace Sys2Proof.Machine

/-! Element arrays (20_memory R62). -/

theorem leNat_readBytes_four (m : Memory) (a : Nat) :
    leNat (m.readBytes a 4) =
      (m.read a).toNat + 256 * (m.read (a + 1)).toNat + 65536 * (m.read (a + 2)).toNat + 16777216 * (m.read (a + 3)).toNat := by
  simp only [Memory.readBytes, leNat]
  ring

/-- Element `i` is the little-endian word at `a + 4*i`. -/
theorem getD_u32Array (m : Memory) {a n i : Nat} (h : i < n) : (u32Array m a n).getD i 0 = leNat (m.readBytes (a + 4 * i) 4) := by
  induction n generalizing a i with
  | zero => omega
  | succ n ih =>
    rw [u32Array]
    cases i with
    | zero => rfl
    | succ i => rw [List.getD_cons_succ, ih (by omega), show a + 4 + 4 * i = a + 4 * (i + 1) by ring]

theorem sourceArray_length (s : State) : (sourceArray s).length = s.a1 := u32Array_length s.mem s.a0 s.a1

/-! BS.STUFF (42_bitstuffer R183). -/

theorem exec_bsStuff_of_wide {s : State} (h : 31 < s.a4) : exec .bsStuff s = .next (s.finish .wrongParam 0 0) := by
  by_cases hw : WindowsPass .bsStuff s
  · change execBsStuff s = _
    exact (perform_of_windowsOk _ _ hw).trans (by rw [if_pos (show Config.bsNumBitsMax < s.a4 from h)]; rfl)
  · exact exec_of_not_windowsPass hw

theorem exec_bsStuff_of_not_fits {s : State} (hw : WindowsPass .bsStuff s) (h4 : s.a4 ≤ 31)
    (h : ∃ v ∈ sourceArray s, 2 ^ s.a4 ≤ v) : exec .bsStuff s = .next (s.finish .failed 0 0) := by
  change execBsStuff s = _
  refine (perform_of_windowsOk _ _ hw).trans ?_
  rw [if_neg (show ¬ Config.bsNumBitsMax < s.a4 from not_lt.mpr h4), if_pos (by simpa using h)]
  rfl

theorem bsStuff_encodesTo {s : State} (hw : WindowsPass .bsStuff s) (h4 : s.a4 ≤ 31) (h : ∀ v ∈ sourceArray s, v < 2 ^ s.a4) :
    EncodesTo .bsStuff s (stuff (sourceArray s) s.a4) 0 := by
  refine encodesTo_of_storeOutput (onFailed := id) ?_
  change execBsStuff s = _
  refine (perform_of_windowsOk _ _ hw).trans ?_
  rw [if_neg (show ¬ Config.bsNumBitsMax < s.a4 from not_lt.mpr h4), if_neg (by simpa using h)]

/-! BS.UNSTUFF (42_bitstuffer R184). -/

theorem exec_bsUnstuff_of_wide {s : State} (h : 31 < s.a4) : exec .bsUnstuff s = .next (s.finish .wrongParam 0 0) := by
  by_cases hw : WindowsPass .bsUnstuff s
  · change execBsUnstuff s = _
    exact (perform_of_windowsOk _ _ hw).trans (by rw [if_pos (show Config.bsNumBitsMax < s.a4 from h)]; rfl)
  · exact exec_of_not_windowsPass hw

theorem exec_bsUnstuff_of_short {s : State} (hw : WindowsPass .bsUnstuff s) (h4 : s.a4 ≤ 31) (h : s.a1 < stuffBytes s.a3 s.a4) :
    exec .bsUnstuff s = .next (s.finish .failed 0 0) := by
  change execBsUnstuff s = _
  refine (perform_of_windowsOk _ _ hw).trans ?_
  rw [if_neg (show ¬ Config.bsNumBitsMax < s.a4 from not_lt.mpr h4), if_pos h]
  rfl

theorem exec_bsUnstuff_of_fits {s : State} (hw : WindowsPass .bsUnstuff s) (h4 : s.a4 ≤ 31) (h : stuffBytes s.a3 s.a4 ≤ s.a1)
    {vs : List Nat} (hvs : StuffedAs (s.mem.readBytes s.a0 (stuffBytes s.a3 s.a4)) s.a3 s.a4 vs) :
    exec .bsUnstuff s = .next ((s.store s.a2 (u32Bytes vs)).finish .ok s.a3 (stuffBytes s.a3 s.a4)) := by
  change execBsUnstuff s = _
  refine (perform_of_windowsOk _ _ hw).trans ?_
  rw [if_neg (show ¬ Config.bsNumBitsMax < s.a4 from not_lt.mpr h4), if_neg (not_lt.mpr h), (stuffedAs_iff.mp hvs).2]
  rfl

/-! BS.SIZE.SIMPLE (42_bitstuffer R186). -/

theorem exec_bsSizeSimple (s : State) :
    exec .bsSizeSimple s =
      .next (if 2147483648 ≤ s.a4 ∨ 4294967296 ≤ 1 + nBytes s.a1 + stuffBytes s.a1 (bitlen s.a4) then s.finish .wrongParam 0 0
        else s.finish .ok (1 + nBytes s.a1 + stuffBytes s.a1 (bitlen s.a4)) (bitlen s.a4)) := by
  change execBsSizeSimple s = _
  refine (perform_of_no_windows _ _ rfl).trans ?_
  have hwide : Config.bsNumBitsMax < bitlen s.a4 ↔ 2147483648 ≤ s.a4 := lt_bitlen_iff
  by_cases h4 : 2147483648 ≤ s.a4
  · rw [if_pos (hwide.mpr h4), if_pos (.inl h4)]
    rfl
  by_cases hsize : 4294967296 ≤ 1 + nBytes s.a1 + stuffBytes s.a1 (bitlen s.a4)
  · rw [if_neg (hwide.not.mpr h4), if_pos hsize, if_pos (.inr hsize)]
    rfl
  · rw [if_neg (hwide.not.mpr h4), if_neg hsize, if_neg (not_or.mpr ⟨h4, hsize⟩)]
    rfl

/-! BS.ENC.SIMPLE (42_bitstuffer R187). -/

theorem exec_bsEncSimple_of_large {s : State} (hw : WindowsPass .bsEncSimple s) (h : ∃ v ∈ sourceArray s, 2147483648 ≤ v) :
    exec .bsEncSimple s = .next (s.finish .failed 0 0) := by
  change execBsEncSimple s = _
  refine (perform_of_windowsOk _ _ hw).trans ?_
  rw [if_pos (show Config.bsNumBitsMax < _ from lt_bitlen_maxElem_iff.mpr h)]
  rfl

theorem bsEncSimple_encodesTo {s : State} (hw : WindowsPass .bsEncSimple s) (h : ∀ v ∈ sourceArray s, v < 2147483648) :
    EncodesTo .bsEncSimple s (simpleBlock (sourceArray s)) (bitlen (maxElem (sourceArray s))) := by
  refine encodesTo_of_storeOutput (onFailed := id) ?_
  change execBsEncSimple s = _
  refine (perform_of_windowsOk _ _ hw).trans ?_
  rw [if_neg (show ¬ Config.bsNumBitsMax < _ from not_lt.mpr (bitlen_maxElem_le_31 h))]

/-! BS.SIZE.LUT and BS.ENC.LUT (42_bitstuffer R189, R190). -/

theorem exec_bsSizeLut_of_error {s : State} (hw : WindowsPass .bsSizeLut s) (h : lutOf (sourceArray s) = .error .failed) :
    exec .bsSizeLut s = .next (s.finish .failed 0 0) := by
  change execBsSizeLut s = _
  exact (perform_of_windowsOk _ _ hw).trans (by rw [h]; rfl)

theorem exec_bsSizeLut_of_ok {s : State} (hw : WindowsPass .bsSizeLut s) {l : Lut} (h : lutOf (sourceArray s) = .ok l) :
    exec .bsSizeLut s = .next (s.finish .ok (lutBlockSize s.a1 l) l.stored) := by
  change execBsSizeLut s = _
  exact (perform_of_windowsOk _ _ hw).trans (by rw [h]; rfl)

theorem exec_bsEncLut_of_error {s : State} (hw : WindowsPass .bsEncLut s) (h : lutOf (sourceArray s) = .error .failed) :
    exec .bsEncLut s = .next (s.finish .failed 0 0) := by
  change execBsEncLut s = _
  exact (perform_of_windowsOk _ _ hw).trans (by rw [h]; rfl)

theorem bsEncLut_encodesTo {s : State} (hw : WindowsPass .bsEncLut s) {l : Lut} (h : lutOf (sourceArray s) = .ok l) :
    EncodesTo .bsEncLut s (lutBlock (sourceArray s) l) l.stored := by
  refine encodesTo_of_storeOutput (onFailed := id) ?_
  change execBsEncLut s = _
  exact (perform_of_windowsOk _ _ hw).trans (by rw [h])

/-! BS.DECODE (42_bitstuffer R191). -/

theorem exec_bsDecode_of_ok {s : State} (hw : WindowsPass .bsDecode s) {vs : List Nat} {rc : Cursor}
    (hd : decodeBlock s.a3 (Cursor.start (s.mem.readBytes s.a0 s.a1)) = .ok (vs, rc)) :
    exec .bsDecode s = .next ((s.store s.a2 (u32Bytes vs)).finish .ok vs.length rc.used) := by
  change execBsDecode s = _
  exact (perform_of_windowsOk _ _ hw).trans (by rw [hd]; rfl)

theorem exec_bsDecode_of_failed {s : State} (hw : WindowsPass .bsDecode s)
    (hd : decodeBlock s.a3 (Cursor.start (s.mem.readBytes s.a0 s.a1)) = .error .failed) :
    exec .bsDecode s = .next ((scrambleOutput .bsDecode s).finish .failed 0 0) := by
  change execBsDecode s = _
  exact (perform_of_windowsOk _ _ hw).trans (by rw [hd]; rfl)

theorem eq_wwin_of_mem_windows_bsDecode {s : State} {w : Window} (hmem : w ∈ windows .bsDecode s) (hwrite : w.write = true) :
    w = wwin s.a2 (4 * s.a3) := by
  rcases List.mem_pair.mp hmem with rfl | rfl
  · cases hwrite
  · rfl

end Sys2Proof.Machine
end

/-! ## The obligations of the BitStuffer -/

section
namespace Sys2Proof.Machine

/-- Settles O40: the encoders write legal blocks, which the decoder accepts, and which do not decode cut short. -/
theorem blockRoundTrip : Obligations.BlockRoundTrip := by
  refine ⟨fun vs cap tail hn hvs hcap => ?_, fun vs l cap tail hn hl hcap => ?_, fun vs cap k hn hvs hk => ?_,
    fun vs l cap k hn hl hk => ?_⟩
  · exact ⟨simpleBlock_length vs, decodeBlock_of_blockOf (blockOf_simpleBlock hn hvs) hcap⟩
  · obtain ⟨hhas, rfl⟩ := lutOf_eq_ok_iff.mp hl
    exact ⟨lutBlock_length vs, decodeBlock_of_blockOf (blockOf_lutBlock hn hhas) hcap⟩
  · exact decodeBlock_take (blockOf_simpleBlock hn hvs) hk
  · obtain ⟨hhas, rfl⟩ := lutOf_eq_ok_iff.mp hl
    exact decodeBlock_take (blockOf_lutBlock hn hhas) hk

/-- Settles O31, from the bits of the stuffed words. -/
theorem stuffPlacesEveryBit : Obligations.StuffPlacesEveryBit :=
  ⟨fun vs b _ _ => ⟨stuff_length vs b, fun _ _ => getD_streamBits_stuff, fun _ => getD_streamBits_stuff_after⟩,
    fun _ _ => getD_streamBits⟩

/-- Settles O32. -/
theorem bsStuffOutcome : Obligations.BsStuffOutcome := by
  refine ⟨fun s => ⟨exec_bsStuff_of_wide, fun h4 hw => ⟨exec_bsStuff_of_not_fits hw h4, bsStuff_encodesTo hw h4⟩⟩,
    fun m a n => ⟨u32Array_length m a n, fun i hi => ?_⟩⟩
  rw [getD_u32Array m hi, leNat_readBytes_four]

/-- Settles O33: the elements are those the words hold bit by bit. -/
theorem bsUnstuffOutcome : Obligations.BsUnstuffOutcome := by
  refine fun s => ⟨exec_bsUnstuff_of_wide, fun h4 hw => ⟨exec_bsUnstuff_of_short hw h4, fun hle => ?_⟩⟩
  have hvs := stuffedAs_iff.mpr ⟨Memory.readBytes_length s.mem s.a0 (stuffBytes s.a3 s.a4), rfl⟩
  obtain ⟨-, hlen, hbits⟩ := id hvs
  exact ⟨_, _, exec_bsUnstuff_of_fits hw h4 hle hvs, hlen, hbits, stored_finish_store s s.a2 _ _ _⟩

/-- Settles O34: memory holds the words, and the words hold the values. -/
theorem unstuffInvertsStuff : Obligations.UnstuffInvertsStuff := by
  intro s vs h4 hvs hn hw hbudget hsrc
  have hstuffed := stuffedAs_stuff hvs
  have hread := hsrc.readBytes
  rw [stuff_length, hn] at hbudget hread
  rw [← hread, hn] at hstuffed
  rw [stuff_length, hn]
  exact ⟨_, exec_bsUnstuff_of_fits hw h4 hbudget.ge hstuffed, stored_finish_store s s.a2 _ _ _⟩

/-- Settles O36: the width is the bit length of the largest element. -/
theorem bsEncSimpleOutcome : Obligations.BsEncSimpleOutcome := by
  refine ⟨fun s hw => ⟨exec_bsEncSimple_of_large hw, fun h => ?_⟩, fun n => ⟨fun h => ?_, fun h h' => ?_, fun h => ?_⟩,
    rfl, rfl, rfl, fun n v => ⟨leBytes_length n v, fun j => getD_leBytes v⟩⟩
  · have henc := bsEncSimple_encodesTo hw h
    rw [simpleBlock, sourceArray_length] at henc
    exact ⟨_, bitlen_maxElem_le_31 h, bitlen_maxElem_le_iff.mp le_rfl, fun c => lt_bitlen_maxElem_iff.mp, henc⟩
  · exact if_pos h
  · exact (if_neg (by omega)).trans (if_pos h')
  · exact (if_neg (by omega)).trans (if_neg (by omega))

/-- Settles O37: the table is the sorted distinct values. -/
theorem lutOfFindsTheTable : Obligations.LutOfFindsTheTable := by
  refine fun vs => ⟨fun h => ⟨_, lutOf_of_hasLut h⟩, fun h => lutOf_of_not_hasLut h, fun l hl => ?_⟩
  obtain ⟨⟨hzero, ⟨x, hx, hx0⟩, -, -⟩, rfl⟩ := lutOf_eq_ok_iff.mp hl
  refine ⟨distinctSorted_sorted vs, fun v => mem_distinctSorted, ?_, lutFor_stored_succ hzero, bitlen_maxElem_le_iff.mp le_rfl, ?_,
    lutFor_indices_length vs, fun i hi => ?_⟩
  · rw [lutFor, ← zero_cons_drop_distinctSorted hzero]
    rfl
  · have hwidth : 0 < (lutFor vs).width :=
      lt_bitlen_maxElem_iff.mpr ⟨x, mem_distinctSorted.mpr hx, Nat.one_le_iff_ne_zero.mpr hx0⟩
    obtain ⟨v, hv, hle⟩ := lt_bitlen_maxElem_iff.mp (Nat.pred_lt_self hwidth)
    refine ⟨v, hv, ?_⟩
    rw [← Nat.succ_pred_eq_of_pos hwidth, Nat.pow_succ']
    exact Nat.mul_le_mul_left 2 hle
  · have hindex : (lutFor vs).indices.getD i 0 = (distinctSorted vs).idxOf vs[i] := by simp [lutFor, hi]
    rw [hindex, List.getElem?_eq_getElem hi]
    exact getElem?_idxOf_distinctSorted (List.getElem_mem hi)

/-- Settles O38. -/
theorem bsLutOutcome : Obligations.BsLutOutcome := by
  refine fun s => ⟨fun hw => ⟨fun h => exec_bsSizeLut_of_error hw (lutOf_of_no_table h), fun l hl => ?_⟩,
    fun hw => ⟨fun h => exec_bsEncLut_of_error hw (lutOf_of_no_table h), fun l hl => ?_⟩⟩
  · obtain ⟨-, rfl⟩ := lutOf_eq_ok_iff.mp hl
    rw [lutBlock_length, u32Array_length]
    exact exec_bsSizeLut_of_ok hw hl
  · have henc := bsEncLut_encodesTo hw hl
    rw [lutBlock, sourceArray_length] at henc
    exact henc

/-- Settles O39: the block decoder accepts exactly the legal blocks. -/
theorem bsDecodeOutcome : Obligations.BsDecodeOutcome := by
  refine ⟨fun s hw => ⟨fun bytes tail vs hsrc hblock hcap => ?_, fun hnone => ?_⟩,
    fun cap src => ⟨fun bytes tail vs hsrc hblock hcap => ?_, decodeBlock_of_no_block⟩⟩
  · have hd := decodeBlock_of_blockOf (tail := tail) hblock hcap
    rw [← hsrc] at hd
    exact ⟨_, exec_bsDecode_of_ok hw hd, stored_finish_store s s.a2 _ _ _⟩
  · exact decoderFailed_of_scrambleOutput (exec_bsDecode_of_failed hw (decodeBlock_of_no_block hnone))
      fun w => eq_wwin_of_mem_windows_bsDecode
  · rw [hsrc]
    exact decodeBlock_of_blockOf hblock hcap

/-- Settles O41: such a block is legal. -/
theorem decoderAcceptsAnyLegalWidth : Obligations.DecoderAcceptsAnyLegalWidth := by
  intro vs b k cap tail hk hn hb hvs hcap
  rw [decodeBlock_of_blockOf (blockOf_simple hk hn hb hvs) hcap, List.length_append, List.length_append, List.length_singleton,
    leBytes_length, stuff_length]

/-- Settles O35. -/
theorem bsSizeSimpleOutcome : Obligations.BsSizeSimpleOutcome :=
  ⟨exec_bsSizeSimple,
    fun v => ⟨lt_two_pow_bitlen v, fun h => ⟨one_le_bitlen h, two_pow_bitlen_pred_le h⟩, fun h => h ▸ bitlen_zero⟩⟩

end Sys2Proof.Machine
end

/-! ## What the Huffman unit's algorithms raise -/

section
namespace Sys2Proof.Machine

/-! Like the block and stream decoders they end with no code but `Failed` (43_huffman R224, R228, R242). -/

theorem eq_failed_of_hufLengths {hist : List Nat} {e : Raise} (h : hufLengths hist = .error e) : e = .failed := by
  unfold hufLengths at h
  obtain h | h := failIf_eq_error h
  · exact h
  split at h
  · cases h; rfl
  obtain h | h := failIf_eq_error h
  · exact h
  · cases h

theorem eq_failed_of_lutOf {vs : List Nat} {e : Raise} (h : lutOf vs = .error e) : e = .failed := by
  have hnone : lutOf vs = .error .failed := lutOf_of_no_table fun l hl => by cases h.symm.trans hl
  cases h.symm.trans hnone
  rfl

theorem eq_failed_of_readTable {src : List Byte} {e : Raise} (h : readTable src = .error e) : e = .failed := by
  unfold readTable at h
  split at h
  case h_1 hsize => cases h; exact eq_failed_of_rdSigned hsize
  split at h
  case h_1 hfrom => cases h; exact eq_failed_of_rdSigned hfrom
  split at h
  case h_1 hto => cases h; exact eq_failed_of_rdSigned hto
  obtain h | h := failIf_eq_error h
  · exact h
  obtain h | h := failIf_eq_error h
  · exact h
  split at h
  case h_1 hblock => cases h; exact eq_failed_of_decodeBlock hblock
  obtain h | h := failIf_eq_error h
  · exact h
  obtain h | h := failIf_eq_error h
  · exact h
  obtain h | h := failIf_eq_error h
  · exact h
  · cases h

theorem eq_failed_of_walkTree {budget q : Nat} {tree : CodeTree} {bs : List Bool} {e : Raise}
    (h : walkTree budget tree q bs = .error e) : e = .failed := by
  induction tree generalizing q bs with
  | empty => cases h; rfl
  | leaf k => cases h
  | node z o ihz iho =>
    unfold walkTree at h
    split at h
    · split at h
      · cases h; rfl
      · exact ihz h
      · exact iho h
    · cases h; rfl

theorem eq_failed_of_decodeOne {d : HufDecoder} {budget pos : Nat} {bs : List Bool} {e : Raise}
    (h : decodeOne d budget pos bs = .error e) : e = .failed := by
  unfold decodeOne at h
  split at h
  · split at h
    · cases h
    · exact eq_failed_of_walkTree h
  · cases h; rfl

theorem eq_failed_of_decodeSymbols {d : HufDecoder} {budget n pos : Nat} {bs : List Bool} {e : Raise}
    (h : decodeSymbols d budget n pos bs = .error e) : e = .failed := by
  induction n generalizing pos bs with
  | zero => cases h
  | succ n ih =>
    unfold decodeSymbols at h
    split at h
    case h_1 hone => cases h; exact eq_failed_of_decodeOne hone
    split at h
    case h_1 hrest => cases h; exact ih hrest
    · cases h

end Sys2Proof.Machine
end

/-! ## With which code a command ends -/

section
namespace Sys2Proof.Machine

/-- The commands that write a stream: the ones that can find their capacity too small (60_exceptions R288). -/
def streamWriters : List Instr :=
  [.bmStore, .rleCompress, .mskEncode, .bsStuff, .bsEncSimple, .bsEncLut, .hufWrTable, .hufEncode]

/-- What a command has done to the state by the time it raises `Failed` (60_exceptions R287, R289). -/
def failedEffect : Instr → State → State
  | .hufCompute => State.clearHuf
  | .hufRdTable => State.clearHuf
  | .mskDecode => scrambleMask
  | .rleDecompress => scrambleOutput .rleDecompress
  | .bsDecode => scrambleOutput .bsDecode
  | .hufDecode => scrambleOutput .hufDecode
  | _ => id

/-- Every command but those six raises `Failed` before it has changed anything. -/
theorem failedEffect_eq_id {i : Instr}
    (h : i ∉ [Instr.hufCompute, .hufRdTable, .mskDecode, .rleDecompress, .bsDecode, .hufDecode]) : failedEffect i = id := by
  cases i with
  | hufCompute | hufRdTable | mskDecode | rleDecompress | bsDecode | hufDecode => simp at h
  | _ => rfl

/-- What the body of a command can answer: a state and results, or one of the three codes a command can fail with, a capacity too
small only if it writes a stream longer than its capacity (60_exceptions R284, R288). -/
inductive BodyAnswers (i : Instr) (s : State) : Body → Prop where
  | ok (p : State × Nat × Nat) : BodyAnswers i s (.ok p)
  | failed : BodyAnswers i s (.error .failed)
  | wrongParam : BodyAnswers i s (.error .wrongParam)
  | bufferTooSmall (need : Nat) (hi : i ∈ streamWriters) (hneed : s.a3 < need) : BodyAnswers i s (.error (.bufferTooSmall need))

theorem BodyAnswers.ite {i : Instr} {s : State} {c : Prop} [Decidable c] {a b : Body} (ha : BodyAnswers i s a)
    (hb : BodyAnswers i s b) : BodyAnswers i s (if c then a else b) := by
  split
  · exact ha
  · exact hb

theorem BodyAnswers.error_of_eq_failed {i : Instr} {s : State} {e : Raise} (h : e = .failed) : BodyAnswers i s (.error e) :=
  h ▸ .failed

theorem BodyAnswers.of_storeOutput {i : Instr} {s : State} (hi : i ∈ streamWriters) (out : List Byte) (r1 : Nat) :
    BodyAnswers i s (storeOutput s out r1) := by
  by_cases h : s.a3 < out.length
  · rw [storeOutput_of_lt r1 h]
    exact .bufferTooSmall _ hi h
  · rw [storeOutput_of_le r1 (not_lt.mp h)]
    exact .ok _

/-- How a command ends, code by code, with what it has changed and its results (60_exceptions R280, R286 to R290). -/
inductive CommandCode (i : Instr) (s : State) : State → Prop where
  | ok (u : State) (r0 r1 : Nat) : CommandCode i s (u.finish .ok r0 r1)
  | failed : CommandCode i s ((failedEffect i s).finish .failed 0 0)
  | wrongParam : CommandCode i s (s.finish .wrongParam 0 0)
  | bufferTooSmall (need : Nat) (hi : i ∈ streamWriters) (hneed : s.a3 < need) :
    CommandCode i s (s.finish .bufferTooSmall need 0)

/-- A command ends so if its body answers so and its end in `Failed` is that of the rules. -/
theorem perform_code {i : Instr} {s t : State} {onFailed : State → State} {body : Unit → Body}
    (h : perform i s onFailed body = .next t) (hfail : onFailed s = failedEffect i s) (hbody : BodyAnswers i s (body ())) :
    CommandCode i s t := by
  obtain rfl | ⟨-, ⟨u, r0, r1, -, rfl⟩ | ⟨-, rfl⟩ | ⟨need, hb, rfl⟩ | ⟨hb, rfl⟩⟩ := perform_cases h
  · exact .wrongParam
  · exact .ok u r0 r1
  · exact hfail ▸ .failed
  · rw [hb] at hbody
    cases hbody with
    | bufferTooSmall _ hi hneed => exact .bufferTooSmall need hi hneed
  · rw [hb] at hbody
    cases hbody

/-- Every command ends so: its body is tests, each with its code, and then its output (60_exceptions R284). -/
theorem exec_code {i : Instr} {s t : State} (h : exec i s = .next t) : CommandCode i s t := by
  unfold exec at h
  cases i with
  | sysNop | sysReset | bmSetAllValid | bmSetAllInvalid | bmCount | bmLoad | rleSize | hufClear =>
    exact perform_code h rfl (.ok _)
  | bmSetSize | bsSizeSimple => exact perform_code h rfl (.ite .wrongParam (.ite .wrongParam (.ok _)))
  | bmIsValid | bmSetValid | bmSetInvalid => exact perform_code h rfl (.ite .wrongParam (.ok _))
  | bmStore =>
    refine perform_code h rfl ?_
    split
    · exact .bufferTooSmall _ (by decide) ‹_›
    · exact .ok _
  | rleCompress | mskEncode => exact perform_code h rfl (.of_storeOutput (by decide) _ _)
  | bsEncSimple | hufWrTable => exact perform_code h rfl (.ite .failed (.of_storeOutput (by decide) _ _))
  | bsStuff => exact perform_code h rfl (.ite .wrongParam (.ite .failed (.of_storeOutput (by decide) _ _)))
  | hufEncode => exact perform_code h rfl (.ite .failed (.ite .failed (.of_storeOutput (by decide) _ _)))
  | bsUnstuff => exact perform_code h rfl (.ite .wrongParam (.ite .failed (.ok _)))
  | hufBuild => exact perform_code h rfl (.ite .failed (.ok _))
  | hufGetCode => exact perform_code h rfl (.ite .failed (.ite .wrongParam (.ok _)))
  | hufSize => exact perform_code h rfl (.ite .failed (.ite .wrongParam (.ite .failed (.ite .failed (.ok _)))))
  | rleDecompress =>
    refine perform_code h rfl ?_
    split
    · exact .error_of_eq_failed (eq_failed_of_rleDecode ‹_›)
    · exact .ok _
  | mskDecode =>
    refine perform_code h rfl (.ite .wrongParam ?_)
    split
    · exact .error_of_eq_failed (eq_failed_of_readSegment ‹_›)
    · exact .ok _
  | bsSizeLut =>
    refine perform_code h rfl ?_
    split
    · exact .error_of_eq_failed (eq_failed_of_lutOf ‹_›)
    · exact .ok _
  | bsEncLut =>
    refine perform_code h rfl ?_
    split
    · exact .error_of_eq_failed (eq_failed_of_lutOf ‹_›)
    · exact .of_storeOutput (by decide) _ _
  | bsDecode =>
    refine perform_code h rfl ?_
    split
    · exact .error_of_eq_failed (eq_failed_of_decodeBlock ‹_›)
    · exact .ok _
  | hufCompute =>
    refine perform_code h rfl (.ite .wrongParam ?_)
    split
    · exact .error_of_eq_failed (eq_failed_of_hufLengths ‹_›)
    · exact .ok _
  | hufRdTable =>
    refine perform_code h rfl ?_
    split
    · exact .error_of_eq_failed (eq_failed_of_readTable ‹_›)
    · exact .ok _
  | hufDecode =>
    refine perform_code h rfl (.ite .failed ?_)
    split
    · exact .error_of_eq_failed (eq_failed_of_decodeSymbols ‹_›)
    · exact .ite .failed (.ok _)

/-- No command writes `CMD`, the operand registers or the host's side (10_state R22, R24). -/
theorem exec_keepsOperands {i : Instr} {s t : State} (h : exec i s = .next t) : KeepsOperands s t := by
  obtain rfl | ⟨-, u, code, r0, r1, hu, -, rfl⟩ := exec_ends h
  · exact (CommandEffect.nothing (i := i)).keepsOperands
  · exact hu.keepsOperands

/-- A command that ended with `Failed` has done what it does before that, and its results are 0. -/
theorem eq_finish_of_err_failed {i : Instr} {s t : State} (h : exec i s = .next t) (he : t.err = .failed) :
    t = (failedEffect i s).finish .failed 0 0 := by
  cases exec_code h with
  | failed => rfl
  | ok | wrongParam | bufferTooSmall => cases he

end Sys2Proof.Machine
end

/-! ## The obligations of the ends of commands -/

section
namespace Sys2Proof.Machine

/-- Settles O12: one of four codes ends every command, and no effect of a command reaches the operand registers. -/
theorem everyCommandEnds : Obligations.EveryCommandEnds := by
  intro i s
  obtain ⟨t, ht⟩ := exec_next i s
  have hkeeps := exec_keepsOperands ht
  refine ⟨t, ht, ?_⟩
  cases exec_code ht with
  | ok | failed | wrongParam | bufferTooSmall => exact ⟨rfl, rfl, by simp, hkeeps⟩

/-- Settles O14. -/
theorem turnedAwayCommandsChangeNothing : Obligations.TurnedAwayCommandsChangeNothing := by
  refine ⟨fun i s t ht he => ?_, fun i s t ht he => ?_⟩
  · cases exec_code ht with
    | wrongParam => rfl
    | ok | failed | bufferTooSmall => cases he
  · cases exec_code ht with
    | bufferTooSmall need hi hneed => exact ⟨hi, need, hneed, rfl⟩
    | ok | failed | wrongParam => cases he

theorem eq_wwin_of_mem_windows_hufDecode {s : State} {w : Window} (hmem : w ∈ windows .hufDecode s) (hwrite : w.write = true) :
    w = wwin s.a2 (4 * s.a3) := by
  rcases List.mem_pair.mp hmem with rfl | rfl
  · cases hwrite
  · rfl

/-- A stream decoder that ended with `Failed` has kept the internal stores and every byte outside its one write window. -/
theorem keeps_of_scrambleOutput {i : Instr} {s : State} {a n : Nat}
    (h : exec i s = .next ((scrambleOutput i s).finish .failed 0 0)) (hw : ∀ w ∈ windows i s, w.write = true → w = wwin a n) :
    KeepsStores s ((scrambleOutput i s).finish .failed 0 0) ∧ KeepsMemoryBut s ((scrambleOutput i s).finish .failed 0 0) a n := by
  obtain ⟨t, ht, -, hmem, hstores, -⟩ := decoderFailed_of_scrambleOutput h hw
  cases h.symm.trans ht
  exact ⟨hstores, hmem⟩

/-- Settles O15: what each command has done by the time it raises `Failed`, command by command. -/
theorem failedLeavesWhatTheRulesSay : Obligations.FailedLeavesWhatTheRulesSay := by
  intro i s t ht he
  obtain rfl := eq_finish_of_err_failed ht he
  refine ⟨rfl, rfl, ?_, ?_, ?_, ?_, fun hi => by rw [failedEffect_eq_id hi]; rfl⟩
  · rintro (rfl | rfl) <;> rfl
  · rintro rfl
    exact ⟨rfl, rfl, by simp [failedEffect], rfl⟩
  · rintro rfl
    exact keeps_of_scrambleOutput ht fun _ => eq_wwin_of_mem_windows_rleDecompress
  · rintro (rfl | rfl)
    · exact keeps_of_scrambleOutput ht fun _ => eq_wwin_of_mem_windows_bsDecode
    · exact keeps_of_scrambleOutput ht fun _ => eq_wwin_of_mem_windows_hufDecode

end Sys2Proof.Machine
end

/-! ## The obligation of the host that keeps to the interface -/

section
namespace Sys2Proof.Machine

/-! The machine goes on. -/

/-- A running block always has a next state: every command ends, on bytes the host has touched too (60_exceptions R280). -/
theorem blockStep_next (s : State) : ∃ t, blockStep s = .next t := by
  unfold blockStep
  split
  · unfold runCommand
    split
    · exact ⟨_, rfl⟩
    split
    · obtain ⟨t, ht⟩ := exec_next _ (foreignReads _ s)
      exact ⟨_, racedEnd_of_exec ht⟩
    · exact exec_next _ s
  · exact ⟨_, rfl⟩

/-- Every offset of the interface has a register (44_system R272). -/
theorem exists_regAt {offset : Nat} (h : regOffsetWellFormed offset = true) : ∃ r, regAt offset = some r := by
  obtain ⟨halign, hlt⟩ : offset % 4 = 0 ∧ offset < 64 := by simpa [regOffsetWellFormed] using h
  have hindex : offset / 4 < regMap.length := by change offset / 4 < 16; omega
  exact ⟨regMap[offset / 4], (if_pos halign).trans (List.getElem?_eq_getElem hindex)⟩

/-- An action of the interface never stops the machine. -/
theorem hostStep_next {a : HostAct} {s : State} (h : a.wellFormed s.params = true) : ∃ t, hostStep a s = .next t := by
  cases a with
  | writeReg offset v | readReg offset =>
    obtain ⟨r, hr⟩ := exists_regAt h
    simp only [hostStep, hr]
    exact ⟨_, rfl⟩
  | writeMem addr bytes => exact ⟨_, if_pos (of_decide_eq_true h)⟩
  | readMem addr n => exact ⟨_, if_pos (of_decide_eq_true h)⟩
  | wait => exact blockStep_next s
  | rst asserted => cases asserted <;> exact ⟨_, rfl⟩
  | skipUnlessOk n => exact ⟨_, rfl⟩

/-! The host's script and the parameters. -/

/-- The parameters are the same and what is left of the host's script is an end of it. -/
def ScriptGoesOn (s t : State) : Prop := t.params = s.params ∧ t.host <:+ s.host

theorem ScriptGoesOn.of_eq {s t : State} (hp : t.params = s.params) (hh : t.host = s.host) : ScriptGoesOn s t :=
  ⟨hp, hh ▸ List.suffix_refl _⟩

/-- A host whose script is an end of a conforming one conforms. -/
theorem ScriptGoesOn.conforming {s t : State} (h : ScriptGoesOn s t) (hs : s.conforming) : t.conforming := by
  obtain ⟨hp, hh⟩ := h
  intro a ha
  rw [hp]
  exact hs a (hh.subset ha)

theorem KeepsOperands.scriptGoesOn {s t : State} (h : KeepsOperands s t) : ScriptGoesOn s t := by
  obtain ⟨-, -, -, -, -, -, hparams, -, hhost, -⟩ := h
  exact .of_eq hparams hhost

theorem racedFrom_scriptGoesOn (i : Instr) (s t : State) : ScriptGoesOn s (racedFrom i s t) := by
  unfold racedFrom
  split <;> exact .of_eq rfl rfl

theorem blockStep_scriptGoesOn {s t : State} (h : blockStep s = .next t) : ScriptGoesOn s t := by
  unfold blockStep at h
  split at h
  · unfold runCommand at h
    split at h
    · cases h
      exact .of_eq rfl rfl
    split at h
    · obtain ⟨u, hu⟩ := exec_next _ (foreignReads _ s)
      cases (racedEnd_of_exec hu).symm.trans h
      exact racedFrom_scriptGoesOn _ s u
    · exact (exec_keepsOperands h).scriptGoesOn
  · cases h
    exact .of_eq rfl rfl

theorem writeReg_scriptGoesOn (s : State) (r : Reg) (v : Word) : ScriptGoesOn s (writeReg s r v) := by
  unfold writeReg
  split
  · exact .of_eq rfl rfl
  · cases r <;> exact .of_eq rfl rfl

theorem readReg_scriptGoesOn (s : State) (r : Reg) : ScriptGoesOn s (readReg s r) := by
  unfold readReg
  split <;> exact .of_eq rfl rfl

theorem skipUnlessOk_scriptGoesOn (s : State) (n : Nat) : ScriptGoesOn s (skipUnlessOk s n) := by
  unfold skipUnlessOk
  split
  · exact .of_eq rfl rfl
  · exact ⟨rfl, List.drop_suffix n s.host⟩

theorem hostStep_scriptGoesOn {a : HostAct} {s t : State} (h : hostStep a s = .next t) : ScriptGoesOn s t := by
  cases a with
  | writeReg offset v =>
    simp only [hostStep] at h
    split at h <;> cases h
    exact writeReg_scriptGoesOn s _ v
  | readReg offset =>
    simp only [hostStep] at h
    split at h <;> cases h
    exact readReg_scriptGoesOn s _
  | writeMem addr bytes | readMem addr n =>
    simp only [hostStep] at h
    split at h <;> cases h
    exact .of_eq rfl rfl
  | wait => exact blockStep_scriptGoesOn h
  | rst asserted => cases asserted <;> cases h <;> exact .of_eq rfl rfl
  | skipUnlessOk n =>
    cases h
    exact skipUnlessOk_scriptGoesOn s n

/-- No step changes the parameters or adds to the host's script. -/
theorem step_scriptGoesOn {s t : State} (h : step s = .next t) : ScriptGoesOn s t := by
  cases hh : s.host with
  | nil => exact blockStep_scriptGoesOn (step_nil hh ▸ h)
  | cons a rest =>
    obtain ⟨hparams, hrest⟩ := hostStep_scriptGoesOn (step_cons hh ▸ h)
    exact ⟨hparams, hh ▸ hrest.trans (List.suffix_cons a rest)⟩

/-- Settles O59: the block always ends its command, the host's next action is one of the interface, and what is left of its script
is an end of a conforming one. -/
theorem conformingHostIsNeverStopped : Obligations.ConformingHostIsNeverStopped := by
  refine ⟨fun s hs => ?_, fun s t hs h => (step_scriptGoesOn h).conforming hs, fun s a bs rest hh hout => ?_,
    fun s a n rest hh hout => ?_⟩
  · cases hh : s.host with
    | nil =>
      rw [State.safe, step_nil hh]
      exact blockStep_next s
    | cons a rest =>
      rw [State.safe, step_cons hh]
      exact hostStep_next (hs a (by simp [hh]))
  · exact (step_cons hh).trans (if_neg (not_le.mpr hout))
  · exact (step_cons hh).trans (if_neg (not_le.mpr hout))

end Sys2Proof.Machine
end

/-! ## A command on two buffer memories -/

section
namespace Sys2Proof.Machine

/-! What two memories that agree on the read windows hold there (20_memory R60, R62). -/

theorem Memory.readBytes_congr {m n : Memory} {a k : Nat} (h : ∀ x, a ≤ x → x < a + k → n.read x = m.read x) :
    n.readBytes a k = m.readBytes a k := by
  rw [Memory.readBytes_eq, Memory.readBytes_eq]
  refine List.map_congr_left fun j hj => h (a + j) (by omega) ?_
  have := List.mem_range.mp hj
  omega

theorem u32Array_congr {m n : Memory} {a k : Nat} (h : ∀ x, a ≤ x → x < a + 4 * k → n.read x = m.read x) :
    u32Array n a k = u32Array m a k := by
  induction k generalizing a with
  | zero => rfl
  | succ k ih =>
    have hhead : n.readBytes a 4 = m.readBytes a 4 := Memory.readBytes_congr fun x hlo hhi => h x hlo (by omega)
    have htail : u32Array n (a + 4) k = u32Array m (a + 4) k := ih fun x hlo hhi => h x (by omega) (by omega)
    rw [u32Array, u32Array, hhead, htail]

theorem AgreeOnReads.read_eq {m n : Memory} {ws : List Window} {a k x : Nat} (h : AgreeOnReads m n ws) (hw : rwin a k ∈ ws)
    (hlo : a ≤ x) (hhi : x < a + k) : n.read x = m.read x :=
  (h _ hw rfl x ((Window.covers_iff _ _).mpr ⟨hlo, hhi⟩)).symm

/-- The bytes of a read window, or the first of them, are the same in both memories. -/
theorem AgreeOnReads.readBytes_eq {m n : Memory} {ws : List Window} {a k l : Nat} (h : AgreeOnReads m n ws)
    (hw : rwin a k ∈ ws) (hl : l ≤ k) : n.readBytes a l = m.readBytes a l :=
  Memory.readBytes_congr fun _ hlo hhi => h.read_eq hw hlo (by omega)

/-! What changes alike in two memories. -/

/-- Two changes of memory, from `m` to `m'` and from `n` to `n'`: wherever either has changed a byte both have the same one. -/
def ChangeAlike (m n m' n' : Memory) : Prop :=
  ∀ a, n'.read a = m'.read a ∨ (m'.read a = m.read a ∧ n'.read a = n.read a)

theorem ChangeAlike.refl (m n : Memory) : ChangeAlike m n m n := fun _ => .inr ⟨rfl, rfl⟩

theorem ChangeAlike.trans {m n m' n' m'' n'' : Memory} (h : ChangeAlike m n m' n') (h' : ChangeAlike m' n' m'' n'') :
    ChangeAlike m n m'' n'' := by
  intro a
  rcases h' a with heq | ⟨hm, hn⟩
  · exact .inl heq
  · rw [hm, hn]
    exact h a

theorem Memory.writeBytes_changeAlike (m n : Memory) (a : Nat) (bs : List Byte) :
    ChangeAlike m n (m.writeBytes a bs) (n.writeBytes a bs) := by
  intro x
  by_cases hx : a ≤ x ∧ x < a + bs.length
  · obtain ⟨j, rfl⟩ := Nat.exists_eq_add_of_le hx.1
    have hj : j < bs.length := by omega
    rw [Memory.read_writeBytes_same _ _ _ _ hj, Memory.read_writeBytes_same _ _ _ _ hj]
    exact .inl rfl
  · exact .inr ⟨Memory.read_writeBytes_other _ _ _ _ hx, Memory.read_writeBytes_other _ _ _ _ hx⟩

theorem Memory.scramble_changeAlike (m n : Memory) (a k tag : Nat) :
    ChangeAlike m n (m.scramble a k tag) (n.scramble a k tag) := by
  intro x
  by_cases hx : a ≤ x ∧ x < a + k
  · rw [Memory.read_scramble_same _ _ _ _ _ hx, Memory.read_scramble_same _ _ _ _ _ hx]
    exact .inl rfl
  · exact .inr ⟨Memory.read_scramble_other _ _ _ _ _ hx, Memory.read_scramble_other _ _ _ _ _ hx⟩

theorem Memory.scrambleWrites_changeAlike (m n : Memory) (tag : Nat) (ws : List Window) :
    ChangeAlike m n (m.scrambleWrites tag ws) (n.scrambleWrites tag ws) := by
  induction ws generalizing m n with
  | nil => exact .refl m n
  | cons w t ih =>
    rw [Memory.scrambleWrites, Memory.scrambleWrites]
    refine ChangeAlike.trans ?_ (ih _ _)
    split
    · exact Memory.scramble_changeAlike m n w.start w.len tag
    · exact .refl m n

/-! Two states that differ in buffer memory alone. -/

/-- The state with another buffer memory. -/
def State.withMem (s : State) (m : Memory) : State := { s with mem := m }

@[simp] theorem State.bm_withMem (s : State) (m : Memory) : (s.withMem m).bm = s.bm := rfl
@[simp] theorem State.hd_withMem (s : State) (m : Memory) : (s.withMem m).hd = s.hd := rfl
@[simp] theorem State.a1_withMem (s : State) (m : Memory) : (s.withMem m).a1 = s.a1 := rfl
@[simp] theorem State.a3_withMem (s : State) (m : Memory) : (s.withMem m).a3 = s.a3 := rfl
@[simp] theorem State.a4_withMem (s : State) (m : Memory) : (s.withMem m).a4 = s.a4 := rfl

/-- The window tests do not look at it. -/
theorem windows_withMem (i : Instr) (s : State) (m : Memory) : windows i (s.withMem m) = windows i s :=
  windows_congr i s (s.withMem m) rfl rfl rfl rfl rfl

/-- The bytes of the read window from `ARG0` on, `ARG1` of them. -/
theorem AgreeOnReads.source_eq {s : State} {m : Memory} {ws : List Window} (h : AgreeOnReads s.mem m ws)
    (hw : rwin s.a0 s.a1 ∈ ws) :
    (s.withMem m).mem.readBytes (s.withMem m).a0 (s.withMem m).a1 = s.mem.readBytes s.a0 s.a1 :=
  h.readBytes_eq hw le_rfl

theorem AgreeOnReads.sourceArray_eq {s : State} {m : Memory} {ws : List Window} (h : AgreeOnReads s.mem m ws)
    (hw : rwin s.a0 (4 * s.a1) ∈ ws) : sourceArray (s.withMem m) = sourceArray s :=
  u32Array_congr fun _ => h.read_eq hw

/-- Two states that a run from `s` and the same run from `s` with memory `m` have come to: they differ in buffer memory alone, and
both runs have changed their memory alike. -/
def RunsAlike (s : State) (m : Memory) (t u : State) : Prop := ∃ n, u = t.withMem n ∧ ChangeAlike s.mem m t.mem n

theorem RunsAlike.of_mem_eq {s t : State} {m : Memory} (h : t.mem = s.mem) : RunsAlike s m t (t.withMem m) :=
  ⟨m, rfl, h ▸ .refl s.mem m⟩

theorem RunsAlike.refl (s : State) (m : Memory) : RunsAlike s m s (s.withMem m) := .of_mem_eq rfl

theorem RunsAlike.finish {s t u : State} {m : Memory} (h : RunsAlike s m t u) (code : StatusCode) (r0 r1 : Nat) :
    RunsAlike s m (t.finish code r0 r1) (u.finish code r0 r1) := by
  obtain ⟨n, rfl, hn⟩ := h
  exact ⟨n, rfl, hn⟩

theorem RunsAlike.store (s : State) (m : Memory) (a : Nat) (bs : List Byte) :
    RunsAlike s m (s.store a bs) ((s.withMem m).store a bs) :=
  ⟨_, rfl, Memory.writeBytes_changeAlike s.mem m a bs⟩

theorem scrambleOutput_runsAlike (i : Instr) (s : State) (m : Memory) :
    RunsAlike s m (scrambleOutput i s) (scrambleOutput i (s.withMem m)) := by
  refine ⟨m.scrambleWrites s.fresh (windows i s), ?_, Memory.scrambleWrites_changeAlike s.mem m s.fresh (windows i s)⟩
  rw [scrambleOutput, windows_withMem]
  rfl

/-- What a command has done by the time it raises `Failed` does not look at buffer memory. -/
theorem failedEffect_runsAlike (i : Instr) (s : State) (m : Memory) :
    RunsAlike s m (failedEffect i s) (failedEffect i (s.withMem m)) := by
  cases i with
  | rleDecompress | bsDecode | hufDecode => exact scrambleOutput_runsAlike _ s m
  | _ => exact .of_mem_eq rfl

/-! The bodies of a command on both states. -/

/-- The bodies answer alike: the same results and states the runs have come to, or the same code. -/
inductive BodiesAlike (s : State) (m : Memory) : Body → Body → Prop where
  | ok {t u : State} (r0 r1 : Nat) (h : RunsAlike s m t u) : BodiesAlike s m (.ok (t, r0, r1)) (.ok (u, r0, r1))
  | error (e : Raise) : BodiesAlike s m (.error e) (.error e)

/-- A test that does not look at memory: it raises the same code, or the bodies go on. -/
theorem BodiesAlike.test {s : State} {m : Memory} {c : Prop} [Decidable c] {e : Raise} {b b' : Body}
    (h : ¬ c → BodiesAlike s m b b') : BodiesAlike s m (if c then .error e else b) (if c then .error e else b') := by
  split
  · exact .error e
  · exact h ‹_›

/-- A body that has not touched buffer memory. -/
theorem BodiesAlike.of_mem_eq {s t : State} {m : Memory} {r0 r1 : Nat} (h : t.mem = s.mem) :
    BodiesAlike s m (.ok (t, r0, r1)) (.ok (t.withMem m, r0, r1)) := .ok r0 r1 (.of_mem_eq h)

theorem BodiesAlike.store {s : State} {m : Memory} (a : Nat) (bs : List Byte) (r0 r1 : Nat) :
    BodiesAlike s m (.ok (s.store a bs, r0, r1)) (.ok ((s.withMem m).store a bs, r0, r1)) := .ok r0 r1 (.store s m a bs)

theorem BodiesAlike.storeOutput {s : State} {m : Memory} (out : List Byte) (r1 : Nat) :
    BodiesAlike s m (storeOutput s out r1) (storeOutput (s.withMem m) out r1) := .test fun _ => .store _ out _ r1

/-- The ends of a command whose bodies answer alike. -/
theorem concluded_runsAlike {s : State} {m : Memory} {b b' : Body} (i : Instr) (h : BodiesAlike s m b b') :
    RunsAlike s m (concluded s (failedEffect i) b) (concluded (s.withMem m) (failedEffect i) b') := by
  cases h with
  | ok r0 r1 h => exact h.finish .ok r0 r1
  | error e =>
    cases e with
    | failed => exact (failedEffect_runsAlike i s m).finish .failed 0 0
    | wrongParam | bufferTooSmall | illegalCommand => exact (RunsAlike.refl s m).finish _ _ _

/-- A command runs alike if its bodies answer alike and its end in `Failed` is that of the rules. -/
theorem perform_runsAlike {i : Instr} {s t u : State} {m : Memory} {onFailed : State → State} {body body' : Unit → Body}
    (ht : perform i s onFailed body = .next t) (hu : perform i (s.withMem m) onFailed body' = .next u)
    (hfail : onFailed = failedEffect i) (hbody : BodiesAlike s m (body ()) (body' ())) : RunsAlike s m t u := by
  subst hfail
  unfold perform at ht hu
  rw [windows_withMem] at hu
  cases ht
  cases hu
  change RunsAlike s m (concluded s _ (if WindowsPass i s then _ else _))
    (concluded (s.withMem m) _ (if WindowsPass i s then _ else _))
  split
  · exact concluded_runsAlike i hbody
  · exact concluded_runsAlike i (.error _)

/-- Every command runs alike on memories that agree on its read windows: a body looks at memory only through its source bytes or its
source array, and these are equal. -/
theorem exec_runsAlike {i : Instr} {s t u : State} {m : Memory} (h : AgreeOnReads s.mem m (windows i s))
    (ht : exec i s = .next t) (hu : exec i (s.withMem m) = .next u) : RunsAlike s m t u := by
  unfold exec at ht hu
  cases i with
  | sysNop | sysReset | bmSetAllValid | bmSetAllInvalid | bmCount | hufClear =>
    exact perform_runsAlike ht hu rfl (.of_mem_eq rfl)
  | bmSetSize | bsSizeSimple | hufGetCode =>
    exact perform_runsAlike ht hu rfl (.test fun _ => .test fun _ => .of_mem_eq rfl)
  | bmIsValid | bmSetValid | bmSetInvalid | hufBuild =>
    exact perform_runsAlike ht hu rfl (.test fun _ => .of_mem_eq rfl)
  | bmStore => exact perform_runsAlike ht hu rfl (.test fun _ => .store _ _ _ _)
  | mskEncode => exact perform_runsAlike ht hu rfl (.storeOutput _ _)
  | hufWrTable => exact perform_runsAlike ht hu rfl (.test fun _ => .storeOutput _ _)
  | bmLoad =>
    refine perform_runsAlike ht hu rfl ?_
    have hsrc : (s.withMem m).mem.readBytes (s.withMem m).a0 (s.withMem m).bm.size = s.mem.readBytes s.a0 s.bm.size :=
      h.readBytes_eq (List.mem_singleton_self _) le_rfl
    rw [hsrc]
    exact .of_mem_eq rfl
  | rleSize =>
    refine perform_runsAlike ht hu rfl ?_
    rw [h.source_eq (by simp [windows])]
    exact .of_mem_eq rfl
  | rleCompress =>
    refine perform_runsAlike ht hu rfl ?_
    rw [h.source_eq (by simp [windows])]
    exact .storeOutput _ _
  | rleDecompress =>
    refine perform_runsAlike ht hu rfl ?_
    rw [h.source_eq (by simp [windows]), State.a1_withMem, State.a3_withMem]
    cases rleDecode s.a1 s.a3 (Cursor.start (s.mem.readBytes s.a0 s.a1)) with
    | error e => exact .error e
    | ok p => exact .store _ _ _ _
  | mskDecode =>
    refine perform_runsAlike ht hu rfl (.test fun _ => ?_)
    rw [h.source_eq (by simp [windows]), State.a4_withMem, State.bm_withMem]
    cases readSegment s.bm s.a4 (s.mem.readBytes s.a0 s.a1) with
    | error e => exact .error e
    | ok p => exact .of_mem_eq rfl
  | bsStuff | hufEncode =>
    refine perform_runsAlike ht hu rfl ?_
    rw [h.sourceArray_eq (by simp [windows])]
    exact .test fun _ => .test fun _ => .storeOutput _ _
  | bsUnstuff =>
    refine perform_runsAlike ht hu rfl (.test fun _ => .test fun hroom => ?_)
    have hsrc : (s.withMem m).mem.readBytes (s.withMem m).a0 (stuffBytes (s.withMem m).a3 (s.withMem m).a4)
        = s.mem.readBytes s.a0 (stuffBytes s.a3 s.a4) :=
      h.readBytes_eq (a := s.a0) (k := s.a1) (by simp [windows]) (not_lt.mp hroom)
    rw [hsrc]
    exact .store _ _ _ _
  | bsSizeLut =>
    refine perform_runsAlike ht hu rfl ?_
    rw [h.sourceArray_eq (by simp [windows])]
    cases lutOf (sourceArray s) with
    | error e => exact .error e
    | ok l => exact .of_mem_eq rfl
  | bsEncSimple =>
    refine perform_runsAlike ht hu rfl ?_
    rw [h.sourceArray_eq (by simp [windows])]
    exact .test fun _ => .storeOutput _ _
  | bsEncLut =>
    refine perform_runsAlike ht hu rfl ?_
    rw [h.sourceArray_eq (by simp [windows])]
    cases lutOf (sourceArray s) with
    | error e => exact .error e
    | ok l => exact .storeOutput _ _
  | bsDecode =>
    refine perform_runsAlike ht hu rfl ?_
    rw [h.source_eq (by simp [windows]), State.a3_withMem]
    cases decodeBlock s.a3 (Cursor.start (s.mem.readBytes s.a0 s.a1)) with
    | error e => exact .error e
    | ok p => exact .store _ _ _ _
  | hufCompute =>
    refine perform_runsAlike ht hu rfl (.test fun _ => ?_)
    rw [h.sourceArray_eq (by simp [windows])]
    cases hufLengths (sourceArray s) with
    | error e => exact .error e
    | ok len => exact .of_mem_eq rfl
  | hufSize =>
    refine perform_runsAlike ht hu rfl ?_
    rw [h.sourceArray_eq (by simp [windows])]
    exact .test fun _ => .test fun _ => .test fun _ => .test fun _ => .of_mem_eq rfl
  | hufRdTable =>
    refine perform_runsAlike ht hu rfl ?_
    rw [h.source_eq (by simp [windows])]
    cases readTable (s.mem.readBytes s.a0 s.a1) with
    | error e => exact .error e
    | ok p => exact .of_mem_eq rfl
  | hufDecode =>
    refine perform_runsAlike ht hu rfl (.test fun _ => ?_)
    rw [h.source_eq (by simp [windows]), State.a1_withMem, State.a3_withMem, State.hd_withMem]
    cases decodeSymbols s.hd s.a1 s.a3 0 (streamBits (s.mem.readBytes s.a0 s.a1)) with
    | error e => exact .error e
    | ok p => exact .test fun _ => .store _ _ _ _

end Sys2Proof.Machine
end

/-! ## The obligation of memory safety -/

section
namespace Sys2Proof.Machine

/-- No effect of a command reaches a byte outside its write windows. -/
theorem CommandEffect.read_other {i : Instr} {s u : State} {x : Nat} (h : CommandEffect i s u)
    (hx : ∀ w ∈ windows i s, w.write = true → w.covers x = false) : u.mem.read x = s.mem.read x := by
  cases h with
  | output out n hw hn =>
    have hout : ¬ (s.a2 ≤ x ∧ x < s.a2 + n) := fun hc =>
      Bool.eq_false_iff.mp (hx _ hw rfl) ((Window.covers_iff _ _).mpr hc)
    exact Memory.read_writeBytes_other _ _ _ _ (by omega)
  | freeOutput => exact Memory.read_scrambleWrites_other _ _ _ _ hx
  | nothing | mask | freeMask | table | cleared | built | stores => rfl

/-- No command changes a byte outside its write windows. -/
theorem exec_read_other {i : Instr} {s t : State} {x : Nat} (h : exec i s = .next t)
    (hx : ∀ w ∈ windows i s, w.write = true → w.covers x = false) : t.mem.read x = s.mem.read x := by
  obtain rfl | ⟨-, u, code, r0, r1, hu, -, rfl⟩ := exec_ends h
  · rfl
  · exact hu.read_other hx

/-- Settles O13: the effects of a command stay in its write windows, and it runs alike on memories that agree on its read
windows. -/
theorem commandsAreMemorySafe : Obligations.CommandsAreMemorySafe := by
  refine fun i s => ⟨?_, fun m t u hm ht hu => ?_⟩
  · obtain ⟨t, ht, -, -, hcode, -⟩ := everyCommandEnds i s
    exact ⟨t, ht, hcode, fun a => exec_read_other ht⟩
  · obtain ⟨n, rfl, hn⟩ := exec_runsAlike hm ht hu
    exact ⟨rfl, hn⟩

end Sys2Proof.Machine
end

/-! ## The obligation of register accesses to a busy block -/

section
namespace Sys2Proof.Machine

/-! The host's register accesses (44_system R272). -/

theorem step_writeReg {s : State} {offset : Nat} {r : Reg} {v : Word} {rest : List HostAct}
    (hh : s.host = .writeReg offset v :: rest) (hr : regAt offset = some r) :
    step s = .next (writeReg { s with host := rest } r v) := by
  rw [step_cons hh]
  simp only [hostStep, hr]

theorem step_readReg {s : State} {offset : Nat} {r : Reg} {rest : List HostAct} (hh : s.host = .readReg offset :: rest)
    (hr : regAt offset = some r) : step s = .next (readReg { s with host := rest } r) := by
  rw [step_cons hh]
  simp only [hostStep, hr]

theorem isMirror_iff (r : Reg) : isMirror r = true ↔ r ∈ [Reg.bmCols, Reg.bmRows, Reg.hufStat, Reg.hufSize] := by
  cases r <;> decide

/-- A read of any register but a mirror returns its value, busy or not. -/
theorem readReg_of_not_mirror {s : State} {r : Reg} (h : ¬ isMirror r = true) : readReg s r = { s with rdata := regWord s r } := by
  simp [readReg, h]

/-- A mirror read while the block is busy returns a free word (70_reset R320). -/
theorem readReg_mirror_of_busy {s : State} {r : Reg} (hb : s.busy = true) (h : isMirror r = true) :
    readReg s r = { s with rdata := Config.freeWord s.fresh 0, fresh := s.fresh + 1 } := by simp [readReg, hb, h]

/-- Settles O7. -/
theorem registerAccessOfABusyBlock : Obligations.RegisterAccessOfABusyBlock := by
  refine ⟨fun s offset v rest hh hb ho => ?_, fun s offset r rest hh hb hr hmirror => ?_, fun s hb hd => ?_,
    fun s offset r rest hh hb hr hmirror => ?_⟩
  · obtain ⟨r, hr⟩ := exists_regAt ho
    exact (step_writeReg hh hr).trans (congrArg _ (writeReg_of_busy r v hb))
  · rw [step_readReg hh hr, readReg_of_not_mirror (mt (isMirror_iff r).mp hmirror), regWord_host]
  · simp [regWord, statusWord, hb, hd]
  · exact ⟨_, (step_readReg hh hr).trans (congrArg _ (readReg_mirror_of_busy hb ((isMirror_iff r).mpr hmirror)))⟩

end Sys2Proof.Machine
end

/-! ## The obligation of the reset input -/

section
namespace Sys2Proof.Machine

/-! A block at its reset values (10_state R42; 70_reset R310). -/

/-- What every register reads then: `ID` its constant, every other register 0. -/
theorem regWord_of_atReset {s : State} (h : s.AtReset) (r : Reg) : regWord s r = if r = .id then 0x53303533#32 else 0#32 := by
  rw [h]
  cases r <;> rfl

theorem State.AtReset.busy_eq_false {s : State} (h : s.AtReset) : s.busy = false := by rw [h]; rfl

/-- The level of the reset input is not one of those values. -/
theorem State.AtReset.releasePin {s : State} (h : s.AtReset) : (releasePin s).AtReset :=
  congrArg Machine.releasePin h

theorem State.Inv.atReset {s : State} (h : s.Inv) (hr : s.rst = true) : s.AtReset := by
  obtain ⟨-, -, -, -, -, -, -, -, hrst⟩ := h
  exact hrst hr

/-! The input is asserted (70_reset R310, R311). -/

/-- Buffer memory is kept, but for the write windows of the command that was running. -/
theorem resetPin_mem_of_idle {s : State} (h : s.busy = false) : (resetPin s).mem = s.mem := by
  simp [resetPin, h, Memory.scrambleWrites]

theorem read_resetPin_other {s : State} {i : Instr} {x : Nat} (hd : decode s.cmd = .ok i)
    (hx : ∀ w ∈ windows i s, w.write = true → w.covers x = false) : (resetPin s).mem.read x = s.mem.read x := by
  refine Memory.read_scrambleWrites_other s.mem s.fresh x (ownedWindows s) fun w hw => ?_
  obtain ⟨-, j, hj, hmem⟩ := mem_ownedWindows hw
  obtain rfl : i = j := Except.ok.inj (hd.symm.trans hj)
  exact hx w hmem

/-! The input is held asserted (70_reset R310). -/

/-- An idle block: only the reset input's own actions change its level. -/
theorem hostStep_rst_of_held {a : HostAct} {s t : State} (hb : s.busy = false) (hr : s.rst = true) (h : hostStep a s = .next t) :
    t.rst = true ↔ a ≠ .rst false := by
  cases a with
  | writeReg offset v =>
    simp only [hostStep] at h
    split at h <;> cases h
    simp [writeReg_of_rst _ v hr, hr]
  | readReg offset =>
    simp only [hostStep] at h
    split at h <;> cases h
    simp [readReg, hb, hr]
  | writeMem addr bytes | readMem addr n =>
    simp only [hostStep] at h
    split at h <;> cases h
    simp [hostWrite, hostRead, hr]
  | wait =>
    cases (blockStep_of_idle hb).symm.trans h
    simp [hr]
  | rst asserted => cases asserted <;> cases h <;> simp
  | skipUnlessOk n =>
    cases h
    unfold skipUnlessOk
    split <;> simp [hr]

/-- Whatever the host does then, the release included, the block is at its reset values afterwards. -/
theorem step_atReset_of_held {s t : State} {a : HostAct} {rest : List HostAct} (hs : s.Inv) (hr : s.rst = true)
    (hh : s.host = a :: rest) (h : step s = .next t) : t.AtReset ∧ (t.rst = true ↔ a ≠ .rst false) := by
  have hreset := hs.atReset hr
  have hstep : hostStep a { s with host := rest } = .next t := (step_cons hh).symm.trans h
  have hlevel := hostStep_rst_of_held (s := { s with host := rest }) hreset.busy_eq_false hr hstep
  refine ⟨?_, hlevel⟩
  by_cases ha : a = .rst false
  · subst ha
    cases hstep
    exact State.AtReset.releasePin (s := { s with host := rest }) (congrArg (fun x : State => { x with host := rest }) hreset)
  · exact (stepKeepsTheInvariant s t hs h).atReset (hlevel.mpr ha)

/-- Settles O9: an assertion puts the block at its reset values, and the invariant holds it there. -/
theorem resetInputResetsTheBlock : Obligations.ResetInputResetsTheBlock := by
  refine ⟨regWord_of_atReset rfl, fun s rest hh => ?_, fun s offset v rest hr hh ho => ?_, fun s hs hr hh => ?_,
    fun s t a rest hs hr hh h => ?_, fun s rest hh => step_cons hh⟩
  · refine ⟨resetPin { s with host := rest }, step_cons hh, rfl, regWord_of_atReset (resetPin_atReset _), rfl, rfl, rfl, rfl,
      rfl, rfl, rfl, rfl, rfl, rfl, rfl, rfl, rfl, rfl, rfl, rfl, rfl, fun hb => resetPin_mem_of_idle hb, fun i _ hd x hx => ?_⟩
    refine read_resetPin_other (s := { s with host := rest }) hd ?_
    rwa [windows_congr i s { s with host := rest } rfl rfl rfl rfl rfl]
  · obtain ⟨r, ho⟩ := exists_regAt ho
    exact (step_writeReg hh ho).trans (congrArg _ (writeReg_of_rst r v hr))
  · exact (step_nil hh).trans (blockStep_of_idle (hs.atReset hr).busy_eq_false)
  · obtain ⟨hreset, hlevel⟩ := step_atReset_of_held hs hr hh h
    exact ⟨hreset, hlevel, regWord_of_atReset hreset⟩

end Sys2Proof.Machine
end

/-! ## The obligation of a broken ownership rule -/

section
namespace Sys2Proof.Machine

/-! The mark (70_reset R321). -/

/-- A running command that its window tests let through owns its windows (20_memory R71). -/
theorem ownedWindows_of_windowsPass {s : State} {i : Instr} (hb : s.busy = true) (hd : decode s.cmd = .ok i)
    (hw : WindowsPass i s) : ownedWindows s = windows i s := by
  simp only [ownedWindows, hb, hd, hw, if_true]

/-- A host's store that touches a window of the running command marks it. -/
theorem hostWrite_raced {s : State} {a x : Nat} {bs : List Byte} {w : Window} (hw : w ∈ ownedWindows s)
    (hx : w.covers x = true) (hlo : a ≤ x) (hhi : x < a + bs.length) : (hostWrite s a bs).raced = true := by
  have hover : w.overlaps (wwin a bs.length) = true :=
    (Window.overlaps_iff _ _).mpr ⟨x, hx, (Window.covers_iff _ _).mpr ⟨hlo, hhi⟩⟩
  have hany : (ownedWindows s).any (fun w => w.overlaps (wwin a bs.length)) = true := List.any_eq_true.mpr ⟨w, hw, hover⟩
  simp [hostWrite, hany]

/-! A host's read (20_memory R60). -/

/-- A byte outside the write windows of the running command is that of memory. -/
theorem hostByte_of_not_written {s : State} {x : Nat}
    (h : ∀ i, decode s.cmd = .ok i → ∀ w ∈ windows i s, w.write = true → w.covers x = false) :
    hostByte s x = s.mem.read x := by
  refine if_neg fun hany => ?_
  obtain ⟨w, hw, hc⟩ := List.any_eq_true.mp hany
  obtain ⟨hwrite, hcov⟩ := Bool.and_eq_true_iff.mp hc
  obtain ⟨-, i, hd, hmem⟩ := mem_ownedWindows hw
  simp [h i hd w hmem hwrite] at hcov

/-! How a marked command ends (70_reset R321). -/

theorem blockStep_of_raced {s : State} {i : Instr} (hb : s.busy = true) (hr : s.raced = true) (hd : decode s.cmd = .ok i) :
    blockStep s = racedEnd i s := by
  rw [blockStep_busy hb]
  simp only [runCommand, hd, hr, if_true]

/-- The step of a marked command whose host lets it run or waits for it. -/
theorem step_of_raced {s : State} {i : Instr} {rest : List HostAct} (hh : s.host = [] ∧ rest = [] ∨ s.host = .wait :: rest)
    (hb : s.busy = true) (hr : s.raced = true) (hd : decode s.cmd = .ok i) : step s = racedEnd i { s with host := rest } := by
  have hstep : step s = blockStep { s with host := rest } := by
    obtain ⟨hnil, rfl⟩ | hwait := hh
    · rw [step_nil hnil, ← hnil]
    · exact step_wait hwait
  exact hstep.trans (blockStep_of_raced hb hr hd)

theorem racedFrom_busy (i : Instr) (s t : State) : (racedFrom i s t).busy = false := by
  unfold racedFrom
  split <;> rfl

theorem racedFrom_done (i : Instr) (s t : State) : (racedFrom i s t).done = true := by
  unfold racedFrom
  split <;> rfl

theorem racedFrom_keepsOperands (i : Instr) (s t : State) : KeepsOperands s (racedFrom i s t) := by
  unfold racedFrom
  split <;> exact ⟨rfl, rfl, rfl, rfl, rfl, rfl, rfl, rfl, rfl, rfl, rfl⟩

/-- After `WrongParam` memory is as it was, after any other end what `racedMem` says. -/
theorem racedFrom_mem (i : Instr) (s t : State) :
    (racedFrom i s t).mem = if t.err = .wrongParam then s.mem else racedMem i s t := by
  unfold racedFrom
  split <;> rfl

/-- The mask store and the Huffman unit are within their invariants: as they were, or free within them (10_state R31, R36, R39). -/
theorem racedFrom_storesSound {i : Instr} {s : State} (t : State) (hs : s.Inv) :
    (racedFrom i s t).ht.sound ∧ (racedFrom i s t).hd.sound (racedFrom i s t).ht ∧
      (racedFrom i s t).bm.sound s.params.maskMaxPixels := by
  obtain ⟨-, hbm, hht, hhd⟩ := hs.partsSound
  unfold racedFrom
  split
  · exact ⟨hht, hhd, hbm⟩
  · exact ⟨freeTable_sound _, freeDecoder_sound _ _, freeMask_sound _ _⟩

/-- The results are those the command has on the bytes it found: after `WrongParam` these are 0 and 0 as well (60_exceptions
R290). -/
theorem racedFrom_res_of_exec {i j : Instr} {s v t : State} (h : exec j v = .next t) :
    (racedFrom i s t).res0 = t.res0 ∧ (racedFrom i s t).res1 = t.res1 := by
  obtain hres | ⟨he, h0, h1⟩ := racedFrom_res i s t
  · exact hres
  · obtain rfl := turnedAwayCommandsChangeNothing.1 j v t h he
    exact ⟨h0, h1⟩

/-- The bytes a marked command finds differ from those of memory in its read windows alone. -/
theorem read_foreignReads_other {i : Instr} {s : State} {x : Nat}
    (h : ∀ w ∈ windows i s, w.write = false → w.covers x = false) : (foreignReads i s).mem.read x = s.mem.read x :=
  Memory.read_scrambleReads_other s.mem s.fresh x (windows i s) h

/-- A failure of any command reports results 0 and 0 (60_exceptions R290). -/
theorem res_of_exec_failed {i : Instr} {s t : State} (h : exec i s = .next t) (he : t.err = .failed ∨ t.err = .wrongParam) :
    t.res0 = 0#32 ∧ t.res1 = 0#32 := by
  cases exec_code h with
  | failed | wrongParam => exact ⟨rfl, rfl⟩
  | ok | bufferTooSmall => simp at he

/-- A capacity too small reports a needed size above it and 0 (60_exceptions R288, R290). -/
theorem res_of_exec_bufferTooSmall {i : Instr} {s t : State} (h : exec i s = .next t) (he : t.err = .bufferTooSmall) :
    t.res1 = 0#32 ∧ ∃ need, s.a3 < need ∧ t.res0 = BitVec.ofNat 32 need := by
  cases exec_code h with
  | bufferTooSmall need _ hneed => exact ⟨rfl, need, hneed, rfl⟩
  | ok | failed | wrongParam => cases he

/-! The bytes it has written. -/

/-- Every write window starts at the address in `ARG2` (30_encoding R93). -/
theorem start_of_write_window {i : Instr} {s : State} {w : Window} (hw : w ∈ windows i s) (hwrite : w.write = true) :
    w.start = s.a2 := by
  cases i with
  | rleCompress | rleDecompress | bsStuff | bsUnstuff | bsEncSimple | bsEncLut | bsDecode | hufEncode | hufDecode =>
    obtain rfl | rfl := List.mem_pair.mp hw
    · cases hwrite
    · rfl
  | bmStore | mskEncode | hufWrTable =>
    obtain rfl := List.mem_singleton.mp hw
    rfl
  | bmLoad | rleSize | mskDecode | bsSizeLut | hufCompute | hufSize | hufRdTable =>
    obtain rfl := List.mem_singleton.mp hw
    cases hwrite
  | _ => cases hw

/-- After `OK` that is at most its output. -/
theorem read_racedMem_of_ok {i : Instr} {s t : State} {x : Nat} (he : t.err = .ok)
    (hx : ¬ (s.a2 ≤ x ∧ x < s.a2 + bytesWritten i t.res0.toNat)) : (racedMem i s t).read x = s.mem.read x := by
  simp only [racedMem, he]
  refine Memory.read_scrambleWrites_other _ _ _ _ fun v hv hwrite => ?_
  obtain ⟨w, hw, rfl⟩ := List.mem_map.mp hv
  have hstart : w.start = s.a2 := start_of_write_window hw hwrite
  rw [Bool.eq_false_iff, ne_eq, Window.covers_iff]
  simp only [Window.cut]
  omega

theorem bytesWritten_eq (i : Instr) (n : Nat) :
    bytesWritten i n = if i ∈ [Instr.bsUnstuff, .bsDecode, .hufDecode] then 4 * n else n := by simp [bytesWritten]

theorem writesBeforeFailing_eq_false {i : Instr} (h : i ∉ [Instr.rleDecompress, .bsDecode, .hufDecode]) :
    writesBeforeFailing i = false := by simpa [writesBeforeFailing, and_assoc] using h

/-- It has written nothing unless the command ended with `OK`, or with `Failed` and is a stream decoder. -/
theorem racedFrom_mem_of_nothing_written {i : Instr} {s t : State}
    (h : t.err = .wrongParam ∨ t.err = .bufferTooSmall ∨
      (t.err = .failed ∧ i ∉ [Instr.rleDecompress, .bsDecode, .hufDecode])) : (racedFrom i s t).mem = s.mem := by
  rw [racedFrom_mem]
  split
  · rfl
  obtain he | he | ⟨he, hi⟩ := h
  · contradiction
  · exact racedMem_of_nothing_written (by simp [he]) (by simp [he])
  · exact racedMem_of_nothing_written (by simp [he]) fun _ => writesBeforeFailing_eq_false hi

/-- Settles O60: a marked command ends as `racedFrom` says from the end of the command on the bytes it found. -/
theorem ownershipBreachStaysInBounds : Obligations.OwnershipBreachStaysInBounds := by
  refine ⟨fun s i w a x bs rest hh ha hb hd hpass hw hx hlo hhi => ?_, fun s i rest hh hb hr hd => ?_,
    fun s a n rest hh ha => ?_⟩
  · have hwin := windows_congr i s { s with host := rest } rfl rfl rfl rfl rfl
    have hown : ownedWindows { s with host := rest } = windows i s :=
      (ownedWindows_of_windowsPass hb hd ((congrArg (windowsOk s.params.memSize) hwin).trans hpass)).trans hwin
    exact ⟨_, step_writeMem hh ha, hostWrite_raced (hown.symm ▸ hw) hx hlo hhi⟩
  · have hwin := windows_congr i s { s with host := rest } rfl rfl rfl rfl rfl
    obtain ⟨u, hu, -, -, hcode, -⟩ := everyCommandEnds i (foreignReads i { s with host := rest })
    have herr := racedFrom_err i { s with host := rest } u
    obtain ⟨hres0, hres1⟩ := racedFrom_res_of_exec (i := i) (s := { s with host := rest }) hu
    refine ⟨racedFrom i { s with host := rest } u, (step_of_raced hh hb hr hd).trans (racedEnd_of_exec hu),
      racedFrom_busy _ _ _, racedFrom_done _ _ _, herr ▸ hcode,
      ⟨(foreignReads i { s with host := rest }).mem, u, fun x hx => read_foreignReads_other (hwin.symm ▸ hx), hu, herr, hres0,
        hres1⟩, ?_, ?_, fun x hx => racedFrom_read_other _ _ _ _ (hwin.symm ▸ hx), ?_, ?_, racedFrom_keepsOperands _ _ _, ?_⟩
    · rw [herr, hres0, hres1]
      exact res_of_exec_failed hu
    · have hsmall := res_of_exec_bufferTooSmall hu
      rw [herr, hres0, hres1]
      exact hsmall
    · rw [herr, hres0]
      intro hok x hx
      rw [← bytesWritten_eq] at hx
      rw [racedFrom_mem, if_neg (by simp [hok])]
      exact read_racedMem_of_ok (s := { s with host := rest }) hok hx
    · rw [herr]
      exact racedFrom_mem_of_nothing_written
    · exact fun hs => racedFrom_storesSound u (hs.hostSide hs.partsSound.1 rest _ _ _)
  · refine ⟨_, step_readMem hh ha, rfl, by simp [hostRead], fun j hj hfree => ?_⟩
    have hbyte : hostByte { s with host := rest } (a + j) = s.mem.read (a + j) :=
      hostByte_of_not_written fun i hd => windows_congr i s { s with host := rest } rfl rfl rfl rfl rfl ▸ hfree i hd
    simpa [hostRead, hj] using hbyte

end Sys2Proof.Machine
end

/-! ## The obligation of register accesses to an idle block -/

section
namespace Sys2Proof.Machine

/-! The host's register accesses while no command runs (44_system R272). -/

theorem regAt_of_not_wellFormed {offset : Nat} (h : regOffsetWellFormed offset = false) : regAt offset = none := by
  have hout : ¬ (offset % 4 = 0 ∧ offset < 64) := by simpa [regOffsetWellFormed] using h
  unfold regAt
  split
  · rename_i halign
    exact List.getElem?_eq_none (by change 16 ≤ offset / 4; omega)
  · rfl

/-- A read of an idle block returns the register's value and changes nothing else, mirrors included. -/
theorem readReg_of_idle {s : State} (r : Reg) (h : s.busy = false) : readReg s r = { s with rdata := regWord s r } := by
  simp [readReg, h]

/-- The registers a host's write may change (10_state R22, R24). -/
def isWritable : Reg → Bool
  | .cmd | .arg0 | .arg1 | .arg2 | .arg3 | .arg4 => true
  | _ => false

/-- A write to any other register is ignored. -/
theorem writeReg_of_not_writable {s : State} {r : Reg} (v : Word) (h : isWritable r = false) : writeReg s r v = s := by
  unfold writeReg
  split
  · rfl
  · cases r with
    | cmd | arg0 | arg1 | arg2 | arg3 | arg4 => cases h
    | _ => rfl

/-- A write to an operand register of an idle block, the reset input released (10_state R24). -/
theorem writeReg_operand_of_idle {s : State} (v : Word) (hb : s.busy = false) (hr : s.rst = false) :
    writeReg s .arg0 v = { s with arg0 := v } ∧ writeReg s .arg1 v = { s with arg1 := v } ∧
    writeReg s .arg2 v = { s with arg2 := v } ∧ writeReg s .arg3 v = { s with arg3 := v } ∧
    writeReg s .arg4 v = { s with arg4 := v } := by
  simp [writeReg, hb, hr]

theorem step_outsideInterface {s : State} {offset : Nat} {v : Word} {rest : List HostAct}
    (hh : s.host = .writeReg offset v :: rest ∨ s.host = .readReg offset :: rest) (hr : regAt offset = none) :
    step s = .refused .outsideInterface := by
  obtain hh | hh := hh <;> rw [step_cons hh] <;> simp only [hostStep, hr]

/-- The offsets of the interface at which no write has an effect (10_state R21). -/
theorem exists_regAt_not_writable {offset : Nat}
    (h : offset ∈ [0x04, 0x1C, 0x20, 0x24, 0x28, 0x2C, 0x30, 0x34, 0x38, 0x3C]) :
    ∃ r, regAt offset = some r ∧ isWritable r = false := by
  have hall : ∀ o ∈ [0x04, 0x1C, 0x20, 0x24, 0x28, 0x2C, 0x30, 0x34, 0x38, 0x3C],
      ((regAt o).map isWritable) = some false := by decide
  exact Option.map_eq_some_iff.mp (hall offset h)

/-- Settles O6. -/
theorem registerAccessOfAnIdleBlock : Obligations.RegisterAccessOfAnIdleBlock := by
  refine ⟨fun s => rfl, fun s offset rest hh hb ho => ?_, fun s v rest hb hr => ?_, fun s offset v rest hh _ ho => ?_,
    fun s offset v rest hh ho => step_outsideInterface hh (regAt_of_not_wellFormed ho)⟩
  · obtain ⟨r, hr⟩ := exists_regAt ho
    have hread := readReg_of_idle (s := { s with host := rest }) r hb
    rw [regWord_host] at hread
    exact ⟨r, hr, (step_readReg hh hr).trans (congrArg _ hread)⟩
  · obtain ⟨h0, h1, h2, h3, h4⟩ := writeReg_operand_of_idle (s := { s with host := rest }) v hb hr
    exact ⟨fun hh => (step_writeReg hh rfl).trans (congrArg _ h0), fun hh => (step_writeReg hh rfl).trans (congrArg _ h1),
      fun hh => (step_writeReg hh rfl).trans (congrArg _ h2), fun hh => (step_writeReg hh rfl).trans (congrArg _ h3),
      fun hh => (step_writeReg hh rfl).trans (congrArg _ h4)⟩
  · obtain ⟨r, hr, hw⟩ := exists_regAt_not_writable ho
    exact (step_writeReg hh hr).trans (congrArg _ (writeReg_of_not_writable v hw))

end Sys2Proof.Machine
end

/-! ## The obligations of SYS, HUF.COMPUTE, HUF.CLEAR and HUF.GETCODE -/

section
namespace Sys2Proof.Machine

/-! SYS (44_system R270, R271). -/

theorem exec_sysNop (s : State) : exec .sysNop s = .next (s.finish .ok 0 0) := by
  change execSysNop s = _
  exact perform_of_no_windows _ _ rfl

theorem exec_sysReset (s : State) :
    exec .sysReset s = .next (({ s.clearHuf with bm := Mask.empty } : State).finish .ok 0 0) := by
  change execSysReset s = _
  exact perform_of_no_windows _ _ rfl

/-! HUF.CLEAR and HUF.GETCODE (43_huffman R243, R244). -/

theorem exec_hufClear (s : State) : exec .hufClear s = .next (s.clearHuf.finish .ok 0 0) := by
  change execHufClear s = _
  exact perform_of_no_windows _ _ rfl

theorem exec_hufGetCode_of_not_valid {s : State} (h : s.ht.valid = false) :
    exec .hufGetCode s = .next (s.finish .failed 0 0) := by
  change execHufGetCode s = _
  exact (perform_of_no_windows _ _ rfl).trans (by rw [h]; rfl)

theorem exec_hufGetCode_of_le {s : State} (h : s.ht.valid = true) (hk : s.ht.size ≤ s.a0) :
    exec .hufGetCode s = .next (s.finish .wrongParam 0 0) := by
  change execHufGetCode s = _
  exact (perform_of_no_windows _ _ rfl).trans (by rw [h, if_neg (by simp), if_pos hk]; rfl)

theorem exec_hufGetCode_of_lt {s : State} (h : s.ht.valid = true) (hk : s.a0 < s.ht.size) :
    exec .hufGetCode s = .next (s.finish .ok (s.ht.lenOf s.a0) (s.ht.codeOf s.a0)) := by
  change execHufGetCode s = _
  exact (perform_of_no_windows _ _ rfl).trans (by rw [h, if_neg (by simp), if_neg (not_le.mpr hk)]; rfl)

/-- `BM.SETSIZE 0, 0` empties the mask store (40_bitmask R130). -/
theorem exec_bmSetSize_zero {s : State} (h0 : s.arg0 = 0#32) (h1 : s.arg1 = 0#32) :
    exec .bmSetSize s = .next (({ s with bm := Mask.empty } : State).finish .ok 0 0) := by
  have ha0 : s.a0 = 0 := by simp [State.a0, h0]
  have ha1 : s.a1 = 0 := by simp [State.a1, h1]
  rw [exec_bmSetSize_of_in_range (by simp [ha0, ha1]), ha0, ha1]
  rfl

/-- Settles O18. -/
theorem sysCommandsOutcome : Obligations.SysCommandsOutcome := by
  refine ⟨exec_sysNop, exec_sysReset, fun s t u h0 h1 ht hu => ?_⟩
  rw [exec_bmSetSize_zero h0 h1] at ht
  cases ht
  rw [exec_hufClear] at hu
  cases hu
  exact exec_sysReset s

/-- Settles O56. -/
theorem hufClearAndGetCodeOutcome : Obligations.HufClearAndGetCodeOutcome := by
  exact fun s => ⟨⟨s.clearHuf, exec_hufClear s, rfl, rfl, rfl, rfl, rfl, rfl, rfl, rfl, rfl⟩, exec_hufGetCode_of_not_valid,
    exec_hufGetCode_of_le, exec_hufGetCode_of_lt⟩

/-! HUF.COMPUTE (43_huffman R224). -/

theorem exec_hufCompute_of_out_of_range {s : State} (h : s.a1 < 1 ∨ 32768 < s.a1) :
    exec .hufCompute s = .next (s.finish .wrongParam 0 0) := by
  by_cases hw : WindowsPass .hufCompute s
  · change execHufCompute s = _
    exact (perform_of_windowsOk _ _ hw).trans (by rw [if_pos (show s.a1 < 1 ∨ Config.hufMaxBins < s.a1 from h)]; rfl)
  · exact exec_of_not_windowsPass hw

theorem exec_hufCompute_of_ok {s : State} (hw : WindowsPass .hufCompute s) (h : 1 ≤ s.a1 ∧ s.a1 ≤ 32768) {len : List Nat}
    (hlen : hufLengths (sourceArray s) = .ok len) :
    exec .hufCompute s = .next ((s.setTable (tableOf len)).finish .ok (maxLen len) (usedSymbols len)) := by
  change execHufCompute s = _
  refine (perform_of_windowsOk _ _ hw).trans ?_
  rw [if_neg (show ¬ (s.a1 < 1 ∨ Config.hufMaxBins < s.a1) from fun hout => by change s.a1 < 1 ∨ 32768 < s.a1 at hout; omega),
    hlen]
  rfl

theorem exec_hufCompute_of_failed {s : State} (hw : WindowsPass .hufCompute s) (h : 1 ≤ s.a1 ∧ s.a1 ≤ 32768)
    (hlen : hufLengths (sourceArray s) = .error .failed) : exec .hufCompute s = .next (s.clearHuf.finish .failed 0 0) := by
  change execHufCompute s = _
  refine (perform_of_windowsOk _ _ hw).trans ?_
  rw [if_neg (show ¬ (s.a1 < 1 ∨ Config.hufMaxBins < s.a1) from fun hout => by change s.a1 < 1 ∨ 32768 < s.a1 at hout; omega),
    hlen]
  rfl

/-- A histogram without lengths fails (43_huffman R221). -/
theorem hufLengths_eq_failed {hist : List Nat} (h : ∀ len, hufLengths hist ≠ .ok len) : hufLengths hist = .error .failed := by
  cases he : hufLengths hist with
  | error e => rw [eq_failed_of_hufLengths he]
  | ok len => exact absurd he (h len)

theorem hufLengths_length {hist len : List Nat} (h : hufLengths hist = .ok len) : len.length = hist.length := by
  simp only [hufLengths] at h
  split at h
  · cases h
  split at h
  · cases h
  split at h
  · cases h
  cases h
  simp

/-- Settles O44. -/
theorem hufComputeOutcome : Obligations.HufComputeOutcome := by
  refine fun s => ⟨exec_hufCompute_of_out_of_range, fun h1 h2 hw => ⟨fun hnone => ?_, fun len t hlen ht => ?_⟩⟩
  · exact exec_hufCompute_of_failed hw ⟨h1, h2⟩ (hufLengths_eq_failed hnone)
  · have hsize : len.length = s.a1 := (hufLengths_length hlen).trans (sourceArray_length s)
    rw [exec_hufCompute_of_ok hw ⟨h1, h2⟩ hlen, ht, ← hsize]
    rfl

end Sys2Proof.Machine
end

/-! ## Facts about canonical codes -/

section
namespace Sys2Proof.Machine

/-! The order of the code assignment (43_huffman R223). -/

/-- Of two pairs (symbol, length) the first is assigned its code first: the longer one, then the lower symbol. -/
abbrev AheadPair (x y : Nat × Nat) : Prop := y.2 < x.2 ∨ (x.2 = y.2 ∧ x.1 < y.1)

/-- The number the order sorts by puts the longer length first, then the lower symbol. -/
theorem order_key_lt_iff {size : Nat} {x y : Nat × Nat} (hx : x.1 < size) (hy : y.1 < size) (hx1 : 1 ≤ x.2) (hy1 : 1 ≤ y.2) :
    y.2 * size - y.1 < x.2 * size - x.1 ↔ AheadPair x y := by
  have hxs : size ≤ x.2 * size := Nat.le_mul_of_pos_left size hx1
  have hys : size ≤ y.2 * size := Nat.le_mul_of_pos_left size hy1
  obtain hlt | heq | hgt := lt_trichotomy x.2 y.2
  · have hstep : x.2 * size + size ≤ y.2 * size := by rw [← Nat.succ_mul]; exact Nat.mul_le_mul_right size hlt
    unfold AheadPair
    omega
  · unfold AheadPair
    rw [heq] at hxs ⊢
    omega
  · have hstep : y.2 * size + size ≤ x.2 * size := by rw [← Nat.succ_mul]; exact Nat.mul_le_mul_right size hgt
    unfold AheadPair
    omega

theorem orderInsert_perm (size : Nat) (x : Nat × Nat) (ps : List (Nat × Nat)) : (orderInsert size x ps).Perm (x :: ps) := by
  induction ps with
  | nil => rfl
  | cons y t ih =>
    unfold orderInsert
    split
    · rfl
    · exact (ih.cons y).trans (.swap x y t)

theorem codeOrder_cons (size k l : Nat) (t : List Nat) :
    codeOrder size k (l :: t) =
      if l = 0 then codeOrder size (k + 1) t else orderInsert size (k, l) (codeOrder size (k + 1) t) := rfl

/-- The order holds the symbols in use with their lengths. -/
theorem mem_codeOrder {size k : Nat} {len : List Nat} {x : Nat × Nat} :
    x ∈ codeOrder size k len ↔ k ≤ x.1 ∧ len[x.1 - k]? = some x.2 ∧ x.2 ≠ 0 := by
  induction len generalizing k with
  | nil => simp [codeOrder]
  | cons l t ih =>
    have htail : x.1 ≠ k → k ≤ x.1 → (l :: t)[x.1 - k]? = t[x.1 - (k + 1)]? := by
      intro hne hle
      rw [show x.1 - k = x.1 - (k + 1) + 1 by omega, List.getElem?_cons_succ]
    have hmem : x ∈ codeOrder size k (l :: t) ↔ (x = (k, l) ∧ l ≠ 0) ∨ x ∈ codeOrder size (k + 1) t := by
      rw [codeOrder_cons]
      split
      · rename_i hl; simp [hl]
      · rename_i hl; rw [(orderInsert_perm size (k, l) _).mem_iff, List.mem_cons]; simp [hl]
    rw [hmem, ih, Prod.ext_iff]
    by_cases hk : x.1 = k
    · rw [hk, Nat.sub_self, List.getElem?_cons_zero, Option.some.injEq]
      constructor
      · rintro (⟨⟨-, h2⟩, hl⟩ | ⟨hlt, -⟩)
        · exact ⟨le_rfl, h2.symm, h2 ▸ hl⟩
        · omega
      · rintro ⟨-, h2, hl⟩
        exact .inl ⟨⟨rfl, h2.symm⟩, h2 ▸ hl⟩
    · constructor
      · rintro (⟨⟨h1, -⟩, -⟩ | ⟨hlt, hget, hl⟩)
        · exact absurd h1 hk
        · exact ⟨by omega, (htail hk (by omega)).trans hget, hl⟩
      · rintro ⟨hle, hget, hl⟩
        exact .inr ⟨by omega, (htail hk hle).symm.trans hget, hl⟩

theorem orderInsert_sorted {size : Nat} {x : Nat × Nat} {ps : List (Nat × Nat)} (hs : ps.Pairwise AheadPair)
    (hx : x.1 < size ∧ 1 ≤ x.2) (hps : ∀ y ∈ ps, x.1 < y.1 ∧ y.1 < size ∧ 1 ≤ y.2) :
    (orderInsert size x ps).Pairwise AheadPair := by
  induction ps with
  | nil => exact List.pairwise_singleton _ _
  | cons y t ih =>
    obtain ⟨hy, ht⟩ := List.pairwise_cons.mp hs
    obtain ⟨hxy, hysize, hy1⟩ := hps y (by simp)
    have hkey := order_key_lt_iff hx.1 hysize hx.2 hy1
    unfold orderInsert
    split
    · rename_i hlt
      rw [hkey] at hlt
      refine List.pairwise_cons.mpr ⟨List.forall_mem_cons.mpr ⟨hlt, fun z hz => ?_⟩, hs⟩
      have hyz := hy z hz
      have hxz := (hps z (by simp [hz])).1
      unfold AheadPair at *
      omega
    · rename_i hlt
      rw [hkey] at hlt
      refine List.pairwise_cons.mpr ⟨fun z hz => ?_, ih ht fun z hz => hps z (by simp [hz])⟩
      obtain rfl | hz := List.mem_cons.mp ((orderInsert_perm size x t).mem_iff.mp hz)
      · unfold AheadPair at *
        omega
      · exact hy z hz

theorem codeOrder_sorted {size k : Nat} {len : List Nat} (h : k + len.length ≤ size) :
    (codeOrder size k len).Pairwise AheadPair := by
  induction len generalizing k with
  | nil => exact List.Pairwise.nil
  | cons l t ih =>
    rw [List.length_cons] at h
    rw [codeOrder_cons]
    split
    · exact ih (by omega)
    · refine orderInsert_sorted (ih (by omega)) ⟨by omega, by omega⟩ fun y hy => ?_
      obtain ⟨hle, hget, h0⟩ := mem_codeOrder.mp hy
      have hlt := (List.getElem?_eq_some_iff.mp hget).1
      exact ⟨by omega, by omega, by omega⟩

theorem codeOrder_nodup_fst {size k : Nat} (len : List Nat) : ((codeOrder size k len).map Prod.fst).Nodup := by
  induction len generalizing k with
  | nil => exact List.nodup_nil
  | cons l t ih =>
    rw [codeOrder_cons]
    split
    · exact ih
    · rw [((orderInsert_perm size (k, l) _).map Prod.fst).nodup_iff, List.map_cons, List.nodup_cons]
      refine ⟨fun hk => ?_, ih⟩
      obtain ⟨x, hx, hxk⟩ := List.mem_map.mp hk
      have := (mem_codeOrder.mp hx).1
      omega

/-! The walk down the order: each code, padded to the longest length, is the sum of the code spaces of the codes before it. -/

/-- The size of the code space of a pair (symbol, length): how many strings of `L` bits begin with its code. -/
def pairSpace (bigL : Nat) (x : Nat × Nat) : Nat := 2 ^ (bigL - x.2)

theorem pairSpace_dvd {bigL l : Nat} {ps : List (Nat × Nat)} (h : ∀ x ∈ ps, x.2 ≤ l) :
    2 ^ (bigL - l) ∣ (ps.map (pairSpace bigL)).sum :=
  List.dvd_sum fun v hv => by
    obtain ⟨x, hx, rfl⟩ := List.mem_map.mp hv
    exact pow_dvd_pow 2 (by have := h x hx; omega)

theorem fst_mem_assignCodes (cur c : Nat) (ps : List (Nat × Nat)) : (assignCodes cur c ps).map Prod.fst = ps.map Prod.fst := by
  induction ps generalizing cur c with
  | nil => rfl
  | cons p t ih => simp [assignCodes, ih]

/-- The step down to a length `l` keeps the padded value, where the code spaces from there on fill the rest. -/
theorem shifted_code_space {bigL cur l c rest : Nat} (hl : l ≤ cur) (hcur : cur ≤ bigL) (hrest : 2 ^ (bigL - l) ∣ rest)
    (hfill : c * 2 ^ (bigL - cur) + rest = 2 ^ bigL) : c / 2 ^ (cur - l) * 2 ^ (bigL - l) = c * 2 ^ (bigL - cur) := by
  have hsplit : 2 ^ (bigL - l) = 2 ^ (cur - l) * 2 ^ (bigL - cur) := by rw [← pow_add]; congr 1; omega
  have hdvd : 2 ^ (bigL - l) ∣ c * 2 ^ (bigL - cur) :=
    (Nat.dvd_add_left hrest).mp (hfill ▸ pow_dvd_pow 2 (Nat.sub_le bigL l))
  have hc : 2 ^ (cur - l) ∣ c := Nat.dvd_of_mul_dvd_mul_right (Nat.two_pow_pos (bigL - cur)) (hsplit ▸ hdvd)
  rw [hsplit, ← Nat.mul_assoc, Nat.div_mul_cancel hc]

theorem assignCodes_padded {bigL cur c : Nat} {ps : List (Nat × Nat)} (hcur : cur ≤ bigL) (hle : ∀ x ∈ ps, x.2 ≤ cur)
    (hs : ps.Pairwise AheadPair) (hn : (ps.map Prod.fst).Nodup)
    (hfill : c * 2 ^ (bigL - cur) + (ps.map (pairSpace bigL)).sum = 2 ^ bigL) :
    ∀ x ∈ ps, assocD x.1 (assignCodes cur c ps) * 2 ^ (bigL - x.2) =
      c * 2 ^ (bigL - cur) + ((ps.filter (fun y => decide (AheadPair y x))).map (pairSpace bigL)).sum := by
  induction ps generalizing cur c with
  | nil => simp
  | cons p t ih =>
    obtain ⟨k, l⟩ := p
    obtain ⟨hp, ht⟩ := List.pairwise_cons.mp hs
    obtain ⟨hkt, hnt⟩ := List.nodup_cons.mp hn
    have hl : l ≤ cur := hle (k, l) (by simp)
    have hlt : ∀ x ∈ t, x.2 ≤ l := fun x hx => by have := hp x hx; unfold AheadPair at this; omega
    have hstep : c / 2 ^ (cur - l) * 2 ^ (bigL - l) = c * 2 ^ (bigL - cur) :=
      shifted_code_space hl hcur (pairSpace_dvd (List.forall_mem_cons.mpr ⟨le_rfl, hlt⟩)) hfill
    intro x hx
    obtain rfl | hx := List.mem_cons.mp hx
    · have hnone : ((k, l) :: t).filter (fun y => decide (AheadPair y (k, l))) = [] := by
        refine List.filter_eq_nil_iff.mpr (List.forall_mem_cons.mpr ⟨by simp, fun y hy => ?_⟩)
        have := hp y hy
        simp only [decide_eq_true_eq, AheadPair] at this ⊢
        omega
      rw [hnone, assignCodes]
      simpa [assocD] using hstep
    · have hne : k ≠ x.1 := fun h => hkt (List.mem_map.mpr ⟨x, hx, h.symm⟩)
      have hrest : (c / 2 ^ (cur - l) + 1) * 2 ^ (bigL - l) + (t.map (pairSpace bigL)).sum = 2 ^ bigL := by
        rw [Nat.succ_mul, hstep, ← hfill, List.map_cons, List.sum_cons, Nat.add_assoc]
        rfl
      rw [assignCodes, assocD, if_neg hne, ih (hl.trans hcur) hlt ht hnt hrest x hx, List.filter_cons,
        if_pos (decide_eq_true (hp x hx)), List.map_cons, List.sum_cons, Nat.succ_mul, hstep, Nat.add_assoc]
      rfl

/-! Codes by symbol. -/

/-- Symbol `j` is in use and is assigned its code before symbol `k`. -/
abbrev Ahead (len : List Nat) (j k : Nat) : Prop :=
  0 < len.getD j 0 ∧ AheadPair (j, len.getD j 0) (k, len.getD k 0)

/-- The size of the code space of a symbol. -/
def codeSpace (len : List Nat) (k : Nat) : Nat := 2 ^ (maxLen len - len.getD k 0)

/-- Where the code space of a symbol starts: after those of the symbols ahead of it. -/
def codeStart (len : List Nat) (k : Nat) : Nat := ∑ j ∈ Finset.range len.length with Ahead len j k, codeSpace len j

theorem getD_eq_of_mem_codeOrder {size : Nat} {len : List Nat} {x : Nat × Nat} :
    x ∈ codeOrder size 0 len ↔ x.1 < len.length ∧ x.2 = len.getD x.1 0 ∧ 0 < x.2 := by
  rw [mem_codeOrder, Nat.sub_zero, List.getElem?_eq_some_iff]
  constructor
  · rintro ⟨-, ⟨hlt, hget⟩, h0⟩
    exact ⟨hlt, by rw [← hget, List.getD_eq_getElem _ _ hlt], by omega⟩
  · rintro ⟨hlt, hget, h0⟩
    exact ⟨Nat.zero_le _, ⟨hlt, by rw [hget, List.getD_eq_getElem _ _ hlt]⟩, by omega⟩

/-- A sum over some of the order is a sum over their symbols. -/
theorem sum_codeOrder_filter (size : Nat) (len : List Nat) (p : Nat × Nat → Bool) :
    (((codeOrder size 0 len).filter p).map (pairSpace (maxLen len))).sum =
      ∑ j ∈ Finset.range len.length with 0 < len.getD j 0 ∧ p (j, len.getD j 0) = true, codeSpace len j := by
  have hmap : ((codeOrder size 0 len).filter p).map (pairSpace (maxLen len)) =
      (((codeOrder size 0 len).filter p).map Prod.fst).map (codeSpace len) := by
    rw [List.map_map]
    refine List.map_congr_left fun x hx => ?_
    rw [Function.comp_apply, codeSpace, pairSpace, ← (getD_eq_of_mem_codeOrder.mp (List.mem_of_mem_filter hx)).2.1]
  rw [hmap, ← List.sum_toFinset _ ((codeOrder_nodup_fst len).sublist (List.filter_sublist.map _))]
  congr 1
  ext j
  simp only [List.mem_toFinset, List.mem_map, List.mem_filter, getD_eq_of_mem_codeOrder, Prod.exists, exists_and_right,
    exists_eq_right, Finset.mem_filter, Finset.mem_range]
  constructor
  · rintro ⟨l, ⟨hj, rfl, h0⟩, hp⟩; exact ⟨hj, h0, hp⟩
  · rintro ⟨hj, h0, hp⟩; exact ⟨_, ⟨hj, rfl, h0⟩, hp⟩

/-- The code spaces of complete lengths fill the strings of the longest length (10_state R36). -/
theorem sum_codeSpace {len : List Nat} (hc : complete len = true) :
    ∑ j ∈ Finset.range len.length with 0 < len.getD j 0, codeSpace len j = 2 ^ maxLen len := by
  obtain ⟨-, hk⟩ : 1 ≤ maxLen len ∧ kraftSum (maxLen len) len = 2 ^ maxLen len := by simpa [complete] using hc
  rw [← hk, kraftSum, Finset.sum_filter, Finset.sum_range, ← List.sum_ofFn]
  congr 1
  refine List.ext_getElem (by simp) fun i hi hi' => ?_
  have hlt : i < len.length := by simpa using hi
  by_cases h0 : len[i] = 0
  · simp [h0]
  · simp [h0, codeSpace, Nat.pos_of_ne_zero h0]

@[simp] theorem canonical_length (len : List Nat) : (canonical len).length = len.length := by simp [canonical]

theorem getD_canonical {len : List Nat} {k : Nat} (h : k < len.length) :
    (canonical len).getD k 0 =
      assocD k (assignCodes ((codeOrder len.length 0 len).headD (0, 0)).2 0 (codeOrder len.length 0 len)) := by
  simp [canonical, List.getD_eq_getElem?_getD, h]

/-- The first of the order has the longest length, so that none is above it. -/
theorem le_head_codeOrder {len : List Nat} {x : Nat × Nat} (h : x ∈ codeOrder len.length 0 len) :
    x.2 ≤ ((codeOrder len.length 0 len).headD (0, 0)).2 := by
  have hs := codeOrder_sorted (size := len.length) (k := 0) (len := len) (by omega)
  cases ho : codeOrder len.length 0 len with
  | nil => rw [ho] at h; cases h
  | cons p t =>
    rw [ho] at h hs
    obtain rfl | h := List.mem_cons.mp h
    · exact le_rfl
    · have := (List.pairwise_cons.mp hs).1 x h
      unfold AheadPair at this
      rw [List.headD_cons]
      omega

/-- A symbol's code, padded with zeros to the longest length, is where its code space starts. -/
theorem canonical_padded {len : List Nat} (hc : complete len = true) {k : Nat} (hk : k < len.length) (h0 : 0 < len.getD k 0) :
    (canonical len).getD k 0 * codeSpace len k = codeStart len k := by
  have hmem : (k, len.getD k 0) ∈ codeOrder len.length 0 len := getD_eq_of_mem_codeOrder.mpr ⟨hk, rfl, h0⟩
  have hhead : ((codeOrder len.length 0 len).headD (0, 0)).2 ≤ maxLen len := by
    cases ho : codeOrder len.length 0 len with
    | nil => exact Nat.zero_le _
    | cons p t =>
      obtain ⟨hp, hl, -⟩ := getD_eq_of_mem_codeOrder.mp (ho ▸ List.mem_cons_self : p ∈ codeOrder len.length 0 len)
      rw [List.headD_cons, hl, List.getD_eq_getElem _ _ hp]
      exact le_maxLen (List.getElem_mem hp)
  have hfill : 0 * 2 ^ (maxLen len - ((codeOrder len.length 0 len).headD (0, 0)).2) +
      ((codeOrder len.length 0 len).map (pairSpace (maxLen len))).sum = 2 ^ maxLen len := by
    have := sum_codeOrder_filter len.length len (fun _ => true)
    rw [List.filter_true] at this
    rw [this, Nat.zero_mul, Nat.zero_add, ← sum_codeSpace hc]
    simp
  have hcode := assignCodes_padded hhead (fun x => le_head_codeOrder) (codeOrder_sorted (by omega)) (codeOrder_nodup_fst len)
    hfill _ hmem
  rw [sum_codeOrder_filter, Nat.zero_mul, Nat.zero_add] at hcode
  rw [getD_canonical hk, codeSpace, hcode, codeStart]
  simp [Ahead]

/-! Code spaces lie side by side and cover every string of the longest length. -/

theorem codeSpace_pos (len : List Nat) (k : Nat) : 0 < codeSpace len k := Nat.two_pow_pos _

theorem Ahead.trans {len : List Nat} {i j k : Nat} (hij : Ahead len i j) (hjk : Ahead len j k) : Ahead len i k := by
  unfold Ahead AheadPair at *
  dsimp only at *
  omega

theorem not_ahead_self (len : List Nat) (k : Nat) : ¬ Ahead len k k := by
  unfold Ahead AheadPair
  omega

/-- Of two symbols in use one is ahead of the other. -/
theorem ahead_or_ahead {len : List Nat} {j k : Nat} (hj : 0 < len.getD j 0) (hk : 0 < len.getD k 0) (hne : j ≠ k) :
    Ahead len j k ∨ Ahead len k j := by
  unfold Ahead AheadPair
  dsimp only
  omega

/-- The symbols in use that are ahead of a symbol. -/
def aheadSet (len : List Nat) (k : Nat) : Finset Nat := {j ∈ Finset.range len.length | Ahead len j k}

theorem codeStart_eq_sum (len : List Nat) (k : Nat) : codeStart len k = ∑ j ∈ aheadSet len k, codeSpace len j := rfl

theorem mem_aheadSet {len : List Nat} {j k : Nat} : j ∈ aheadSet len k ↔ j < len.length ∧ Ahead len j k := by
  simp [aheadSet]

/-- A code space ends before the next one starts. -/
theorem codeStart_add_le {len : List Nat} {j k : Nat} (hj : j < len.length) (h : Ahead len j k) :
    codeStart len j + codeSpace len j ≤ codeStart len k := by
  have hnot : j ∉ aheadSet len j := fun hm => not_ahead_self len j (mem_aheadSet.mp hm).2
  rw [codeStart_eq_sum, codeStart_eq_sum, Nat.add_comm, ← Finset.sum_insert hnot]
  refine Finset.sum_le_sum_of_subset (Finset.insert_subset (mem_aheadSet.mpr ⟨hj, h⟩) fun i hi => ?_)
  obtain ⟨hi, hij⟩ := mem_aheadSet.mp hi
  exact mem_aheadSet.mpr ⟨hi, hij.trans h⟩

theorem codeStart_add_le_total {len : List Nat} (hc : complete len = true) {k : Nat} (hk : k < len.length)
    (h0 : 0 < len.getD k 0) : codeStart len k + codeSpace len k ≤ 2 ^ maxLen len := by
  have hnot : k ∉ aheadSet len k := fun hm => not_ahead_self len k (mem_aheadSet.mp hm).2
  rw [← sum_codeSpace hc, codeStart_eq_sum, Nat.add_comm, ← Finset.sum_insert hnot]
  refine Finset.sum_le_sum_of_subset (Finset.insert_subset ?_ fun i hi => ?_)
  · simp only [Finset.mem_filter, Finset.mem_range]
    exact ⟨hk, h0⟩
  · obtain ⟨hi, hik⟩ := mem_aheadSet.mp hi
    simp only [Finset.mem_filter, Finset.mem_range]
    exact ⟨hi, hik.1⟩

/-- A string of the longest length, as a number, begins with the code of a symbol: it lies in the symbol's code space. -/
abbrev InCodeSpace (len : List Nat) (k x : Nat) : Prop :=
  k < len.length ∧ 0 < len.getD k 0 ∧ codeStart len k ≤ x ∧ x < codeStart len k + codeSpace len k

/-- At most one symbol has a string in its code space. -/
theorem InCodeSpace.unique {len : List Nat} {j k x : Nat} (hj : InCodeSpace len j x) (hk : InCodeSpace len k x) : j = k := by
  obtain ⟨hj, hj0, hjlo, hjhi⟩ := hj
  obtain ⟨hk, hk0, hklo, hkhi⟩ := hk
  by_contra hne
  obtain h | h := ahead_or_ahead hj0 hk0 hne
  · have := codeStart_add_le hj h; omega
  · have := codeStart_add_le hk h; omega

/-- The symbols in use. -/
def usedSet (len : List Nat) : Finset Nat := {k ∈ Finset.range len.length | 0 < len.getD k 0}

/-- The strings of the longest length that begin with a symbol's code, as numbers. -/
def codeStrings (len : List Nat) (k : Nat) : Finset Nat := Finset.Ico (codeStart len k) (codeStart len k + codeSpace len k)

theorem inCodeSpace_iff {len : List Nat} {k x : Nat} : InCodeSpace len k x ↔ k ∈ usedSet len ∧ x ∈ codeStrings len k := by
  simp [usedSet, codeStrings, and_assoc]

/-- Every string of the longest length has its symbol: disjoint code spaces of that total size leave nothing out. -/
theorem exists_inCodeSpace {len : List Nat} (hc : complete len = true) {x : Nat} (hx : x < 2 ^ maxLen len) :
    ∃ k, InCodeSpace len k x := by
  have hdisjoint : (usedSet len : Set Nat).PairwiseDisjoint (codeStrings len) := fun j hj k hk hne =>
    Finset.disjoint_left.mpr fun y hyj hyk =>
      hne ((inCodeSpace_iff.mpr ⟨hj, hyj⟩).unique (inCodeSpace_iff.mpr ⟨hk, hyk⟩))
  have hcard : ((usedSet len).biUnion (codeStrings len)).card = 2 ^ maxLen len := by
    rw [Finset.card_biUnion hdisjoint, ← sum_codeSpace hc]
    exact Finset.sum_congr rfl fun k _ => by simp [codeStrings]
  have hsub : (usedSet len).biUnion (codeStrings len) ⊆ Finset.range (2 ^ maxLen len) := fun y hy => by
    obtain ⟨k, hk, hy⟩ := Finset.mem_biUnion.mp hy
    obtain ⟨hk, h0, -, hhi⟩ := inCodeSpace_iff.mpr ⟨hk, hy⟩
    have := codeStart_add_le_total hc hk h0
    exact Finset.mem_range.mpr (by omega)
  have hall := Finset.eq_of_subset_of_card_le hsub (by rw [hcard, Finset.card_range])
  obtain ⟨k, hk, hxk⟩ := Finset.mem_biUnion.mp (hall ▸ Finset.mem_range.mpr hx)
  exact ⟨k, inCodeSpace_iff.mpr ⟨hk, hxk⟩⟩

end Sys2Proof.Machine
end

/-! ## The obligation of canonical codes -/

section
namespace Sys2Proof.Machine

/-! Bit strings that begin with a code. -/

theorem natOfBits_take (bs : List Bool) (n : Nat) : natOfBits (bs.take n) = natOfBits bs / 2 ^ (bs.length - n) := by
  have h := natOfBits_append (bs.take n) (bs.drop n)
  have hlt := natOfBits_lt (bs.drop n)
  rw [List.length_drop] at h hlt
  rw [List.take_append_drop] at h
  rw [h, Nat.add_comm, Nat.add_mul_div_right _ _ (Nat.two_pow_pos _), Nat.div_eq_of_lt hlt, Nat.zero_add]

/-- A bit string begins with the `l` bits of a number exactly when its own number, cut to `l` bits, is that number. -/
theorem bitsOf_prefix_iff {l c : Nat} {bs : List Bool} (hc : c < 2 ^ l) (hl : l ≤ bs.length) :
    bitsOf l c <+: bs ↔ natOfBits bs / 2 ^ (bs.length - l) = c := by
  have hlen : (bs.take l).length = l := List.length_take_of_le hl
  rw [List.prefix_iff_eq_take, bitsOf_length, ← natOfBits_take]
  constructor
  · intro h
    rw [← h, natOfBits_bitsOf, Nat.mod_eq_of_lt hc]
  · intro h
    have := bitsOf_natOfBits (bs.take l)
    rwa [hlen, h] at this

/-- The bits of a symbol's canonical code. -/
def codeword (len : List Nat) (k : Nat) : List Bool := bitsOf (len.getD k 0) ((canonical len).getD k 0)

@[simp] theorem codeword_length (len : List Nat) (k : Nat) : (codeword len k).length = len.getD k 0 := bitsOf_length _ _

theorem getD_le_maxLen (len : List Nat) (k : Nat) : len.getD k 0 ≤ maxLen len := by
  by_cases h : k < len.length
  · rw [List.getD_eq_getElem _ _ h]
    exact le_maxLen (List.getElem_mem h)
  · rw [List.getD_eq_default _ _ (not_lt.mp h)]
    exact Nat.zero_le _

theorem lt_length_of_getD_pos {len : List Nat} {k : Nat} (h : 0 < len.getD k 0) : k < len.length := by
  by_contra hk
  rw [List.getD_eq_default _ _ (not_lt.mp hk)] at h
  exact absurd h (lt_irrefl 0)

theorem two_pow_mul_codeSpace (len : List Nat) (k : Nat) : 2 ^ len.getD k 0 * codeSpace len k = 2 ^ maxLen len := by
  rw [codeSpace, ← pow_add, Nat.add_sub_cancel' (getD_le_maxLen len k)]

theorem canonical_lt {len : List Nat} (hc : complete len = true) {k : Nat} (h0 : 0 < len.getD k 0) :
    (canonical len).getD k 0 < 2 ^ len.getD k 0 := by
  have hk := lt_length_of_getD_pos h0
  have hend := codeStart_add_le_total hc hk h0
  rw [← canonical_padded hc hk h0, ← two_pow_mul_codeSpace len k, ← Nat.succ_mul] at hend
  exact Nat.le_of_mul_le_mul_right hend (codeSpace_pos len k)

theorem canonical_of_unused {len : List Nat} {k : Nat} (h : len.getD k 0 = 0) : (canonical len).getD k 0 = 0 := by
  by_cases hk : k < len.length
  · rw [getD_canonical hk]
    refine assocD_of_not_mem ?_
    rw [fst_mem_assignCodes]
    intro hmem
    obtain ⟨x, hx, rfl⟩ := List.mem_map.mp hmem
    obtain ⟨-, hl, h0⟩ := getD_eq_of_mem_codeOrder.mp hx
    omega
  · exact List.getD_eq_default _ _ (by simpa using hk)

/-- A string of the longest length begins with a symbol's code exactly when it lies in the symbol's code space. -/
theorem codeword_prefix_iff {len : List Nat} (hc : complete len = true) {k : Nat} (h0 : 0 < len.getD k 0) {bs : List Bool}
    (hbs : bs.length = maxLen len) : codeword len k <+: bs ↔ InCodeSpace len k (natOfBits bs) := by
  have hk := lt_length_of_getD_pos h0
  have hpad := canonical_padded hc hk h0
  have hpos := codeSpace_pos len k
  rw [codeword, bitsOf_prefix_iff (canonical_lt hc h0) (hbs ▸ getD_le_maxLen len k), hbs,
    show 2 ^ (maxLen len - len.getD k 0) = codeSpace len k from rfl, Nat.div_eq_iff hpos, hpad]
  constructor
  · rintro ⟨hlo, hhi⟩; exact ⟨hk, h0, hlo, by omega⟩
  · rintro ⟨-, -, hlo, hhi⟩; exact ⟨hlo, by omega⟩

/-- Of two symbols whose codes both begin one bit string there is only one. -/
theorem codeword_unique {len : List Nat} (hc : complete len = true) {j k : Nat} (hj : 0 < len.getD j 0) (hk : 0 < len.getD k 0)
    {bs : List Bool} (hjb : codeword len j <+: bs) (hkb : codeword len k <+: bs) : j = k := by
  have hlen : (bs.take (maxLen len) ++ List.replicate (maxLen len - (bs.take (maxLen len)).length) false).length =
      maxLen len := by
    rw [List.length_append, List.length_replicate]
    have := List.length_take_le (maxLen len) bs
    omega
  have hpad : ∀ i, codeword len i <+: bs →
      codeword len i <+: bs.take (maxLen len) ++ List.replicate (maxLen len - (bs.take (maxLen len)).length) false := by
    intro i hi
    refine List.IsPrefix.trans ?_ (List.prefix_append _ _)
    exact List.prefix_take_iff.mpr ⟨hi, by rw [codeword_length]; exact getD_le_maxLen len i⟩
  exact ((codeword_prefix_iff hc hj hlen).mp (hpad j hjb)).unique ((codeword_prefix_iff hc hk hlen).mp (hpad k hkb))

theorem prefixFree_canonical {len : List Nat} (hc : complete len = true) : PrefixFree len (canonical len) :=
  fun _ _ _ _ hne hj hk hpre => hne (codeword_unique hc hj hk hpre (List.prefix_refl (codeword len _)))

/-- The code of the next symbol of the same length is the next number: its code space is the next one. -/
theorem canonical_next {len : List Nat} (hc : complete len = true) {j k : Nat} (hjk : j < k) (hk : k < len.length)
    (h0 : 0 < len.getD j 0) (hsame : len.getD j 0 = len.getD k 0)
    (hbetween : ∀ i, j < i → i < k → len.getD i 0 ≠ len.getD j 0) :
    (canonical len).getD k 0 = (canonical len).getD j 0 + 1 := by
  have hset : aheadSet len k = insert j (aheadSet len j) := by
    ext i
    rw [Finset.mem_insert, mem_aheadSet, mem_aheadSet]
    have hi := hbetween i
    unfold Ahead AheadPair
    dsimp only
    constructor
    · rintro ⟨hlt, hpos, hahead⟩
      by_cases hij : i = j
      · exact .inl hij
      · refine .inr ⟨hlt, hpos, ?_⟩
        by_cases hgt : j < i
        · have := hi hgt
          omega
        · omega
    · rintro (rfl | ⟨hlt, hpos, hahead⟩)
      · exact ⟨by omega, h0, .inr ⟨hsame, hjk⟩⟩
      · exact ⟨hlt, hpos, by omega⟩
  have hnot : j ∉ aheadSet len j := fun hm => not_ahead_self len j (mem_aheadSet.mp hm).2
  have hspace : codeSpace len k = codeSpace len j := by rw [codeSpace, codeSpace, hsame]
  have hstart : codeStart len k = codeSpace len j + codeStart len j := by
    rw [codeStart_eq_sum, hset, Finset.sum_insert hnot, codeStart_eq_sum]
  rw [← canonical_padded hc (by omega) h0, ← canonical_padded hc hk (by omega), hspace, Nat.add_comm, ← Nat.succ_mul] at hstart
  exact Nat.eq_of_mul_eq_mul_right (codeSpace_pos len j) hstart

/-- The first symbol with the longest length has no symbol ahead of it. -/
theorem canonical_first {len : List Nat} (hc : complete len = true) {k : Nat} (h0 : 0 < len.getD k 0)
    (hmax : len.getD k 0 = maxLen len) (hfirst : ∀ i, i < k → len.getD i 0 ≠ maxLen len) : (canonical len).getD k 0 = 0 := by
  have hempty : aheadSet len k = ∅ := by
    refine Finset.eq_empty_of_forall_notMem fun i hi => ?_
    obtain ⟨-, hahead⟩ := mem_aheadSet.mp hi
    have hle := getD_le_maxLen len i
    have hne := hfirst i
    unfold Ahead AheadPair at hahead
    dsimp only at hahead
    omega
  have hpad := canonical_padded hc (lt_length_of_getD_pos h0) h0
  rw [codeStart_eq_sum, hempty, Finset.sum_empty] at hpad
  exact (Nat.mul_eq_zero.mp hpad).resolve_right (codeSpace_pos len k).ne'

/-- A longer code, cut to the length of a shorter one, is below it. -/
theorem canonical_longer_lt {len : List Nat} (hc : complete len = true) {j k : Nat} (hk : 0 < len.getD k 0)
    (hlt : len.getD k 0 < len.getD j 0) :
    (canonical len).getD j 0 / 2 ^ (len.getD j 0 - len.getD k 0) < (canonical len).getD k 0 := by
  have hj : 0 < len.getD j 0 := by omega
  have hend := codeStart_add_le (lt_length_of_getD_pos hj) (show Ahead len j k from ⟨hj, .inl hlt⟩)
  have hspace : codeSpace len k = 2 ^ (len.getD j 0 - len.getD k 0) * codeSpace len j := by
    have := getD_le_maxLen len j
    rw [codeSpace, codeSpace, ← pow_add]
    congr 1
    omega
  rw [← canonical_padded hc (lt_length_of_getD_pos hj) hj, ← canonical_padded hc (lt_length_of_getD_pos hk) hk, hspace,
    ← Nat.succ_mul, ← Nat.mul_assoc] at hend
  exact (Nat.div_lt_iff_lt_mul (Nat.two_pow_pos _)).mpr (Nat.le_of_mul_le_mul_right hend (codeSpace_pos len j))

/-- Settles O43, from the code spaces that lie side by side. -/
theorem canonicalCodesArePrefixFree : Obligations.CanonicalCodesArePrefixFree := by
  refine fun len hc => ⟨canonical_length len, prefixFree_canonical hc, fun k _ => ?_, fun k _ => canonical_of_unused,
    fun j k hjk hk => canonical_next hc hjk hk, fun k _ hmax hfirst => ?_, fun j k _ _ => canonical_longer_lt hc⟩
  · obtain h0 | h0 := Nat.eq_zero_or_pos (len.getD k 0)
    · rw [canonical_of_unused h0]
      exact Nat.two_pow_pos _
    · exact canonical_lt hc h0
  · have hL : 1 ≤ maxLen len := by
      simp only [complete, Bool.and_eq_true, decide_eq_true_eq] at hc
      exact hc.1
    exact canonical_first hc (by omega) hmax hfirst

end Sys2Proof.Machine
end

/-! ## Facts about code words and the symbols they stand for -/

section
namespace Sys2Proof.Machine

/-! Legal tables by symbol (10_state R35, R36). -/

theorem HufTable.legal.complete {t : HufTable} (h : t.legal) : complete t.len = true := by
  obtain ⟨-, -, -, -, -, -, hc, -⟩ := h
  exact hc

theorem HufTable.legal.code_eq {t : HufTable} (h : t.legal) : t.code = canonical t.len := by
  obtain ⟨-, -, -, -, -, -, -, hcode⟩ := h
  exact hcode

theorem HufTable.legal.length_eq {t : HufTable} (h : t.legal) : t.len.length = t.size := by
  obtain ⟨-, -, -, hlen, -⟩ := h
  exact hlen

theorem HufTable.legal.hasCode_iff {t : HufTable} (h : t.legal) {k : Nat} : t.hasCode k = true ↔ 0 < t.len.getD k 0 := by
  rw [HufTable.hasCode, Bool.and_eq_true, decide_eq_true_eq, decide_eq_true_eq, ← h.length_eq, HufTable.lenOf]
  constructor
  · rintro ⟨-, h0⟩; omega
  · intro h0; exact ⟨lt_length_of_getD_pos h0, by omega⟩

/-- Entry `i` of the list that the structures are built from is the length and the code of symbol `i`. -/
theorem HufTable.legal.getElem?_zip {t : HufTable} (h : t.legal) {i : Nat} {p : Nat × Nat} :
    (t.len.zip t.code)[i]? = some p ↔ i < t.size ∧ p = (t.len.getD i 0, (canonical t.len).getD i 0) := by
  rw [h.code_eq, ← h.length_eq, List.getElem?_zip_eq_some, List.getElem?_eq_some_iff, List.getElem?_eq_some_iff, Prod.ext_iff]
  constructor
  · rintro ⟨⟨hi, h1⟩, hi', h2⟩
    exact ⟨hi, by rw [← h1, List.getD_eq_getElem _ _ hi], by rw [← h2, List.getD_eq_getElem _ _ hi']⟩
  · rintro ⟨hi, h1, h2⟩
    have hi' : i < (canonical t.len).length := by simpa using hi
    exact ⟨⟨hi, by rw [h1, List.getD_eq_getElem _ _ hi]⟩, hi', by rw [h2, List.getD_eq_getElem _ _ hi']⟩

theorem HufTable.legal.mem_zip {t : HufTable} (h : t.legal) {p : Nat × Nat} :
    p ∈ t.len.zip t.code ↔ ∃ i, i < t.size ∧ p = (t.len.getD i 0, (canonical t.len).getD i 0) := by
  rw [List.mem_iff_getElem?]
  exact exists_congr fun i => h.getElem?_zip

/-- Every code of a legal table fits its length, also the code 0 of an unused symbol. -/
theorem HufTable.legal.code_lt {t : HufTable} (h : t.legal) (k : Nat) : (canonical t.len).getD k 0 < 2 ^ t.len.getD k 0 := by
  obtain h0 | h0 := Nat.eq_zero_or_pos (t.len.getD k 0)
  · rw [canonical_of_unused h0]
    exact Nat.two_pow_pos _
  · exact canonical_lt h.complete h0

/-! Every bit string begins with a code word or ends inside one (43_huffman R240). -/

theorem natOfBits_codeword {t : HufTable} (h : t.legal) (k : Nat) :
    natOfBits (codeword t.len k) = (canonical t.len).getD k 0 := by
  rw [codeword, natOfBits_bitsOf, Nat.mod_eq_of_lt (h.code_lt k)]

theorem exists_codeword_prefix {len : List Nat} (hc : complete len = true) {bs : List Bool} (hbs : maxLen len ≤ bs.length) :
    ∃ k, 0 < len.getD k 0 ∧ codeword len k <+: bs := by
  have hlen : (bs.take (maxLen len)).length = maxLen len := List.length_take_of_le hbs
  obtain ⟨k, hk⟩ := exists_inCodeSpace hc (hlen ▸ natOfBits_lt (bs.take (maxLen len)))
  obtain ⟨-, h0, -⟩ := id hk
  exact ⟨k, h0, ((codeword_prefix_iff hc h0 hlen).mpr hk).trans (List.take_prefix _ _)⟩

/-- A bit string that begins with no code word is the beginning of a longer one. -/
theorem exists_codeword_beyond {len : List Nat} (hc : complete len = true) {bs : List Bool}
    (hnone : ∀ k, 0 < len.getD k 0 → ¬ codeword len k <+: bs) :
    ∃ k, 0 < len.getD k 0 ∧ bs.length < len.getD k 0 ∧ bs <+: codeword len k := by
  obtain ⟨k, h0, hpre⟩ := exists_codeword_prefix hc (bs := bs ++ List.replicate (maxLen len) false) (by simp)
  have hcmp := List.prefix_or_prefix_of_prefix hpre (List.prefix_append bs _)
  have hbs : bs <+: codeword len k := hcmp.resolve_left (hnone k h0)
  refine ⟨k, h0, ?_, hbs⟩
  by_contra hle
  have heq : bs = codeword len k := hbs.eq_of_length_le (by rw [codeword_length]; omega)
  exact hnone k h0 (heq ▸ List.prefix_refl bs)

/-! The bits of a stream that lie inside the budget (43_huffman R238). -/

theorem streamBits_length_eq (bytes : List Byte) : (streamBits bytes).length = 32 * (bytes.length / 4) := by
  match bytes with
  | [] | [_] | [_, _] | [_, _, _] => simp [streamBits]
  | b0 :: b1 :: b2 :: b3 :: t =>
    rw [streamBits_cons, List.length_append, bitsOf_length, streamBits_length_eq t]
    simp only [List.length_cons]
    omega

theorem bitInside_iff {bytes : List Byte} {q : Nat} : bitInside bytes.length q = true ↔ q < (streamBits bytes).length := by
  rw [bitInside, decide_eq_true_eq, streamBits_length_eq]
  omega

/-- The bits of a stream from a position on, all inside the budget. -/
structure StreamAt (budget pos : Nat) (bs : List Bool) : Prop where
  inside : ∀ i, i < bs.length → bitInside budget (pos + i) = true
  lookahead : ∀ b, b ≤ 32 → lookaheadInside budget b pos = true → b ≤ bs.length

theorem streamAt_drop (bytes : List Byte) (pos : Nat) : StreamAt bytes.length pos ((streamBits bytes).drop pos) := by
  constructor
  · intro i hi
    rw [List.length_drop] at hi
    exact bitInside_iff.mpr (by omega)
  · intro b hb hlook
    rw [lookaheadInside, Bool.and_eq_true, Bool.or_eq_true, decide_eq_true_eq, decide_eq_true_eq, bitInside_iff,
      streamBits_length_eq] at hlook
    rw [List.length_drop, streamBits_length_eq]
    omega

end Sys2Proof.Machine
end

/-! ## The decode LUT, the skip count and the long-code tree -/

section
namespace Sys2Proof.Machine

/-! The decode LUT (43_huffman R232). -/

theorem fillEntries_length {lut : List (Option (Nat × Nat))} {lo n : Nat} (h : lo + n ≤ lut.length) (v : Nat × Nat) :
    (fillEntries lut lo n v).length = lut.length := by
  simp only [fillEntries, List.length_append, List.length_take, List.length_replicate, List.length_drop]
  omega

theorem getD_fillEntries {lut : List (Option (Nat × Nat))} {lo n : Nat} (h : lo + n ≤ lut.length) (v : Nat × Nat) (e : Nat) :
    (fillEntries lut lo n v).getD e none = if lo ≤ e ∧ e < lo + n then some v else lut.getD e none := by
  have htake : (lut.take lo).length = lo := List.length_take_of_le (by omega)
  have hfront : (lut.take lo ++ List.replicate n (some v)).length = lo + n := by simp [htake]
  simp only [fillEntries, List.getD_eq_getElem?_getD]
  by_cases hlo : e < lo
  · rw [if_neg (by omega), List.getElem?_append_left (by omega), List.getElem?_append_left (by omega), List.getElem?_take_of_lt hlo]
  by_cases hhi : e < lo + n
  · rw [if_pos ⟨by omega, hhi⟩, List.getElem?_append_left (by omega), List.getElem?_append_right (by omega), htake,
      List.getElem?_replicate, if_pos (by omega)]
    rfl
  · rw [if_neg (by omega), List.getElem?_append_right (by omega), hfront, List.getElem?_drop]
    congr 2
    omega

/-- A pair (length, code) is short and the `b` bits of entry `e` begin with its code. -/
abbrev EntryBegins (b e : Nat) (p : Nat × Nat) : Prop := 1 ≤ p.1 ∧ p.1 ≤ b ∧ e / 2 ^ (b - p.1) = p.2

/-- The entries of a code that fits its length lie inside the LUT. -/
theorem short_entries_le {b : Nat} {p : Nat × Nat} (hl : p.1 ≤ b) (hfit : p.2 < 2 ^ p.1) :
    p.2 * 2 ^ (b - p.1) + 2 ^ (b - p.1) ≤ 2 ^ b := by
  rw [← Nat.succ_mul]
  refine (Nat.mul_le_mul_right _ hfit).trans_eq ?_
  rw [← pow_add, Nat.add_sub_cancel' hl]

theorem fillLut_cons (b k : Nat) (p : Nat × Nat) (ps : List (Nat × Nat)) (lut : List (Option (Nat × Nat))) :
    fillLut b k (p :: ps) lut = fillLut b (k + 1) ps
      (if 1 ≤ p.1 ∧ p.1 ≤ b then fillEntries lut (p.2 * 2 ^ (b - p.1)) (2 ^ (b - p.1)) (p.1, k) else lut) := by
  rw [fillLut]
  split <;> rfl

/-- An entry of the LUT names a pair whose code it begins with, or no pair's code begins it and it is as it was. -/
theorem fillLut_spec {b k : Nat} {ps : List (Nat × Nat)} {lut : List (Option (Nat × Nat))} (hlut : lut.length = 2 ^ b)
    (hfit : ∀ p ∈ ps, p.2 < 2 ^ p.1) :
    (fillLut b k ps lut).length = 2 ^ b ∧ ∀ e,
      ((∃ i p, ps[i]? = some p ∧ EntryBegins b e p ∧ (fillLut b k ps lut).getD e none = some (p.1, k + i)) ∨
        ((∀ p ∈ ps, ¬ EntryBegins b e p) ∧ (fillLut b k ps lut).getD e none = lut.getD e none)) := by
  induction ps generalizing k lut with
  | nil => exact ⟨hlut, fun e => .inr ⟨by simp, rfl⟩⟩
  | cons p ps ih =>
    obtain ⟨hp, hps⟩ := List.forall_mem_cons.mp hfit
    rw [fillLut_cons]
    by_cases hshort : 1 ≤ p.1 ∧ p.1 ≤ b
    · have hle := hlut.symm ▸ short_entries_le hshort.2 hp
      rw [if_pos hshort]
      obtain ⟨hlen, hentries⟩ := ih (k := k + 1) ((fillEntries_length hle (p.1, k)).trans hlut) hps
      refine ⟨hlen, fun e => ?_⟩
      obtain ⟨i, q, hi, hq, he⟩ | ⟨hnone, he⟩ := hentries e
      · exact .inl ⟨i + 1, q, by simpa using hi, hq, by rw [he, Nat.add_assoc, Nat.add_comm 1]⟩
      · rw [getD_fillEntries hle] at he
        have hbegins : EntryBegins b e p ↔ p.2 * 2 ^ (b - p.1) ≤ e ∧ e < p.2 * 2 ^ (b - p.1) + 2 ^ (b - p.1) := by
          have hpos := Nat.two_pow_pos (b - p.1)
          rw [EntryBegins, Nat.div_eq_iff hpos]
          omega
        by_cases hb : EntryBegins b e p
        · rw [if_pos (hbegins.mp hb)] at he
          exact .inl ⟨0, p, rfl, hb, he⟩
        · rw [if_neg (mt hbegins.mpr hb)] at he
          exact .inr ⟨List.forall_mem_cons.mpr ⟨hb, hnone⟩, he⟩
    · rw [if_neg hshort]
      obtain ⟨hlen, hentries⟩ := ih (k := k + 1) hlut hps
      refine ⟨hlen, fun e => ?_⟩
      obtain ⟨i, q, hi, hq, he⟩ | ⟨hnone, he⟩ := hentries e
      · exact .inl ⟨i + 1, q, by simpa using hi, hq, by rw [he, Nat.add_assoc, Nat.add_comm 1]⟩
      · exact .inr ⟨List.forall_mem_cons.mpr ⟨fun hb => hshort ⟨hb.1, hb.2.1⟩, hnone⟩, he⟩

/-- The width of a table's LUT (43_huffman R231). -/
def lutWidth (len : List Nat) : Nat := min (maxLen len) Config.hufLutBits

theorem buildDecoder_numBitsLUT (t : HufTable) : (buildDecoder t).numBitsLUT = lutWidth t.len := rfl

theorem lutWidth_le (len : List Nat) : lutWidth len ≤ 12 ∧ lutWidth len ≤ maxLen len :=
  ⟨Nat.min_le_right _ _, Nat.min_le_left _ _⟩

/-- An entry begins with a symbol's code exactly when its bits do. -/
theorem entryBegins_iff {t : HufTable} (h : t.legal) {k e : Nat} (he : e < 2 ^ lutWidth t.len) :
    EntryBegins (lutWidth t.len) e (t.len.getD k 0, (canonical t.len).getD k 0) ↔
      0 < t.len.getD k 0 ∧ t.len.getD k 0 ≤ lutWidth t.len ∧ codeword t.len k <+: bitsOf (lutWidth t.len) e := by
  refine and_congr Iff.rfl (and_congr_right fun hl => ?_)
  rw [codeword, bitsOf_prefix_iff (h.code_lt k) (by simpa using hl), natOfBits_bitsOf, Nat.mod_eq_of_lt he, bitsOf_length]

/-- The LUT of a legal table: entry `e` names symbol `k` exactly when the bits of `e` begin with its code word. -/
theorem getD_lutOfTable {t : HufTable} (h : t.legal) {e l k : Nat} (he : e < 2 ^ lutWidth t.len) :
    (lutOfTable t).getD e none = some (l, k) ↔
      0 < t.len.getD k 0 ∧ t.len.getD k 0 = l ∧ l ≤ lutWidth t.len ∧ codeword t.len k <+: bitsOf (lutWidth t.len) e := by
  have hfit : ∀ p ∈ t.len.zip t.code, p.2 < 2 ^ p.1 := fun p hp => by
    obtain ⟨i, -, rfl⟩ := h.mem_zip.mp hp
    exact h.code_lt i
  have hentry := (fillLut_spec (b := lutWidth t.len) (k := 0) (lut := List.replicate (2 ^ lutWidth t.len) none)
    (by simp) hfit).2 e
  change (fillLut (lutWidth t.len) 0 (t.len.zip t.code) (List.replicate (2 ^ lutWidth t.len) none)).getD e none = _ ↔ _
  constructor
  · intro hsome
    obtain ⟨i, p, hi, hp, hget⟩ | ⟨-, hget⟩ := hentry
    · obtain ⟨-, rfl⟩ := h.getElem?_zip.mp hi
      obtain ⟨h0, hl, hpre⟩ := (entryBegins_iff h he).mp hp
      rw [hsome, Option.some.injEq, Prod.mk.injEq, Nat.zero_add] at hget
      obtain ⟨rfl, rfl⟩ := hget
      exact ⟨h0, rfl, hl, hpre⟩
    · rw [hsome, List.getD_eq_getElem?_getD, List.getElem?_replicate] at hget
      split at hget <;> cases hget
  · rintro ⟨h0, rfl, hl, hpre⟩
    have hbegins := (entryBegins_iff h he).mpr ⟨h0, hl, hpre⟩
    obtain ⟨i, p, hi, hp, hget⟩ | ⟨hnone, -⟩ := hentry
    · obtain ⟨-, rfl⟩ := h.getElem?_zip.mp hi
      obtain ⟨hi0, -, hipre⟩ := (entryBegins_iff h he).mp hp
      obtain rfl := codeword_unique h.complete hi0 h0 hipre hpre
      rw [hget, Nat.zero_add]
    · exact absurd hbegins (hnone _ (h.mem_zip.mpr ⟨k, h.length_eq ▸ lt_length_of_getD_pos h0, rfl⟩))

theorem lutOfTable_length {t : HufTable} (h : t.legal) : (lutOfTable t).length = 2 ^ lutWidth t.len := by
  refine (fillLut_spec (k := 0) (by simp) fun p hp => ?_).1
  obtain ⟨i, -, rfl⟩ := h.mem_zip.mp hp
  exact h.code_lt i

/-- The lookup of a bit string finds a symbol exactly when the string begins with its short code word (43_huffman R241). -/
theorem lookup_eq_some_iff {t : HufTable} (h : t.legal) {bs : List Bool} (hbs : lutWidth t.len ≤ bs.length) {l k : Nat} :
    (buildDecoder t).lut.getD (natOfBits (bs.take (lutWidth t.len))) none = some (l, k) ↔
      0 < t.len.getD k 0 ∧ t.len.getD k 0 = l ∧ l ≤ lutWidth t.len ∧ codeword t.len k <+: bs := by
  have hlen : (bs.take (lutWidth t.len)).length = lutWidth t.len := List.length_take_of_le hbs
  have hlt := natOfBits_lt (bs.take (lutWidth t.len))
  have hbits := bitsOf_natOfBits (bs.take (lutWidth t.len))
  rw [hlen] at hlt hbits
  change (lutOfTable t).getD _ none = _ ↔ _
  rw [getD_lutOfTable h hlt, hbits]
  refine and_congr_right fun _ => and_congr_right fun hl => and_congr_right fun hle => ?_
  rw [List.prefix_take_iff, codeword_length, hl]
  exact and_iff_left hle

/-- Settles O50. -/
theorem decodeLutHoldsTheShortCodes : Obligations.DecodeLutHoldsTheShortCodes := by
  refine fun t h => ⟨lutOfTable_length h, fun e l k he => (getD_lutOfTable h he).trans ?_⟩
  rw [buildDecoder_numBitsLUT, HufTable.codeOf, h.code_eq, HufTable.lenOf]
  constructor
  · rintro ⟨h0, rfl, hl, hpre⟩
    exact ⟨h.length_eq ▸ lt_length_of_getD_pos h0, rfl, h0, hl, ((entryBegins_iff h he).mpr ⟨h0, hl, hpre⟩).2.2⟩
  · rintro ⟨-, rfl, h0, hl, hcode⟩
    exact ⟨h0, rfl, hl, ((entryBegins_iff h he).mp ⟨h0, hl, hcode⟩).2.2⟩

/-! The skip count (43_huffman R233). -/

theorem mem_longCodeZeros {ps : List (Nat × Nat)} {z : Nat} :
    z ∈ longCodeZeros ps ↔ ∃ p ∈ ps, 12 < p.1 ∧ z = p.1 - max 1 (bitlen p.2) := by
  induction ps with
  | nil => simp [longCodeZeros]
  | cons p t ih =>
    rw [longCodeZeros, List.exists_mem_cons_iff, ← ih]
    split
    · rename_i hlong
      rw [List.mem_cons]
      exact or_congr_left (iff_and_self.mpr fun _ => hlong)
    · rename_i hshort
      exact (or_iff_right fun hp => hshort hp.1).symm

/-- How many leading zeros the skip count sees in a symbol's code. -/
def leadingZeros (len : List Nat) (k : Nat) : Nat := len.getD k 0 - max 1 (bitlen ((canonical len).getD k 0))

theorem mem_longCodeZeros_zip {t : HufTable} (h : t.legal) {z : Nat} :
    z ∈ longCodeZeros (t.len.zip t.code) ↔ ∃ k, 12 < t.len.getD k 0 ∧ z = leadingZeros t.len k := by
  rw [mem_longCodeZeros]
  constructor
  · rintro ⟨p, hp, hlong, rfl⟩
    obtain ⟨k, -, rfl⟩ := h.mem_zip.mp hp
    exact ⟨k, hlong, rfl⟩
  · rintro ⟨k, hlong, rfl⟩
    exact ⟨_, h.mem_zip.mpr ⟨k, h.length_eq ▸ lt_length_of_getD_pos (Nat.zero_lt_of_lt hlong), rfl⟩, hlong, rfl⟩

/-- No long code has fewer leading zeros than the skip count. -/
theorem skip_le_leadingZeros {t : HufTable} (h : t.legal) {k : Nat} (hlong : 12 < t.len.getD k 0) :
    skipOfTable t ≤ leadingZeros t.len k := by
  have hmem := (mem_longCodeZeros_zip h).mpr ⟨k, hlong, rfl⟩
  rw [skipOfTable]
  cases hmin : (longCodeZeros (t.len.zip t.code)).min? with
  | none => exact Nat.zero_le _
  | some z => exact (List.min?_eq_some_iff.mp hmin).2 _ hmem

/-- With a long code the skip count is that of one of them. -/
theorem exists_skip_eq {t : HufTable} (h : t.legal) (hlong : ∃ k, 12 < t.len.getD k 0) :
    ∃ k, 12 < t.len.getD k 0 ∧ skipOfTable t = leadingZeros t.len k := by
  obtain ⟨k, hk⟩ := hlong
  have hmem := (mem_longCodeZeros_zip h).mpr ⟨k, hk, rfl⟩
  obtain ⟨z, hz⟩ := Option.isSome_iff_exists.mp (List.isSome_min?_of_mem hmem)
  obtain ⟨j, hj, rfl⟩ := (mem_longCodeZeros_zip h).mp (List.min?_mem hz)
  exact ⟨j, hj, by rw [skipOfTable, hz, Option.getD_some]⟩

theorem skipOfTable_of_short {t : HufTable} (h : t.legal) (hshort : maxLen t.len ≤ 12) : skipOfTable t = 0 := by
  have hnil : longCodeZeros (t.len.zip t.code) = [] := List.eq_nil_iff_forall_not_mem.mpr fun z hz => by
    obtain ⟨k, hk, -⟩ := (mem_longCodeZeros_zip h).mp hz
    have := getD_le_maxLen t.len k
    omega
  rw [skipOfTable, hnil]
  rfl

/-- The skipped bits of a long code leave at least one bit, and are zeros. -/
theorem skip_of_long {t : HufTable} (h : t.legal) {k : Nat} (hlong : 12 < t.len.getD k 0) :
    skipOfTable t < t.len.getD k 0 ∧ (canonical t.len).getD k 0 < 2 ^ (t.len.getD k 0 - skipOfTable t) := by
  have hle := skip_le_leadingZeros h hlong
  have hfit := bitlen_le_iff.mpr (h.code_lt k)
  rw [leadingZeros] at hle
  exact ⟨by omega, bitlen_le_iff.mp (by omega)⟩

theorem exists_getD_eq_maxLen {len : List Nat} (h : 1 ≤ maxLen len) : ∃ k, k < len.length ∧ len.getD k 0 = maxLen len := by
  by_contra hnone
  have hle : maxLen len ≤ maxLen len - 1 := maxLen_le_iff.mpr fun l hl => by
    obtain ⟨k, hk, rfl⟩ := List.mem_iff_getElem.mp hl
    have hne : len.getD k 0 ≠ maxLen len := fun he => hnone ⟨k, hk, he⟩
    have := le_maxLen hl
    rw [List.getD_eq_getElem _ _ hk] at hne
    omega
  omega

/-- The all-zero string begins with the code of a symbol of the longest length. -/
theorem exists_longest_start_zero {len : List Nat} (hc : complete len = true) :
    ∃ k, len.getD k 0 = maxLen len ∧ InCodeSpace len k 0 := by
  have hL : 1 ≤ maxLen len := by
    simp only [complete, Bool.and_eq_true, decide_eq_true_eq] at hc
    exact hc.1
  have hex := exists_getD_eq_maxLen hL
  obtain ⟨hk, hmax⟩ := Nat.find_spec hex
  have hfirst : ∀ i, i < Nat.find hex → len.getD i 0 ≠ maxLen len := fun i hi he =>
    Nat.find_min hex hi ⟨by omega, he⟩
  have hstart := canonical_padded hc hk (by omega)
  rw [canonical_first hc (by omega) hmax hfirst, Nat.zero_mul] at hstart
  exact ⟨_, hmax, hk, by omega, hstart.ge, by have := codeSpace_pos len (Nat.find hex); omega⟩

/-- A long code of exactly twelve leading zeros: the string of twelve zeros, a one and zeros lies in no short code's space, for that
would hold the all-zero string too, whose code is the longest (43_huffman R233). -/
theorem exists_leadingZeros_le {t : HufTable} (h : t.legal) (hlong : 12 < maxLen t.len) :
    ∃ k, 12 < t.len.getD k 0 ∧ leadingZeros t.len k ≤ 12 := by
  have hc := h.complete
  obtain ⟨k, hspace⟩ := exists_inCodeSpace hc (x := 2 ^ (maxLen t.len - 13)) (Nat.pow_lt_pow_right (by decide) (by omega))
  obtain ⟨hk, h0, hlo, hhi⟩ := id hspace
  have hpad := canonical_padded hc hk h0
  have hle := getD_le_maxLen t.len k
  have hkl : 12 < t.len.getD k 0 := by
    by_contra hshort
    have hsize : 2 ^ (maxLen t.len - 13) < codeSpace t.len k := Nat.pow_lt_pow_right (by decide) (by omega)
    have hzero : codeStart t.len k = 0 := by
      rw [← hpad] at hlo ⊢
      have hcode : (canonical t.len).getD k 0 = 0 := by
        by_contra hne
        have := Nat.le_mul_of_pos_left (codeSpace t.len k) (Nat.pos_of_ne_zero hne)
        omega
      rw [hcode, Nat.zero_mul]
    obtain ⟨j, hj, hj0⟩ := exists_longest_start_zero hc
    obtain rfl := hj0.unique (show InCodeSpace t.len k 0 from ⟨hk, h0, hzero.le, by omega⟩)
    omega
  refine ⟨k, hkl, ?_⟩
  have hsplit : 2 ^ (maxLen t.len - 13) = 2 ^ (t.len.getD k 0 - 13) * codeSpace t.len k := by
    rw [codeSpace, ← pow_add]
    congr 1
    omega
  rw [← hpad, hsplit, ← Nat.succ_mul] at hhi
  have hcode : 2 ^ (t.len.getD k 0 - 13) ≤ (canonical t.len).getD k 0 := Nat.lt_succ_iff.mp (Nat.lt_of_mul_lt_mul_right hhi)
  have := lt_bitlen_iff.mpr hcode
  rw [leadingZeros]
  omega

theorem skipOfTable_le {t : HufTable} (h : t.legal) : skipOfTable t ≤ 12 := by
  by_cases hlong : 12 < maxLen t.len
  · obtain ⟨k, hk, hle⟩ := exists_leadingZeros_le h hlong
    exact (skip_le_leadingZeros h hk).trans hle
  · rw [skipOfTable_of_short h (not_lt.mp hlong)]
    exact Nat.zero_le 12

/-! The long-code tree (10_state R38; 43_huffman R233). -/

/-- The child a bit leads to: left on 0, right on 1. -/
def CodeTree.child (b : Bool) : CodeTree → CodeTree
  | .node z o => bif b then o else z
  | _ => .empty

/-- The symbol at the end of a path, if the path ends in a leaf. -/
def CodeTree.leafAt : CodeTree → List Bool → Option Nat
  | tree, b :: bs => (tree.child b).leafAt bs
  | .leaf k, [] => some k
  | _, [] => none

/-- Entering a path changes the child its first bit leads to, and no other. -/
theorem CodeTree.child_enter (symbol : Nat) (b c : Bool) (bs : List Bool) (tree : CodeTree) :
    (tree.enter symbol (b :: bs)).child c = if b = c then (tree.child c).enter symbol bs else tree.child c := by
  cases b <;> cases c <;> cases tree <;> rfl

theorem CodeTree.leafAt_enter_same (symbol : Nat) (path : List Bool) (tree : CodeTree) :
    (tree.enter symbol path).leafAt path = some symbol := by
  induction path generalizing tree with
  | nil => rfl
  | cons b bs ih => rw [CodeTree.leafAt, CodeTree.child_enter, if_pos rfl, ih]

/-- A path that neither begins the entered one nor begins with it ends where it did. -/
theorem CodeTree.leafAt_enter_other {symbol : Nat} {path q : List Bool} (tree : CodeTree) (hp : ¬ path <+: q) (hq : ¬ q <+: path) :
    (tree.enter symbol path).leafAt q = tree.leafAt q := by
  induction path generalizing tree q with
  | nil => exact absurd List.nil_prefix hp
  | cons b bs ih =>
    cases q with
    | nil => exact absurd List.nil_prefix hq
    | cons c cs =>
      rw [CodeTree.leafAt, CodeTree.leafAt, CodeTree.child_enter]
      split
      · rename_i hbc
        exact ih _ (fun h => hp (List.cons_prefix_cons.mpr ⟨hbc, h⟩)) (fun h => hq (List.cons_prefix_cons.mpr ⟨hbc.symm, h⟩))
      · rfl

/-- The path of a pair (length, code) below the skipped bits. -/
def pairPath (skip : Nat) (p : Nat × Nat) : List Bool := (bitsOf p.1 p.2).drop skip

/-- Two pairs whose paths do not lie one inside the other, where both are long. -/
def PathsApart (skip : Nat) (p q : Nat × Nat) : Prop :=
  12 < p.1 → 12 < q.1 → ¬ pairPath skip p <+: pairPath skip q ∧ ¬ pairPath skip q <+: pairPath skip p

theorem fillTree_cons (skip k : Nat) (p : Nat × Nat) (ps : List (Nat × Nat)) (tree : CodeTree) :
    fillTree skip k (p :: ps) tree =
      fillTree skip (k + 1) ps (if 12 < p.1 then tree.enter k (pairPath skip p) else tree) := by
  rw [fillTree]
  split
  · rename_i hlong; rw [if_pos (show 12 < p.1 from hlong)]; rfl
  · rename_i hshort; rw [if_neg (show ¬ 12 < p.1 from hshort)]

theorem leafAt_fillTree_other {skip k : Nat} {ps : List (Nat × Nat)} {q : Nat × Nat} (tree : CodeTree) (hq : 12 < q.1)
    (hps : ∀ p ∈ ps, PathsApart skip q p) :
    (fillTree skip k ps tree).leafAt (pairPath skip q) = tree.leafAt (pairPath skip q) := by
  induction ps generalizing k tree with
  | nil => rfl
  | cons p t ih =>
    obtain ⟨hp, ht⟩ := List.forall_mem_cons.mp hps
    rw [fillTree_cons, ih _ ht]
    split
    · rename_i hlong
      obtain ⟨hqp, hpq⟩ := hp hq hlong
      exact CodeTree.leafAt_enter_other tree hpq hqp
    · rfl

/-- The tree holds every long code at the end of its path. -/
theorem leafAt_fillTree {skip k i : Nat} {ps : List (Nat × Nat)} {p : Nat × Nat} (tree : CodeTree)
    (hapart : ps.Pairwise (PathsApart skip)) (hi : ps[i]? = some p) (hlong : 12 < p.1) :
    (fillTree skip k ps tree).leafAt (pairPath skip p) = some (k + i) := by
  induction ps generalizing k i tree with
  | nil => simp at hi
  | cons q t ih =>
    obtain ⟨hq, ht⟩ := List.pairwise_cons.mp hapart
    rw [fillTree_cons]
    cases i with
    | zero =>
      obtain rfl : q = p := by simpa using hi
      rw [leafAt_fillTree_other _ hlong hq, if_pos hlong, CodeTree.leafAt_enter_same, Nat.add_zero]
    | succ i =>
      rw [ih _ ht (by simpa using hi), Nat.add_assoc, Nat.add_comm 1]

/-- The bits of a code below the skipped ones. -/
def longPath (t : HufTable) (k : Nat) : List Bool := (codeword t.len k).drop (skipOfTable t)

theorem codeword_eq_append_longPath {t : HufTable} (h : t.legal) {k : Nat} (hlong : 12 < t.len.getD k 0) :
    codeword t.len k = List.replicate (skipOfTable t) false ++ longPath t k := by
  obtain ⟨hskip, hcode⟩ := skip_of_long h hlong
  have htake : (codeword t.len k).take (skipOfTable t) = List.replicate (skipOfTable t) false := by
    refine List.ext_getElem (by rw [List.length_take, codeword_length, List.length_replicate]; omega) fun j hj hj' => ?_
    have hjs : j < skipOfTable t := by simpa using hj'
    have hjl : j < t.len.getD k 0 := by omega
    have hbit := getD_bitsOf ((canonical t.len).getD k 0) hjl
    rw [List.getD_eq_getElem _ _ (by simpa using hjl)] at hbit
    rw [List.getElem_take, List.getElem_replicate]
    refine hbit.trans (Nat.testBit_lt_two_pow (hcode.trans_le (Nat.pow_le_pow_right (by decide) (by omega))))
  rw [longPath, ← htake, List.take_append_drop]

theorem paths_apart {t : HufTable} (h : t.legal) : (t.len.zip t.code).Pairwise (PathsApart (skipOfTable t)) := by
  rw [List.pairwise_iff_getElem]
  intro i j hi hj hij hli hlj
  obtain ⟨-, hpi⟩ := h.getElem?_zip.mp (List.getElem?_eq_getElem hi)
  obtain ⟨-, hpj⟩ := h.getElem?_zip.mp (List.getElem?_eq_getElem hj)
  rw [hpi] at hli ⊢
  rw [hpj] at hlj ⊢
  have hcode : ∀ a b, 12 < t.len.getD a 0 → 12 < t.len.getD b 0 → longPath t a <+: longPath t b → a = b := by
    intro a b ha hb hab
    refine codeword_unique h.complete (by omega) (by omega) (bs := codeword t.len b) ?_ (List.prefix_refl _)
    rw [codeword_eq_append_longPath h ha, codeword_eq_append_longPath h hb, List.prefix_append_right_inj]
    exact hab
  exact ⟨fun hpre => hij.ne (hcode i j hli hlj hpre), fun hpre => hij.ne' (hcode j i hlj hli hpre)⟩

theorem leafAt_treeOfTable {t : HufTable} (h : t.legal) {k : Nat} (hlong : 12 < t.len.getD k 0) :
    (treeOfTable t).leafAt (longPath t k) = some k := by
  have hk : k < t.size := h.length_eq ▸ lt_length_of_getD_pos (Nat.zero_lt_of_lt hlong)
  have := leafAt_fillTree (k := 0) .empty (paths_apart h) (h.getElem?_zip.mpr ⟨hk, rfl⟩) hlong
  rwa [Nat.zero_add] at this

/-- Without long codes the tree is empty. -/
theorem treeOfTable_of_short {t : HufTable} (h : t.legal) (hshort : maxLen t.len ≤ 12) : treeOfTable t = .empty := by
  have hfill : ∀ (ps : List (Nat × Nat)) (k : Nat), (∀ p ∈ ps, p.1 ≤ 12) → fillTree (skipOfTable t) k ps .empty = .empty := by
    intro ps
    induction ps with
    | nil => exact fun _ _ => rfl
    | cons p ps ih =>
      intro k hps
      obtain ⟨hp, hps⟩ := List.forall_mem_cons.mp hps
      rw [fillTree_cons, if_neg (not_lt.mpr hp), ih _ hps]
  refine hfill _ 0 fun p hp => ?_
  obtain ⟨k, -, rfl⟩ := h.mem_zip.mp hp
  exact (getD_le_maxLen t.len k).trans hshort

/-! HUF.BUILD (43_huffman R234). -/

theorem exec_hufBuild_of_not_valid {s : State} (h : s.ht.valid = false) : exec .hufBuild s = .next (s.finish .failed 0 0) := by
  change execHufBuild s = _
  exact (perform_of_no_windows _ _ rfl).trans (by rw [h]; rfl)

theorem exec_hufBuild_of_valid {s : State} (h : s.ht.valid = true) :
    exec .hufBuild s =
      .next (({ s with hd := buildDecoder s.ht } : State).finish .ok (lutWidth s.ht.len) (skipOfTable s.ht)) := by
  change execHufBuild s = _
  exact (perform_of_no_windows _ _ rfl).trans (by rw [h]; rfl)

/-- Settles O49. -/
theorem hufBuildOutcome : Obligations.HufBuildOutcome := by
  refine ⟨fun s => exec_hufBuild_of_not_valid, fun s h => ?_⟩
  have hvalid : s.ht.valid = true := h.1
  refine ⟨_, exec_hufBuild_of_valid hvalid, rfl, rfl, rfl, skipOfTable_le h,
    fun hshort => ⟨skipOfTable_of_short h hshort, treeOfTable_of_short h hshort⟩, fun k _ hlong => ?_, fun hlong => ?_,
    exec_hufBuild_of_valid (s := State.finish _ _ _ _) hvalid⟩
  · rw [h.code_eq]
    exact skip_of_long h hlong
  · obtain ⟨k, hk, hskip⟩ := exists_skip_eq h (exists_leadingZeros_le h hlong |>.imp fun _ hk => hk.1)
    refine ⟨k, h.length_eq ▸ lt_length_of_getD_pos (Nat.zero_lt_of_lt hk), hk, ?_⟩
    rw [h.code_eq]
    change s.ht.len.getD k 0 = skipOfTable s.ht + 1 ∨ 2 ^ (s.ht.len.getD k 0 - skipOfTable s.ht - 1) ≤ _
    have hfit := bitlen_le_iff.mpr (h.code_lt k)
    rw [leadingZeros] at hskip
    by_cases hone : bitlen ((canonical s.ht.len).getD k 0) ≤ 1
    · exact .inl (by omega)
    · exact .inr (lt_bitlen_iff.mp (by omega))

end Sys2Proof.Machine
end

/-! ## One decode step -/

section
namespace Sys2Proof.Machine

/-! The walk of the long-code tree (43_huffman R241). -/

theorem CodeTree.leafAt_empty (path : List Bool) : CodeTree.empty.leafAt path = none := by
  induction path with
  | nil => rfl
  | cons b path ih => exact ih

/-- A path of one bit or more to a leaf starts at an inner node. -/
theorem CodeTree.exists_node {tree : CodeTree} {b : Bool} {path : List Bool} {k : Nat}
    (h : tree.leafAt (b :: path) = some k) : ∃ z o, tree = .node z o := by
  cases tree with
  | node z o => exact ⟨z, o, rfl⟩
  | empty | leaf j => cases (CodeTree.leafAt_empty path).symm.trans h

/-- One bit of a walk. -/
theorem walkTree_node_cons {budget q : Nat} (z o : CodeTree) (b : Bool) (bs : List Bool) (hq : bitInside budget q = true) :
    walkTree budget (.node z o) q (b :: bs) = walkTree budget ((CodeTree.node z o).child b) (q + 1) bs := by
  rw [walkTree.eq_def]
  cases b <;> exact if_pos hq

theorem walkTree_node_of_outside {budget q : Nat} (z o : CodeTree) (bs : List Bool) (hq : ¬ bitInside budget q = true) :
    walkTree budget (.node z o) q bs = .error .failed := by
  rw [walkTree.eq_def]
  exact if_neg hq

theorem walkTree_node_nil (budget q : Nat) (z o : CodeTree) : walkTree budget (.node z o) q [] = .error .failed := by
  rw [walkTree.eq_def]
  exact ite_self _

/-- A walk along a path that the bits follow ends at its leaf. -/
theorem walkTree_of_prefix {budget q k : Nat} {tree : CodeTree} {path bs : List Bool} (hleaf : tree.leafAt path = some k)
    (hpre : path <+: bs) (hin : ∀ i, i < path.length → bitInside budget (q + i) = true) :
    walkTree budget tree q bs = .ok (k, q + path.length, bs.drop path.length) := by
  induction path generalizing tree q bs with
  | nil =>
    cases tree with
    | leaf j => cases hleaf; rfl
    | empty | node z o => cases hleaf
  | cons b path ih =>
    obtain ⟨rest, rfl⟩ := hpre
    have hchild := ih (q := q + 1) (bs := path ++ rest) hleaf (List.prefix_append _ _) fun i hi => by
      rw [Nat.add_assoc, Nat.add_comm 1]
      exact hin (i + 1) (by simpa using hi)
    rw [show q + 1 + path.length = q + (b :: path).length by rw [List.length_cons]; omega] at hchild
    have hq : bitInside budget q = true := hin 0 (by simp)
    obtain ⟨z, o, rfl⟩ := CodeTree.exists_node hleaf
    exact (walkTree_node_cons z o b _ hq).trans hchild

/-- A walk whose bits end on the way to a leaf fails. -/
theorem walkTree_of_cut {budget q k : Nat} {tree : CodeTree} {path bs : List Bool} (hleaf : tree.leafAt path = some k)
    (hpre : bs <+: path) (hlt : bs.length < path.length) : walkTree budget tree q bs = .error .failed := by
  induction path generalizing tree q bs with
  | nil => simp at hlt
  | cons b path ih =>
    obtain ⟨z, o, rfl⟩ := CodeTree.exists_node hleaf
    by_cases hq : bitInside budget q = true
    · cases bs with
      | nil => exact walkTree_node_nil budget q z o
      | cons c bs =>
        obtain ⟨rfl, hrest⟩ := List.cons_prefix_cons.mp hpre
        exact (walkTree_node_cons z o c bs hq).trans (ih hleaf hrest (by simpa using hlt))
    · exact walkTree_node_of_outside z o bs hq

/-! The step through the structures (43_huffman R239, R241). -/

theorem decodeOne_of_outside {t : HufTable} {budget pos : Nat} {bs : List Bool}
    (h : ¬ lookaheadInside budget (lutWidth t.len) pos = true) : decodeOne (buildDecoder t) budget pos bs = .error .failed :=
  if_neg h

/-- Bits that begin with a symbol's code word decode to the symbol. -/
theorem decodeOne_of_codeword {t : HufTable} (h : t.legal) {budget pos k : Nat} {bs : List Bool}
    (hlook : lookaheadInside budget (lutWidth t.len) pos = true) (hbs : StreamAt budget pos bs) (h0 : 0 < t.len.getD k 0)
    (hpre : codeword t.len k <+: bs) :
    decodeOne (buildDecoder t) budget pos bs = .ok (k, pos + t.len.getD k 0, bs.drop (t.len.getD k 0)) := by
  have hwidth : lutWidth t.len ≤ bs.length := hbs.lookahead _ (by have := lutWidth_le t.len; omega) hlook
  refine (if_pos hlook).trans ?_
  by_cases hshort : t.len.getD k 0 ≤ lutWidth t.len
  · rw [buildDecoder_numBitsLUT, (lookup_eq_some_iff h hwidth).mpr ⟨h0, rfl, hshort, hpre⟩]
  · have hnone : (buildDecoder t).lut.getD (natOfBits (bs.take (lutWidth t.len))) none = none := by
      refine Option.eq_none_iff_forall_ne_some.mpr fun p hp => ?_
      obtain ⟨hj0, hjl, hle, hj⟩ := (lookup_eq_some_iff h hwidth).mp hp
      obtain rfl := codeword_unique h.complete hj0 h0 hj hpre
      omega
    have hlong : 12 < t.len.getD k 0 := by
      have hmax := getD_le_maxLen t.len k
      simp only [lutWidth, Config.hufLutBits] at hshort
      omega
    have hskip := (skip_of_long h hlong).1
    have hpath : (longPath t k).length = t.len.getD k 0 - skipOfTable t := by rw [longPath, List.length_drop, codeword_length]
    have hlen := hpre.length_le
    rw [codeword_length] at hlen
    rw [buildDecoder_numBitsLUT, hnone]
    refine (walkTree_of_prefix (leafAt_treeOfTable h hlong) (hpre.drop _) fun i hi => ?_).trans ?_
    · rw [Nat.add_assoc]
      exact hbs.inside _ (by change skipOfTable t + i < _; omega)
    · rw [List.drop_drop, hpath, Nat.add_assoc]
      change Except.ok (k, pos + (skipOfTable t + (t.len.getD k 0 - skipOfTable t)),
        bs.drop (skipOfTable t + (t.len.getD k 0 - skipOfTable t))) = _
      rw [Nat.add_sub_cancel' hskip.le]

/-- Bits that begin with no code word do not decode. -/
theorem decodeOne_of_no_codeword {t : HufTable} (h : t.legal) {budget pos : Nat} {bs : List Bool}
    (hbs : StreamAt budget pos bs) (hnone : ∀ k, 0 < t.len.getD k 0 → ¬ codeword t.len k <+: bs) :
    decodeOne (buildDecoder t) budget pos bs = .error .failed := by
  by_cases hlook : lookaheadInside budget (lutWidth t.len) pos = true
  · have hwidth : lutWidth t.len ≤ bs.length := hbs.lookahead _ (by have := lutWidth_le t.len; omega) hlook
    obtain ⟨k, h0, hlt, hpre⟩ := exists_codeword_beyond h.complete hnone
    have hmiss : (buildDecoder t).lut.getD (natOfBits (bs.take (lutWidth t.len))) none = none := by
      refine Option.eq_none_iff_forall_ne_some.mpr fun p hp => ?_
      obtain ⟨hj0, -, -, hj⟩ := (lookup_eq_some_iff h hwidth).mp hp
      exact hnone _ hj0 hj
    have hlong : 12 < t.len.getD k 0 := by
      have hmax := getD_le_maxLen t.len k
      simp only [lutWidth, Config.hufLutBits] at hwidth
      omega
    have hskip := (skip_of_long h hlong).1
    refine (if_pos hlook).trans ?_
    rw [buildDecoder_numBitsLUT, hmiss]
    refine walkTree_of_cut (leafAt_treeOfTable h hlong) (hpre.drop _) ?_
    rw [longPath, List.length_drop, List.length_drop, codeword_length]
    change bs.length - skipOfTable t < _
    omega
  · exact decodeOne_of_outside hlook

/-! The step by matching code words (43_huffman R239, R240). -/

theorem symbolWith_eq_some {l c k j : Nat} {ps : List (Nat × Nat)} (h : symbolWith l c k ps = some j) :
    ∃ i, j = k + i ∧ ps[i]? = some (l, c) := by
  induction ps generalizing k with
  | nil => cases h
  | cons p t ih =>
    unfold symbolWith at h
    split at h
    · rename_i hp
      cases h
      exact ⟨0, rfl, by rw [List.getElem?_cons_zero, ← hp.1, ← hp.2]⟩
    · obtain ⟨i, rfl, hi⟩ := ih h
      exact ⟨i + 1, by omega, hi⟩

theorem not_mem_of_symbolWith_eq_none {l c k : Nat} {ps : List (Nat × Nat)} (h : symbolWith l c k ps = none) : (l, c) ∉ ps := by
  induction ps generalizing k with
  | nil => exact List.not_mem_nil
  | cons p t ih =>
    unfold symbolWith at h
    split at h
    · cases h
    · rename_i hp
      rw [List.mem_cons, not_or]
      exact ⟨fun he => hp ⟨(congrArg Prod.fst he).symm, (congrArg Prod.snd he).symm⟩, ih h⟩

/-- The candidate bits are looked up as a code word. -/
theorem symbolWith_eq_some_iff {t : HufTable} (h : t.legal) {w : List Bool} (hw : w ≠ []) {k : Nat} :
    symbolWith w.length (natOfBits w) 0 (t.len.zip t.code) = some k ↔ 0 < t.len.getD k 0 ∧ codeword t.len k = w := by
  have hword : ∀ j, t.len.getD j 0 = w.length → (canonical t.len).getD j 0 = natOfBits w → codeword t.len j = w := by
    intro j hl hcode
    rw [codeword, hl, hcode, bitsOf_natOfBits]
  have hsome : ∀ j, symbolWith w.length (natOfBits w) 0 (t.len.zip t.code) = some j →
      0 < t.len.getD j 0 ∧ codeword t.len j = w := by
    intro j hj
    obtain ⟨i, rfl, hi⟩ := symbolWith_eq_some hj
    obtain ⟨-, hp⟩ := h.getElem?_zip.mp hi
    obtain ⟨hl, hcode⟩ := Prod.mk.inj hp
    rw [Nat.zero_add]
    exact ⟨hl ▸ List.length_pos_iff.mpr hw, hword i hl.symm hcode.symm⟩
  refine ⟨hsome k, ?_⟩
  rintro ⟨h0, rfl⟩
  cases hj : symbolWith (codeword t.len k).length (natOfBits (codeword t.len k)) 0 (t.len.zip t.code) with
  | none =>
    refine absurd (h.mem_zip.mpr ⟨k, h.length_eq ▸ lt_length_of_getD_pos h0, ?_⟩) (not_mem_of_symbolWith_eq_none hj)
    rw [codeword_length, natOfBits_codeword h]
  | some j =>
    obtain ⟨hj0, hjw⟩ := hsome j hj
    rw [codeword_unique h.complete hj0 h0 (hjw ▸ List.prefix_refl _) (List.prefix_refl (codeword t.len k))]

/-- One more bit of a candidate. -/
theorem candidate_concat (w : List Bool) (x : Bool) :
    w.length + 1 = (w ++ [x]).length ∧ 2 * natOfBits w + x.toNat = natOfBits (w ++ [x]) :=
  ⟨by simp, (natOfBits_concat w x).symm⟩

/-- From a candidate that begins a symbol's code word the match reaches the symbol. -/
theorem matchFrom_of_codeword {t : HufTable} (h : t.legal) {b budget fuel q k : Nat} {w bs : List Bool}
    (h0 : 0 < t.len.getD k 0) (hpre : codeword t.len k <+: w ++ bs) (hlt : w.length < t.len.getD k 0)
    (hfuel : t.len.getD k 0 ≤ w.length + fuel) (hin : ∀ i, i < bs.length → bitInside budget (q + i) = true) :
    matchFrom t b budget fuel w.length (natOfBits w) q bs =
      .ok (k, q + (t.len.getD k 0 - w.length), bs.drop (t.len.getD k 0 - w.length)) := by
  induction fuel generalizing w bs q with
  | zero => omega
  | succ fuel ih =>
    cases bs with
    | nil =>
      have := hpre.length_le
      rw [codeword_length, List.append_nil] at this
      omega
    | cons x bs =>
      have hpre' : codeword t.len k <+: (w ++ [x]) ++ bs := by simpa using hpre
      have hq : bitInside budget q = true := hin 0 (by simp)
      rw [matchFrom, if_neg (by simp [hq]), (candidate_concat w x).1, (candidate_concat w x).2]
      by_cases hlast : t.len.getD k 0 = (w ++ [x]).length
      · have hword : codeword t.len k = w ++ [x] := by
          rw [List.prefix_iff_eq_take.mp hpre', codeword_length, hlast, List.take_left']
          rfl
        rw [(symbolWith_eq_some_iff h (by simp)).mpr ⟨h0, hword⟩]
        rw [hlast, List.length_append, List.length_singleton, Nat.add_sub_cancel_left]
        rfl
      · have hnone : symbolWith (w ++ [x]).length (natOfBits (w ++ [x])) 0 (t.len.zip t.code) = none := by
          refine Option.eq_none_iff_forall_ne_some.mpr fun j hj => ?_
          obtain ⟨hj0, hjw⟩ := (symbolWith_eq_some_iff h (by simp)).mp hj
          have hjk := codeword_unique h.complete hj0 h0 (hjw ▸ List.prefix_append (w ++ [x]) bs) hpre'
          rw [← hjk, ← codeword_length, hjw] at hlast
          exact hlast rfl
        have hlen : (w ++ [x]).length = w.length + 1 := by simp
        rw [hnone]
        refine (ih hpre' (by omega) (by omega) fun i hi => ?_).trans ?_
        · rw [Nat.add_assoc, Nat.add_comm 1]
          exact hin (i + 1) (by simpa using hi)
        · rw [hlen, show t.len.getD k 0 - w.length = t.len.getD k 0 - (w.length + 1) + 1 by omega, List.drop_succ_cons]
          congr 3
          omega

/-- From a candidate that no code word continues the match fails. -/
theorem matchFrom_of_no_codeword {t : HufTable} (h : t.legal) {b budget fuel q : Nat} {w bs : List Bool}
    (hnone : ∀ k, 0 < t.len.getD k 0 → ¬ codeword t.len k <+: w ++ bs) :
    matchFrom t b budget fuel w.length (natOfBits w) q bs = .error .failed := by
  induction fuel generalizing w bs q with
  | zero => rfl
  | succ fuel ih =>
    cases bs with
    | nil => rfl
    | cons x bs =>
      have hnone' : ∀ k, 0 < t.len.getD k 0 → ¬ codeword t.len k <+: (w ++ [x]) ++ bs := by simpa using hnone
      rw [matchFrom]
      split
      · rfl
      · rw [(candidate_concat w x).1, (candidate_concat w x).2]
        cases hj : symbolWith (w ++ [x]).length (natOfBits (w ++ [x])) 0 (t.len.zip t.code) with
        | none => exact ih hnone'
        | some j =>
          obtain ⟨hj0, hjw⟩ := (symbolWith_eq_some_iff h (by simp)).mp hj
          exact absurd (hjw ▸ List.prefix_append (w ++ [x]) bs) (hnone' j hj0)

theorem decodeOnePrefix_of_codeword {t : HufTable} (h : t.legal) {budget pos k : Nat} {bs : List Bool}
    (hlook : lookaheadInside budget (lutWidth t.len) pos = true) (hbs : StreamAt budget pos bs) (h0 : 0 < t.len.getD k 0)
    (hpre : codeword t.len k <+: bs) :
    decodeOnePrefix t budget pos bs = .ok (k, pos + t.len.getD k 0, bs.drop (t.len.getD k 0)) :=
  (if_pos hlook).trans (matchFrom_of_codeword (w := []) h h0 hpre h0
    (by rw [List.length_nil, Nat.zero_add]; exact getD_le_maxLen t.len k) hbs.inside)

theorem decodeOnePrefix_of_no_codeword {t : HufTable} (h : t.legal) {budget pos : Nat} {bs : List Bool}
    (hnone : ∀ k, 0 < t.len.getD k 0 → ¬ codeword t.len k <+: bs) : decodeOnePrefix t budget pos bs = .error .failed := by
  unfold decodeOnePrefix
  split
  · exact matchFrom_of_no_codeword (w := []) h hnone
  · rfl

/-- Settles O51: both steps find the symbol whose code word begins the bits, or fail where there is none. -/
theorem decodeStepsAgree : Obligations.DecodeStepsAgree := by
  intro t bytes pos h
  have hbs := streamAt_drop bytes pos
  by_cases hlook : lookaheadInside bytes.length (lutWidth t.len) pos = true
  · by_cases hcode : ∃ k, 0 < t.len.getD k 0 ∧ codeword t.len k <+: (streamBits bytes).drop pos
    · obtain ⟨k, h0, hpre⟩ := hcode
      rw [decodeOne_of_codeword h hlook hbs h0 hpre, decodeOnePrefix_of_codeword h hlook hbs h0 hpre]
    · have hnone : ∀ k, 0 < t.len.getD k 0 → ¬ codeword t.len k <+: (streamBits bytes).drop pos :=
        fun k h0 hpre => hcode ⟨k, h0, hpre⟩
      rw [decodeOne_of_no_codeword h hbs hnone, decodeOnePrefix_of_no_codeword h hnone]
  · exact (decodeOne_of_outside hlook).trans (if_neg hlook).symm

end Sys2Proof.Machine
end

/-! ## Messages and their code strings -/

section
namespace Sys2Proof.Machine

/-! Code strings (43_huffman R235). -/

theorem HufTable.legal.codeString_cons {t : HufTable} (h : t.legal) (k : Nat) (syms : List Nat) :
    codeString t (k :: syms) = codeword t.len k ++ codeString t syms := by
  rw [codeString, List.flatMap_cons, HufTable.lenOf, HufTable.codeOf, h.code_eq]
  rfl

theorem codeString_length (t : HufTable) (syms : List Nat) :
    (codeString t syms).length = (syms.map (fun k => t.len.getD k 0)).sum := by
  simp only [codeString, List.length_flatMap, bitsOf_length]
  rfl

/-- Of two messages of one length whose code strings both begin one bit string there is only one. -/
theorem codeString_unique {t : HufTable} (h : t.legal) {p q : List Nat} {bs : List Bool} (hlen : p.length = q.length)
    (hp : ∀ k ∈ p, t.hasCode k = true) (hq : ∀ k ∈ q, t.hasCode k = true) (hpb : codeString t p <+: bs)
    (hqb : codeString t q <+: bs) : p = q := by
  induction p generalizing q bs with
  | nil => exact (List.length_eq_zero_iff.mp hlen.symm).symm
  | cons j p ih =>
    cases q with
    | nil => cases hlen
    | cons k q =>
      obtain ⟨hj, hp'⟩ := List.forall_mem_cons.mp hp
      obtain ⟨hk, hq'⟩ := List.forall_mem_cons.mp hq
      rw [h.codeString_cons] at hpb hqb
      obtain rfl : j = k := codeword_unique h.complete (h.hasCode_iff.mp hj) (h.hasCode_iff.mp hk)
        ((List.prefix_append _ _).trans hpb) ((List.prefix_append _ _).trans hqb)
      obtain ⟨rest, rfl⟩ := (List.prefix_append _ _).trans hpb
      rw [List.prefix_append_right_inj] at hpb hqb
      rw [ih (by simpa using hlen) hp' hq' hpb hqb]

/-- A bit string long enough for `n` codes of the longest length begins with the code string of `n` symbols. -/
theorem exists_codeString_prefix {t : HufTable} (h : t.legal) {n : Nat} {bs : List Bool} (hbs : n * maxLen t.len ≤ bs.length) :
    ∃ syms, syms.length = n ∧ (∀ k ∈ syms, t.hasCode k = true) ∧ codeString t syms <+: bs := by
  induction n generalizing bs with
  | zero => exact ⟨[], rfl, by simp, List.nil_prefix⟩
  | succ n ih =>
    rw [Nat.succ_mul] at hbs
    obtain ⟨k, h0, rest, rfl⟩ := exists_codeword_prefix h.complete (bs := bs) (by omega)
    have hle := getD_le_maxLen t.len k
    rw [List.length_append, codeword_length] at hbs
    obtain ⟨syms, hlen, hsyms, hpre⟩ := ih (bs := rest) (by omega)
    refine ⟨k :: syms, by rw [List.length_cons, hlen], List.forall_mem_cons.mpr ⟨h.hasCode_iff.mpr h0, hsyms⟩, ?_⟩
    rw [h.codeString_cons, List.prefix_append_right_inj]
    exact hpre

theorem codeString_length_le (t : HufTable) (syms : List Nat) :
    (codeString t syms).length ≤ syms.length * maxLen t.len := by
  rw [codeString_length]
  refine (List.sum_le_card_nsmul _ (maxLen t.len) fun l hl => ?_).trans_eq (by simp)
  obtain ⟨k, -, rfl⟩ := List.mem_map.mp hl
  exact getD_le_maxLen t.len k

/-! The words of a message (30_encoding R106). -/

theorem hufStreamBytes_eq (bits : Nat) : hufStreamBytes bits = 4 * ((bits + 31) / 32 + 1) := rfl

theorem hufStream_length (t : HufTable) (syms : List Nat) :
    (hufStream t syms).length = hufStreamBytes (codeString t syms).length := by
  rw [hufStream, List.length_append, stuffedBytes_length, leBytes_length, hufStreamBytes_eq]
  omega

theorem streamBits_prefix {p q : List Byte} (h : p <+: q) : streamBits p <+: streamBits q := by
  match p with
  | [] | [_] | [_, _] | [_, _, _] => simp [streamBits]
  | b0 :: b1 :: b2 :: b3 :: t =>
    obtain ⟨r, rfl⟩ := h
    simp only [List.cons_append, streamBits_cons]
    rw [List.prefix_append_right_inj]
    exact streamBits_prefix (List.prefix_append t r)

theorem codeString_prefix_streamBits (t : HufTable) (syms : List Nat) :
    codeString t syms <+: streamBits (hufStream t syms) := by
  refine List.IsPrefix.trans ?_ (streamBits_prefix (List.prefix_append _ _))
  rw [streamBits_stuffedBytes]
  exact List.prefix_append _ _

theorem getD_streamBits_stuffedBytes (bs : List Bool) (p : Nat) : (streamBits (stuffedBytes bs)).getD p false = bs.getD p false := by
  rw [streamBits_stuffedBytes]
  by_cases hp : p < bs.length
  · exact List.getD_append _ _ _ _ hp
  · rw [List.getD_append_right _ _ _ _ (not_lt.mp hp), List.getD_eq_default _ _ (not_lt.mp hp), List.getD_eq_getElem?_getD,
      List.getElem?_replicate]
    split <;> rfl

/-! The symbols a stream decodes to (43_huffman R242). -/

/-- Before the last bit of a message whose words and one more lie inside the budget the look-ahead does too. -/
theorem lookaheadInside_of_lt {budget b pos last : Nat} (hb : b ≤ 32) (hpos : pos < last) (hlast : hufStreamBytes last ≤ budget) :
    lookaheadInside budget b pos = true := by
  rw [hufStreamBytes_eq] at hlast
  rw [lookaheadInside, bitInside, Bool.and_eq_true, Bool.or_eq_true, decide_eq_true_eq, decide_eq_true_eq, decide_eq_true_eq]
  omega

theorem decodeSymbols_of_codeString {t : HufTable} (h : t.legal) {bytes : List Byte} {syms : List Nat} {pos : Nat}
    (hsyms : ∀ k ∈ syms, t.hasCode k = true) (hpre : codeString t syms <+: (streamBits bytes).drop pos)
    (hroom : hufStreamBytes (pos + (codeString t syms).length) ≤ bytes.length) :
    decodeSymbols (buildDecoder t) bytes.length syms.length pos ((streamBits bytes).drop pos) =
      .ok (syms, pos + (codeString t syms).length) := by
  induction syms generalizing pos with
  | nil => rfl
  | cons k syms ih =>
    obtain ⟨hk, hsyms⟩ := List.forall_mem_cons.mp hsyms
    have h0 := h.hasCode_iff.mp hk
    rw [h.codeString_cons] at hpre hroom ⊢
    have htotal : pos + (codeword t.len k ++ codeString t syms).length =
        pos + t.len.getD k 0 + (codeString t syms).length := by
      rw [List.length_append, codeword_length, Nat.add_assoc]
    have hlook : lookaheadInside bytes.length (lutWidth t.len) pos = true :=
      lookaheadInside_of_lt (by have := lutWidth_le t.len; omega) (by omega) hroom
    have hrest : codeString t syms <+: (streamBits bytes).drop (pos + t.len.getD k 0) := by
      have := hpre.drop (t.len.getD k 0)
      rwa [List.drop_left' (codeword_length t.len k), List.drop_drop] at this
    rw [List.length_cons, decodeSymbols,
      decodeOne_of_codeword h hlook (streamAt_drop bytes pos) h0 ((List.prefix_append _ _).trans hpre)]
    simp only [List.drop_drop]
    rw [ih hsyms hrest (htotal ▸ hroom), htotal]

/-- A decode step that succeeds has found the code word that begins the bits. -/
theorem codeword_of_decodeOne {t : HufTable} (h : t.legal) {bytes : List Byte} {pos pos' k : Nat} {rest : List Bool}
    (hd : decodeOne (buildDecoder t) bytes.length pos ((streamBits bytes).drop pos) = .ok (k, pos', rest)) :
    0 < t.len.getD k 0 ∧ codeword t.len k <+: (streamBits bytes).drop pos ∧ pos' = pos + t.len.getD k 0 ∧
      rest = (streamBits bytes).drop pos' := by
  by_cases hlook : lookaheadInside bytes.length (lutWidth t.len) pos = true
  · by_cases hcode : ∃ k, 0 < t.len.getD k 0 ∧ codeword t.len k <+: (streamBits bytes).drop pos
    · obtain ⟨k, h0, hpre⟩ := hcode
      rw [decodeOne_of_codeword h hlook (streamAt_drop bytes pos) h0 hpre, List.drop_drop] at hd
      cases hd
      exact ⟨h0, hpre, rfl, rfl⟩
    · rw [decodeOne_of_no_codeword h (streamAt_drop bytes pos) fun k h0 hpre => hcode ⟨k, h0, hpre⟩] at hd
      cases hd
  · rw [decodeOne_of_outside hlook] at hd
    cases hd

theorem codeString_of_decodeSymbols {t : HufTable} (h : t.legal) {bytes : List Byte} {n pos last : Nat} {syms : List Nat}
    (hd : decodeSymbols (buildDecoder t) bytes.length n pos ((streamBits bytes).drop pos) = .ok (syms, last)) :
    (∀ k ∈ syms, t.hasCode k = true) ∧ codeString t syms <+: (streamBits bytes).drop pos ∧
      last = pos + (codeString t syms).length := by
  induction n generalizing pos syms with
  | zero =>
    cases hd
    exact ⟨by simp, List.nil_prefix, rfl⟩
  | succ n ih =>
    rw [decodeSymbols] at hd
    split at hd
    · cases hd
    rename_i k pos' bs' hone
    obtain ⟨h0, hpre, rfl, rfl⟩ := codeword_of_decodeOne h hone
    split at hd
    · cases hd
    rename_i ks last' htail
    cases hd
    obtain ⟨hks, hrest, rfl⟩ := ih htail
    obtain ⟨rest, hrest'⟩ := hpre
    rw [← List.drop_drop, ← hrest', List.drop_left' (codeword_length t.len k)] at hrest
    refine ⟨List.forall_mem_cons.mpr ⟨h.hasCode_iff.mpr h0, hks⟩, ?_, ?_⟩
    · rw [h.codeString_cons, ← hrest', List.prefix_append_right_inj]
      exact hrest
    · rw [h.codeString_cons, List.length_append, codeword_length, Nat.add_assoc]

end Sys2Proof.Machine
end

/-! ## The obligations of HUF.ENCODE and HUF.DECODE -/

section
namespace Sys2Proof.Machine

/-! HUF.ENCODE (43_huffman R237). -/

theorem exec_hufEncode_of_not_valid {s : State} (hw : WindowsPass .hufEncode s) (h : s.ht.valid = false) :
    exec .hufEncode s = .next (s.finish .failed 0 0) := by
  change execHufEncode s = _
  exact (perform_of_windowsOk _ _ hw).trans (by rw [h]; rfl)

theorem exec_hufEncode_of_no_code {s : State} (hw : WindowsPass .hufEncode s) (h : s.ht.valid = true)
    (hk : ∃ k ∈ sourceArray s, s.ht.hasCode k = false) : exec .hufEncode s = .next (s.finish .failed 0 0) := by
  change execHufEncode s = _
  refine (perform_of_windowsOk _ _ hw).trans ?_
  rw [h, if_neg (by simp), if_pos (by simpa using hk)]
  rfl

theorem hufEncode_encodesTo {s : State} (hw : WindowsPass .hufEncode s) (h : s.ht.valid = true)
    (hk : ∀ k ∈ sourceArray s, s.ht.hasCode k = true) : EncodesTo .hufEncode s (hufStream s.ht (sourceArray s)) 0 := by
  refine encodesTo_of_storeOutput (onFailed := id) ?_
  change execHufEncode s = _
  refine (perform_of_windowsOk _ _ hw).trans ?_
  rw [h, if_neg (by simp), if_neg (by simpa using hk)]

theorem hasCode_eq_true_iff (t : HufTable) (k : Nat) : t.hasCode k = true ↔ k < t.size ∧ t.len.getD k 0 ≠ 0 := by
  rw [HufTable.hasCode, Bool.and_eq_true, decide_eq_true_eq, decide_eq_true_eq, HufTable.lenOf]

theorem hasCode_eq_false_iff (t : HufTable) (k : Nat) : t.hasCode k = false ↔ t.size ≤ k ∨ t.len.getD k 0 = 0 := by
  rw [← Bool.not_eq_true, hasCode_eq_true_iff]
  omega

/-- Settles O52. -/
theorem hufEncodeOutcome : Obligations.HufEncodeOutcome := by
  refine ⟨fun s hw => ⟨exec_hufEncode_of_not_valid hw, fun hv hk => ?_, fun hv hk => ⟨?_, ?_⟩⟩,
    fun t syms => getD_streamBits_stuffedBytes _, fun t k syms => ⟨rfl, ?_⟩⟩
  · obtain ⟨k, hmem, hno⟩ := hk
    exact exec_hufEncode_of_no_code hw hv ⟨k, hmem, (hasCode_eq_false_iff _ k).mpr hno⟩
  · exact hufEncode_encodesTo hw hv fun k hmem => (hasCode_eq_true_iff _ k).mpr (hk k hmem)
  · rw [stuffedBytes_length, codeString_length]
  · rw [codeString, List.flatMap_cons, bitsOf_eq_map]
    rfl

/-! HUF.DECODE (43_huffman R242). -/

theorem exec_hufDecode_of_not_valid {s : State} (hw : WindowsPass .hufDecode s) (h : s.hd.valid = false) :
    exec .hufDecode s = .next ((scrambleOutput .hufDecode s).finish .failed 0 0) := by
  change execHufDecode s = _
  exact (perform_of_windowsOk _ _ hw).trans (by rw [h]; rfl)

theorem exec_hufDecode_of_ok {s : State} (hw : WindowsPass .hufDecode s) (h : s.hd.valid = true) {syms : List Nat} {pos : Nat}
    (hd : decodeSymbols s.hd s.a1 s.a3 0 (streamBits (s.mem.readBytes s.a0 s.a1)) = .ok (syms, pos))
    (hroom : hufStreamBytes pos ≤ s.a1) :
    exec .hufDecode s = .next ((s.store s.a2 (u32Bytes syms)).finish .ok s.a3 (hufStreamBytes pos)) := by
  change execHufDecode s = _
  refine (perform_of_windowsOk _ _ hw).trans ?_
  simp only [h, hd, if_neg (not_lt.mpr hroom)]
  rfl

theorem exec_hufDecode_of_failed {s : State} (hw : WindowsPass .hufDecode s) (h : s.hd.valid = true)
    (hd : ∀ syms pos, decodeSymbols s.hd s.a1 s.a3 0 (streamBits (s.mem.readBytes s.a0 s.a1)) = .ok (syms, pos) →
      s.a1 < hufStreamBytes pos) :
    exec .hufDecode s = .next ((scrambleOutput .hufDecode s).finish .failed 0 0) := by
  change execHufDecode s = _
  refine (perform_of_windowsOk _ _ hw).trans ?_
  cases hr : decodeSymbols s.hd s.a1 s.a3 0 (streamBits (s.mem.readBytes s.a0 s.a1)) with
  | error e =>
    obtain rfl := eq_failed_of_decodeSymbols hr
    simp only [h]
    rfl
  | ok r =>
    obtain ⟨syms, pos⟩ := r
    simp only [h, if_pos (hd syms pos hr)]
    rfl

theorem decoderFailed_hufDecode {s : State} (h : exec .hufDecode s = .next ((scrambleOutput .hufDecode s).finish .failed 0 0)) :
    DecoderFailed .hufDecode s s.a2 (4 * s.a3) :=
  decoderFailed_of_scrambleOutput h fun _ => eq_wwin_of_mem_windows_hufDecode

/-- A message in the source whose words and one more lie inside the budget. -/
structure MessageFits (s : State) (syms : List Nat) : Prop where
  length : syms.length = s.a3
  hasCode : ∀ k ∈ syms, s.ht.hasCode k = true
  bits : codeString s.ht syms <+: streamBits (s.mem.readBytes s.a0 s.a1)
  room : hufStreamBytes (codeString s.ht syms).length ≤ s.a1

theorem exec_hufDecode_of_messageFits {s : State} (hw : WindowsPass .hufDecode s) (h : s.ht.legal)
    (hd : s.hd = buildDecoder s.ht) {syms : List Nat} (hm : MessageFits s syms) :
    ∃ t, exec .hufDecode s = .next t ∧
      Stored s t s.a2 (u32Bytes syms) s.a3 (hufStreamBytes (codeString s.ht syms).length) := by
  obtain ⟨hlen, hcode, hbits, hroom⟩ := hm
  have hdec := decodeSymbols_of_codeString h (bytes := s.mem.readBytes s.a0 s.a1) (pos := 0) hcode hbits
    (by rwa [Nat.zero_add, Memory.readBytes_length])
  rw [Memory.readBytes_length, hlen, Nat.zero_add, List.drop_zero, ← hd] at hdec
  exact ⟨_, exec_hufDecode_of_ok hw (by rw [hd]; rfl) hdec hroom, stored_finish_store s s.a2 _ _ _⟩

theorem decoderFailed_of_no_message {s : State} (hw : WindowsPass .hufDecode s) (h : s.ht.legal) (hd : s.hd = buildDecoder s.ht)
    (hnone : ∀ syms, ¬ MessageFits s syms) : DecoderFailed .hufDecode s s.a2 (4 * s.a3) := by
  refine decoderFailed_hufDecode (exec_hufDecode_of_failed hw (by rw [hd]; rfl) fun syms pos hdec => ?_)
  have hlen := decodeSymbols_length hdec
  have hmsg := codeString_of_decodeSymbols h (bytes := s.mem.readBytes s.a0 s.a1) (n := s.a3) (pos := 0)
    (by rw [Memory.readBytes_length, List.drop_zero, ← hd]; exact hdec)
  obtain ⟨hcode, hbits, rfl⟩ := hmsg
  rw [Nat.zero_add]
  by_contra hroom
  exact hnone syms ⟨hlen, hcode, hbits, not_lt.mp hroom⟩

/-- Settles O53. -/
theorem hufDecodeOutcome : Obligations.HufDecodeOutcome := by
  refine fun s hw => ⟨fun hv => decoderFailed_hufDecode (exec_hufDecode_of_not_valid hw hv), fun h hd => ⟨?_, ?_, fun hroom => ?_⟩⟩
  · exact fun syms hlen hcode hbits hroom => exec_hufDecode_of_messageFits hw h hd ⟨hlen, hcode, hbits, hroom⟩
  · exact fun hnone => decoderFailed_of_no_message hw h hd fun syms hm => hnone ⟨syms, hm.length, hm.hasCode, hm.bits, hm.room⟩
  · have hbits : s.a3 * maxLen s.ht.len ≤ (streamBits (s.mem.readBytes s.a0 s.a1)).length := by
      rw [hufStreamBytes_eq] at hroom
      rw [streamBits_length_eq, Memory.readBytes_length]
      omega
    obtain ⟨syms, hlen, hcode, hpre⟩ := exists_codeString_prefix h hbits
    have hle := codeString_length_le s.ht syms
    rw [hlen] at hle
    have hfits : hufStreamBytes (codeString s.ht syms).length ≤ s.a1 := by
      rw [hufStreamBytes_eq] at hroom ⊢
      omega
    obtain ⟨t, ht, ⟨hok, -⟩, -⟩ := exec_hufDecode_of_messageFits hw h hd ⟨hlen, hcode, hpre, hfits⟩
    exact ⟨t, ht, hok⟩

/-! The law of R245. -/

theorem Memory.readBytes_add (m : Memory) (a n k : Nat) : m.readBytes a (n + k) = m.readBytes a n ++ m.readBytes (a + n) k := by
  induction n generalizing a with
  | zero => simp [Memory.readBytes]
  | succ n ih =>
    rw [Nat.succ_add, Memory.readBytes, ih, Memory.readBytes, List.cons_append]
    congr 3
    omega

theorem Memory.readBytes_prefix (m : Memory) (a : Nat) {n k : Nat} (h : n ≤ k) : m.readBytes a n <+: m.readBytes a k := by
  obtain ⟨d, rfl⟩ := Nat.exists_eq_add_of_le h
  rw [Memory.readBytes_add]
  exact List.prefix_append _ _

/-- Settles O54: the words hold the code string, and no other message of the same number of symbols has one there. -/
theorem huffmanRoundTrip : Obligations.HuffmanRoundTrip := by
  intro s syms h hd hlen hcode hsrc hw
  have hread := hsrc.readBytes
  rw [hufStream_length] at hread ⊢
  refine ⟨fun hroom => ?_, fun hshort => ?_⟩
  · have hbits : codeString s.ht syms <+: streamBits (s.mem.readBytes s.a0 s.a1) :=
      (hread ▸ codeString_prefix_streamBits s.ht syms).trans (streamBits_prefix (s.mem.readBytes_prefix s.a0 hroom))
    rw [hlen]
    exact exec_hufDecode_of_messageFits hw h hd ⟨hlen, hcode, hbits, hroom⟩
  · refine decoderFailed_of_no_message hw h hd fun other hm => ?_
    have hbits : codeString s.ht other <+: streamBits (hufStream s.ht syms) :=
      hread ▸ hm.bits.trans (streamBits_prefix (s.mem.readBytes_prefix s.a0 hshort.le))
    obtain rfl := codeString_unique h (hm.length.trans hlen.symm) hm.hasCode hcode hbits (codeString_prefix_streamBits s.ht syms)
    exact absurd hm.room (not_le.mpr hshort)

end Sys2Proof.Machine
end

/-! ## The obligations of HUF.WRTABLE and HUF.SIZE -/

section
namespace Sys2Proof.Machine

/-! The bytes of a table (30_encoding R104; 43_huffman R226). -/

/-- The lengths of the written range. -/
def writtenLengths (t : HufTable) : List Nat :=
  (List.range ((hufRange t.len).2 - (hufRange t.len).1)).map (fun j => t.lenOf (wrapIndex t.size ((hufRange t.len).1 + j)))

theorem hufTableBytes_eq (t : HufTable) :
    hufTableBytes t = leBytes 4 t.size ++ leBytes 4 (hufRange t.len).1 ++ leBytes 4 (hufRange t.len).2
      ++ simpleBlock (writtenLengths t) := by
  rw [← i32Bytes_natCast, ← i32Bytes_natCast, ← i32Bytes_natCast]
  rfl

/-! HUF.WRTABLE (43_huffman R227). -/

theorem exec_hufWrTable_of_not_valid {s : State} (hw : WindowsPass .hufWrTable s) (h : s.ht.valid = false) :
    exec .hufWrTable s = .next (s.finish .failed 0 0) := by
  change execHufWrTable s = _
  exact (perform_of_windowsOk _ _ hw).trans (by rw [h]; rfl)

theorem hufWrTable_encodesTo {s : State} (hw : WindowsPass .hufWrTable s) (h : s.ht.valid = true) :
    EncodesTo .hufWrTable s (hufTableBytes s.ht) 0 := by
  refine encodesTo_of_storeOutput (onFailed := id) ?_
  change execHufWrTable s = _
  exact (perform_of_windowsOk _ _ hw).trans (by rw [h, if_neg (by simp)])

/-! HUF.SIZE (43_huffman R229). -/

theorem exec_hufSize_of_not_valid {s : State} (hw : WindowsPass .hufSize s) (h : s.ht.valid = false) :
    exec .hufSize s = .next (s.finish .failed 0 0) := by
  change execHufSize s = _
  exact (perform_of_windowsOk _ _ hw).trans (by rw [h]; rfl)

theorem exec_hufSize_of_size_ne {s : State} (hw : WindowsPass .hufSize s) (h : s.ht.valid = true) (hsize : s.a1 ≠ s.ht.size) :
    exec .hufSize s = .next (s.finish .wrongParam 0 0) := by
  change execHufSize s = _
  exact (perform_of_windowsOk _ _ hw).trans (by rw [h, if_neg (by simp), if_pos hsize]; rfl)

/-- A bin in use whose symbol has no code. -/
theorem uses_no_code_iff {hist len : List Nat} {n : Nat} (hhist : hist.length = n) (hlen : len.length = n) :
    (hist.zip len).any (fun p => decide (0 < p.1) && decide (p.2 = 0)) = true ↔
      ∃ k, k < n ∧ 0 < hist.getD k 0 ∧ len.getD k 0 = 0 := by
  simp only [List.any_eq_true, List.mem_iff_getElem, List.length_zip, hhist, hlen, min_self, Bool.and_eq_true, decide_eq_true_eq]
  constructor
  · rintro ⟨p, ⟨k, hk, rfl⟩, hpos, hzero⟩
    rw [List.getElem_zip] at hpos hzero
    exact ⟨k, hk, by rwa [List.getD_eq_getElem _ _ (hhist ▸ hk)], by rwa [List.getD_eq_getElem _ _ (hlen ▸ hk)]⟩
  · rintro ⟨k, hk, hpos, hzero⟩
    rw [List.getD_eq_getElem _ _ (hhist ▸ hk)] at hpos
    rw [List.getD_eq_getElem _ _ (hlen ▸ hk)] at hzero
    exact ⟨_, ⟨k, hk, List.getElem_zip⟩, hpos, hzero⟩

theorem messageBits_eq_sum {hist len : List Nat} {n : Nat} (hhist : hist.length = n) (hlen : len.length = n) :
    messageBits hist len = ((List.range n).map (fun k => hist.getD k 0 * len.getD k 0)).sum := by
  rw [messageBits]
  congr 1
  refine List.ext_getElem (by simp [hhist, hlen]) fun k hk hk' => ?_
  have hkn : k < n := by simpa using hk'
  have hkh : k < hist.length := hhist ▸ hkn
  have hkl : k < len.length := hlen ▸ hkn
  simp [hkh, hkl]

theorem exec_hufSize_of_no_code {s : State} (hw : WindowsPass .hufSize s) (h : s.ht.valid = true) (hsize : s.a1 = s.ht.size)
    (hlen : s.ht.len.length = s.ht.size) (hk : ∃ k, k < s.ht.size ∧ 0 < (sourceArray s).getD k 0 ∧ s.ht.len.getD k 0 = 0) :
    exec .hufSize s = .next (s.finish .failed 0 0) := by
  change execHufSize s = _
  refine (perform_of_windowsOk _ _ hw).trans ?_
  rw [h, if_neg (by simp), if_neg (by simp [hsize]),
    if_pos ((uses_no_code_iff ((sourceArray_length s).trans hsize) hlen).mpr hk)]
  rfl

/-- The size of table and stream, or `Failed` where 32 bits do not hold it. -/
theorem exec_hufSize_of_codes {s : State} (hw : WindowsPass .hufSize s) (h : s.ht.valid = true) (hsize : s.a1 = s.ht.size)
    (hlen : s.ht.len.length = s.ht.size) (hk : ∀ k, k < s.ht.size → 0 < (sourceArray s).getD k 0 → s.ht.len.getD k 0 ≠ 0)
    {total : Nat} (htotal : total = (hufTableBytes s.ht).length +
      hufStreamBytes ((List.range s.ht.size).map (fun k => (sourceArray s).getD k 0 * s.ht.len.getD k 0)).sum) :
    exec .hufSize s = .next (if 4294967296 ≤ total then s.finish .failed 0 0
      else s.finish .ok total (hufTableBytes s.ht).length) := by
  have hsrc := (sourceArray_length s).trans hsize
  have hcodes : ¬ ∃ k, k < s.ht.size ∧ 0 < (sourceArray s).getD k 0 ∧ s.ht.len.getD k 0 = 0 :=
    fun ⟨k, hkn, hpos, hzero⟩ => hk k hkn hpos hzero
  change execHufSize s = _
  refine (perform_of_windowsOk _ _ hw).trans ?_
  rw [h, if_neg (by simp), if_neg (by simp [hsize]), if_neg (mt (uses_no_code_iff hsrc hlen).mp hcodes),
    messageBits_eq_sum hsrc hlen, ← htotal]
  split <;> rfl

/-- Settles O46. -/
theorem hufWrTableAndSizeOutcome : Obligations.HufWrTableAndSizeOutcome := by
  refine ⟨fun t lens hlens => ?_, fun s => ⟨fun hw => ⟨exec_hufWrTable_of_not_valid hw, hufWrTable_encodesTo hw⟩,
    fun hw => ⟨exec_hufSize_of_not_valid hw, exec_hufSize_of_size_ne hw, fun hv hsize hlen =>
      ⟨exec_hufSize_of_no_code hw hv hsize hlen, fun hk total htotal => exec_hufSize_of_codes hw hv hsize hlen hk htotal⟩⟩⟩⟩
  obtain rfl : lens = writtenLengths t := hlens
  refine ⟨_, bitlen_maxElem_le_iff.mp le_rfl, fun c => lt_bitlen_maxElem_iff.mp, ?_⟩
  rw [hufTableBytes_eq, simpleBlock, ← List.append_assoc, ← List.append_assoc]
  rfl

/-! The size of a message (43_huffman R245). -/

/-- The code bits of a message, counted symbol by symbol of its histogram. -/
theorem sum_histogramOf {size : Nat} {syms : List Nat} (hsyms : ∀ k ∈ syms, k < size) (f : Nat → Nat) :
    ((List.range size).map (fun k => (histogramOf size syms).getD k 0 * f k)).sum = (syms.map f).sum := by
  have hcount : (List.range size).map (fun k => (histogramOf size syms).getD k 0 * f k) =
      (List.range size).map (fun k => syms.count k * f k) := by
    refine List.map_congr_left fun k hk => ?_
    rw [histogramOf, List.getD_eq_getElem?_getD, List.getElem?_map, List.getElem?_range (List.mem_range.mp hk)]
    rfl
  rw [hcount, ← List.sum_toFinset _ List.nodup_range, List.toFinset_range, Finset.sum_list_map_count]
  refine (Finset.sum_subset (fun k hk => Finset.mem_range.mpr (hsyms k (List.mem_toFinset.mp hk))) fun k _ hk => ?_).symm
  rw [List.count_eq_zero_of_not_mem (mt List.mem_toFinset.mpr hk), Nat.zero_mul]

/-- Settles O55. -/
theorem hufSizePredictsTheBytes : Obligations.HufSizePredictsTheBytes := by
  intro s syms h hw hsize hcode hsrc hfits
  have hlt : ∀ k ∈ syms, k < s.ht.size := fun k hk => ((hasCode_eq_true_iff _ _).mp (hcode k hk)).1
  have hbits := sum_histogramOf hlt (fun k => s.ht.len.getD k 0)
  rw [← hsrc] at hbits
  have hused : ∀ k, k < s.ht.size → 0 < (sourceArray s).getD k 0 → s.ht.len.getD k 0 ≠ 0 := by
    intro k hk hpos
    rw [sourceArray, hsrc, histogramOf, List.getD_eq_getElem?_getD, List.getElem?_map, List.getElem?_range hk] at hpos
    exact ((hasCode_eq_true_iff _ _).mp (hcode k (List.count_pos_iff.mp hpos))).2
  have hstream := hufStream_length s.ht syms
  rw [codeString_length, ← hbits] at hstream
  rw [exec_hufSize_of_codes hw h.1 hsize h.length_eq hused (congrArg ((hufTableBytes s.ht).length + ·) hstream),
    if_neg (not_le.mpr hfits)]

end Sys2Proof.Machine
end

/-! ## The range of written lengths -/

section
namespace Sys2Proof.Machine

/-! The first and the last symbol in use (43_huffman R225). -/

theorem firstUsed_eq {len : List Nat} {k m : Nat} (hzero : ∀ i, i < m → len.getD i 0 = 0) (hm : len.getD m 0 ≠ 0) :
    firstUsed k len = k + m := by
  induction len generalizing k m with
  | nil => simp at hm
  | cons l t ih =>
    unfold firstUsed
    cases m with
    | zero =>
      rw [if_neg (by simpa using hm)]
      rfl
    | succ m =>
      rw [if_pos (by simpa using hzero 0 (Nat.succ_pos m)),
        ih (fun i hi => by simpa using hzero (i + 1) (Nat.succ_lt_succ hi)) (by simpa using hm)]
      omega

theorem pastLastUsed_of_unused {len : List Nat} {k last : Nat} (hzero : ∀ i, len.getD i 0 = 0) : pastLastUsed k last len = last := by
  induction len generalizing k with
  | nil => rfl
  | cons l t ih =>
    rw [pastLastUsed, if_pos (by simpa using hzero 0)]
    exact ih fun i => by simpa using hzero (i + 1)

theorem pastLastUsed_eq {len : List Nat} {k m last : Nat} (hm : len.getD m 0 ≠ 0) (hzero : ∀ i, m < i → len.getD i 0 = 0) :
    pastLastUsed k last len = k + m + 1 := by
  induction len generalizing k m last with
  | nil => simp at hm
  | cons l t ih =>
    rw [pastLastUsed]
    cases m with
    | zero =>
      rw [if_neg (by simpa using hm)]
      exact pastLastUsed_of_unused fun i => by simpa using hzero (i + 1) (Nat.succ_pos i)
    | succ m =>
      rw [ih (by simpa using hm) fun i hi => by simpa using hzero (i + 1) (Nat.succ_lt_succ hi)]
      omega

/-! The first longest run of zeros (43_huffman R225). -/

/-- The `n` entries from `a` on are zeros. -/
abbrev ZeroRun (len : List Nat) (a n : Nat) : Prop := ∀ i, a ≤ i → i < a + n → len.getD i 0 = 0

/-- A run is the first longest run of zeros among the first `e` entries. -/
structure FirstLongestBelow (len : List Nat) (e : Nat) (run : Nat × Nat) : Prop where
  le : run.1 + run.2 ≤ e
  zero : ZeroRun len run.1 run.2
  first : ∀ j m, j + m ≤ e → ZeroRun len j m → m ≤ run.2 ∧ (m = run.2 → run.1 ≤ j)

/-- What the scan knows before entry `k`: the `n` entries before it are zeros that nothing to their left continues, and `best` is the
first longest run before those. -/
structure ScanInv (len : List Nat) (k start n : Nat) (best : Nat × Nat) : Prop where
  le : n ≤ k
  start_eq : n ≠ 0 → start = k - n
  zero : ZeroRun len (k - n) n
  left : 0 < k - n → len.getD (k - n - 1) 0 ≠ 0
  best : FirstLongestBelow len (k - n) best

/-- The scan's choice when the run before entry `k` is over. -/
theorem ScanInv.closed {len : List Nat} {k start n : Nat} {best : Nat × Nat} (h : ScanInv len k start n best) :
    FirstLongestBelow len k (if best.2 < n then (start, n) else best) := by
  obtain ⟨hn, hstart, hzero, hleft, hle, hbest, hfirst⟩ := h
  have hsplit : ∀ j m, j + m ≤ k → ZeroRun len j m → j + m ≤ k - n ∨ (k - n ≤ j ∧ m ≤ n) := by
    intro j m hjm hrun
    by_contra hcross
    exact hleft (by omega) (hrun (k - n - 1) (by omega) (by omega))
  split
  · rename_i hlt
    rw [hstart (by omega)]
    refine ⟨by dsimp only; omega, hzero, fun j m hjm hrun => ?_⟩
    obtain hbefore | hinside := hsplit j m hjm hrun
    · have := (hfirst j m hbefore hrun).1
      dsimp only
      omega
    · dsimp only
      omega
  · rename_i hge
    refine ⟨by omega, hbest, fun j m hjm hrun => ?_⟩
    obtain hbefore | hinside := hsplit j m hjm hrun
    · exact hfirst j m hbefore hrun
    · omega

theorem ScanInv.zero_next {len : List Nat} {k start n : Nat} {best : Nat × Nat} (h : ScanInv len k start n best)
    (hk : len.getD k 0 = 0) : ScanInv len (k + 1) (if n = 0 then k else start) (n + 1) best := by
  obtain ⟨hn, hstart, hzero, hleft, hbest⟩ := h
  have hsame : k + 1 - (n + 1) = k - n := by omega
  refine ⟨by omega, fun _ => ?_, ?_, ?_, ?_⟩
  · split <;> omega
  · rw [hsame]
    intro i hlo hhi
    by_cases hik : i = k
    · rwa [hik]
    · exact hzero i hlo (by omega)
  · rwa [hsame]
  · rwa [hsame]

theorem ScanInv.nonzero_next {len : List Nat} {k start n : Nat} {best : Nat × Nat} (h : ScanInv len k start n best)
    (hk : len.getD k 0 ≠ 0) : ScanInv len (k + 1) start 0 (if best.2 < n then (start, n) else best) := by
  obtain ⟨hle, hzero, hfirst⟩ := h.closed
  refine ⟨Nat.zero_le _, fun h0 => absurd rfl h0, fun i hlo hhi => by omega, fun _ => hk, by omega, hzero, fun j m hjm hrun => ?_⟩
  by_cases hend : j + m ≤ k
  · exact hfirst j m hend hrun
  · obtain rfl | hm := Nat.eq_zero_or_pos m
    · exact ⟨Nat.zero_le _, fun _ => by omega⟩
    · exact absurd (hrun k (by omega) (by omega)) hk

theorem longestZeroRun_spec {len rest : List Nat} {k start n : Nat} {best : Nat × Nat} (hrest : len.drop k = rest)
    (hk : k ≤ len.length) (h : ScanInv len k start n best) :
    FirstLongestBelow len len.length (longestZeroRun k start n best rest) := by
  induction rest generalizing k start n best with
  | nil =>
    obtain rfl : k = len.length := le_antisymm hk (List.drop_eq_nil_iff.mp hrest)
    exact h.closed
  | cons l t ih =>
    have hlt : k < len.length := by
      by_contra hge
      rw [List.drop_eq_nil_iff.mpr (not_lt.mp hge)] at hrest
      cases hrest
    rw [List.drop_eq_getElem_cons hlt] at hrest
    obtain ⟨hl, ht⟩ := List.cons.inj hrest
    rw [← List.getD_eq_getElem _ 0 hlt] at hl
    unfold longestZeroRun
    split
    · rename_i h0
      exact ih ht hlt (h.zero_next (hl.trans h0))
    · rename_i h0
      exact ih ht hlt (h.nonzero_next (hl ▸ h0))

theorem firstLongestZeroRun_longestZeroRun (len : List Nat) :
    FirstLongestZeroRun len (longestZeroRun 0 0 0 (0, 0) len).1 (longestZeroRun 0 0 0 (0, 0) len).2 := by
  have hstart : ScanInv len 0 0 0 (0, 0) :=
    ⟨le_rfl, fun h => absurd rfl h, fun i hlo hhi => by omega, fun h => absurd h (lt_irrefl 0), le_rfl,
      fun i hlo hhi => by omega, fun j m hjm _ => ⟨by dsimp only; omega, fun _ => Nat.zero_le j⟩⟩
  obtain ⟨hle, hzero, hfirst⟩ := longestZeroRun_spec List.drop_zero (Nat.zero_le _) hstart
  exact ⟨hle, hzero, hfirst⟩

theorem FirstLongestZeroRun.unique {len : List Nat} {j m k n : Nat} (hj : FirstLongestZeroRun len j m)
    (hk : FirstLongestZeroRun len k n) : j = k ∧ m = n := by
  obtain ⟨hjle, hjzero, hjfirst⟩ := hj
  obtain ⟨hkle, hkzero, hkfirst⟩ := hk
  obtain ⟨hmn, hkj⟩ := hkfirst j m hjle hjzero
  obtain ⟨hnm, hjk⟩ := hjfirst k n hkle hkzero
  omega

/-! The range (43_huffman R225). -/

/-- The symbols in use lie between `i0` and `i1`, both ends in use. -/
structure UsedBetween (len : List Nat) (i0 i1 : Nat) : Prop where
  lt : i0 < i1
  le : i1 ≤ len.length
  first : len.getD i0 0 ≠ 0
  before : ∀ i, i < i0 → len.getD i 0 = 0
  last : len.getD (i1 - 1) 0 ≠ 0
  after : ∀ i, i1 ≤ i → len.getD i 0 = 0

theorem hufRange_eq {len : List Nat} {i0 i1 k n : Nat} (h : UsedBetween len i0 i1) (hrun : FirstLongestZeroRun len k n) :
    hufRange len = if len.length - n < i1 - i0 then (k + n, k + len.length) else (i0, i1) := by
  obtain ⟨hlt, -, hfirst, hbefore, hlast, hafter⟩ := h
  have h0 : firstUsed 0 len = i0 := (firstUsed_eq hbefore hfirst).trans (Nat.zero_add i0)
  have h1 : pastLastUsed 0 0 len = i1 :=
    (pastLastUsed_eq hlast fun i hi => hafter i (by omega)).trans (by omega)
  obtain ⟨hk, hn⟩ := (firstLongestZeroRun_longestZeroRun len).unique hrun
  simp only [hufRange, h0, h1, hk, hn]

theorem exists_usedBetween {len : List Nat} (h : 1 ≤ usedSymbols len) : ∃ i0 i1, UsedBetween len i0 i1 := by
  classical
  obtain ⟨l, hl⟩ := List.exists_mem_of_length_pos h
  obtain ⟨hmem, hpos⟩ := List.mem_filter.mp hl
  obtain ⟨u, hu, rfl⟩ := List.mem_iff_getElem.mp hmem
  have hused : len.getD u 0 ≠ 0 := by
    rw [List.getD_eq_getElem _ _ hu]
    simpa [Nat.pos_iff_ne_zero] using hpos
  have hex : ∃ i, len.getD i 0 ≠ 0 := ⟨u, hused⟩
  have hpast : ∀ i, len.length ≤ i → len.getD i 0 = 0 := fun i hi => List.getD_eq_default _ _ hi
  have hend : ∃ e, ∀ i, e ≤ i → len.getD i 0 = 0 := ⟨len.length, hpast⟩
  have hafter := Nat.find_spec hend
  have hu1 : u < Nat.find hend := by
    by_contra hle
    exact hused (hafter u (not_lt.mp hle))
  have hlast : len.getD (Nat.find hend - 1) 0 ≠ 0 := by
    intro hz
    refine Nat.find_min hend (m := Nat.find hend - 1) (by omega) fun i hi => ?_
    by_cases hie : i = Nat.find hend - 1
    · rwa [hie]
    · exact hafter i (by omega)
  exact ⟨Nat.find hex, Nat.find hend, (Nat.find_min' hex hused).trans_lt hu1, Nat.find_min' hend hpast, Nat.find_spec hex,
    fun i hi => not_not.mp (Nat.find_min hex hi), hlast, hafter⟩

/-- A range of written lengths that names every symbol in use: what `HUF.WRTABLE` needs of it. -/
structure CoversUsed (len : List Nat) (r : Nat × Nat) : Prop where
  start : r.1 < len.length
  lt : r.1 < r.2
  le : r.2 ≤ r.1 + len.length
  first : len.getD (wrapIndex len.length r.1) 0 ≠ 0
  last : len.getD (wrapIndex len.length (r.2 - 1)) 0 ≠ 0
  covers : ∀ k, k < len.length → len.getD k 0 ≠ 0 → ∃ i, r.1 ≤ i ∧ i < r.2 ∧ wrapIndex len.length i = k

theorem wrapIndex_of_lt {size i : Nat} (h : i < size) : wrapIndex size i = i := if_pos h

theorem wrapIndex_of_le {size i : Nat} (h : size ≤ i) : wrapIndex size i = i - size := if_neg (not_lt.mpr h)

theorem UsedBetween.coversUsed {len : List Nat} {i0 i1 : Nat} (h : UsedBetween len i0 i1) : CoversUsed len (i0, i1) := by
  obtain ⟨hlt, hle, hfirst, hbefore, hlast, hafter⟩ := h
  refine ⟨by dsimp only; omega, hlt, by dsimp only; omega, ?_, ?_, fun k hk hused => ⟨k, ?_, ?_, wrapIndex_of_lt hk⟩⟩
  · rwa [wrapIndex_of_lt (by dsimp only; omega)]
  · rwa [wrapIndex_of_lt (by dsimp only; omega)]
  · by_contra hlo
    exact hused (hbefore k (not_le.mp hlo))
  · by_contra hhi
    exact hused (hafter k (not_lt.mp hhi))

/-- The range around the end: the longest run of zeros is then inside, between symbols in use. -/
theorem FirstLongestZeroRun.coversUsed {len : List Nat} {i0 i1 k n : Nat} (h : UsedBetween len i0 i1)
    (hrun : FirstLongestZeroRun len k n) (hshort : len.length - n < i1 - i0) : CoversUsed len (k + n, k + len.length) := by
  obtain ⟨hlt, hle, hfirst, hbefore, hlast, hafter⟩ := h
  obtain ⟨hkn, hzero, hlongest⟩ := hrun
  have hend : k + n < len.length := by
    by_contra hge
    exact hlast (hzero (i1 - 1) (by omega) (by omega))
  have hbegin : 0 < k := by
    by_contra hk0
    exact hfirst (hzero i0 (by omega) (by omega))
  have hright : len.getD (k + n) 0 ≠ 0 := fun hz => by
    have := (hlongest k (n + 1) (by omega) fun i hlo hhi => by
      by_cases hi : i = k + n
      · rwa [hi]
      · exact hzero i hlo (by omega)).1
    omega
  have hleft : len.getD (k - 1) 0 ≠ 0 := fun hz => by
    have := (hlongest (k - 1) (n + 1) (by omega) fun i hlo hhi => by
      by_cases hi : i = k - 1
      · rwa [hi]
      · exact hzero i (by omega) (by omega)).1
    omega
  refine ⟨hend, by dsimp only; omega, by dsimp only; omega, ?_, ?_, fun j hj hused => ?_⟩
  · rwa [wrapIndex_of_lt hend]
  · rw [wrapIndex_of_le (by dsimp only; omega)]
    dsimp only
    rwa [show k + len.length - 1 - len.length = k - 1 by omega]
  · by_cases hjk : j < k
    · exact ⟨j + len.length, by dsimp only; omega, by dsimp only; omega, by rw [wrapIndex_of_le (by omega)]; omega⟩
    · have hjn : k + n ≤ j := by
        by_contra hin
        exact hused (hzero j (by omega) (by omega))
      exact ⟨j, hjn, by dsimp only; omega, wrapIndex_of_lt hj⟩

theorem coversUsed_hufRange {len : List Nat} (h : 1 ≤ usedSymbols len) : CoversUsed len (hufRange len) := by
  obtain ⟨i0, i1, hused⟩ := exists_usedBetween h
  have hrun := firstLongestZeroRun_longestZeroRun len
  rw [hufRange_eq hused hrun]
  split
  · rename_i hshort; exact hrun.coversUsed hused hshort
  · exact hused.coversUsed

/-- Settles O45. -/
theorem hufRangeCoversTheCodes : Obligations.HufRangeCoversTheCodes := by
  refine ⟨fun len i0 i1 k n hlt hle hfirst hbefore hlast hafter hrun => ?_, fun len h => ?_⟩
  · exact hufRange_eq ⟨hlt, hle, hfirst, hbefore, hlast, hafter⟩ hrun
  · obtain ⟨hstart, hlt, hle, hfirst, hlast, hcovers⟩ := coversUsed_hufRange h
    exact ⟨hstart, hlt, hle, hfirst, hlast, hcovers⟩

end Sys2Proof.Machine
end

/-! ## The serialized code table -/

section
namespace Sys2Proof.Machine

/-! Signed numbers read through a cursor that are not negative (00_scope R12). -/

theorem leInt_four_natCast {bs : List Byte} (hlen : bs.length = 4) {n : Nat} :
    leInt 32 bs = (n : Int) ↔ n < 2147483648 ∧ bs = leBytes 4 n := by
  constructor
  · intro hn
    have hbytes : i32Bytes n = bs := by rw [i32Bytes_eq_signedBytes, ← hn]; exact signedBytes_leInt hlen
    have hmax := BitVec.toInt_lt (x := BitVec.ofNat 32 (leNat bs))
    rw [leInt] at hn
    rw [i32Bytes_natCast] at hbytes
    exact ⟨by omega, hbytes.symm⟩
  · rintro ⟨hn, rfl⟩
    rw [← i32Bytes_natCast, i32Bytes_eq_signedBytes]
    exact leInt_signedBytes (by norm_num; omega) (by norm_num; omega)

theorem rdSigned_four_eq_ok {rc rc' : Cursor} {n : Nat} :
    rdSigned 4 rc = .ok ((n : Int), rc') ↔ n < 2147483648 ∧ rc.Reads (leBytes 4 n) rc' := by
  rw [rdSigned_eq_ok]
  constructor
  · rintro ⟨bs, hleft, hlen, hused, hn⟩
    obtain ⟨hlt, rfl⟩ := (leInt_four_natCast hlen).mp hn
    exact ⟨hlt, hleft, by rw [hused, leBytes_length]⟩
  · rintro ⟨hlt, hleft, hused⟩
    exact ⟨_, hleft, leBytes_length 4 n, by rw [hused, leBytes_length], (leInt_four_natCast (leBytes_length 4 n)).mpr ⟨hlt, rfl⟩⟩

/-! The lengths of all symbols from those of a range (43_huffman R228). -/

/-- A range of indices around the end that a table of `size` symbols may be written with (30_encoding R104). -/
structure TableRange (size i0 i1 : Nat) : Prop where
  size_pos : 1 ≤ size
  size_le : size ≤ 32768
  start : i0 < size
  lt : i0 < i1
  le : i1 ≤ i0 + size

theorem getD_spreadLengths {size i0 i1 k : Nat} (lens : List Nat) (hk : k < size) :
    (spreadLengths size i0 i1 lens).getD k 0 =
      if i0 ≤ k ∧ k < i1 then lens.getD (k - i0) 0 else if k + size < i1 then lens.getD (k + size - i0) 0 else 0 := by
  simp [spreadLengths, List.getD_eq_getElem?_getD, hk]

theorem TableRange.wrapIndex_lt {size i0 i1 i : Nat} (h : TableRange size i0 i1) (hi : i < i1) : wrapIndex size i < size := by
  obtain ⟨-, -, hstart, -, hle⟩ := h
  unfold wrapIndex
  split <;> omega

theorem TableRange.getD_spreadLengths_wrapIndex {size i0 i1 i : Nat} (h : TableRange size i0 i1) (lens : List Nat) (hlo : i0 ≤ i)
    (hhi : i < i1) : (spreadLengths size i0 i1 lens).getD (wrapIndex size i) 0 = lens.getD (i - i0) 0 := by
  rw [getD_spreadLengths lens (h.wrapIndex_lt hhi)]
  obtain ⟨-, -, hstart, -, hle⟩ := h
  by_cases hi : i < size
  · rw [wrapIndex_of_lt hi, if_pos ⟨hlo, hhi⟩]
  · rw [wrapIndex_of_le (not_lt.mp hi), if_neg (by omega), if_pos (by omega), Nat.sub_add_cancel (not_lt.mp hi)]

theorem TableRange.getD_spreadLengths_outside {size i0 i1 k : Nat} (h : TableRange size i0 i1) (lens : List Nat) (hk : k < size)
    (hout : ∀ i, i0 ≤ i → i < i1 → wrapIndex size i ≠ k) : (spreadLengths size i0 i1 lens).getD k 0 = 0 := by
  obtain ⟨-, -, hstart, -, -⟩ := h
  have hplain : ¬ (i0 ≤ k ∧ k < i1) := fun ⟨hlo, hhi⟩ => hout k hlo hhi (wrapIndex_of_lt hk)
  have hwrapped : ¬ k + size < i1 := fun hhi =>
    hout (k + size) (by omega) hhi ((wrapIndex_of_le (Nat.le_add_left size k)).trans (Nat.add_sub_cancel k size))
  rw [getD_spreadLengths lens hk, if_neg hplain, if_neg hwrapped]

/-- The lengths of all symbols are those of the range and 0 outside it. -/
theorem TableRange.eq_spreadLengths_iff {i0 i1 : Nat} {len : List Nat} (h : TableRange len.length i0 i1) (lens : List Nat) :
    len = spreadLengths len.length i0 i1 lens ↔
      (∀ i, i0 ≤ i → i < i1 → len.getD (wrapIndex len.length i) 0 = lens.getD (i - i0) 0) ∧
      (∀ k, k < len.length → (∀ i, i0 ≤ i → i < i1 → wrapIndex len.length i ≠ k) → len.getD k 0 = 0) := by
  constructor
  · intro heq
    refine ⟨fun i hlo hhi => ?_, fun k hk hout => ?_⟩
    · exact (congrArg (·.getD (wrapIndex len.length i) 0) heq).trans (h.getD_spreadLengths_wrapIndex lens hlo hhi)
    · exact (congrArg (·.getD k 0) heq).trans (h.getD_spreadLengths_outside lens hk hout)
  · rintro ⟨hin, hout⟩
    refine List.ext_getElem (by simp) fun k hk hk' => ?_
    rw [← List.getD_eq_getElem _ 0 hk, ← List.getD_eq_getElem _ 0 hk']
    by_cases hmem : ∃ i, i0 ≤ i ∧ i < i1 ∧ wrapIndex len.length i = k
    · obtain ⟨i, hlo, hhi, rfl⟩ := hmem
      rw [hin i hlo hhi, h.getD_spreadLengths_wrapIndex lens hlo hhi]
    · have hnot : ∀ i, i0 ≤ i → i < i1 → wrapIndex len.length i ≠ k := fun i hlo hhi he => hmem ⟨i, hlo, hhi, he⟩
      rw [hout k hk hnot, h.getD_spreadLengths_outside lens hk hnot]

/-- No length of the table is above 32 exactly when none of the range is. -/
theorem TableRange.forall_le_iff {size i0 i1 : Nat} {lens : List Nat} (h : TableRange size i0 i1) (hlens : lens.length = i1 - i0) :
    (∀ l ∈ spreadLengths size i0 i1 lens, l ≤ 32) ↔ ∀ l ∈ lens, l ≤ 32 := by
  refine ⟨fun hall l hl => ?_, spreadLengths_le⟩
  obtain ⟨j, hj, rfl⟩ := List.mem_iff_getElem.mp hl
  have hwrap := h.wrapIndex_lt (i := i0 + j) (by omega)
  have hget := h.getD_spreadLengths_wrapIndex lens (i := i0 + j) (by omega) (by omega)
  rw [Nat.add_sub_cancel_left, List.getD_eq_getElem _ _ hj,
    List.getD_eq_getElem _ _ (by rw [spreadLengths_length]; exact hwrap)] at hget
  exact hget ▸ hall _ (List.getElem_mem _)

/-! The legal serialized tables (30_encoding R104, R105). -/

theorem complete_iff (len : List Nat) : complete len = true ↔
    1 ≤ maxLen len ∧ (len.map (fun l => if l = 0 then 0 else 2 ^ (maxLen len - l))).sum = 2 ^ maxLen len := by
  rw [complete, Bool.and_eq_true, decide_eq_true_eq, decide_eq_true_eq]
  rfl

/-- What a serialized table holds, by its fields. -/
theorem serializedTable_iff {bytes : List Byte} {len : List Nat} :
    SerializedTable bytes len ↔ ∃ (i0 i1 : Nat) (block : List Byte) (lens : List Nat),
      bytes = leBytes 4 len.length ++ leBytes 4 i0 ++ leBytes 4 i1 ++ block ∧ TableRange len.length i0 i1 ∧ BlockOf block lens ∧
        lens.length = i1 - i0 ∧ (∀ l ∈ lens, l ≤ 32) ∧ len = spreadLengths len.length i0 i1 lens ∧ complete len = true := by
  constructor
  · rintro ⟨i0, i1, block, lens, hbytes, h1, h2, hstart, hlt, hle, hblock, hlens, hin, hout, hmax, hc⟩
    have hr : TableRange len.length i0 i1 := ⟨h1, h2, hstart, hlt, hle⟩
    have heq := (hr.eq_spreadLengths_iff lens).mpr ⟨hin, hout⟩
    refine ⟨i0, i1, block, lens, hbytes, hr, hblock, hlens, ?_, heq, (complete_iff len).mpr hc⟩
    rw [heq] at hmax
    exact (hr.forall_le_iff hlens).mp hmax
  · rintro ⟨i0, i1, block, lens, hbytes, hr, hblock, hlens, hmax, heq, hc⟩
    obtain ⟨hin, hout⟩ := (hr.eq_spreadLengths_iff lens).mp heq
    obtain ⟨h1, h2, hstart, hlt, hle⟩ := id hr
    have hall := (hr.forall_le_iff hlens).mpr hmax
    rw [← heq] at hall
    exact ⟨i0, i1, block, lens, hbytes, h1, h2, hstart, hlt, hle, hblock, hlens, hin, hout, hall, (complete_iff len).mp hc⟩

/-! The table reader (43_huffman R228). -/

theorem readTable_eq_bind (src : List Byte) :
    readTable src =
      rdSigned 4 (Cursor.start src) >>= fun size => rdSigned 4 size.2 >>= fun i0 => rdSigned 4 i0.2 >>= fun i1 =>
        if size.1 < 1 ∨ (Config.hufMaxBins : Int) < size.1 then .error .failed
        else if i0.1 < 0 ∨ i1.1 ≤ i0.1 ∨ size.1 ≤ i0.1 ∨ size.1 < i1.1 - i0.1 then .error .failed
        else decodeBlock (i1.1 - i0.1).toNat i1.2 >>= fun lens =>
          if lens.1.length ≠ (i1.1 - i0.1).toNat then .error .failed
          else if lens.1.any (fun l => decide (Config.hufMaxLen < l)) then .error .failed
          else if !complete (spreadLengths size.1.toNat i0.1.toNat i1.1.toNat lens.1) then .error .failed
          else .ok (tableOf (spreadLengths size.1.toNat i0.1.toNat i1.1.toNat lens.1), lens.2.used) := by
  rw [readTable]
  cases rdSigned 4 (Cursor.start src) with
  | error e => rfl
  | ok size =>
    change (match rdSigned 4 size.2 with | .error e => _ | .ok (i0, rc2) => _) = rdSigned _ _ >>= _
    cases rdSigned 4 size.2 with
    | error e => rfl
    | ok i0 =>
      change (match rdSigned 4 i0.2 with | .error e => _ | .ok (i1, rc3) => _) = rdSigned _ _ >>= _
      cases rdSigned 4 i0.2 with
      | error e => rfl
      | ok i1 =>
        refine if_congr Iff.rfl rfl (if_congr Iff.rfl rfl ?_)
        cases decodeBlock (i1.1 - i0.1).toNat i1.2 <;> rfl

/-- A cursor can be taken past the first part of its source. -/
theorem Cursor.exists_start_reads (bytes tail : List Byte) :
    ∃ rc, (Cursor.start (bytes ++ tail)).Reads bytes rc ∧ rc.used = bytes.length :=
  ⟨⟨tail, bytes.length⟩, Cursor.start_reads_iff.mpr ⟨rfl, rfl⟩, rfl⟩

/-- The tests on the range pass exactly for numbers that make a range. -/
theorem tableRange_of_tests {size i0 i1 : Int} (hsize : ¬ (size < 1 ∨ (Config.hufMaxBins : Int) < size))
    (hrange : ¬ (i0 < 0 ∨ i1 ≤ i0 ∨ size ≤ i0 ∨ size < i1 - i0)) :
    ∃ n a b : Nat, size = n ∧ i0 = a ∧ i1 = b ∧ TableRange n a b := by
  simp only [Config.hufMaxBins] at hsize
  exact ⟨size.toNat, i0.toNat, i1.toNat, by omega, by omega, by omega, by omega, by omega, by omega, by omega, by omega⟩

theorem TableRange.tests {size i0 i1 : Nat} (h : TableRange size i0 i1) :
    ¬ ((size : Int) < 1 ∨ (Config.hufMaxBins : Int) < size) ∧
      ¬ ((i0 : Int) < 0 ∨ (i1 : Int) ≤ i0 ∨ (size : Int) ≤ i0 ∨ (size : Int) < i1 - i0) := by
  obtain ⟨hpos, hle, hstart, hlt, hcount⟩ := h
  simp only [Config.hufMaxBins]
  omega

/-- The reader accepts exactly the sources that begin with a legal serialized table, and reads past it. -/
theorem readTable_eq_ok {src : List Byte} {t : HufTable} {used : Nat} :
    readTable src = .ok (t, used) ↔ ∃ bytes tail len, src = bytes ++ tail ∧ SerializedTable bytes len ∧ t = tableOf len ∧
      used = bytes.length := by
  simp only [readTable_eq_bind, bind_eq_ok, failIf_eq_ok, Prod.exists, serializedTable_iff]
  constructor
  · rintro ⟨size, rc₁, hsize, i0, rc₂, hi0, i1, rc₃, hi1, hsizes, hrange, lens, rc₄, hblock, hlens, hmax, hcomplete, hok⟩
    obtain ⟨n, a, b, rfl, rfl, rfl, hr⟩ := tableRange_of_tests hsizes hrange
    obtain ⟨-, hsize⟩ := rdSigned_four_eq_ok.mp hsize
    obtain ⟨-, hi0⟩ := rdSigned_four_eq_ok.mp hi0
    obtain ⟨-, hi1⟩ := rdSigned_four_eq_ok.mp hi1
    obtain ⟨block, hreads, hblock, -⟩ := decodeBlock_eq_ok.mp hblock
    have hall := Cursor.reads_append_iff.mpr ⟨rc₃, Cursor.reads_append_iff.mpr ⟨rc₂,
      Cursor.reads_append_iff.mpr ⟨rc₁, hsize, hi0⟩, hi1⟩, hreads⟩
    obtain ⟨hsrc, hused⟩ := Cursor.start_reads_iff.mp hall
    simp only [Int.toNat_natCast, Except.ok.injEq, Prod.mk.injEq] at hcomplete hok
    obtain ⟨rfl, rfl⟩ := hok
    refine ⟨_, rc₄.left, spreadLengths n a b lens, hsrc,
      ⟨a, b, block, lens, ?_, ?_, hblock, by omega, ?_, ?_, by simpa using hcomplete⟩, rfl, hused⟩
    · rw [spreadLengths_length]
    · rwa [spreadLengths_length]
    · have hall : ∀ l ∈ lens, l ≤ Config.hufMaxLen := by simpa using hmax
      exact hall
    · rw [spreadLengths_length]
  · rintro ⟨bytes, tail, len, rfl, ⟨i0, i1, block, lens, rfl, hr, hblock, hlens, hmax, heq, hc⟩, rfl, rfl⟩
    obtain ⟨hsizes, hrange⟩ := hr.tests
    obtain ⟨-, hle, hstart, -, hcount⟩ := id hr
    obtain ⟨rc₄, hreads, hused⟩ := Cursor.exists_start_reads
      (leBytes 4 len.length ++ leBytes 4 i0 ++ leBytes 4 i1 ++ block) tail
    obtain ⟨rc₃, hreads, hbody⟩ := Cursor.reads_append_iff.mp hreads
    obtain ⟨rc₂, hreads, hi1⟩ := Cursor.reads_append_iff.mp hreads
    obtain ⟨rc₁, hsize, hi0⟩ := Cursor.reads_append_iff.mp hreads
    have hcast : ((i1 : Int) - i0).toNat = i1 - i0 := by omega
    refine ⟨len.length, rc₁, rdSigned_four_eq_ok.mpr ⟨by omega, hsize⟩, i0, rc₂, rdSigned_four_eq_ok.mpr ⟨by omega, hi0⟩,
      i1, rc₃, rdSigned_four_eq_ok.mpr ⟨by omega, hi1⟩, hsizes, hrange, lens, rc₄,
      decodeBlock_eq_ok.mpr ⟨block, hbody, hblock, by omega⟩, by omega, ?_, ?_, ?_⟩
    · have hall : ∀ l ∈ lens, l ≤ Config.hufMaxLen := hmax
      simpa using hall
    · rw [Int.toNat_natCast, Int.toNat_natCast, Int.toNat_natCast, ← heq, hc]
      simp
    · rw [Int.toNat_natCast, Int.toNat_natCast, Int.toNat_natCast, ← heq, hused]

theorem readTable_of_serializedTable {bytes tail : List Byte} {len : List Nat} (h : SerializedTable bytes len) :
    readTable (bytes ++ tail) = .ok (tableOf len, bytes.length) :=
  readTable_eq_ok.mpr ⟨bytes, tail, len, rfl, h, rfl, rfl⟩

theorem readTable_of_no_table {src : List Byte} (h : ¬ ∃ bytes tail len, src = bytes ++ tail ∧ SerializedTable bytes len) :
    readTable src = .error .failed := by
  cases hr : readTable src with
  | error e => rw [eq_failed_of_readTable hr]
  | ok p =>
    obtain ⟨bytes, tail, len, hsrc, htable, -⟩ := readTable_eq_ok.mp hr
    exact absurd ⟨bytes, tail, len, hsrc, htable⟩ h

/-- Nothing follows a serialized table inside a longer one. -/
theorem eq_nil_of_serializedTable_append {p q : List Byte} {us vs : List Nat} (hp : SerializedTable p us)
    (hpq : SerializedTable (p ++ q) vs) : q = [] := by
  have hlong := readTable_of_serializedTable (tail := []) hpq
  rw [List.append_nil] at hlong
  have hsame := Except.ok.inj ((readTable_of_serializedTable (tail := q) hp).symm.trans hlong)
  have hused : p.length = (p ++ q).length := congrArg Prod.snd hsame
  rw [List.length_append] at hused
  exact List.length_eq_zero_iff.mp (by omega)

theorem SerializedTable.legal {bytes : List Byte} {len : List Nat} (h : SerializedTable bytes len) : (tableOf len).legal :=
  readTable_legal (readTable_of_serializedTable (tail := []) h)

/-! The table that is written (43_huffman R226). -/

theorem HufTable.legal.eq_tableOf {t : HufTable} (h : t.legal) : t = tableOf t.len := by
  obtain ⟨hv, -, -, hlen, -, -, -, hcode⟩ := h
  rw [tableOf, hlen, ← hcode, ← hv]

theorem writtenLengths_length (t : HufTable) : (writtenLengths t).length = (hufRange t.len).2 - (hufRange t.len).1 := by
  simp [writtenLengths]

theorem getD_writtenLengths (t : HufTable) {j : Nat} (hj : j < (hufRange t.len).2 - (hufRange t.len).1) :
    (writtenLengths t).getD j 0 = t.len.getD (wrapIndex t.size ((hufRange t.len).1 + j)) 0 := by
  simp [writtenLengths, List.getD_eq_getElem?_getD, hj, HufTable.lenOf]

/-- What `HUF.WRTABLE` writes for a legal table is a serialized table of its lengths. -/
theorem serializedTable_hufTableBytes {t : HufTable} (h : t.legal) : SerializedTable (hufTableBytes t) t.len := by
  obtain ⟨-, hsize1, hsize2, hlen, hused, hmax, hc, -⟩ := id h
  obtain ⟨hstart, hlt, hle, -, -, hcovers⟩ := coversUsed_hufRange (len := t.len) (by omega)
  have hr : TableRange t.len.length (hufRange t.len).1 (hufRange t.len).2 := ⟨by omega, hlen ▸ hsize2, hstart, hlt, hle⟩
  have hsmall : ∀ l ∈ writtenLengths t, l ≤ 32 := fun l hl => by
    obtain ⟨j, -, rfl⟩ := List.mem_map.mp hl
    exact (getD_le_maxLen t.len _).trans hmax
  have hwritten := writtenLengths_length t
  refine serializedTable_iff.mpr ⟨_, _, simpleBlock (writtenLengths t), writtenLengths t, ?_, hr,
    blockOf_simpleBlock (by have := hr.size_le; omega) (fun v hv => by have := hsmall v hv; omega), hwritten, hsmall,
    (hr.eq_spreadLengths_iff _).mpr ⟨fun i hlo hhi => ?_, fun k hk hout => ?_⟩, hc⟩
  · rw [hufTableBytes_eq, hlen]
  · rw [getD_writtenLengths t (by omega), Nat.add_sub_cancel' hlo, hlen]
  · by_contra hne
    obtain ⟨i, hlo, hhi, hik⟩ := hcovers k hk hne
    exact hout i hlo hhi hik

end Sys2Proof.Machine
end

/-! ## The obligations of HUF.RDTABLE -/

section
namespace Sys2Proof.Machine

theorem exec_hufRdTable_of_ok {s : State} (hw : WindowsPass .hufRdTable s) {t : HufTable} {used : Nat}
    (h : readTable (s.mem.readBytes s.a0 s.a1) = .ok (t, used)) :
    exec .hufRdTable s = .next ((s.setTable t).finish .ok t.size used) := by
  change execHufRdTable s = _
  exact (perform_of_windowsOk _ _ hw).trans (by rw [h]; rfl)

theorem exec_hufRdTable_of_failed {s : State} (hw : WindowsPass .hufRdTable s)
    (h : readTable (s.mem.readBytes s.a0 s.a1) = .error .failed) :
    exec .hufRdTable s = .next (s.clearHuf.finish .failed 0 0) := by
  change execHufRdTable s = _
  exact (perform_of_windowsOk _ _ hw).trans (by rw [h]; rfl)

/-- Settles O48: the reader accepts exactly the legal serialized tables. -/
theorem hufRdTableOutcome : Obligations.HufRdTableOutcome := by
  refine fun s hw => ⟨fun bytes tail len t hsrc htable ht => ?_, fun hnone => ?_⟩
  · obtain rfl : t = tableOf len := ht
    have hread := readTable_of_serializedTable (tail := tail) htable
    have hlen := Memory.readBytes_length s.mem s.a0 s.a1
    rw [hsrc, List.length_append] at hlen
    rw [← hsrc] at hread
    exact ⟨htable.legal, by omega, exec_hufRdTable_of_ok hw hread⟩
  · exact exec_hufRdTable_of_failed hw (readTable_of_no_table hnone)

/-- Settles O47: the bytes written are a serialized table, and no proper prefix of them begins with one. -/
theorem tableRoundTrip : Obligations.TableRoundTrip := by
  refine fun s t tail h hw => ⟨fun hsrc => ?_, fun k hk hsrc => ?_⟩
  · have hread := readTable_of_serializedTable (tail := tail) (serializedTable_hufTableBytes h)
    rw [← hsrc, ← h.eq_tableOf] at hread
    exact exec_hufRdTable_of_ok hw hread
  · refine exec_hufRdTable_of_failed hw (readTable_of_no_table ?_)
    rintro ⟨p, q, us, hpq, hp⟩
    have hbytes : p ++ (q ++ (hufTableBytes t).drop k) = hufTableBytes t := by
      rw [← List.append_assoc, ← hpq, hsrc, List.take_append_drop]
    have hrest := eq_nil_of_serializedTable_append hp (hbytes.symm ▸ serializedTable_hufTableBytes h)
    have hdrop := List.drop_eq_nil_iff.mp (List.append_eq_nil_iff.mp hrest).2
    omega

end Sys2Proof.Machine
end

/-! ## Code lengths from a histogram -/

section
namespace Sys2Proof.Machine

/-! The order of nodes (43_huffman R222). -/

/-- Node `x` is the lesser one, by weight, then by key. -/
abbrev PoolNode.Less (x y : PoolNode) : Prop := x.weight < y.weight ∨ (x.weight = y.weight ∧ x.key < y.key)

theorem PoolNode.before_iff {x y : PoolNode} : x.before y = true ↔ x.Less y := by
  simp [PoolNode.before]

theorem PoolNode.Less.asymm {x y : PoolNode} (h : x.Less y) : ¬ y.Less x := by
  unfold PoolNode.Less at *
  omega

theorem PoolNode.Less.trans {x y z : PoolNode} (hxy : x.Less y) (hyz : y.Less z) : x.Less z := by
  unfold PoolNode.Less at *
  omega

theorem PoolNode.less_of_not_less {x y : PoolNode} (hkey : x.key ≠ y.key) (h : ¬ x.Less y) : y.Less x := by
  unfold PoolNode.Less at *
  omega

theorem poolInsert_sorted {x : PoolNode} {pool : List PoolNode} (hs : pool.Pairwise PoolNode.Less) (hx : ∀ y ∈ pool, x.key ≠ y.key) :
    (poolInsert x pool).Pairwise PoolNode.Less := by
  induction pool with
  | nil => exact List.pairwise_singleton _ _
  | cons y t ih =>
    obtain ⟨hy, ht⟩ := List.pairwise_cons.mp hs
    obtain ⟨hxy, hxt⟩ := List.forall_mem_cons.mp hx
    unfold poolInsert
    split
    · rename_i hlt
      rw [PoolNode.before_iff] at hlt
      exact List.pairwise_cons.mpr ⟨List.forall_mem_cons.mpr ⟨hlt, fun z hz => hlt.trans (hy z hz)⟩, hs⟩
    · rename_i hnot
      rw [PoolNode.before_iff] at hnot
      refine List.pairwise_cons.mpr ⟨fun z hz => ?_, ih ht hxt⟩
      obtain rfl | hz := List.mem_cons.mp ((poolInsert_perm x t).mem_iff.mp hz)
      · exact PoolNode.less_of_not_less hxy hnot
      · exact hy z hz

/-- The least node of a pool stands first in its sorted form. -/
theorem eq_cons_of_sorted_perm {s rest : List PoolNode} {x : PoolNode} (hs : s.Pairwise PoolNode.Less) (hp : s.Perm (x :: rest))
    (hx : ∀ z ∈ rest, x.Less z) : ∃ s', s = x :: s' ∧ s'.Perm rest := by
  cases s with
  | nil => exact absurd hp.symm (by simp)
  | cons a s' =>
    obtain ⟨ha, -⟩ := List.pairwise_cons.mp hs
    obtain rfl | harest := List.mem_cons.mp (hp.subset List.mem_cons_self)
    · exact ⟨s', rfl, hp.cons_inv⟩
    · obtain rfl | hxs := List.mem_cons.mp (hp.symm.subset List.mem_cons_self)
      · exact ⟨s', rfl, hp.cons_inv⟩
      · exact absurd (hx a harest) (ha x hxs).asymm

/-! The leaves (43_huffman R221). -/

theorem poolOf_cons (k w : Nat) (t : List Nat) :
    poolOf k (w :: t) =
      if w = 0 then poolOf (k + 1) t else poolInsert { weight := w, key := k, tree := .leaf k } (poolOf (k + 1) t) := rfl

theorem mem_poolOf {k : Nat} {hist : List Nat} {x : PoolNode} :
    x ∈ poolOf k hist ↔ ∃ i, i < hist.length ∧ hist.getD i 0 ≠ 0 ∧
      x = { weight := hist.getD i 0, key := k + i, tree := .leaf (k + i) } := by
  induction hist generalizing k with
  | nil => simp [poolOf]
  | cons w t ih =>
    have hmem : x ∈ poolOf k (w :: t) ↔
        (w ≠ 0 ∧ x = { weight := w, key := k, tree := .leaf k }) ∨ x ∈ poolOf (k + 1) t := by
      rw [poolOf_cons]
      split
      · rename_i hw; simp [hw]
      · rename_i hw; rw [(poolInsert_perm _ _).mem_iff, List.mem_cons]; simp [hw]
    rw [hmem, ih]
    constructor
    · rintro (⟨hw, rfl⟩ | ⟨i, hi, hne, rfl⟩)
      · exact ⟨0, by simp, by simpa using hw, rfl⟩
      · exact ⟨i + 1, by simpa using hi, by simpa using hne, by rw [List.getD_cons_succ, Nat.add_assoc, Nat.add_comm 1]⟩
    · rintro ⟨i, hi, hne, rfl⟩
      cases i with
      | zero => exact .inl ⟨by simpa using hne, rfl⟩
      | succ i =>
        exact .inr ⟨i, by simpa using hi, by simpa using hne, by rw [List.getD_cons_succ, Nat.add_assoc, Nat.add_comm 1]⟩

theorem poolOf_sorted (k : Nat) (hist : List Nat) : (poolOf k hist).Pairwise PoolNode.Less := by
  induction hist generalizing k with
  | nil => exact List.Pairwise.nil
  | cons w t ih =>
    rw [poolOf_cons]
    split
    · exact ih _
    · refine poolInsert_sorted (ih _) fun y hy => ?_
      obtain ⟨i, -, -, rfl⟩ := mem_poolOf.mp hy
      dsimp only
      omega

theorem poolOf_length (k : Nat) (hist : List Nat) : (poolOf k hist).length = usedSymbols hist := by
  induction hist generalizing k with
  | nil => rfl
  | cons w t ih =>
    rw [poolOf_cons, usedSymbols]
    split
    · rename_i hw
      rw [List.filter_cons_of_neg (by simp [hw]), ih]
      rfl
    · rename_i hw
      rw [List.filter_cons_of_pos (by simp [Nat.pos_of_ne_zero hw]), (poolInsert_perm _ _).length_eq, List.length_cons,
        List.length_cons, ih]
      rfl

/-- A sorted pool lists no node twice. -/
theorem nodup_of_sorted {pool : List PoolNode} (h : pool.Pairwise PoolNode.Less) : pool.Nodup :=
  h.imp fun hlt he => by
    subst he
    exact hlt.asymm hlt

theorem poolOf_perm_leafPool (hist : List Nat) : (poolOf 0 hist).Perm (leafPool hist) := by
  have hleaf : (leafPool hist).Nodup :=
    (List.nodup_range.filter _).map fun j k he => congrArg PoolNode.key he
  refine (List.perm_ext_iff_of_nodup (nodup_of_sorted (poolOf_sorted 0 hist)) hleaf).mpr fun x => ?_
  rw [mem_poolOf, leafPool, List.mem_map]
  simp only [List.mem_filter, List.mem_range, decide_eq_true_eq, Nat.zero_add, and_assoc]
  exact exists_congr fun i => and_congr_right fun _ => and_congr_right fun _ => eq_comm

/-! The merges (43_huffman R221). -/

theorem mergePool_singleton (fuel key : Nat) (x : PoolNode) : mergePool fuel key [x] = some x.tree := by
  cases fuel <;> rfl

/-- The construction on a pool in any order gives the tree of the merges of its sorted form. -/
theorem mergePool_of_merges {next : Nat} {pool : List PoolNode} {root : HTree} (h : Merges next pool root) {s : List PoolNode}
    (hp : s.Perm pool) (hs : s.Pairwise PoolNode.Less) (hkey : ∀ x ∈ s, x.key < next) {fuel : Nat} (hfuel : s.length ≤ fuel + 1) :
    mergePool fuel next s = some root := by
  induction h generalizing s fuel with
  | root next x =>
    obtain rfl := List.perm_singleton.mp hp
    exact mergePool_singleton fuel next x
  | merge next pool rest x y root split least second go ih =>
    obtain ⟨s₁, rfl, hp₁⟩ := eq_cons_of_sorted_perm hs (hp.trans split) least
    obtain ⟨hx, hs₁⟩ := List.pairwise_cons.mp hs
    obtain ⟨s₂, rfl, hp₂⟩ := eq_cons_of_sorted_perm hs₁ hp₁ second
    obtain ⟨-, hs₂⟩ := List.pairwise_cons.mp hs₁
    have hkey₂ : ∀ z ∈ s₂, z.key < next := fun z hz => hkey z (by simp [hz])
    cases fuel with
    | zero => simp at hfuel
    | succ fuel =>
      rw [mergePool]
      refine ih ((poolInsert_perm _ s₂).trans (hp₂.cons _)) (poolInsert_sorted hs₂ fun z hz => (hkey₂ z hz).ne') ?_ ?_
      · intro z hz
        obtain rfl | hz := List.mem_cons.mp ((poolInsert_perm _ s₂).mem_iff.mp hz)
        · exact Nat.lt_succ_self next
        · exact (hkey₂ z hz).trans (Nat.lt_succ_self next)
      · rw [(poolInsert_perm _ s₂).length_eq]
        simpa using hfuel

theorem Merges.of_perm {next : Nat} {p q : List PoolNode} {root : HTree} (h : Merges next p root) (hqp : q.Perm p) :
    Merges next q root := by
  cases h with
  | root _ x =>
    obtain rfl := List.perm_singleton.mp hqp
    exact .root next x
  | merge _ _ rest x y _ split least second go => exact .merge next q rest x y root (hqp.trans split) least second go

/-- A sorted pool that is not empty has its construction. -/
theorem exists_merges {n next : Nat} {s : List PoolNode} (hn : s.length = n + 1) (hs : s.Pairwise PoolNode.Less)
    (hkey : ∀ x ∈ s, x.key < next) : ∃ root, Merges next s root := by
  induction n generalizing s next with
  | zero =>
    obtain ⟨x, rfl⟩ := List.length_eq_one_iff.mp hn
    exact ⟨_, .root next x⟩
  | succ n ih =>
    obtain ⟨x, y, t, rfl⟩ : ∃ x y t, s = x :: y :: t := by
      match s, hn with
      | x :: y :: t, _ => exact ⟨x, y, t, rfl⟩
    obtain ⟨hx, hyt⟩ := List.pairwise_cons.mp hs
    obtain ⟨hy, ht⟩ := List.pairwise_cons.mp hyt
    have hkeyt : ∀ z ∈ t, z.key < next := fun z hz => hkey z (by simp [hz])
    have hperm := poolInsert_perm { weight := x.weight + y.weight, key := next, tree := .node x.tree y.tree } t
    obtain ⟨root, hroot⟩ := ih (next := next + 1) (hperm.length_eq.trans (by simpa using hn))
      (poolInsert_sorted ht fun z hz => (hkeyt z hz).ne') fun z hz => by
        obtain rfl | hz := List.mem_cons.mp (hperm.mem_iff.mp hz)
        · exact Nat.lt_succ_self next
        · exact (hkeyt z hz).trans (Nat.lt_succ_self next)
    exact ⟨root, .merge next _ t x y root (List.Perm.refl _) hx hy (hroot.of_perm hperm.symm)⟩

/-! Depths (43_huffman R221). -/

theorem mem_depths_iff {t : HTree} {k d e : Nat} : (k, e) ∈ t.depths d ↔ ∃ c, AtDepth t k c ∧ e = d + c := by
  induction t generalizing d with
  | leaf j =>
    rw [HTree.depths, List.mem_singleton, Prod.mk.injEq]
    constructor
    · rintro ⟨rfl, rfl⟩; exact ⟨0, .leaf k, rfl⟩
    · rintro ⟨c, h, rfl⟩; cases h; exact ⟨rfl, rfl⟩
  | node a b iha ihb =>
    rw [HTree.depths, List.mem_append, iha, ihb]
    constructor
    · rintro (⟨c, h, rfl⟩ | ⟨c, h, rfl⟩)
      · exact ⟨c + 1, .left a b k c h, by omega⟩
      · exact ⟨c + 1, .right a b k c h, by omega⟩
    · rintro ⟨c, h, rfl⟩
      cases h with
      | left _ _ _ c h => exact .inl ⟨c, h, by omega⟩
      | right _ _ _ c h => exact .inr ⟨c, h, by omega⟩

theorem mem_depths_zero_iff {t : HTree} {k d : Nat} : (k, d) ∈ t.depths 0 ↔ AtDepth t k d := by
  rw [mem_depths_iff]
  constructor
  · rintro ⟨c, h, rfl⟩; rwa [Nat.zero_add]
  · exact fun h => ⟨d, h, (Nat.zero_add d).symm⟩

/-- A leaf stands at most as deep as there are other leaves. -/
theorem depth_lt_symbols {t : HTree} {d : Nat} {p : Nat × Nat} (h : p ∈ t.depths d) : p.2 + 1 ≤ d + t.symbols.length := by
  induction t generalizing d with
  | leaf k =>
    obtain rfl := List.mem_singleton.mp h
    rfl
  | node a b iha ihb =>
    have ha := a.symbols_length_pos
    have hb := b.symbols_length_pos
    rw [HTree.symbols, List.length_append]
    obtain h | h := List.mem_append.mp h
    · have := iha h; omega
    · have := ihb h; omega

theorem mem_symbols_iff {t : HTree} {k : Nat} : k ∈ t.symbols ↔ ∃ d, AtDepth t k d := by
  rw [← t.map_fst_depths 0, List.mem_map]
  constructor
  · rintro ⟨p, hp, rfl⟩; exact ⟨p.2, mem_depths_zero_iff.mp hp⟩
  · rintro ⟨d, h⟩; exact ⟨(k, d), mem_depths_zero_iff.mpr h, rfl⟩

/-- The lengths of `n` symbols: the depths of their leaves, 0 without one. -/
def depthLengths (n : Nat) (root : HTree) : List Nat := (List.range n).map (fun k => assocD k (root.depths 0))

theorem getD_depthLengths {n k : Nat} (root : HTree) (hk : k < n) : (depthLengths n root).getD k 0 = assocD k (root.depths 0) := by
  simp [depthLengths, List.getD_eq_getElem?_getD, hk]

theorem assocD_depths_of_atDepth {root : HTree} (hn : root.symbols.Nodup) {k d : Nat} (h : AtDepth root k d) :
    assocD k (root.depths 0) = d :=
  assocD_of_mem (p := (k, d)) (by rwa [root.map_fst_depths]) (mem_depths_zero_iff.mpr h)

/-- The leaves of a tree are the bins in use, each once. -/
structure LeavesAreBins (hist : List Nat) (root : HTree) : Prop where
  nodup : root.symbols.Nodup
  mem_iff : ∀ k, k ∈ root.symbols ↔ k < hist.length ∧ hist.getD k 0 ≠ 0
  length_eq : root.symbols.length = usedSymbols hist

/-- Some lengths are the depths of the bins' leaves, 0 for a bin not in use. -/
def DepthsOf (hist : List Nat) (root : HTree) (len : List Nat) : Prop :=
  ∀ k, k < hist.length → (hist.getD k 0 = 0 → len.getD k 0 = 0) ∧ (hist.getD k 0 ≠ 0 → AtDepth root k (len.getD k 0))

theorem LeavesAreBins.depthsOf_depthLengths {hist : List Nat} {root : HTree} (h : LeavesAreBins hist root) :
    DepthsOf hist root (depthLengths hist.length root) := by
  intro k hk
  rw [getD_depthLengths root hk]
  refine ⟨fun h0 => assocD_of_not_mem ?_, fun h0 => ?_⟩
  · rw [root.map_fst_depths, h.mem_iff]
    exact fun hmem => hmem.2 h0
  · obtain ⟨d, hd⟩ := mem_symbols_iff.mp ((h.mem_iff k).mpr ⟨hk, h0⟩)
    rwa [assocD_depths_of_atDepth h.nodup hd]

theorem LeavesAreBins.eq_depthLengths {hist len : List Nat} {root : HTree} (h : LeavesAreBins hist root)
    (hlen : len.length = hist.length) (hd : DepthsOf hist root len) : len = depthLengths hist.length root := by
  refine List.ext_getElem (by simp [depthLengths, hlen]) fun k hk hk' => ?_
  have hkn : k < hist.length := hlen ▸ hk
  rw [← List.getD_eq_getElem _ 0 hk, ← List.getD_eq_getElem _ 0 hk', getD_depthLengths root hkn]
  obtain ⟨hzero, hdepth⟩ := hd k hkn
  by_cases h0 : hist.getD k 0 = 0
  · rw [hzero h0, assocD_of_not_mem]
    rw [root.map_fst_depths, h.mem_iff]
    exact fun hmem => hmem.2 h0
  · rw [assocD_depths_of_atDepth h.nodup (hdepth h0)]

/-- No leaf is deeper than 32 exactly when no length is above 32. -/
theorem LeavesAreBins.forall_le_iff {hist : List Nat} {root : HTree} (h : LeavesAreBins hist root) :
    (∀ p ∈ root.depths 0, p.2 ≤ 32) ↔ ∀ l ∈ depthLengths hist.length root, l ≤ 32 := by
  constructor
  · intro hall l hl
    obtain ⟨k, -, rfl⟩ := List.mem_map.mp hl
    obtain h0 | hmem := assocD_eq_zero_or_mem k (root.depths 0)
    · rw [h0]
      exact Nat.zero_le _
    · exact hall _ hmem
  · intro hall p hp
    have hkey : p.1 < hist.length := ((h.mem_iff p.1).mp (mem_symbols_iff.mpr ⟨p.2, mem_depths_zero_iff.mp hp⟩)).1
    refine hall p.2 (List.mem_map.mpr ⟨p.1, List.mem_range.mpr hkey, ?_⟩)
    exact assocD_depths_of_atDepth h.nodup (mem_depths_zero_iff.mp hp)

/-! The lengths (43_huffman R221). -/

theorem poolSymbols_eq_map_key (hist : List Nat) : poolSymbols (poolOf 0 hist) = (poolOf 0 hist).map PoolNode.key := by
  rw [poolSymbols, List.map_eq_flatMap]
  refine List.flatMap_congr fun x hx => ?_
  obtain ⟨i, -, -, rfl⟩ := mem_poolOf.mp hx
  rfl

theorem leavesAreBins_of_mergePool {hist : List Nat} {fuel key : Nat} {root : HTree}
    (h : mergePool fuel key (poolOf 0 hist) = some root) : LeavesAreBins hist root := by
  have hperm := mergePool_symbols h
  rw [poolSymbols_eq_map_key] at hperm
  refine ⟨hperm.nodup_iff.mpr ?_, fun k => ?_, ?_⟩
  · refine (nodup_of_sorted (poolOf_sorted 0 hist)).map_on fun x hx y hy hxy => ?_
    obtain ⟨i, -, -, rfl⟩ := mem_poolOf.mp hx
    obtain ⟨j, -, -, rfl⟩ := mem_poolOf.mp hy
    obtain rfl : i = j := by simpa using hxy
    rfl
  · rw [hperm.mem_iff, List.mem_map]
    constructor
    · rintro ⟨x, hx, rfl⟩
      obtain ⟨i, hi, h0, rfl⟩ := mem_poolOf.mp hx
      rw [Nat.zero_add]
      exact ⟨hi, h0⟩
    · rintro ⟨hk, h0⟩
      exact ⟨_, mem_poolOf.mpr ⟨k, hk, h0, rfl⟩, Nat.zero_add k⟩
  · rw [hperm.length_eq, List.length_map, poolOf_length]

theorem hufLengths_of_few {hist : List Nat} (h : usedSymbols hist < 2) : hufLengths hist = .error .failed :=
  if_pos ((poolOf_length 0 hist).trans_lt h)

theorem hufLengths_of_root {hist : List Nat} (h : 2 ≤ usedSymbols hist) {root : HTree}
    (hroot : mergePool (poolOf 0 hist).length hist.length (poolOf 0 hist) = some root) :
    hufLengths hist = if ∃ p ∈ root.depths 0, 32 < p.2 then .error .failed else .ok (depthLengths hist.length root) := by
  refine (if_neg (by rw [poolOf_length]; omega)).trans ?_
  rw [hroot]
  refine if_congr ?_ rfl rfl
  simp only [List.any_eq_true, decide_eq_true_eq]
  rfl

/-- The tree of a histogram with two bins in use or more: the construction gives it and no other, and its depths, if none is above
32, are the lengths. -/
theorem exists_root {hist : List Nat} (h : 2 ≤ usedSymbols hist) :
    ∃ root, Merges hist.length (leafPool hist) root ∧ (∀ other, Merges hist.length (leafPool hist) other → other = root) ∧
      LeavesAreBins hist root ∧
      ∀ len, hufLengths hist = .ok len ↔ (∀ p ∈ root.depths 0, p.2 ≤ 32) ∧ len = depthLengths hist.length root := by
  have hlen := poolOf_length 0 hist
  have hkey : ∀ x ∈ poolOf 0 hist, x.key < hist.length := fun x hx => by
    obtain ⟨i, hi, -, rfl⟩ := mem_poolOf.mp hx
    rwa [Nat.zero_add]
  obtain ⟨root, hroot⟩ := exists_merges (n := usedSymbols hist - 1) (by omega) (poolOf_sorted 0 hist) hkey
  have hmerge : ∀ other, Merges hist.length (leafPool hist) other →
      mergePool (poolOf 0 hist).length hist.length (poolOf 0 hist) = some other := fun other ho =>
    mergePool_of_merges ho (poolOf_perm_leafPool hist) (poolOf_sorted 0 hist) hkey (Nat.le_succ _)
  have hmerges := hroot.of_perm (poolOf_perm_leafPool hist).symm
  refine ⟨root, hmerges, fun other ho => Option.some.inj ((hmerge other ho).symm.trans (hmerge root hmerges)),
    leavesAreBins_of_mergePool (hmerge root hmerges), fun len => ?_⟩
  rw [hufLengths_of_root h (hmerge root hmerges), failIf_eq_ok, Except.ok.injEq, eq_comm]
  refine and_congr_left fun _ => ?_
  simp only [not_exists, not_and, not_lt]

/-- The lengths of a histogram are complete, and those of the bins in use lie between 1 and one less than their number. -/
theorem LeavesAreBins.lengths_bounds {hist : List Nat} {root : HTree} (h : LeavesAreBins hist root) (h2 : 2 ≤ usedSymbols hist) :
    complete (depthLengths hist.length root) = true ∧ ∀ k d, AtDepth root k d → 1 ≤ d ∧ d ≤ usedSymbols hist - 1 := by
  have hsymbols : 2 ≤ root.symbols.length := h.length_eq.symm ▸ h2
  refine ⟨complete_of_depths hsymbols h.nodup fun k hk => ((h.mem_iff k).mp hk).1, fun k d hd => ?_⟩
  have hmem := mem_depths_zero_iff.mpr hd
  have hpos := HTree.depths_pos hsymbols _ hmem
  have hlt := depth_lt_symbols hmem
  rw [h.length_eq] at hlt
  exact ⟨hpos, by omega⟩

/-- Settles O42: the sorted pool's merges are the construction, and the lengths the depths of its tree. -/
theorem hufLengthsAreComplete : Obligations.HufLengthsAreComplete := by
  refine ⟨fun hist => hufLengths_of_few, fun hist len h2 => ?_, fun hist => hufLengths_eq_failed, fun hist len hlen => ?_,
    fun hist h2 h33 => ?_⟩
  · obtain ⟨root, hmerges, hunique, hleaves, hok⟩ := exists_root h2
    rw [hok, hleaves.forall_le_iff]
    constructor
    · rintro ⟨hmax, rfl⟩
      exact ⟨by simp [depthLengths], hmax, root, hmerges, hleaves.depthsOf_depthLengths⟩
    · rintro ⟨hlen, hmax, other, hother, hdepths⟩
      obtain rfl := hunique other hother
      obtain rfl := hleaves.eq_depthLengths hlen hdepths
      exact ⟨hmax, rfl⟩
  · have h2 : 2 ≤ usedSymbols hist := by
      by_contra hfew
      rw [hufLengths_of_few (not_le.mp hfew)] at hlen
      cases hlen
    obtain ⟨root, -, -, hleaves, hok⟩ := exists_root h2
    obtain ⟨hmax, rfl⟩ := (hok len).mp hlen
    obtain ⟨hcomplete, hbounds⟩ := hleaves.lengths_bounds h2
    refine ⟨by simp [depthLengths], hcomplete, maxLen_le_iff.mpr (hleaves.forall_le_iff.mp hmax), fun k hk => ?_⟩
    obtain ⟨hzero, hdepth⟩ := hleaves.depthsOf_depthLengths k hk
    exact ⟨hzero, fun h0 => hbounds k _ (hdepth h0)⟩
  · obtain ⟨root, -, -, hleaves, hok⟩ := exists_root h2
    refine ⟨_, (hok _).mpr ⟨fun p hp => ?_, rfl⟩⟩
    have := ((hleaves.lengths_bounds h2).2 p.1 p.2 (mem_depths_zero_iff.mp hp)).2
    omega

end Sys2Proof.Machine
end
